-- ==== Sys2Proof/Word.lean ====
section
/-! DEFINITION. The word types of the model (spec 00_scope.md rules R6 to R8, 10_state.md rules R20, R24, R26).

Bit 0 is the least significant bit everywhere (R6). Only what the spec treats as bits is a bit vector: register
contents, addresses while they are computed, encoded fields, memory bytes. -/

namespace Sys2Proof

/-- One 8-bit byte of memory or of the instruction stream (R40, R60). -/
abbrev Byte := BitVec 8

/-- A 32-bit doubleword (R8). -/
abbrev Dword := BitVec 32

/-- A 64-bit quadword (R8): also a general register, an address, a control register. -/
abbrev Qword := BitVec 64

/-- A source operand of at most 256 bits, right justified: the widest source of the sixteen forms (R43). -/
abbrev SrcVec := BitVec 256

/-- A full vector register at the widest `MAX_VL`, 512 bits (R5, R20). -/
abbrev Vec := BitVec 512

end Sys2Proof
end

