-- ==== Sys2Proof/Machine/Convert.lean ====
section
/-! DEFINITION. Floating-point formats, rounding and the four conversion functions (spec 45_fp_formats_and_rounding.md,
40_cvtdq2pd.md R100, 41_cvtdq2ps.md R120, 42_cvtpd2dq.md R130, 44_cvtpd2ps.md R150).

All arithmetic is exact, on natural numbers. The magnitude of a finite binary64 datum is counted in units of 2^-1074,
the smallest positive binary64 value, so every finite magnitude is a natural number. -/

namespace Sys2Proof.Machine

/-! ## Flag sets: bit i of the set is bit i of MXCSR (R23) -/

/-- A set of SIMD floating-point flags, as MXCSR[5:0] holds it (R23). -/
abbrev SimdFlags := BitVec 6

/-- Invalid operation. -/
def SimdFlags.ie : SimdFlags := 0b000001#6
/-- Denormal operand. -/
def SimdFlags.de : SimdFlags := 0b000010#6
/-- Divide by zero: set by no instruction in scope (R163). -/
def SimdFlags.ze : SimdFlags := 0b000100#6
/-- Overflow. -/
def SimdFlags.oe : SimdFlags := 0b001000#6
/-- Underflow. -/
def SimdFlags.ue : SimdFlags := 0b010000#6
/-- Precision (inexact). -/
def SimdFlags.pe : SimdFlags := 0b100000#6

/-- The result of one element's conversion: the value delivered when every condition is masked, the flags detected, and
whether the result is tiny (R168: with UM = 0 a tiny result is an underflow even when exact). -/
structure Conv (w : Nat) where
  val : BitVec w
  flags : SimdFlags
  tiny : Bool
deriving DecidableEq, Repr

/-! ## Rounding (R162) -/

/-- The rounding control MXCSR.RC (R23, R162). -/
inductive Rc where
  | nearest | down | up | zero
deriving DecidableEq, Repr

/-- RC from its two bits (R23). -/
def Rc.ofBits (b : BitVec 2) : Rc :=
  if b = 0 then .nearest else if b = 1 then .down else if b = 2 then .up else .zero

/-- The magnitude of `num/den` rounded to an integer under `rc`, for a value of sign `neg` (R162): `lo` is the neighbour
of smaller magnitude, `lo + 1` the other. -/
def roundDiv (rc : Rc) (neg : Bool) (num den : Nat) : Nat :=
  let lo := num / den
  let rem := num % den
  if rem = 0 then lo
  else
    match rc with
    | .nearest => if 2 * rem < den then lo else if den < 2 * rem then lo + 1 else if lo % 2 = 0 then lo else lo + 1
    | .down => if neg then lo + 1 else lo
    | .up => if neg then lo else lo + 1
    | .zero => lo

/-- `RoundSig(x, rc, 24)` on a positive magnitude in any fixed unit (R162): the quantum is 2^(E-23) with
`E = floor(log2)`; below 24 significant bits the magnitude is its own rounding. -/
def roundSig24 (rc : Rc) (neg : Bool) (mag : Nat) : Nat :=
  let e := Nat.log2 mag
  if e ≤ 23 then mag else roundDiv rc neg mag (2 ^ (e - 23)) * 2 ^ (e - 23)

/-! ## binary64 (R161) -/

/-- The sign bit. -/
def f64Sign (v : Qword) : Bool := v.getLsbD 63

/-- The biased exponent. -/
def f64Exp (v : Qword) : Nat := (v.extractLsb' 52 11).toNat

/-- The fraction. -/
def f64Frac (v : Qword) : Nat := (v.extractLsb' 0 52).toNat

/-- The magnitude of a finite datum in units of 2^-1074: `f` for e = 0, else `(2^52 + f) * 2^(e-1)`. -/
def f64Mag (v : Qword) : Nat :=
  if f64Exp v = 0 then f64Frac v else (2 ^ 52 + f64Frac v) * 2 ^ (f64Exp v - 1)

/-- NaN: e = 2047 and f other than 0. -/
def f64IsNan (v : Qword) : Bool := f64Exp v == 2047 && f64Frac v != 0

/-- Signalling NaN: a NaN with bit 51 clear. -/
def f64IsSnan (v : Qword) : Bool := f64IsNan v && !v.getLsbD 51

/-- Infinity: e = 2047 and f = 0. -/
def f64IsInf (v : Qword) : Bool := f64Exp v == 2047 && f64Frac v == 0

/-- Zero of either sign. -/
def f64IsZero (v : Qword) : Bool := f64Exp v == 0 && f64Frac v == 0

/-- Denormal: e = 0 and f other than 0. -/
def f64IsDenormal (v : Qword) : Bool := f64Exp v == 0 && f64Frac v != 0

/-- The number of units of 2^-1074 in 1. -/
def f64One : Nat := 2 ^ 1074

/-- A binary64 datum from its fields. -/
def f64Make (neg : Bool) (e f : Nat) : Qword := BitVec.ofBool neg ++ BitVec.ofNat 11 e ++ BitVec.ofNat 52 f

/-! ## binary32 (R160) -/

/-- A binary32 datum from its fields. -/
def f32Make (neg : Bool) (e f : Nat) : Dword := BitVec.ofBool neg ++ BitVec.ofNat 8 e ++ BitVec.ofNat 23 f

/-- A binary32 datum from its sign and its low 31 bits. -/
def f32Bits (neg : Bool) (low : BitVec 31) : Dword := BitVec.ofBool neg ++ low

/-- The binary32 encoding of a normal magnitude of at most 24 significant bits, in units of 2^-unit. -/
def f32Normal (neg : Bool) (unit mag : Nat) : Dword :=
  let e := Nat.log2 mag
  f32Make neg (e + 127 - unit) ((if e ≤ 23 then mag * 2 ^ (23 - e) else mag / 2 ^ (e - 23)) - 2 ^ 23)

/-! ## The conversions -/

/-- `CvtI32ToF64` (R100): exact, no flag (R101). -/
def cvtI32ToF64 (v : Dword) : Qword :=
  let n := v.toInt
  if n = 0 then 0
  else
    let m := n.natAbs
    let p := Nat.log2 m
    f64Make (decide (n < 0)) (1023 + p) ((m - 2 ^ p) * 2 ^ (52 - p))

/-- `CvtI32ToF32` (R120). -/
def cvtI32ToF32 (v : Dword) (rc : Rc) : Conv 32 :=
  let n := v.toInt
  if n = 0 then ⟨0, 0, false⟩
  else
    let neg := decide (n < 0)
    let r := roundSig24 rc neg n.natAbs
    ⟨f32Normal neg 0 r, if r = n.natAbs then 0 else SimdFlags.pe, false⟩

/-- The indefinite integer value (R130, R164). -/
def indefinite : Dword := 0x80000000

/-- `CvtF64ToI32` (R130, R140). -/
def cvtF64ToI32 (v : Qword) (rc : Rc) (daz : Bool) : Conv 32 :=
  if f64IsNan v || f64IsInf v then ⟨indefinite, SimdFlags.ie, false⟩
  else if f64IsZero v || (f64IsDenormal v && daz) then ⟨0, 0, false⟩
  else
    let neg := f64Sign v
    let r := roundDiv rc neg (f64Mag v) f64One
    let n : Int := if neg then -(r : Int) else r
    if n > 2147483647 ∨ n < -2147483648 then ⟨indefinite, SimdFlags.ie, false⟩
    else ⟨BitVec.ofInt 32 n, if r * f64One = f64Mag v then 0 else SimdFlags.pe, false⟩

/-- The masked overflow result (R168): infinity, or the largest finite magnitude. -/
def f32Overflow (rc : Rc) (neg : Bool) : Dword :=
  match rc with
  | .nearest => f32Bits neg 0x7F800000#31
  | .zero => f32Bits neg 0x7F7FFFFF#31
  | .down => f32Bits neg (if neg then 0x7F800000#31 else 0x7F7FFFFF#31)
  | .up => f32Bits neg (if neg then 0x7F7FFFFF#31 else 0x7F800000#31)

/-- A NaN narrowed (R164): sign kept, quiet bit forced, the next 22 fraction bits. -/
def f32OfNan (v : Qword) : Dword :=
  BitVec.ofBool (f64Sign v) ++ 0xFF#8 ++ 1#1 ++ v.extractLsb' 29 22

/-- The finite nonzero case of `CvtF64ToF32` (R150, R168): sign, magnitude in units of 2^-1074, flags so far. 2^128 is
2^1202 units, 2^-126 is 2^948 units, 2^-149 is 2^925 units. With `fz` a tiny result has UE and PE even when the magnitude
is exactly a binary32 denormal. -/
def narrowFinite (rc : Rc) (fz neg : Bool) (mag : Nat) (f : SimdFlags) : Conv 32 :=
  let r := roundSig24 rc neg mag
  if 2 ^ 1202 ≤ r then ⟨f32Overflow rc neg, f ||| SimdFlags.oe ||| SimdFlags.pe, false⟩
  else if r < 2 ^ 948 then
    if fz then ⟨f32Bits neg 0, f ||| SimdFlags.ue ||| SimdFlags.pe, true⟩
    else
      let d := roundDiv rc neg mag (2 ^ 925)
      ⟨f32Bits neg (BitVec.ofNat 31 d),
        if d * 2 ^ 925 = mag then f else f ||| SimdFlags.ue ||| SimdFlags.pe, true⟩
  else ⟨f32Normal neg 1074 r, if r = mag then f else f ||| SimdFlags.pe, false⟩

/-- `CvtF64ToF32` (R150, R164, R167, R168). -/
def cvtF64ToF32 (v : Qword) (rc : Rc) (fz daz : Bool) : Conv 32 :=
  let neg := f64Sign v
  if f64IsNan v then ⟨f32OfNan v, if f64IsSnan v then SimdFlags.ie else 0, false⟩
  else if f64IsInf v then ⟨f32Bits neg 0x7F800000#31, 0, false⟩
  else if f64IsZero v then ⟨f32Bits neg 0, 0, false⟩
  else if f64IsDenormal v && daz then ⟨f32Bits neg 0, 0, false⟩
  else narrowFinite rc fz neg (f64Mag v) (if f64IsDenormal v then SimdFlags.de else 0)

/-- One element of CVTPD2PS under the masks OM and UM (R150, R168). Rule R168 gives the flush of FZ, and PE with every
overflow, as masked responses: with UM = 0 FZ does not act, and with OM = 0 an overflow has PE only when the value rounded
to 24 bits differs from the source's (R162, R163). An unmasked element's value is never delivered (R166). R150's pseudocode
takes no masks (DEDUCED, unsafe; log entry 40). -/
def narrowElement (v : Qword) (rc : Rc) (fz daz om um : Bool) : Conv 32 :=
  let c := cvtF64ToF32 v rc (fz && um) daz
  if !om && c.flags.getLsbD 3 && roundSig24 rc (f64Sign v) (f64Mag v) == f64Mag v then
    { c with flags := c.flags &&& ~~~ SimdFlags.pe }
  else c

end Sys2Proof.Machine
end

