-- ==== Sys2Proof/Config.lean ====
section
/-! DEFINITION. The implementation parameters (spec 00_scope.md rule R5, 92_eei_decisions.md, 93_implementation_defined.md)
and the free values.

Every parameter of rule R5 that is not a piece of state is a field of `Config`, which stands in the machine's state and
is constant over a run; a claim about every state is therefore a claim about every configuration. What the spec leaves
open at one occurrence (an order, a flag image) is an `opaque` constant with no body, applied to a counter of the state. -/

namespace Sys2Proof

/-- The operating modes the spec names. `mode64` and `mode32` are the two admitted ones (R5, R12, D2); the other four
are named by R4 and D2 and refused, after the #UD causes that rule R181 gives them. -/
inductive Mode where
  | mode64
  | mode32
  | realAddress
  | virtual8086
  | protected16
  | systemManagement
deriving DecidableEq, Repr

/-- The treatment of EVEX.b = 1 with a register source (R5 `evex_b_reg`, R76, D14, U2). -/
inductive EvexBReg where
  | refuse
  | vlFromLL
  | vl512
deriving DecidableEq, Repr

/-- The width `KW` of an opmask register (R5): 16 with AVX512F alone, 64 with AVX512BW. -/
inductive OpmaskWidth where
  | w16
  | w64
deriving DecidableEq, Repr

/-- The MXCSR flag image left by an unmasked SIMD floating-point exception: the preferred value of rule R166, or any
value between the old flags and the old flags OR all detected flags (U8). -/
inductive XmImage where
  | rule166
  | anyWithin
deriving DecidableEq, Repr

/-- The configuration of one processor and one run (R5). -/
structure Config where
  /-- CPUID.01H:EDX[26] (R30). -/
  sse2 : Bool
  /-- CPUID.01H:ECX[28] (R30). -/
  avx : Bool
  /-- CPUID.(07H,0):EBX[16] (R30). -/
  avx512f : Bool
  /-- CPUID.(07H,0):EBX[31] (R30). -/
  avx512vl : Bool
  /-- `KW` (R5, R22). -/
  opmaskWidth : OpmaskWidth
  /-- `LinAddrBits`: significant bits of a Mode64 linear address (R5, R40). -/
  linAddrBits : Nat
  /-- `PhysAddrBits`: no physical address reaches 2 to this power (R5; log entry 26). -/
  physAddrBits : Nat
  /-- `evex_b_reg` (R5, D14). -/
  evexBReg : EvexBReg
  /-- `allow_addr16` (R5, U14). -/
  allowAddr16 : Bool
  /-- `lenient_prefixes` (R5, U1). -/
  lenientPrefixes : Bool
  /-- `ac_on_wide_vectors` (R5, U7). -/
  acOnWideVectors : Bool
  /-- Which of U8's values a faulting instruction leaves in MXCSR. -/
  xmImage : XmImage
deriving DecidableEq, Repr

/-- The values rule R5 recommends. `opmaskWidth`, `physAddrBits` and `xmImage` have no value in R5: log
entries 5, 26 and 10. -/
def Config.recommended : Config where
  sse2 := true
  avx := true
  avx512f := true
  avx512vl := true
  opmaskWidth := .w16
  linAddrBits := 48
  physAddrBits := 52
  evexBReg := .refuse
  allowAddr16 := false
  lenientPrefixes := false
  acOnWideVectors := false
  xmImage := .rule166

/-- `MAX_VL`, the width of a full vector register: 512 iff AVX512F, else 256 iff AVX, else 128 (R5, D3). -/
def Config.maxVl (c : Config) : Nat :=
  if c.avx512f then 512 else if c.avx then 256 else 128

/-- `KW` in bits. -/
def OpmaskWidth.bits : OpmaskWidth → Nat
  | .w16 => 16
  | .w64 => 64

/-- FREE VALUE (U7, log entry 9): when one access meets both an alignment-check and a page-fault condition, whether
#AC is the one reported. Applied to the state's counter `free`. -/
opaque Config.acBeforePf : Nat → Bool

/-- FREE VALUE (U8, log entry 10): under `XmImage.anyWithin`, which of the detected flags reach MXCSR. Applied to the
state's counter `free`. -/
opaque Config.xmFlagChoice : Nat → BitVec 6

end Sys2Proof
end

