-- ==== Sys2Proof/Syntax.lean ====
section
/-! DEFINITION. The instructions: one constructor of `Instr` for each of the 24 rows of spec/opcode_table.json (a VEX
form has two rows, one per prefix length). A constructor carries the variable fields of the row's encoding under the
spec's names (30_encoding.md rules R60 to R78): what the instruction's length, registers and address are made from. The
fields are the REAL values: a bit the encoding stores inverted stands here complemented (R69, R70, R72). -/

namespace Sys2Proof

/-- The segment registers (R31), named by the override bytes of rule R61. -/
inductive SegReg where
  | es | cs | ss | ds | fs | gs
deriving DecidableEq, Repr

/-- A prefix byte that stands before the adjacent REX byte, the 0FH escape, or the VEX or EVEX prefix (R61). `rex` is a
REX byte that is not directly followed by 0FH (R62; admitted only under `lenient_prefixes`). -/
inductive Pre where
  | seg (r : SegReg)
  | opSize
  | addrSize
  | lock
  | repne
  | rep
  | rex (bits : BitVec 4)
deriving DecidableEq, Repr

/-- The mandatory prefix of a LEGACY form, and the `pp` field of VEX and EVEX (R61, R69). -/
inductive Pp where
  | none | p66 | pF3 | pF2
deriving DecidableEq, Repr

/-- A displacement with 32- or 64-bit address size (R66): absent (mod 00), 8 bits (mod 01), 32 bits (mod 10). -/
inductive Disp where
  | none
  | d8 (d : BitVec 8)
  | d32 (d : BitVec 32)
deriving DecidableEq, Repr

/-- A displacement with 16-bit address size (R67). -/
inductive Disp16 where
  | none
  | d8 (d : BitVec 8)
  | d16 (d : BitVec 16)
deriving DecidableEq, Repr

/-- The addressing forms of a memory operand (R65 to R68). -/
inductive AddrForm where
  /-- r/m other than 100: `x[B:r/m]` plus the displacement. -/
  | base (rm : BitVec 3) (d : Disp)
  /-- mod 00, r/m 101: disp32 alone in 32-bit modes, RIP-relative in Mode64 (R66, R68). -/
  | disp32 (d : BitVec 32)
  /-- r/m 100: SIB with a base register (R65). -/
  | sib (scale : BitVec 2) (index base : BitVec 3) (d : Disp)
  /-- mod 00, r/m 100, SIB.base 101: scaled index plus disp32, no base register (R65). -/
  | sibNoBase (scale : BitVec 2) (index : BitVec 3) (d : BitVec 32)
  /-- 16-bit address size (R67); mod 00 with r/m 110 is `a16Disp`. -/
  | a16 (rm : BitVec 3) (d : Disp16)
  /-- 16-bit address size, mod 00, r/m 110: disp16 alone (R67). -/
  | a16Disp (d : BitVec 16)
deriving DecidableEq, Repr

/-- Operand 2 (R64): the register numbered by r/m (mod = 11b) or a memory operand. -/
inductive Rm where
  | reg (rm : BitVec 3)
  | mem (a : AddrForm)
deriving DecidableEq, Repr

/-- The variable fields of a LEGACY form (R60 to R64): the prefix bytes in the order they stand, the mandatory one
among them; the REX byte `WRXB` directly before 0FH; ModRM.reg; operand 2. -/
structure LegacyOp where
  pre : List Pre
  rex : Option (BitVec 4)
  reg : BitVec 3
  rm : Rm
deriving DecidableEq, Repr

/-- The variable fields of a three-byte VEX form (R69); `r`, `x`, `b` are the complemented stored bits. -/
structure Vex3Op where
  pre : List Pre
  r : Bool
  x : Bool
  b : Bool
  w : Bool
  reg : BitVec 3
  rm : Rm
deriving DecidableEq, Repr

/-- The variable fields of a two-byte VEX form (R70); `r` is the complemented stored bit. -/
structure Vex2Op where
  pre : List Pre
  r : Bool
  reg : BitVec 3
  rm : Rm
deriving DecidableEq, Repr

/-- The variable fields of an EVEX form (R72): `r` = Rb3, `r4` = Rb4, `x`, `b` complemented; `z`; `ll` = L'L as stored;
`bc` = EVEX.b; `aaa`. `ll` is the row's vector length, or 11b in the one case of log entry 18. -/
structure EvexOp where
  pre : List Pre
  r : Bool
  x : Bool
  b : Bool
  r4 : Bool
  z : Bool
  ll : BitVec 2
  bc : Bool
  aaa : BitVec 3
  reg : BitVec 3
  rm : Rm
deriving DecidableEq, Repr

/-- One constructor per row of spec/opcode_table.json, in the table's order (30_encoding.md rules R81, R86). -/
inductive Instr where
  | cvtdq2pd (p : LegacyOp)
  | vcvtdq2pd128Vex3 (p : Vex3Op)
  | vcvtdq2pd128Vex2 (p : Vex2Op)
  | vcvtdq2pd256Vex3 (p : Vex3Op)
  | vcvtdq2pd256Vex2 (p : Vex2Op)
  | vcvtdq2pd128Evex (p : EvexOp)
  | vcvtdq2pd256Evex (p : EvexOp)
  | vcvtdq2pd512Evex (p : EvexOp)
  | cvtdq2ps (p : LegacyOp)
  | vcvtdq2ps128Vex3 (p : Vex3Op)
  | vcvtdq2ps128Vex2 (p : Vex2Op)
  | vcvtdq2ps256Vex3 (p : Vex3Op)
  | vcvtdq2ps256Vex2 (p : Vex2Op)
  | cvtpd2dq (p : LegacyOp)
  | vcvtpd2dq128Vex3 (p : Vex3Op)
  | vcvtpd2dq128Vex2 (p : Vex2Op)
  | vcvtpd2dq256Vex3 (p : Vex3Op)
  | vcvtpd2dq256Vex2 (p : Vex2Op)
  | cvtpd2pi (p : LegacyOp)
  | cvtpd2ps (p : LegacyOp)
  | vcvtpd2ps128Vex3 (p : Vex3Op)
  | vcvtpd2ps128Vex2 (p : Vex2Op)
  | vcvtpd2ps256Vex3 (p : Vex3Op)
  | vcvtpd2ps256Vex2 (p : Vex2Op)
deriving DecidableEq, Repr

/-- The address size of an instruction (R84). -/
inductive AddrSize where
  | a16 | a32 | a64
deriving DecidableEq, Repr

end Sys2Proof
end

