-- ==== Sys2Proof/Decode.lean ====
section
/-! DEFINITION. From bytes to instructions and back (spec 30_encoding.md).

`decode` is total on any list of bytes: it answers an instruction, #UD, "longer than 15 bytes", a refusal by name, or
"more bytes are needed". `encode` after it writes the bytes of an instruction from the same layouts. -/

namespace Sys2Proof

/-! ## What decoding depends on -/

/-- What the decoder reads of the machine: the mode, and the two leniency switches of rule R5. -/
structure DecodeCtx where
  mode : Mode
  lenientPrefixes : Bool
  allowAddr16 : Bool
deriving DecidableEq, Repr

/-- Whether a VEX or EVEX form meets a mode it is not recognised in: #UD (R71, R73, R181). -/
def noVex : Mode → Bool
  | .realAddress => true
  | .virtual8086 => true
  | _ => false

/-- Why a byte sequence is refused: no meaning in the admitted subset (R12, R82). All are safe: the model stops. -/
inductive Reject where
  /-- Another opcode, or another mandatory prefix or `pp` with an opcode of this spec (R4, R82). -/
  | otherInstruction
  /-- VEX map 0F38 or 0F3A, EVEX map other than 01b (R82); every other VEX map is #UD (R69; log entry 38). -/
  | otherMap
  /-- Outside Mode64, C4/C5/62 whose next byte has bits 7:6 other than 11b: LES, LDS, BOUND (R84). -/
  | notVexInThisMode
  /-- EVEX.W = 1 with F3.0F E6 (U4). -/
  | evexW1
  /-- An EVEX extension bit not in its Mode64-only neutral value, in Mode32 (U5) and in the two refused modes that
  know EVEX (log entry 15). -/
  | evexBitsOutsideMode64
  /-- Three-byte VEX with stored vvvv = 0111b, in Mode32 (U3) and in the two refused modes that know VEX (log entry
  15). -/
  | vexVvvvOutsideMode64
  /-- Redundant or reordered prefixes, or REX.W = 1, without `lenient_prefixes` (R61, U1). -/
  | redundantPrefixes
  /-- A memory operand with 16-bit addressing in Mode32, without `allow_addr16` or on an EVEX form (R67, U14). -/
  | addr16
deriving DecidableEq, Repr

/-- What `decode` answers. -/
inductive Decoded where
  | instr (i : Instr)
  /-- The bytes raise #UD whatever the machine's state (R61, R71, R73). -/
  | ud
  /-- Longer than 15 bytes: #GP(0) (R60). -/
  | tooLong
  | refused (r : Reject)
  /-- The bytes end before the instruction does. -/
  | truncated
deriving DecidableEq, Repr

/-! ## Prefix bytes -/

/-- The legacy prefix a byte is, if it is one (R61, R84 step 1). -/
def Pre.ofByte (b : Byte) : Option Pre :=
  if b = 0x2E then some (.seg .cs) else if b = 0x36 then some (.seg .ss)
  else if b = 0x3E then some (.seg .ds) else if b = 0x26 then some (.seg .es)
  else if b = 0x64 then some (.seg .fs) else if b = 0x65 then some (.seg .gs)
  else if b = 0x66 then some .opSize else if b = 0x67 then some .addrSize
  else if b = 0xF0 then some .lock else if b = 0xF2 then some .repne
  else if b = 0xF3 then some .rep else none

/-- Whether a byte is a REX byte in Mode64: 40H to 4FH (R62). -/
def isRexByte (b : Byte) : Bool := b.extractLsb' 4 4 == 0x4#4

/-- Steps (1) and (2) of rule R84: the prefix bytes, the REX byte that stands directly before 0FH, and what follows. -/
def parsePrefixes (mode64 : Bool) : List Byte → List Pre × Option (BitVec 4) × List Byte
  | [] => ([], none, [])
  | b :: bs =>
    match Pre.ofByte b with
    | some p => let t := parsePrefixes mode64 bs; (p :: t.1, t.2)
    | none =>
      if mode64 && isRexByte b then
        if bs.head? = some 0x0F then ([], some (b.extractLsb' 0 4), bs)
        else let t := parsePrefixes mode64 bs; (.rex (b.extractLsb' 0 4) :: t.1, t.2)
      else ([], none, b :: bs)

/-- Whether a prefix is a segment override. -/
def Pre.isSeg : Pre → Bool
  | .seg _ => true
  | _ => false

/-- The mandatory prefix a LEGACY form's prefix bytes amount to: the last F2 or F3 wins over any 66 (R61). -/
def mandatory (pre : List Pre) : Pp :=
  match pre.reverse.find? (fun p => p == .rep || p == .repne) with
  | some .rep => .pF3
  | some _ => .pF2
  | none => if .opSize ∈ pre then .p66 else .none

/-- The prefixes the admitted subset allows beside a mandatory one: at most one segment override and at most one 67H
(R60, R61, U1). -/
def strictOptional (pre : List Pre) : Bool :=
  pre.all (fun p => p.isSeg || p == .addrSize) && pre.countP Pre.isSeg ≤ 1 && pre.count .addrSize ≤ 1

/-- The prefix byte a `pp` value stands for. -/
def Pp.byte? : Pp → Option Pre
  | .none => Option.none
  | .p66 => some .opSize
  | .pF3 => some .rep
  | .pF2 => some .repne

/-- The admitted prefixes of a LEGACY form: its mandatory prefix once, directly before REX or 0FH, after the optional
ones; REX.W = 0 (R61, U1). -/
def strictLegacy (pp : Pp) (pre : List Pre) (rex : Option (BitVec 4)) : Bool :=
  (match pp.byte? with
   | none => strictOptional pre
   | some m => pre.getLast? == some m && strictOptional pre.dropLast)
  && (rex.getD 0).getLsbD 3 == false

/-- A prefix that raises #UD before a VEX or EVEX prefix: 66, F2, F3, F0 or REX (R61, R71, R73). -/
def Pre.badBeforeVex : Pre → Bool
  | .seg _ => false
  | .addrSize => false
  | _ => true

/-- The address size (R84): 64 or, with 67H, 32 bits in Mode64; 32 or 16 bits in Mode32. The modes with a 16-bit default
are log entry 15. -/
def addrSize (m : Mode) (pre : List Pre) : AddrSize :=
  match m, decide (.addrSize ∈ pre) with
  | .mode64, false => .a64
  | .mode64, true => .a32
  | .mode32, false => .a32
  | .mode32, true => .a16
  | _, false => .a16
  | _, true => .a32

/-! ## ModRM, SIB, displacement -/

/-- The value of two bytes, least significant first (R41). -/
def le16 (b0 b1 : Byte) : BitVec 16 := b1 ++ b0

/-- The value of four bytes, least significant first (R41). -/
def le32 (b0 b1 b2 b3 : Byte) : BitVec 32 := b3 ++ b2 ++ b1 ++ b0

/-- A displacement selected by `mod` (01b or 10b; other values carry none) with 32- or 64-bit address size (R66). -/
def parseDisp (md : BitVec 2) (bs : List Byte) : Option Disp :=
  if md = 1 then
    match bs with
    | d :: _ => some (.d8 d)
    | _ => none
  else if md = 2 then
    match bs with
    | b0 :: b1 :: b2 :: b3 :: _ => some (.d32 (le32 b0 b1 b2 b3))
    | _ => none
  else some .none

/-- Operand 2 when a SIB byte follows ModRM (R65). -/
def parseSib (md : BitVec 2) (bs : List Byte) : Option AddrForm :=
  match bs with
  | [] => none
  | s :: bs =>
    let scale := s.extractLsb' 6 2
    let index := s.extractLsb' 3 3
    let base := s.extractLsb' 0 3
    if base = 5 ∧ md = 0 then
      match bs with
      | b0 :: b1 :: b2 :: b3 :: _ => some (.sibNoBase scale index (le32 b0 b1 b2 b3))
      | _ => none
    else (parseDisp md bs).map (.sib scale index base)

/-- A memory operand with 32- or 64-bit address size (R66). -/
def parseMem32 (md : BitVec 2) (rm : BitVec 3) (bs : List Byte) : Option AddrForm :=
  if rm = 4 then parseSib md bs
  else if rm = 5 ∧ md = 0 then
    match bs with
    | b0 :: b1 :: b2 :: b3 :: _ => some (.disp32 (le32 b0 b1 b2 b3))
    | _ => none
  else (parseDisp md bs).map (.base rm)

/-- A memory operand with 16-bit address size (R67). -/
def parseMem16 (md : BitVec 2) (rm : BitVec 3) (bs : List Byte) : Option AddrForm :=
  if md = 0 then
    if rm = 6 then
      match bs with
      | b0 :: b1 :: _ => some (.a16Disp (le16 b0 b1))
      | _ => none
    else some (.a16 rm .none)
  else if md = 1 then
    match bs with
    | d :: _ => some (.a16 rm (.d8 d))
    | _ => none
  else
    match bs with
    | b0 :: b1 :: _ => some (.a16 rm (.d16 (le16 b0 b1)))
    | _ => none

/-- ModRM and what it calls for (R64 to R67): ModRM.reg and operand 2; `none` when the bytes end first. -/
def parseModRM (asz : AddrSize) (bs : List Byte) : Option (BitVec 3 × Rm) :=
  match bs with
  | [] => none
  | m :: bs =>
    let md := m.extractLsb' 6 2
    let reg := m.extractLsb' 3 3
    let rm := m.extractLsb' 0 3
    if md = 3 then some (reg, .reg rm)
    else
      match asz with
      | .a16 => (parseMem16 md rm bs).map (fun a => (reg, .mem a))
      | _ => (parseMem32 md rm bs).map (fun a => (reg, .mem a))

/-- Whether operand 2 is a memory operand of 16-bit addressing. -/
def Rm.isMem16 : Rm → Bool
  | .mem (.a16 _ _) => true
  | .mem (.a16Disp _) => true
  | _ => false

/-- Whether operand 2 is a register. -/
def Rm.isReg : Rm → Bool
  | .reg _ => true
  | .mem _ => false

/-- Mode32 refuses 16-bit addressing without `allow_addr16` (U14; log entry 17). -/
def addr16Refused (c : DecodeCtx) (rm : Rm) : Bool :=
  c.mode == .mode32 && rm.isMem16 && !c.allowAddr16

/-! ## The opcode map (R81) -/

/-- The LEGACY rows. -/
def legacyRow (pp : Pp) (opc : Byte) : Option (LegacyOp → Instr) :=
  if opc = 0xE6 then
    match pp with
    | .pF3 => some .cvtdq2pd
    | .pF2 => some .cvtpd2dq
    | _ => none
  else if opc = 0x5B then
    match pp with
    | .none => some .cvtdq2ps
    | _ => none
  else if opc = 0x2D then
    match pp with
    | .p66 => some .cvtpd2pi
    | _ => none
  else if opc = 0x5A then
    match pp with
    | .p66 => some .cvtpd2ps
    | _ => none
  else none

/-- The three-byte VEX rows; `l` is VEX.L. -/
def vex3Row (pp : Pp) (l : Bool) (opc : Byte) : Option (Vex3Op → Instr) :=
  if opc = 0xE6 then
    match pp, l with
    | .pF3, false => some .vcvtdq2pd128Vex3
    | .pF3, true => some .vcvtdq2pd256Vex3
    | .pF2, false => some .vcvtpd2dq128Vex3
    | .pF2, true => some .vcvtpd2dq256Vex3
    | _, _ => none
  else if opc = 0x5B then
    match pp, l with
    | .none, false => some .vcvtdq2ps128Vex3
    | .none, true => some .vcvtdq2ps256Vex3
    | _, _ => none
  else if opc = 0x5A then
    match pp, l with
    | .p66, false => some .vcvtpd2ps128Vex3
    | .p66, true => some .vcvtpd2ps256Vex3
    | _, _ => none
  else none

/-- The two-byte VEX rows. -/
def vex2Row (pp : Pp) (l : Bool) (opc : Byte) : Option (Vex2Op → Instr) :=
  if opc = 0xE6 then
    match pp, l with
    | .pF3, false => some .vcvtdq2pd128Vex2
    | .pF3, true => some .vcvtdq2pd256Vex2
    | .pF2, false => some .vcvtpd2dq128Vex2
    | .pF2, true => some .vcvtpd2dq256Vex2
    | _, _ => none
  else if opc = 0x5B then
    match pp, l with
    | .none, false => some .vcvtdq2ps128Vex2
    | .none, true => some .vcvtdq2ps256Vex2
    | _, _ => none
  else if opc = 0x5A then
    match pp, l with
    | .p66, false => some .vcvtpd2ps128Vex2
    | .p66, true => some .vcvtpd2ps256Vex2
    | _, _ => none
  else none

/-- The EVEX rows by L'L (R77); 11b stands for the case of log entry 18. -/
def evexRow (ll : BitVec 2) : EvexOp → Instr :=
  if ll = 0 then .vcvtdq2pd128Evex else if ll = 1 then .vcvtdq2pd256Evex else .vcvtdq2pd512Evex

/-- The `pp` field (R69, R72). -/
def Pp.ofField (f : BitVec 2) : Pp :=
  if f = 0 then .none else if f = 1 then .p66 else if f = 2 then .pF3 else .pF2

/-! ## The decoder -/

/-- The LEGACY layout, from the opcode byte on (R60, R61). -/
def decodeLegacy (c : DecodeCtx) (pre : List Pre) (rex : Option (BitVec 4)) (bs : List Byte) : Decoded :=
  match bs with
  | [] => .truncated
  | opc :: bs =>
    match legacyRow (mandatory pre) opc with
    | none => .refused .otherInstruction
    | some row =>
      match parseModRM (addrSize c.mode pre) bs with
      | none => .truncated
      | some (reg, rm) =>
        if .lock ∈ pre then .ud
        else if !c.lenientPrefixes && !strictLegacy (mandatory pre) pre rex then .refused .redundantPrefixes
        else if addr16Refused c rm then .refused .addr16
        else .instr (row ⟨pre, rex, reg, rm⟩)

/-- What the VEX and EVEX layouts ask of the prefixes before them and of their fixed fields (`fieldsOk`), and the
instruction if all hold (R61, R71, R73). #UD comes before the refusals U1 and U14 (`a16`: the form's 16-bit addressing is
refused): DEDUCED, log entry 21. -/
def finishVex (c : DecodeCtx) (pre : List Pre) (fieldsOk a16 : Bool) (i : Instr) : Decoded :=
  if pre.any Pre.badBeforeVex then .ud
  else if !fieldsOk then .ud
  else if !c.lenientPrefixes && !strictOptional pre then .refused .redundantPrefixes
  else if a16 then .refused .addr16
  else .instr i

/-- Whether the extension fields of VEX and EVEX are subject to the refusals U3 and U5: outside Mode64, in a mode that
knows VEX. The spec says it of Mode32; of the other two such modes it is the model's choice (log entry 15). -/
def extensionRefused (m : Mode) : Bool := m != .mode64 && !noVex m

/-- What a VEX opcode map other than 00001b is, `modrm` being what stands after the opcode byte: 0F38 and 0F3A hold other
instructions (R82); a map rule R69 does not list raises #UD (R69; DEDUCED, log entry 38), once the sequence, whose length
rule R84 takes from its ModRM, is known to end within 15 bytes (R60, R189; log entry 20). -/
def otherVexMap (mmmmm : BitVec 5) (modrm : Option (BitVec 3 × Rm)) : Decoded :=
  if mmmmm = 2 ∨ mmmmm = 3 then .refused .otherMap
  else
    match modrm with
    | none => .truncated
    | some _ => .ud

/-- The three-byte VEX layout, from the byte after C4H on (R69, R71, U3; the order of several causes is log entry 21). -/
def decodeVex3 (c : DecodeCtx) (pre : List Pre) (bs : List Byte) : Decoded :=
  match bs with
  | [] => .truncated
  | p0 :: bs =>
    if c.mode ≠ .mode64 ∧ p0.extractLsb' 6 2 ≠ 3 then .refused .notVexInThisMode
    else
      match bs with
      | p1 :: opc :: bs =>
        if p0.extractLsb' 0 5 ≠ 1 then
          otherVexMap (p0.extractLsb' 0 5) (parseModRM (addrSize c.mode pre) bs)
        else
          match vex3Row (.ofField (p1.extractLsb' 0 2)) (p1.getLsbD 2) opc with
          | none => .refused .otherInstruction
          | some row =>
            match parseModRM (addrSize c.mode pre) bs with
            | none => .truncated
            | some (reg, rm) =>
              if extensionRefused c.mode ∧ p1.extractLsb' 3 4 = 7 then .refused .vexVvvvOutsideMode64
              else
                finishVex c pre (p1.extractLsb' 3 4 == 15) (addr16Refused c rm)
                  (row ⟨pre, !p0.getLsbD 7, !p0.getLsbD 6, !p0.getLsbD 5, p1.getLsbD 7, reg, rm⟩)
      | _ => .truncated

/-- The two-byte VEX layout, from the byte after C5H on (R70, R71). -/
def decodeVex2 (c : DecodeCtx) (pre : List Pre) (bs : List Byte) : Decoded :=
  match bs with
  | [] => .truncated
  | p0 :: bs =>
    if c.mode ≠ .mode64 ∧ p0.extractLsb' 6 2 ≠ 3 then .refused .notVexInThisMode
    else
      match bs with
      | opc :: bs =>
        match vex2Row (.ofField (p0.extractLsb' 0 2)) (p0.getLsbD 2) opc with
        | none => .refused .otherInstruction
        | some row =>
          match parseModRM (addrSize c.mode pre) bs with
          | none => .truncated
          | some (reg, rm) =>
            finishVex c pre (p0.extractLsb' 3 4 == 15) (addr16Refused c rm) (row ⟨pre, !p0.getLsbD 7, reg, rm⟩)
      | _ => .truncated

/-- The EVEX payload bits that raise #UD when set otherwise (R73): vvvv = 1111b, stored V' = 1, P0[3:2] = 00b,
P1[2] = 1, no zeroing without a mask, no reserved vector length (a register source with b = 1 is log entry 18). -/
def evexBitsOk (p0 p1 p2 : Byte) (rm : Rm) : Bool :=
  p1.extractLsb' 3 4 == 15 && p2.getLsbD 3 && p0.extractLsb' 2 2 == 0 && p1.getLsbD 2
  && !(p2.getLsbD 7 && p2.extractLsb' 0 3 == 0)
  && !(p2.extractLsb' 5 2 == 3 && !(p2.getLsbD 4 && rm.isReg))

/-- EVEX forms with 16-bit addressing are refused in Mode32 whatever `allow_addr16` says (U14, D2). -/
def evexAddr16Refused (c : DecodeCtx) (rm : Rm) : Bool := c.mode == .mode32 && rm.isMem16

/-- The EVEX layout, from the byte after 62H on (R72 to R78). Which comes first of several causes is the model's choice
(DEDUCED, log entry 21): the refusal U5, then #UD (a bad prefix, then the fixed fields), then the refusals U1 and U14. -/
def decodeEvex (c : DecodeCtx) (pre : List Pre) (bs : List Byte) : Decoded :=
  match bs with
  | [] => .truncated
  | p0 :: bs =>
    if c.mode ≠ .mode64 ∧ p0.extractLsb' 6 2 ≠ 3 then .refused .notVexInThisMode
    else
      match bs with
      | p1 :: p2 :: opc :: bs =>
        if p0.extractLsb' 0 2 ≠ 1 then .refused .otherMap
        else if opc ≠ 0xE6 ∨ p1.extractLsb' 0 2 ≠ 2 then .refused .otherInstruction
        else if p1.getLsbD 7 then .refused .evexW1
        else
          match parseModRM (addrSize c.mode pre) bs with
          | none => .truncated
          | some (reg, rm) =>
            if extensionRefused c.mode ∧ (p0.extractLsb' 4 2 ≠ 3 ∨ !p2.getLsbD 3) then
              .refused .evexBitsOutsideMode64
            else
              finishVex c pre (evexBitsOk p0 p1 p2 rm) (evexAddr16Refused c rm)
                (evexRow (p2.extractLsb' 5 2)
                  ⟨pre, !p0.getLsbD 7, !p0.getLsbD 6, !p0.getLsbD 5, !p0.getLsbD 4, p2.getLsbD 7,
                   p2.extractLsb' 5 2, p2.getLsbD 4, p2.extractLsb' 0 3, reg, rm⟩)
      | _ => .truncated

/-- Step (3) of rule R84: the layout is chosen by the first byte after the prefixes. -/
def decodeBody (c : DecodeCtx) (bytes : List Byte) : Decoded :=
  let t := parsePrefixes (c.mode == .mode64) bytes
  match t.2.2 with
  | [] => .truncated
  | b :: bs =>
    if b = 0x0F then decodeLegacy c t.1 t.2.1 bs
    else if b = 0xC5 then decodeVex2 c t.1 bs
    else if b = 0xC4 then decodeVex3 c t.1 bs
    else if b = 0x62 then decodeEvex c t.1 bs
    else .refused .otherInstruction

/-- The decoder: the instruction that starts at the first byte. An instruction that does not end within 15 bytes is too
long (R60). -/
def decode (c : DecodeCtx) (bytes : List Byte) : Decoded :=
  match decodeBody c (bytes.take 15) with
  | .truncated => if 15 ≤ bytes.length then .tooLong else .truncated
  | d => d

/-! ## The encoder -/

/-- The byte of a segment override (R61). -/
def SegReg.overrideByte : SegReg → Byte
  | .cs => 0x2E
  | .ss => 0x36
  | .ds => 0x3E
  | .es => 0x26
  | .fs => 0x64
  | .gs => 0x65

/-- A REX byte (R62). -/
def rexByte (bits : BitVec 4) : Byte := 0x4#4 ++ bits

/-- The byte of a prefix (R61, R62). -/
def Pre.byte : Pre → Byte
  | .seg r => r.overrideByte
  | .opSize => 0x66
  | .addrSize => 0x67
  | .lock => 0xF0
  | .repne => 0xF2
  | .rep => 0xF3
  | .rex b => rexByte b

/-- A 16-bit field, least significant byte first (R41). -/
def bytes16 (d : BitVec 16) : List Byte := [d.extractLsb' 0 8, d.extractLsb' 8 8]

/-- A 32-bit field, least significant byte first (R41). -/
def bytes32 (d : BitVec 32) : List Byte :=
  [d.extractLsb' 0 8, d.extractLsb' 8 8, d.extractLsb' 16 8, d.extractLsb' 24 8]

/-- The ModRM byte (R64). -/
def modRM (md : BitVec 2) (reg rm : BitVec 3) : Byte := md ++ reg ++ rm

/-- The SIB byte (R65). -/
def sibByte (scale : BitVec 2) (index base : BitVec 3) : Byte := scale ++ index ++ base

/-- `mod` of a displacement (R66). -/
def Disp.md : Disp → BitVec 2
  | .none => 0
  | .d8 _ => 1
  | .d32 _ => 2

/-- The displacement's bytes. -/
def Disp.bytes : Disp → List Byte
  | .none => []
  | .d8 d => [d]
  | .d32 d => bytes32 d

/-- `mod` of a displacement with 16-bit addressing (R67). -/
def Disp16.md : Disp16 → BitVec 2
  | .none => 0
  | .d8 _ => 1
  | .d16 _ => 2

/-- The displacement's bytes with 16-bit addressing. -/
def Disp16.bytes : Disp16 → List Byte
  | .none => []
  | .d8 d => [d]
  | .d16 d => bytes16 d

/-- ModRM, SIB and displacement (R64 to R67). -/
def encodeModRM (reg : BitVec 3) : Rm → List Byte
  | .reg rm => [modRM 3 reg rm]
  | .mem (.base rm d) => modRM d.md reg rm :: d.bytes
  | .mem (.disp32 d) => modRM 0 reg 5 :: bytes32 d
  | .mem (.sib scale index base d) => modRM d.md reg 4 :: sibByte scale index base :: d.bytes
  | .mem (.sibNoBase scale index d) => modRM 0 reg 4 :: sibByte scale index 5 :: bytes32 d
  | .mem (.a16 rm d) => modRM d.md reg rm :: d.bytes
  | .mem (.a16Disp d) => modRM 0 reg 6 :: bytes16 d

/-- The `pp` field of a mandatory prefix (R69). -/
def Pp.field : Pp → BitVec 2
  | .none => 0
  | .p66 => 1
  | .pF3 => 2
  | .pF2 => 3

/-- The LEGACY layout (R60). -/
def encodeLegacy (opc : Byte) (p : LegacyOp) : List Byte :=
  p.pre.map Pre.byte ++ (p.rex.map rexByte).toList ++ 0x0F :: opc :: encodeModRM p.reg p.rm

/-- The three-byte VEX layout (R69); vvvv is stored as 1111b (R71). -/
def encodeVex3 (pp : Pp) (l : Bool) (opc : Byte) (p : Vex3Op) : List Byte :=
  p.pre.map Pre.byte
    ++ 0xC4 :: (BitVec.ofBool (!p.r) ++ BitVec.ofBool (!p.x) ++ BitVec.ofBool (!p.b) ++ 0b00001#5)
    :: (BitVec.ofBool p.w ++ 0b1111#4 ++ BitVec.ofBool l ++ pp.field)
    :: opc :: encodeModRM p.reg p.rm

/-- The two-byte VEX layout (R70). -/
def encodeVex2 (pp : Pp) (l : Bool) (opc : Byte) (p : Vex2Op) : List Byte :=
  p.pre.map Pre.byte
    ++ 0xC5 :: (BitVec.ofBool (!p.r) ++ 0b1111#4 ++ BitVec.ofBool l ++ pp.field)
    :: opc :: encodeModRM p.reg p.rm

/-- The EVEX layout of VCVTDQ2PD (R72): mm = 01b, W = 0, vvvv = 1111b, pp = 10b, stored V' = 1. -/
def encodeEvex (p : EvexOp) : List Byte :=
  p.pre.map Pre.byte
    ++ 0x62
    :: (BitVec.ofBool (!p.r) ++ BitVec.ofBool (!p.x) ++ BitVec.ofBool (!p.b) ++ BitVec.ofBool (!p.r4) ++ 0b0001#4)
    :: 0b01111110#8
    :: (BitVec.ofBool p.z ++ p.ll ++ BitVec.ofBool p.bc ++ 0b1#1 ++ p.aaa)
    :: 0xE6 :: encodeModRM p.reg p.rm

/-- The encoder: the bytes of an instruction, lowest address first (R81). -/
def encode : Instr → List Byte
  | .cvtdq2pd p => encodeLegacy 0xE6 p
  | .vcvtdq2pd128Vex3 p => encodeVex3 .pF3 false 0xE6 p
  | .vcvtdq2pd128Vex2 p => encodeVex2 .pF3 false 0xE6 p
  | .vcvtdq2pd256Vex3 p => encodeVex3 .pF3 true 0xE6 p
  | .vcvtdq2pd256Vex2 p => encodeVex2 .pF3 true 0xE6 p
  | .vcvtdq2pd128Evex p => encodeEvex p
  | .vcvtdq2pd256Evex p => encodeEvex p
  | .vcvtdq2pd512Evex p => encodeEvex p
  | .cvtdq2ps p => encodeLegacy 0x5B p
  | .vcvtdq2ps128Vex3 p => encodeVex3 .none false 0x5B p
  | .vcvtdq2ps128Vex2 p => encodeVex2 .none false 0x5B p
  | .vcvtdq2ps256Vex3 p => encodeVex3 .none true 0x5B p
  | .vcvtdq2ps256Vex2 p => encodeVex2 .none true 0x5B p
  | .cvtpd2dq p => encodeLegacy 0xE6 p
  | .vcvtpd2dq128Vex3 p => encodeVex3 .pF2 false 0xE6 p
  | .vcvtpd2dq128Vex2 p => encodeVex2 .pF2 false 0xE6 p
  | .vcvtpd2dq256Vex3 p => encodeVex3 .pF2 true 0xE6 p
  | .vcvtpd2dq256Vex2 p => encodeVex2 .pF2 true 0xE6 p
  | .cvtpd2pi p => encodeLegacy 0x2D p
  | .cvtpd2ps p => encodeLegacy 0x5A p
  | .vcvtpd2ps128Vex3 p => encodeVex3 .p66 false 0x5A p
  | .vcvtpd2ps128Vex2 p => encodeVex2 .p66 false 0x5A p
  | .vcvtpd2ps256Vex3 p => encodeVex3 .p66 true 0x5A p
  | .vcvtpd2ps256Vex2 p => encodeVex2 .p66 true 0x5A p

/-- `len`, the encoded length in bytes (R27), of each layout's operands. -/
def LegacyOp.len (p : LegacyOp) : Nat := (encodeLegacy 0 p).length

/-- `len` of a three-byte VEX form. -/
def Vex3Op.len (p : Vex3Op) : Nat := (encodeVex3 .none false 0 p).length

/-- `len` of a two-byte VEX form. -/
def Vex2Op.len (p : Vex2Op) : Nat := (encodeVex2 .none false 0 p).length

/-- `len` of an EVEX form. -/
def EvexOp.len (p : EvexOp) : Nat := (encodeEvex p).length

/-! ## The host's reading of a table row -/

/-- The first `n` bytes of an instruction whose bits are `w`, bit 0 the least significant bit of the first byte. -/
def wordBytes : Nat → Nat → List Byte
  | 0, _ => []
  | n + 1, w => BitVec.ofNat 8 w :: wordBytes n (w / 256)

/-- The instruction's bytes as the fetch sees them: the `nbits` given, then zeros up to 15 bytes (R60). -/
def tableBytes (nbits w : Nat) : List Byte := wordBytes 15 (w % 2 ^ nbits)

/-- The instruction this decoder reads from a table row's bits, in Mode64 under the recommended configuration (the
rows' extension bits exist in Mode64 only; log entry 27). -/
def decodeTableWord (nbits w : Nat) : Option Instr :=
  match decode ⟨.mode64, false, false⟩ (tableBytes nbits w) with
  | .instr i => some i
  | _ => none

end Sys2Proof
end

