-- ==== Sys2Proof/Machine/State.lean ====
section
/-! DEFINITION. The architectural state (spec 10_state.md), the exceptions, the ways a step can stop, and the state
after RESET. State is plain data. -/

namespace Sys2Proof.Machine

/-- One segment register with its hidden part (R31): `readable` is false for an execute-only segment (R45). -/
structure Segment where
  selector : BitVec 16
  base : BitVec 64
  limit : BitVec 32
  readable : Bool
  writable : Bool
deriving DecidableEq, Repr

/-- The six segment registers (R31). The current privilege level is the low two bits of the CS selector (R29). -/
structure Segments where
  es : Segment
  cs : Segment
  ss : Segment
  ds : Segment
  fs : Segment
  gs : Segment
deriving DecidableEq, Repr

/-- The x87 state that CVTPD2PI touches or reads (R24, R25, R33, R142, R143). `phys i` is the 80-bit data register with
physical index i; its low 64 bits are `MM[i]`. -/
structure X87 where
  status : BitVec 16
  control : BitVec 16
  tag : BitVec 16
  phys : Vector (BitVec 80) 8
deriving DecidableEq, Repr

/-- The kinds of access `Translate` is asked about (R50). No form in scope writes. -/
inductive Access where
  | read | write | fetch
deriving DecidableEq, Repr

/-- What one mapped linear page allows, at CPL 0 to 2 (`sup`) and at CPL 3 (`user`). -/
structure PageRights where
  supRead : Bool
  supWrite : Bool
  supFetch : Bool
  userRead : Bool
  userWrite : Bool
  userFetch : Bool
deriving DecidableEq, Repr

/-- One present linear page: its number, the physical page it maps to, its rights, and whether a reserved bit is set
in the paging structures that map it (R50). -/
structure Page where
  number : Nat
  frame : Nat
  rights : PageRights
  reserved : Bool
deriving DecidableEq, Repr

/-- The abstract `Translate` of R5, R50 and D5 as plain data: the recommended identity (or paging off), or the list of
the pages that are present. -/
inductive Paging where
  | identity
  | pages (present : List Page)
deriving DecidableEq, Repr

/-- Memory: the bytes that exist, by linear address, addresses strictly rising (R32). A byte that is not listed is
outside `admit` (D6): it has no value. -/
abbrev Memory := List Host.Cell

/-- The architectural state of one logical processor (10_state.md R20 to R35), with its configuration and the model's
own counter of free values. -/
structure State where
  /-- The configuration: constant over a run (R5, R30). -/
  cfg : Config
  /-- The operating mode: constant over a run (R5, D2). -/
  mode : Mode
  /-- RIP; EIP in its low 32 bits outside Mode64 (R27). -/
  rip : Qword
  /-- `x[0]` to `x[15]`: RAX to R15 (R26). -/
  gpr : Vector Qword 16
  /-- RFLAGS (R28): bit 18 is AC. -/
  rflags : Qword
  /-- The segment registers (R31). -/
  segs : Segments
  /-- CR0 (R29). -/
  cr0 : Qword
  /-- CR2, the faulting linear address of a page fault (R50, R184). -/
  cr2 : Qword
  /-- CR4 (R29). -/
  cr4 : Qword
  /-- XCR0 (R29). -/
  xcr0 : Qword
  /-- `ZMM[0]` to `ZMM[31]`; YMM and XMM are their low parts (R20, R21). -/
  zmm : Vector Vec 32
  /-- `K[0]` to `K[7]` (R22). -/
  k : Vector Qword 8
  /-- MXCSR (R23). -/
  mxcsr : Dword
  /-- The x87 and MMX state (R24, R25). -/
  x87 : X87
  /-- The abstract translation (R50, D5). -/
  paging : Paging
  /-- Memory (R32). -/
  mem : Memory
  /-- The end address of the program text, as a value of the instruction pointer: given at launch, constant over a run
  (R201, D15). `none`: no program text has been given, as at RESET (log entry 42). -/
  textEnd : Option Qword
  /-- MODEL'S OWN: how many free values have been drawn (log entry 11). -/
  free : Nat
deriving DecidableEq, Repr

/-- The exceptions of rule R180. -/
inductive Exn where
  /-- Invalid opcode (R181, and R186 with CR4.OSXMMEXCPT = 0). -/
  | ud
  /-- Device not available (R182). -/
  | nm
  /-- Stack-segment fault (R183). -/
  | ss
  /-- General protection (R183). -/
  | gp
  /-- Page fault: faulting linear address and fault code (R184). -/
  | pf (la : Qword) (code : Dword)
  /-- x87 floating-point error (R187). -/
  | mf
  /-- Alignment check (R185). -/
  | ac
  /-- SIMD floating-point exception (R186). -/
  | xm
deriving DecidableEq, Repr

/-- Why a step stops with a fault. -/
inductive Fault where
  /-- An architectural exception of R180 is delivered, `at` being the architectural state at the fault (D7, R190). Raised
  by `Machine.raise` alone. Safe: the spec makes the fault the step's outcome and models no handler (D7, R191). -/
  | exception (e : Exn) (at_ : State)
  /-- Stuck: a data access passed every architectural check and its byte at this linear address is outside the memory
  given at launch (D6, U11). Raised by `Machine.memRead` and `Machine.memWrite`. Safe: the machine stops. -/
  | stuckData (la : Qword)
  /-- Stuck: the byte to fetch at this linear address is outside the memory given at launch (D6). Raised by the fetch.
  Safe: the machine stops. -/
  | stuckFetch (la : Qword)
  /-- The run has ended, in success: the instruction pointer is at the end of the program text, and `end_` is the end state
  (R201, D15). Raised by `Machine.step` alone. Safe: the spec makes no step there. -/
  | endOfText (end_ : State)
deriving DecidableEq, Repr

/-- Why a step is refused. All are safe: no behaviour is claimed. -/
inductive Refusal where
  /-- An instruction whose arm has no meaning yet. Raised by no arm of this model. Safe. -/
  | notModelled (mnemonic : String)
  /-- The decoder refuses the bytes (R82, R4). Raised by `Machine.step`. Safe. -/
  | decode (r : Reject)
  /-- The mode is neither Mode64 nor Mode32 (R4, D2). Raised by `Machine.enter`. Safe. -/
  | modeNotAdmitted
  /-- EVEX.b = 1 with a register source under `evex_b_reg = refuse` (R76, D14). Raised by the EVEX meanings. Safe. -/
  | evexBWithRegister
  /-- CVTPD2PI with an x87 exception pending and CR0.NE = 0: external reporting, platform dependent (R143, U9). Raised by
  `Machine.checkX87`. Safe. -/
  | ferrReporting
  /-- The instruction's bytes cross the end of the address space, a canonical boundary or the code-segment limit (D10,
  U13). Raised by the fetch. Safe. -/
  | fetchCrossesEnd
  /-- MXCSR bits 31:16 are not 0: no reachable state (U6, R221). Raised by `Machine.step`. Safe. -/
  | mxcsrReserved
deriving DecidableEq, Repr

/-- The two ways an operation stops. -/
inductive Stop where
  | fault (f : Fault)
  | refused (r : Refusal)
deriving DecidableEq, Repr

/-- The result of an operation that can stop. -/
abbrev Res (α : Type) := Except Stop α

/-- A segment register at RESET other than CS (log entry 4). -/
def Segment.resetData : Segment := ⟨0, 0, 0xFFFF, true, true⟩

/-- CS at RESET: selector F000H, base FFFF0000H (R34). -/
def Segment.resetCode : Segment := ⟨0xF000, 0xFFFF0000, 0xFFFF, true, true⟩

/-- The x87 state after RESET: status 0, tag word 5555H, data registers +0.0 (R34); control word: log entry 4. -/
def X87.reset : X87 := ⟨0, 0x0040, 0x5555, Vector.replicate 8 0⟩

/-- The machine right after RESET (R34, R220), with the recommended configuration (R5). -/
def State.reset : State where
  cfg := .recommended
  mode := .realAddress
  rip := 0xFFF0
  gpr := (Vector.replicate 16 0).set 2 0x00050654
  rflags := 2
  segs := ⟨.resetData, .resetCode, .resetData, .resetData, .resetData, .resetData⟩
  cr0 := 0x60000010
  cr2 := 0
  cr4 := 0
  xcr0 := 1
  zmm := Vector.replicate 32 0
  k := Vector.replicate 8 0
  mxcsr := 0x1F80
  x87 := .reset
  paging := .identity
  mem := []
  textEnd := none
  free := 0

end Sys2Proof.Machine
end

