-- ==== Sys2Proof/Machine/Ops.lean ====
section
/-! DEFINITION. The named operations over registers and memory that the meanings share: raising an exception, the
enabling checks, segmentation, translation and memory access (spec 20_memory.md, 60_exceptions.md). -/

namespace Sys2Proof.Machine

/-! ## Exceptions -/

/-- The architecture's exception code (R180). -/
def Exn.vector : Exn → Nat
  | .ud => 6
  | .nm => 7
  | .ss => 12
  | .gp => 13
  | .pf _ _ => 14
  | .mf => 16
  | .ac => 17
  | .xm => 19

/-- The error code delivered with an exception (R180, R183 to R185). -/
def Exn.errorCode : Exn → Option Dword
  | .ss => some 0
  | .gp => some 0
  | .pf _ code => some code
  | .ac => some 0
  | _ => none

/-- Taking an exception, the one place that does it (D7, R190): the step ends with the exception and the architectural
state at the fault. The state is the one handed in, its `rip` still at the faulting instruction; a page fault also loads
CR2 (R184, R191). The handler, its stack frame and the return from it are outside the spec's scope (R4, R191, R192). -/
def raise (e : Exn) (s : State) : Stop :=
  match e with
  | .pf la code => .fault (.exception (.pf la code) { s with cr2 := la })
  | e => .fault (.exception e s)

/-- A fault that used a free value leaves the counter advanced (log entry 11). -/
def State.drawn (s : State) : State := { s with free := s.free + 1 }

/-! ## Control state -/

/-- CPL: bits 1:0 of the CS selector (R29). -/
def State.cpl (s : State) : BitVec 2 := s.segs.cs.selector.extractLsb' 0 2

/-- CR0.EM (R29). -/
def State.em (s : State) : Bool := s.cr0.getLsbD 2

/-- CR0.TS (R29). -/
def State.ts (s : State) : Bool := s.cr0.getLsbD 3

/-- CR0.NE (R29). -/
def State.ne (s : State) : Bool := s.cr0.getLsbD 5

/-- CR0.AM (R29). -/
def State.am (s : State) : Bool := s.cr0.getLsbD 18

/-- EFLAGS.AC (R28). -/
def State.acFlag (s : State) : Bool := s.rflags.getLsbD 18

/-- CR4.OSFXSR (R29). -/
def State.osfxsr (s : State) : Bool := s.cr4.getLsbD 9

/-- CR4.OSXMMEXCPT (R29). -/
def State.osxmmexcpt (s : State) : Bool := s.cr4.getLsbD 10

/-- CR4.OSXSAVE (R29). -/
def State.osxsave (s : State) : Bool := s.cr4.getLsbD 18

/-- XCR0[2:1] = 11b (R29). -/
def State.avxStateOn (s : State) : Bool := s.xcr0.getLsbD 1 && s.xcr0.getLsbD 2

/-- XCR0[7:5] = 111b (R29). -/
def State.avx512StateOn (s : State) : Bool := s.xcr0.getLsbD 5 && s.xcr0.getLsbD 6 && s.xcr0.getLsbD 7

/-- Whether alignment checking is on: CR0.AM = 1, EFLAGS.AC = 1, CPL = 3 (R185). -/
def State.alignCheck (s : State) : Bool := s.am && s.acFlag && s.cpl == 3

/-- Which column of rule R181 a form belongs to. `needVl`: the form's vector length needs AVX512VL (R77). -/
inductive Gate where
  | legacy
  | vex
  | evex (needVl : Bool)
deriving DecidableEq, Repr

/-- The #UD causes of rule R181 that depend on features, enables and mode. -/
def State.gateUd (s : State) : Gate → Bool
  | .legacy => !s.cfg.sse2 || s.em || !s.osfxsr
  | .vex => !s.cfg.avx || !s.osxsave || !s.avxStateOn || noVex s.mode
  | .evex needVl =>
    !s.cfg.avx512f || (needVl && !s.cfg.avx512vl) || !s.osxsave || !s.avxStateOn || !s.avx512StateOn
      || noVex s.mode

/-- Whether a mode is admitted (R12, D2). -/
def admittedMode : Mode → Bool
  | .mode64 => true
  | .mode32 => true
  | _ => false

/-- The checks before any operand is touched, in the order of rule R189: #UD, then the admitted modes (D2), then #NM. -/
def enter (g : Gate) (s : State) : Res Unit :=
  if s.gateUd g then .error (raise .ud s)
  else if !admittedMode s.mode then .error (.refused .modeNotAdmitted)
  else if s.ts then .error (raise .nm s)
  else .ok ()

/-! ## Registers -/

/-- The value of a general register (R26). -/
def State.reg (s : State) (n : BitVec 4) : Qword := s.gpr[n.toNat]'n.isLt

/-- `ZMM[n]` (R20). -/
def State.vec (s : State) (n : BitVec 5) : Vec := s.zmm[n.toNat]'n.isLt

/-- `K[n]` (R22). -/
def State.opmask (s : State) (n : BitVec 3) : Qword := s.k[n.toNat]'n.isLt

/-- `MM[n]`: the low 64 bits of the x87 data register with physical index n (R24). -/
def State.mm (s : State) (n : BitVec 3) : Qword := (s.x87.phys[n.toNat]'n.isLt).extractLsb' 0 64

/-- `ZMM[n] <- v`, the whole register (R20). -/
def State.setVec (s : State) (n : BitVec 5) (v : Vec) : State := { s with zmm := s.zmm.set n.toNat v n.isLt }

/-- `old` with its low 128 bits replaced by those of `v`: bits `MAX_VL-1:128` unmodified (R20). -/
def mergeLow128 (old v : Vec) : Vec := old.extractLsb' 128 384 ++ v.extractLsb' 0 128

/-- The write-back to a vector register (R20): a legacy form keeps the bits above 127; a VEX or EVEX form hands in `v`
with zeros above its vector length. -/
def State.writeBack (s : State) (keepUpper : Bool) (n : BitVec 5) (v : Vec) : State :=
  s.setVec n (if keepUpper then mergeLow128 (s.vec n) v else v)

/-- The instruction pointer `len` bytes further: modulo 2^32 outside Mode64 (R27), modulo 2^64 in Mode64. That it is 0 after
a Mode64 instruction whose last byte stands at FFFFFFFFFFFFFFFFH, which rule R27 does not say and decision D10 does not
refuse, is the model's reading (DEDUCED, unsafe; log entry 44). -/
def State.nextIp (s : State) (len : Nat) : Qword :=
  if s.mode = .mode64 then s.rip + BitVec.ofNat 64 len
  else ((s.rip + BitVec.ofNat 64 len).setWidth 32).setWidth 64

/-- `pc <- pc + len` (R27). -/
def State.advance (s : State) (len : Nat) : State := { s with rip := s.nextIp len }

/-! ## Memory as data -/

/-- The byte at an address; `none` when no byte exists there (R32, D6). -/
def Memory.read : Memory → Nat → Option Byte
  | [], _ => none
  | (b, v) :: m, a => if b = a then some v else Memory.read m a

/-- The memory with one byte stored, kept in canonical form. -/
def Memory.write : Memory → Nat → Byte → Memory
  | [], a, v => [(a, v)]
  | (b, w) :: m, a, v =>
    if a < b then (a, v) :: (b, w) :: m
    else if a = b then (a, v) :: m
    else (b, w) :: Memory.write m a v

/-- The canonical form: addresses strictly rising, all within 64 bits (R40). -/
def Memory.wf (m : Memory) : Bool :=
  decide (m.Pairwise (fun x y => x.1 < y.1)) && m.all (fun c => decide (c.1 < 2 ^ 64))

/-- The memory with bytes stored at consecutive addresses. -/
def Memory.writeAll (m : Memory) (a : Nat) : List Byte → Memory
  | [] => m
  | v :: vs => Memory.writeAll (Memory.write m a v) (a + 1) vs

/-! ## Segmentation (R31, R45) -/

/-- The segment register named. -/
def State.segment (s : State) : SegReg → Segment
  | .es => s.segs.es
  | .cs => s.segs.cs
  | .ss => s.segs.ss
  | .ds => s.segs.ds
  | .fs => s.segs.fs
  | .gs => s.segs.gs

/-- The base that address formation adds: in Mode64 only FS and GS have one (R31). -/
def State.segBase (s : State) (g : SegReg) : Qword :=
  if s.mode = .mode64 then
    match g with
    | .fs => s.segs.fs.base
    | .gs => s.segs.gs.base
    | _ => 0
  else (s.segment g).base

/-- The linear address of the byte at offset `i` of an operand: modulo 2^64 in Mode64, modulo 2^32 otherwise. Rule R45 gives
that modulus for base + EA; that byte LA+i of an operand that crosses the top of the linear space wraps to address 0 as well
is the model's reading (DEDUCED, unsafe: log entry 41). -/
def State.linear (s : State) (g : SegReg) (ea : Qword) (i : Nat) : Qword :=
  let la := s.segBase g + ea + BitVec.ofNat 64 i
  if s.mode = .mode64 then la else (la.setWidth 32).setWidth 64

/-- Canonical form with `bits` significant bits: the address is the sign extension of its low `bits` bits (R40). -/
def canonical (bits : Nat) (la : Qword) : Bool :=
  decide (-(2 ^ (bits - 1) : Int) ≤ la.toInt) && decide (la.toInt < (2 ^ (bits - 1) : Int))

/-- A null selector. Rules R45 and R183 use the words and define them nowhere: that the values are those with bits 15:2 = 0,
0 to 3, is taken from the family (PRESUMED, unsafe; log entry 43). -/
def Segment.isNull (g : Segment) : Bool := g.selector.extractLsb' 2 14 == 0

/-- Whether the segment's rights allow the access (R45). -/
def Segment.allows (g : Segment) : Access → Bool
  | .read => g.readable
  | .write => g.writable
  | .fetch => true

/-- The segment checks of rule R45 on the bytes at the offsets `offs`: canonical form in Mode64; selector, rights and
limit in Mode32. -/
def State.segmentOk (s : State) (k : Access) (g : SegReg) (ea : Qword) (offs : List Nat) : Bool :=
  if s.mode = .mode64 then offs.all (fun i => canonical s.cfg.linAddrBits (s.linear g ea i))
  else
    !(s.segment g).isNull && (s.segment g).allows k
      && offs.all (fun i => decide (ea.toNat + i ≤ (s.segment g).limit.toNat))

/-- The exception of a failed segment check: #SS(0) through SS, #GP(0) otherwise (R45, R183; log entry 13). -/
def segmentExn (g : SegReg) : Exn := if g = .ss then .ss else .gp

/-! ## Translation (R50, R184) -/

/-- The fault code: P, W/R, U/S, RSVD, I/D (R184). -/
def pfCode (present write user rsvd fetch : Bool) : Dword :=
  (BitVec.ofBool fetch ++ BitVec.ofBool rsvd ++ BitVec.ofBool user ++ BitVec.ofBool write
    ++ BitVec.ofBool present).setWidth 32

/-- What a page allows one kind of access at one privilege. -/
def PageRights.allow (r : PageRights) (user : Bool) : Access → Bool
  | .read => if user then r.userRead else r.supRead
  | .write => if user then r.userWrite else r.supWrite
  | .fetch => if user then r.userFetch else r.supFetch

/-- The bytes of one page (log entry 8). -/
def pageSize : Nat := 4096

/-- Some byte of the page's frame lies at or above 2^bits, `bits` the physical address width (R5). -/
def Page.beyond (q : Page) (bits : Nat) : Bool := decide (2 ^ bits < (q.frame + 1) * pageSize)

/-- `Translate(LA, access, CPL)` (R50, R195, D5): the physical address, or the fault code of a #PF. `bits` is
`PhysAddrBits` (R5): no physical address reaches 2^bits. The identity keeps the low `bits` bits, and a page whose frame
lies beyond faults as a reserved bit does (PRESUMED, log entry 26). -/
def translateLA (bits : Nat) (p : Paging) (cpl : BitVec 2) (k : Access) (la : Qword) : Except Dword Qword :=
  match p with
  | .identity => .ok (BitVec.ofNat 64 (la.toNat % 2 ^ bits))
  | .pages ps =>
    let user := cpl == 3
    let code := fun present rsvd => pfCode present (k == .write) user rsvd (k == .fetch)
    match ps.find? (fun q => q.number == la.toNat / pageSize) with
    | none => .error (code false false)
    | some q =>
      if q.reserved || q.beyond bits then .error (code true true)
      else if !q.rights.allow user k then .error (code true false)
      else .ok (BitVec.ofNat 64 (q.frame * pageSize + la.toNat % pageSize))

/-- `Translate` under the state's paging, physical address width and privilege level (R5, R50). -/
def State.translate (s : State) (k : Access) (la : Qword) : Except Dword Qword :=
  translateLA s.cfg.physAddrBits s.paging s.cpl k la

/-- The byte of lowest offset whose translation fails: its linear address and fault code (R42 step 3). Rule R44 says that
an access faults if either of its pages faults, not which fault is reported when both do: the lowest byte's is the model's
choice (DESIGN CHOICE, unsafe; log entry 39). -/
def State.pageFault (s : State) (k : Access) (g : SegReg) (ea : Qword) (offs : List Nat) : Option (Qword × Dword) :=
  offs.findSome? fun i =>
    match s.translate k (s.linear g ea i) with
    | .ok _ => none
    | .error code => some (s.linear g ea i, code)

/-! ## Memory access (R42) -/

/-- One data access: its segment and effective address, the operand's size in bytes (R43), the offsets of the bytes
actually accessed (all of them, or those of the enabled elements, R51), and whether the form demands 16-byte
alignment (R44). -/
structure MemAccess where
  seg : SegReg
  ea : Qword
  size : Nat
  offs : List Nat
  align16 : Bool
deriving DecidableEq, Repr

/-- The operand's address is not a multiple of `n` (R44). -/
def State.misaligned (s : State) (acc : MemAccess) (n : Nat) : Bool :=
  (s.linear acc.seg acc.ea 0).toNat % n != 0

/-- Whether #AC's condition holds: alignment checking on and a misaligned 4- or 8-byte operand, or a wider one under
`ac_on_wide_vectors`; never for the forms that demand 16 bytes (R44, R185, U7). -/
def State.alignFault (s : State) (acc : MemAccess) : Bool :=
  !acc.align16 && s.alignCheck && (acc.size ≤ 8 || s.cfg.acOnWideVectors) && s.misaligned acc acc.size

/-- Steps (1) to (3) of rule R42 for an access of at least one byte: `some` stop when a check fails. When #AC and #PF
both apply, which one comes is a free value (U7). -/
def accessCheck (k : Access) (acc : MemAccess) (s : State) : Option Stop :=
  if !s.segmentOk k acc.seg acc.ea acc.offs then some (raise (segmentExn acc.seg) s)
  else if acc.align16 && s.misaligned acc 16 then some (raise .gp s)
  else
    match s.alignFault acc, s.pageFault k acc.seg acc.ea acc.offs with
    | false, none => none
    | true, none => some (raise .ac s)
    | false, some (la, code) => some (raise (.pf la code) s)
    | true, some (la, code) =>
      some (if Config.acBeforePf s.free then raise .ac s.drawn else raise (.pf la code) s.drawn)

/-- Steps (4) and (5) of rule R42: the bytes at the offsets, each at its place in a little-endian value (R41); the
linear address of a byte outside `admit` otherwise. -/
def gather (s : State) (g : SegReg) (ea : Qword) : List Nat → Except Qword SrcVec
  | [] => .ok 0
  | i :: is =>
    match s.mem.read (s.linear g ea i).toNat with
    | none => .error (s.linear g ea i)
    | some b =>
      match gather s g ea is with
      | .error la => .error la
      | .ok v => .ok (v ||| (b.setWidth 256 <<< (8 * i)))

/-- `MemRead` (R42): the accessed bytes as a little-endian value, unaccessed bytes 0. No byte accessed, no check
(R51, R52). -/
def memRead (acc : MemAccess) (s : State) : Res SrcVec :=
  if acc.offs = [] then .ok 0
  else
    match accessCheck .read acc s with
    | some stop => .error stop
    | none =>
      match gather s acc.seg acc.ea acc.offs with
      | .ok v => .ok v
      | .error la => .error (.fault (.stuckData la))

/-- The bytes of `v` stored at the offsets; the linear address of a byte outside `admit` otherwise. -/
def scatter (s : State) (g : SegReg) (ea : Qword) (v : SrcVec) : List Nat → Except Qword Memory
  | [] => .ok s.mem
  | i :: is =>
    match s.mem.read (s.linear g ea i).toNat with
    | none => .error (s.linear g ea i)
    | some _ =>
      match scatter s g ea v is with
      | .error la => .error la
      | .ok m => .ok (Memory.write m (s.linear g ea i).toNat (v.extractLsb' (8 * i) 8))

/-- `MemWrite` (R7, R42), the store counterpart of `memRead`. No instruction in scope stores: it has no caller. -/
def memWrite (acc : MemAccess) (v : SrcVec) (s : State) : Res State :=
  if acc.offs = [] then .ok s
  else
    match accessCheck .write acc s with
    | some stop => .error stop
    | none =>
      match scatter s acc.seg acc.ea v acc.offs with
      | .ok m => .ok { s with mem := m }
      | .error la => .error (.fault (.stuckData la))

/-! ## The outcome of an instruction -/

/-- A meaning's result as the host's outcome. -/
def outcome : Res State → Host.Outcome State Fault Refusal
  | .ok s => .next s
  | .error (.fault f) => .fault f
  | .error (.refused r) => .refused r

end Sys2Proof.Machine
end

