-- ==== Sys2Proof/Machine/Operands.lean ====
section
/-! DEFINITION. Operands: register numbers, effective addresses, segments, source fetch and element access (spec
30_encoding.md R62 to R78, 40_cvtdq2pd.md R102). -/

namespace Sys2Proof.Machine

/-! ## Register numbers and address arithmetic -/

/-- A register number extended by one prefix bit (R62, R69). -/
def ext (on : Bool) (n : BitVec 3) : BitVec 4 := BitVec.ofBool on ++ n

/-- A value truncated to the address size and zero-extended to 64 bits (R66, R67). -/
def truncA : AddrSize → Qword → Qword
  | .a64, v => v
  | .a32, v => (v.setWidth 32).setWidth 64
  | .a16, v => (v.setWidth 16).setWidth 64

/-- A displacement as a 64-bit addend; a disp8 is multiplied by `n` (1 outside EVEX, R66, R78). -/
def dispValue (n : Nat) : Disp → Qword
  | .none => 0
  | .d8 d => d.signExtend 64 * BitVec.ofNat 64 n
  | .d32 d => d.signExtend 64

/-- A 16-bit form's displacement (R67). -/
def disp16Value : Disp16 → Qword
  | .none => 0
  | .d8 d => d.signExtend 64
  | .d16 d => d.signExtend 64

/-- The default segment of a base register: SS for numbers 4 and 5, DS otherwise (R66). -/
def baseSeg (n : BitVec 4) : SegReg := if n = 4 ∨ n = 5 then .ss else .ds

/-- The scaled index of a SIB byte: index number 4 means none (R65). -/
def State.scaledIndex (s : State) (x : Bool) (scale : BitVec 2) (index : BitVec 3) : Qword :=
  if ext x index = 4 then 0 else s.reg (ext x index) <<< scale.toNat

/-- The register sum of a 16-bit addressing form and its default segment (R67): BX, BP, SI, DI are registers 3, 5, 6,
7. -/
def State.base16 (s : State) (rm : BitVec 3) : Qword × SegReg :=
  match rm.toNat with
  | 0 => (s.reg 3 + s.reg 6, .ds)
  | 1 => (s.reg 3 + s.reg 7, .ds)
  | 2 => (s.reg 5 + s.reg 6, .ss)
  | 3 => (s.reg 5 + s.reg 7, .ss)
  | 4 => (s.reg 6, .ds)
  | 5 => (s.reg 7, .ds)
  | 6 => (s.reg 5, .ss)
  | _ => (s.reg 3, .ds)

/-- The effective address before truncation and the default segment (R65 to R68). `b`, `x` extend base and index; `len`
is the instruction's length, for RIP-relative addressing; `n` scales a disp8. -/
def State.addrOf (s : State) (b x : Bool) (len n : Nat) : AddrForm → Qword × SegReg
  | .base rm d => (s.reg (ext b rm) + dispValue n d, baseSeg (ext b rm))
  | .disp32 d =>
    (if s.mode = .mode64 then s.rip + BitVec.ofNat 64 len + d.signExtend 64 else d.signExtend 64, .ds)
  | .sib scale index bs d =>
    (s.reg (ext b bs) + s.scaledIndex x scale index + dispValue n d, baseSeg (ext b bs))
  | .sibNoBase scale index d => (s.scaledIndex x scale index + d.signExtend 64, .ds)
  | .a16 rm d => ((s.base16 rm).1 + disp16Value d, (s.base16 rm).2)
  | .a16Disp d => (d.setWidth 64, .ds)

/-- The segment override in effect: the last one; in Mode64 only FS and GS overrides count (R61). -/
def segOverride (m : Mode) (pre : List Pre) : Option SegReg :=
  pre.reverse.findSome? fun p =>
    match p with
    | .seg .fs => some .fs
    | .seg .gs => some .gs
    | .seg r => if m = .mode64 then none else some r
    | _ => none

/-- Operand 2 resolved: a vector register, or a segment and an effective address (R102). -/
inductive Src where
  | reg (n : BitVec 5)
  | mem (seg : SegReg) (ea : Qword)
deriving DecidableEq, Repr

/-- An instruction's operands resolved in a state: the destination register number, the source, the length. -/
structure Operands where
  dest : BitVec 5
  src : Src
  len : Nat
deriving DecidableEq, Repr

/-- The memory operand of an addressing form (R66 to R68). -/
def State.memOperand (s : State) (pre : List Pre) (b x : Bool) (len n : Nat) (a : AddrForm) : Src :=
  .mem ((segOverride s.mode pre).getD (s.addrOf b x len n a).2)
    (truncA (addrSize s.mode pre) (s.addrOf b x len n a).1)

/-- The operands of a form whose register numbers have one extension bit each (LEGACY and VEX; R62, R69). Outside Mode64
the extension bits do not count. -/
def State.operands (s : State) (pre : List Pre) (r x b : Bool) (reg : BitVec 3) (rm : Rm) (len : Nat) : Operands where
  dest := (ext (s.mode == .mode64 && r) reg).setWidth 5
  src :=
    match rm with
    | .reg n => .reg ((ext (s.mode == .mode64 && b) n).setWidth 5)
    | .mem a => s.memOperand pre (s.mode == .mode64 && b) (s.mode == .mode64 && x) len 1 a
  len := len

/-- The operands of a LEGACY form (R62): REX is `WRXB`, absent means 0. -/
def legacyOperands (p : LegacyOp) (s : State) : Operands :=
  let rex := p.rex.getD 0
  s.operands p.pre (rex.getLsbD 2) (rex.getLsbD 1) (rex.getLsbD 0) p.reg p.rm p.len

/-- The operands of a three-byte VEX form (R69). -/
def vex3Operands (p : Vex3Op) (s : State) : Operands := s.operands p.pre p.r p.x p.b p.reg p.rm p.len

/-- The operands of a two-byte VEX form: X = B = 0 (R70). -/
def vex2Operands (p : Vex2Op) (s : State) : Operands := s.operands p.pre p.r false false p.reg p.rm p.len

/-- The operands of an EVEX form (R74); `n` is the disp8 scale (R78). -/
def evexOperands (p : EvexOp) (n : Nat) (s : State) : Operands where
  dest := BitVec.ofBool (s.mode == .mode64 && p.r4) ++ ext (s.mode == .mode64 && p.r) p.reg
  src :=
    match p.rm with
    | .reg m => .reg (BitVec.ofBool (s.mode == .mode64 && p.x) ++ ext (s.mode == .mode64 && p.b) m)
    | .mem a => s.memOperand p.pre (s.mode == .mode64 && p.b) (s.mode == .mode64 && p.x) p.len n a
  len := p.len

/-! ## Source fetch and elements -/

/-- The source operand (R102): the low bits of a register, or `n` bytes of memory (R43). -/
def readSource (src : Src) (n : Nat) (align16 : Bool) (s : State) : Res SrcVec :=
  match src with
  | .reg r => .ok ((s.vec r).setWidth 256)
  | .mem seg ea => memRead ⟨seg, ea, n, List.range n, align16⟩ s

/-- Doubleword element j of a source (R102). -/
def dwordAt (v : SrcVec) (j : Nat) : Dword := v.extractLsb' (32 * j) 32

/-- Quadword element j of a source. -/
def qwordAt (v : SrcVec) (j : Nat) : Qword := v.extractLsb' (64 * j) 64

/-- Quadword element j of a full register. -/
def vecQword (v : Vec) (j : Nat) : Qword := v.extractLsb' (64 * j) 64

/-- Quadwords 0 to n-1 side by side, zeros above. -/
def packQ (f : Nat → Qword) : Nat → Vec
  | 0 => 0
  | n + 1 => packQ f n ||| ((f n).setWidth 512 <<< (64 * n))

/-- Doublewords 0 to n-1 side by side, zeros above. -/
def packD (f : Nat → Dword) : Nat → Vec
  | 0 => 0
  | n + 1 => packD f n ||| ((f n).setWidth 512 <<< (32 * n))

end Sys2Proof.Machine
end

