-- ==== Sys2Proof/Machine/Cvtdq2pd.lean ====
section
/-! DEFINITION. CVTDQ2PD and VCVTDQ2PD (spec 40_cvtdq2pd.md R100 to R111). -/

namespace Sys2Proof.Machine

/-- The legacy and VEX forms (R103 to R105): `ne` doublewords of the source to `ne` quadwords of the destination. -/
def dq2pd (g : Gate) (keepUpper : Bool) (ne : Nat) (o : Operands) (s : State) : Res State :=
  match enter g s with
  | .error e => .error e
  | .ok () =>
    match readSource o.src (4 * ne) false s with
    | .error e => .error e
    | .ok src =>
      .ok ((s.writeBack keepUpper o.dest (packQ (fun j => cvtI32ToF64 (dwordAt src j)) ne)).advance o.len)

/-- The vector length an EVEX encoding selects: `lanes KL`, #UD, or the refusal of decision D14. -/
inductive EvexLength where
  | lanes (kl : Nat)
  | ud
  | refuse
deriving DecidableEq, Repr

/-- KL of an EVEX form whose row has `row` lanes (R77). With a register source and b = 1 the configuration decides
(R76, D14; log entry 18). -/
def evexLength (p : EvexOp) (row : Nat) (c : Config) : EvexLength :=
  if p.bc && p.rm.isReg then
    match c.evexBReg with
    | .refuse => .refuse
    | .vlFromLL => if p.ll = 3 then .ud else .lanes row
    | .vl512 => .lanes 8
  else .lanes row

/-- Whether the selected length needs AVX512VL: every length but 512 bits (R77). -/
def EvexLength.needVl (row : Nat) : EvexLength → Bool
  | .lanes kl => kl != 8
  | _ => row != 8

/-- M[j]: element j is enabled (R22, R75, R109); aaa = 000b means no writemask. -/
def evexEnabled (p : EvexOp) (s : State) (j : Nat) : Bool := p.aaa == 0 || (s.opmask p.aaa).getLsbD j

/-- The offsets of the bytes of the enabled doublewords (R51). -/
def enabledOffs (m : Nat → Bool) (kl : Nat) : List Nat :=
  (List.range (4 * kl)).filter (fun i => m (i / 4))

/-- The source doublewords of an EVEX form (R102, R109): from a register; one broadcast datum, read iff some element is
enabled (R52); or the enabled doublewords of memory (R51). -/
def evexSource (p : EvexOp) (kl : Nat) (src : Src) (s : State) : Res (Nat → Dword) :=
  match src with
  | .reg r => .ok (fun j => dwordAt ((s.vec r).setWidth 256) j)
  | .mem seg ea =>
    if p.bc then
      match memRead ⟨seg, ea, 4, if (List.range kl).any (evexEnabled p s) then List.range 4 else [], false⟩ s with
      | .error e => .error e
      | .ok v => .ok (fun _ => dwordAt v 0)
    else
      match memRead ⟨seg, ea, 4 * kl, enabledOffs (evexEnabled p s) kl, false⟩ s with
      | .error e => .error e
      | .ok v => .ok (fun j => dwordAt v j)

/-- The disp8 scale of a row (R78): the memory operand's size in bytes, or 4 with broadcast. -/
def evexDispScale (p : EvexOp) (row : Nat) : Nat := if p.bc then 4 else 4 * row

/-- Destination quadword j of an EVEX form (R109). -/
def evexLane (p : EvexOp) (s : State) (old : Vec) (src : Nat → Dword) (j : Nat) : Qword :=
  if evexEnabled p s j then cvtI32ToF64 (src j) else if p.z then 0 else vecQword old j

/-- The EVEX forms (R106 to R109), the row having `row` lanes. -/
def dq2pdEvex (row : Nat) (p : EvexOp) (s : State) : Res State :=
  if evexLength p row s.cfg = .ud then .error (raise .ud s)
  else
    match enter (.evex ((evexLength p row s.cfg).needVl row)) s with
    | .error e => .error e
    | .ok () =>
      match evexLength p row s.cfg with
      | .lanes kl =>
        let o := evexOperands p (evexDispScale p row) s
        match evexSource p kl o.src s with
        | .error e => .error e
        | .ok src => .ok ((s.setVec o.dest (packQ (evexLane p s (s.vec o.dest) src) kl)).advance o.len)
      | _ => .error (.refused .evexBWithRegister)

/-- CVTDQ2PD xmm1, xmm2/m64 (R103). -/
def execCvtdq2pd (p : LegacyOp) (s : State) : Host.Outcome State Fault Refusal :=
  outcome (dq2pd .legacy true 2 (legacyOperands p s) s)

/-- VCVTDQ2PD xmm1, xmm2/m64, three-byte VEX (R104). -/
def execVcvtdq2pd128Vex3 (p : Vex3Op) (s : State) : Host.Outcome State Fault Refusal :=
  outcome (dq2pd .vex false 2 (vex3Operands p s) s)

/-- VCVTDQ2PD xmm1, xmm2/m64, two-byte VEX (R104). -/
def execVcvtdq2pd128Vex2 (p : Vex2Op) (s : State) : Host.Outcome State Fault Refusal :=
  outcome (dq2pd .vex false 2 (vex2Operands p s) s)

/-- VCVTDQ2PD ymm1, xmm2/m128, three-byte VEX (R105). -/
def execVcvtdq2pd256Vex3 (p : Vex3Op) (s : State) : Host.Outcome State Fault Refusal :=
  outcome (dq2pd .vex false 4 (vex3Operands p s) s)

/-- VCVTDQ2PD ymm1, xmm2/m128, two-byte VEX (R105). -/
def execVcvtdq2pd256Vex2 (p : Vex2Op) (s : State) : Host.Outcome State Fault Refusal :=
  outcome (dq2pd .vex false 4 (vex2Operands p s) s)

/-- VCVTDQ2PD xmm1 {k1}{z}, xmm2/m64/m32bcst (R106). -/
def execVcvtdq2pd128Evex (p : EvexOp) (s : State) : Host.Outcome State Fault Refusal := outcome (dq2pdEvex 2 p s)

/-- VCVTDQ2PD ymm1 {k1}{z}, xmm2/m128/m32bcst (R107). -/
def execVcvtdq2pd256Evex (p : EvexOp) (s : State) : Host.Outcome State Fault Refusal := outcome (dq2pdEvex 4 p s)

/-- VCVTDQ2PD zmm1 {k1}{z}, ymm2/m256/m32bcst (R108). -/
def execVcvtdq2pd512Evex (p : EvexOp) (s : State) : Host.Outcome State Fault Refusal := outcome (dq2pdEvex 8 p s)

end Sys2Proof.Machine
end

