-- ==== Sys2Proof/Machine/Flags.lean ====
section
/-! DEFINITION. MXCSR and the response to SIMD floating-point conditions (spec 10_state.md R23,
45_fp_formats_and_rounding.md R163 to R169, 60_exceptions.md R186). -/

namespace Sys2Proof.Machine

/-- MXCSR.RC, bits 14:13 (R23). -/
def State.rc (s : State) : Rc := Rc.ofBits (s.mxcsr.extractLsb' 13 2)

/-- MXCSR.DAZ, bit 6 (R23). -/
def State.daz (s : State) : Bool := s.mxcsr.getLsbD 6

/-- MXCSR.FZ, bit 15 (R23). -/
def State.fz (s : State) : Bool := s.mxcsr.getLsbD 15

/-- The mask bits MXCSR[12:7], in the order of the flags; 1 = masked (R23). -/
def State.simdMasks (s : State) : SimdFlags := s.mxcsr.extractLsb' 7 6

/-- MXCSR.OM, bit 10 (R23). -/
def State.om (s : State) : Bool := s.mxcsr.getLsbD 10

/-- MXCSR.UM, bit 11 (R23). -/
def State.um (s : State) : Bool := s.mxcsr.getLsbD 11

/-- Flags ORed into MXCSR[5:0] (R165). -/
def orFlags (mxcsr : Dword) (f : SimdFlags) : Dword := mxcsr ||| f.setWidth 32

/-- `MXCSR <- v` (R165). -/
def State.setMxcsr (s : State) (v : Dword) : State := { s with mxcsr := v }

/-- The conditions of all elements of one instruction: the union of their flags, and whether some result is tiny. -/
structure Cond where
  flags : SimdFlags
  tiny : Bool
deriving DecidableEq, Repr

/-- The conditions of elements 0 to n-1 (R165). -/
def condOf {w : Nat} (f : Nat → Conv w) : Nat → Cond
  | 0 => ⟨0, false⟩
  | n + 1 => ⟨(condOf f n).flags ||| (f n).flags, (condOf f n).tiny || (f n).tiny⟩

/-- The flags detected: with UM = 0 a tiny result is an underflow whether or not it is inexact (R166, R168). -/
def State.detected (s : State) (c : Cond) : SimdFlags :=
  if c.tiny && !s.um then c.flags ||| SimdFlags.ue else c.flags

/-- The detected conditions whose mask bit is 0 (R166). -/
def State.unmasked (s : State) (c : Cond) : SimdFlags := s.detected c &&& ~~~ s.simdMasks

/-- The pre-computation conditions IE, DE, ZE (R163). -/
def preFlags : SimdFlags := SimdFlags.ie ||| SimdFlags.de ||| SimdFlags.ze

/-- The flags rule R166 ORs into MXCSR at the fault: with an unmasked pre-computation condition the pre-computation
flags of all elements, otherwise all detected flags. -/
def State.rule166Flags (s : State) (c : Cond) : SimdFlags :=
  if s.unmasked c &&& preFlags ≠ 0 then s.detected c &&& preFlags else s.detected c

/-- The state at an unmasked SIMD floating-point exception: only the MXCSR flag bits may have changed, by the image of
rule R166 or by any part of the detected flags (U8). -/
def State.atSimdFault (s : State) (c : Cond) : State :=
  match s.cfg.xmImage with
  | .rule166 => s.setMxcsr (orFlags s.mxcsr (s.rule166Flags c))
  | .anyWithin => (s.setMxcsr (orFlags s.mxcsr (s.detected c &&& Config.xmFlagChoice s.free))).drawn

/-- The response (R165, R166, R186): the new MXCSR when every detected condition is masked; otherwise #XM, or #UD when
CR4.OSXMMEXCPT = 0. -/
def simdRespond (c : Cond) (s : State) : Res Dword :=
  if s.unmasked c = 0 then .ok (orFlags s.mxcsr c.flags)
  else .error (raise (if s.osxmmexcpt then .xm else .ud) (s.atSimdFault c))

end Sys2Proof.Machine
end

