-- ==== Sys2Proof/Machine/Simd.lean ====
section
/-! DEFINITION. The course of a tier B instruction with a vector destination, shared by CVTDQ2PS, CVTPD2DQ and CVTPD2PS
(spec 41, 42, 44, 45): checks, source, conversion of every element, response to the conditions, write-back. -/

namespace Sys2Proof.Machine

/-- Convert `ne` elements to doublewords: `conv src j` is element j's conversion, `bytes` the size of a memory operand.
All results are made from the state before the instruction (R110). -/
def convertToDwords (g : Gate) (keepUpper align16 : Bool) (bytes ne : Nat) (conv : SrcVec → Nat → Conv 32)
    (o : Operands) (s : State) : Res State :=
  match enter g s with
  | .error e => .error e
  | .ok () =>
    match readSource o.src bytes align16 s with
    | .error e => .error e
    | .ok src =>
      match simdRespond (condOf (conv src) ne) s with
      | .error e => .error e
      | .ok mxcsr =>
        .ok (((s.writeBack keepUpper o.dest (packD (fun j => (conv src j).val) ne)).setMxcsr mxcsr).advance o.len)

end Sys2Proof.Machine
end

