-- ==== Sys2Proof/Machine/Cvtdq2ps.lean ====
section
/-! DEFINITION. CVTDQ2PS and VCVTDQ2PS (spec 41_cvtdq2ps.md R120 to R125). -/

namespace Sys2Proof.Machine

/-- Element j of CVTDQ2PS (R120): MXCSR.RC is read; DAZ and FZ have no effect. -/
def State.dq2psLane (s : State) (src : SrcVec) (j : Nat) : Conv 32 := cvtI32ToF32 (dwordAt src j) s.rc

/-- CVTDQ2PS xmm1, xmm2/m128 (R121): a memory operand must be 16-byte aligned. -/
def execCvtdq2ps (p : LegacyOp) (s : State) : Host.Outcome State Fault Refusal :=
  outcome (convertToDwords .legacy true true 16 4 s.dq2psLane (legacyOperands p s) s)

/-- VCVTDQ2PS xmm1, xmm2/m128, three-byte VEX (R122). -/
def execVcvtdq2ps128Vex3 (p : Vex3Op) (s : State) : Host.Outcome State Fault Refusal :=
  outcome (convertToDwords .vex false false 16 4 s.dq2psLane (vex3Operands p s) s)

/-- VCVTDQ2PS xmm1, xmm2/m128, two-byte VEX (R122). -/
def execVcvtdq2ps128Vex2 (p : Vex2Op) (s : State) : Host.Outcome State Fault Refusal :=
  outcome (convertToDwords .vex false false 16 4 s.dq2psLane (vex2Operands p s) s)

/-- VCVTDQ2PS ymm1, ymm2/m256, three-byte VEX (R123). -/
def execVcvtdq2ps256Vex3 (p : Vex3Op) (s : State) : Host.Outcome State Fault Refusal :=
  outcome (convertToDwords .vex false false 32 8 s.dq2psLane (vex3Operands p s) s)

/-- VCVTDQ2PS ymm1, ymm2/m256, two-byte VEX (R123). -/
def execVcvtdq2ps256Vex2 (p : Vex2Op) (s : State) : Host.Outcome State Fault Refusal :=
  outcome (convertToDwords .vex false false 32 8 s.dq2psLane (vex2Operands p s) s)

end Sys2Proof.Machine
end

