-- ==== Sys2Proof/Machine/Cvtpd2dq.lean ====
section
/-! DEFINITION. CVTPD2DQ and VCVTPD2DQ (spec 42_cvtpd2dq.md R130 to R135). -/

namespace Sys2Proof.Machine

/-- Element j of CVTPD2DQ and CVTPD2PI (R130, R140). -/
def State.pd2dqLane (s : State) (src : SrcVec) (j : Nat) : Conv 32 := cvtF64ToI32 (qwordAt src j) s.rc s.daz

/-- CVTPD2DQ xmm1, xmm2/m128 (R131): bits 127:64 zeroed, the bits above 127 unmodified; a memory operand must be 16-byte
aligned. -/
def execCvtpd2dq (p : LegacyOp) (s : State) : Host.Outcome State Fault Refusal :=
  outcome (convertToDwords .legacy true true 16 2 s.pd2dqLane (legacyOperands p s) s)

/-- VCVTPD2DQ xmm1, xmm2/m128, three-byte VEX (R132). -/
def execVcvtpd2dq128Vex3 (p : Vex3Op) (s : State) : Host.Outcome State Fault Refusal :=
  outcome (convertToDwords .vex false false 16 2 s.pd2dqLane (vex3Operands p s) s)

/-- VCVTPD2DQ xmm1, xmm2/m128, two-byte VEX (R132). -/
def execVcvtpd2dq128Vex2 (p : Vex2Op) (s : State) : Host.Outcome State Fault Refusal :=
  outcome (convertToDwords .vex false false 16 2 s.pd2dqLane (vex2Operands p s) s)

/-- VCVTPD2DQ xmm1, ymm2/m256, three-byte VEX (R133). -/
def execVcvtpd2dq256Vex3 (p : Vex3Op) (s : State) : Host.Outcome State Fault Refusal :=
  outcome (convertToDwords .vex false false 32 4 s.pd2dqLane (vex3Operands p s) s)

/-- VCVTPD2DQ xmm1, ymm2/m256, two-byte VEX (R133). -/
def execVcvtpd2dq256Vex2 (p : Vex2Op) (s : State) : Host.Outcome State Fault Refusal :=
  outcome (convertToDwords .vex false false 32 4 s.pd2dqLane (vex2Operands p s) s)

end Sys2Proof.Machine
end

