-- ==== Sys2Proof/Machine/Cvtpd2pi.lean ====
section
/-! DEFINITION. CVTPD2PI (spec 43_cvtpd2pi.md R140 to R144). -/

namespace Sys2Proof.Machine

/-- The check for a pending x87 exception (R143): status-word bit 7 (ES) is 1. With CR0.NE = 1 it is #MF; with CR0.NE = 0
it is reported outside the processor (U9). -/
def checkX87 (s : State) : Res Unit :=
  if s.x87.status.getLsbD 7 then
    if s.ne then .error (raise .mf s) else .error (.refused .ferrReporting)
  else .ok ()

/-- The status word with TOP, bits 13:11, set to 0 (R25, R142). -/
def clearTop (w : BitVec 16) : BitVec 16 := w &&& 0xC7FF#16

/-- A write to `MM[n]` with the transition from x87 to MMX operation (R24, R142): bits 79:64 of the same storage all
ones, TOP 0, every tag 00b = valid. -/
def X87.writeMm (x : X87) (n : BitVec 3) (v : Qword) : X87 where
  status := clearTop x.status
  control := x.control
  tag := 0
  phys := x.phys.set n.toNat (0xFFFF#16 ++ v) n.isLt

/-- The x87 and MMX state replaced. -/
def State.setX87 (s : State) (x : X87) : State := { s with x87 := x }

/-- CVTPD2PI's destination is `MM[ModRM.reg]`, three bits: REX.R does not extend it (R24, R141). -/
def pd2pi (p : LegacyOp) (s : State) : Res State :=
  match enter .legacy s with
  | .error e => .error e
  | .ok () =>
    match checkX87 s with
    | .error e => .error e
    | .ok () =>
      match readSource (legacyOperands p s).src 16 true s with
      | .error e => .error e
      | .ok src =>
        match simdRespond (condOf (s.pd2dqLane src) 2) s with
        | .error e => .error e
        | .ok mxcsr =>
          .ok (((s.setX87 (s.x87.writeMm p.reg ((s.pd2dqLane src 1).val ++ (s.pd2dqLane src 0).val))).setMxcsr
            mxcsr).advance p.len)

/-- CVTPD2PI mm, xmm/m128 (R141). -/
def execCvtpd2pi (p : LegacyOp) (s : State) : Host.Outcome State Fault Refusal := outcome (pd2pi p s)

end Sys2Proof.Machine
end

