-- ==== Sys2Proof/Machine/Cvtpd2ps.lean ====
section
/-! DEFINITION. CVTPD2PS and VCVTPD2PS (spec 44_cvtpd2ps.md R150 to R155). -/

namespace Sys2Proof.Machine

/-- Element j of CVTPD2PS (R150, R168). -/
def State.pd2psLane (s : State) (src : SrcVec) (j : Nat) : Conv 32 :=
  narrowElement (qwordAt src j) s.rc s.fz s.daz s.om s.um

/-- CVTPD2PS xmm1, xmm2/m128 (R151): bits 127:64 zeroed, the bits above 127 unmodified; a memory operand must be 16-byte
aligned. -/
def execCvtpd2ps (p : LegacyOp) (s : State) : Host.Outcome State Fault Refusal :=
  outcome (convertToDwords .legacy true true 16 2 s.pd2psLane (legacyOperands p s) s)

/-- VCVTPD2PS xmm1, xmm2/m128, three-byte VEX (R152). -/
def execVcvtpd2ps128Vex3 (p : Vex3Op) (s : State) : Host.Outcome State Fault Refusal :=
  outcome (convertToDwords .vex false false 16 2 s.pd2psLane (vex3Operands p s) s)

/-- VCVTPD2PS xmm1, xmm2/m128, two-byte VEX (R152). -/
def execVcvtpd2ps128Vex2 (p : Vex2Op) (s : State) : Host.Outcome State Fault Refusal :=
  outcome (convertToDwords .vex false false 16 2 s.pd2psLane (vex2Operands p s) s)

/-- VCVTPD2PS xmm1, ymm2/m256, three-byte VEX (R153). -/
def execVcvtpd2ps256Vex3 (p : Vex3Op) (s : State) : Host.Outcome State Fault Refusal :=
  outcome (convertToDwords .vex false false 32 4 s.pd2psLane (vex3Operands p s) s)

/-- VCVTPD2PS xmm1, ymm2/m256, two-byte VEX (R153). -/
def execVcvtpd2ps256Vex2 (p : Vex2Op) (s : State) : Host.Outcome State Fault Refusal :=
  outcome (convertToDwords .vex false false 32 4 s.pd2psLane (vex2Operands p s) s)

end Sys2Proof.Machine
end

