-- ==== Sys2Proof/Machine/Dispatch.lean ====
section
/-! DEFINITION. `exec`: one arm per constructor of `Instr`, each one direct call of its meaning. -/

namespace Sys2Proof.Machine

def exec (i : Instr) (s : State) : Host.Outcome State Fault Refusal :=
  match i with
  | .cvtdq2pd p => Sys2Proof.Machine.execCvtdq2pd p s
  | .vcvtdq2pd128Vex3 p => Sys2Proof.Machine.execVcvtdq2pd128Vex3 p s
  | .vcvtdq2pd128Vex2 p => Sys2Proof.Machine.execVcvtdq2pd128Vex2 p s
  | .vcvtdq2pd256Vex3 p => Sys2Proof.Machine.execVcvtdq2pd256Vex3 p s
  | .vcvtdq2pd256Vex2 p => Sys2Proof.Machine.execVcvtdq2pd256Vex2 p s
  | .vcvtdq2pd128Evex p => Sys2Proof.Machine.execVcvtdq2pd128Evex p s
  | .vcvtdq2pd256Evex p => Sys2Proof.Machine.execVcvtdq2pd256Evex p s
  | .vcvtdq2pd512Evex p => Sys2Proof.Machine.execVcvtdq2pd512Evex p s
  | .cvtdq2ps p => Sys2Proof.Machine.execCvtdq2ps p s
  | .vcvtdq2ps128Vex3 p => Sys2Proof.Machine.execVcvtdq2ps128Vex3 p s
  | .vcvtdq2ps128Vex2 p => Sys2Proof.Machine.execVcvtdq2ps128Vex2 p s
  | .vcvtdq2ps256Vex3 p => Sys2Proof.Machine.execVcvtdq2ps256Vex3 p s
  | .vcvtdq2ps256Vex2 p => Sys2Proof.Machine.execVcvtdq2ps256Vex2 p s
  | .cvtpd2dq p => Sys2Proof.Machine.execCvtpd2dq p s
  | .vcvtpd2dq128Vex3 p => Sys2Proof.Machine.execVcvtpd2dq128Vex3 p s
  | .vcvtpd2dq128Vex2 p => Sys2Proof.Machine.execVcvtpd2dq128Vex2 p s
  | .vcvtpd2dq256Vex3 p => Sys2Proof.Machine.execVcvtpd2dq256Vex3 p s
  | .vcvtpd2dq256Vex2 p => Sys2Proof.Machine.execVcvtpd2dq256Vex2 p s
  | .cvtpd2pi p => Sys2Proof.Machine.execCvtpd2pi p s
  | .cvtpd2ps p => Sys2Proof.Machine.execCvtpd2ps p s
  | .vcvtpd2ps128Vex3 p => Sys2Proof.Machine.execVcvtpd2ps128Vex3 p s
  | .vcvtpd2ps128Vex2 p => Sys2Proof.Machine.execVcvtpd2ps128Vex2 p s
  | .vcvtpd2ps256Vex3 p => Sys2Proof.Machine.execVcvtpd2ps256Vex3 p s
  | .vcvtpd2ps256Vex2 p => Sys2Proof.Machine.execVcvtpd2ps256Vex2 p s

end Sys2Proof.Machine
end

