-- ==== Sys2Proof/Machine/Fetch.lean ====
section
/-! DEFINITION. The end of a run, fetching an instruction's bytes, and the launch state (spec 10_state.md R27, 20_memory.md R40, R45, R50,
60_exceptions.md R189, R201, 70_reset_and_hazards.md R221, D8, D10, D13, D15). -/

namespace Sys2Proof.Machine

/-- Whether the run has ended in success: the instruction pointer is at the end of the program text (R201, D15; that only
equality counts is log entry 42). -/
def State.runEnded (s : State) : Bool := s.textEnd == some s.rip

/-- The linear address of the instruction byte at offset i, through CS (R31, R40). -/
def State.fetchLinear (s : State) (i : Nat) : Qword := s.linear .cs s.rip i

/-- Why the instruction byte at offset i cannot be had, if it cannot, in the order of R189 and R42: address space and
canonical form or limit (D10, U13; #GP(0) for the first byte, R27, R183), #PF (R184), the end of memory (D6). The model
uses the same order in the four modes that D2 refuses: there too a fetch fault comes before the refusal, with #GP(0)
beyond the CS limit and #PF at the privilege level of CS bits 1:0 (DEDUCED from R189, unsafe; log entry 37). The #GP(0) on
a first byte beyond the limit is DEDUCED in every such mode (log entries 22 and 29). -/
def fetchStop (s : State) (i : Nat) : Option Stop :=
  let inRange :=
    if s.mode = .mode64 then canonical s.cfg.linAddrBits (s.fetchLinear i)
    else decide (s.rip.toNat + i ≤ s.segs.cs.limit.toNat)
  let wraps := if s.mode = .mode64 then decide (2 ^ 64 ≤ s.rip.toNat + i) else decide (2 ^ 32 ≤ s.rip.toNat + i)
  if wraps then some (.refused .fetchCrossesEnd)
  else if !inRange then
    some (if i = 0 then raise .gp s else .refused .fetchCrossesEnd)
  else
    match s.translate .fetch (s.fetchLinear i) with
    | .error code => some (raise (.pf (s.fetchLinear i) code) s)
    | .ok _ =>
      match s.mem.read (s.fetchLinear i).toNat with
      | none => some (.fault (.stuckFetch (s.fetchLinear i)))
      | some _ => none

/-- Up to `n` instruction bytes from offset i on, and why they end, if they end early. -/
def fetchFrom (s : State) : Nat → Nat → List Byte × Option Stop
  | 0, _ => ([], none)
  | n + 1, i =>
    match fetchStop s i with
    | some stop => ([], some stop)
    | none =>
      let t := fetchFrom s n (i + 1)
      (((s.mem.read (s.fetchLinear i).toNat).getD 0) :: t.1, t.2)

/-- What the decoder reads of a state. -/
def State.decodeCtx (s : State) : DecodeCtx := ⟨s.mode, s.cfg.lenientPrefixes, s.cfg.allowAddr16⟩

/-- The outcome when the bytes end before the instruction does: why they end. -/
def fetchOutcome (s : State) : Option Stop → Host.Outcome State Fault Refusal
  | some stop => outcome (.error stop)
  | none => outcome (.error (raise .gp s))

/-- What a step does with what the decoder answers (R11, R60, R189). -/
def runDecoded (s : State) (fetched : List Byte × Option Stop) : Decoded → Host.Outcome State Fault Refusal
  | .instr i => exec i s
  | .ud => outcome (.error (raise .ud s))
  | .tooLong => outcome (.error (raise .gp s))
  | .refused r => .refused (.decode r)
  | .truncated => fetchOutcome s fetched.2

/-- What software must establish before the forms are usable in Mode64 (R221): 64-bit mode (CR0.PE = 1), CR0.EM = TS = 0,
CR4.OSFXSR = OSXMMEXCPT = OSXSAVE = 1, XCR0[7:5] and [2:0] all ones. Everything else stays. -/
def State.launched (s : State) : State :=
  { s with
    mode := .mode64
    cr0 := (s.cr0 ||| 0x1#64) &&& ~~~ 0xC#64
    cr4 := s.cr4 ||| 0x40600#64
    xcr0 := s.xcr0 ||| 0xE7#64 }

/-- Bytes placed where the next instruction is fetched, as a program text that ends after them (R221, D15). -/
def State.withFetchBytes (s : State) (bs : List Byte) : State :=
  { s with
    mem := s.mem.writeAll (s.fetchLinear 0).toNat bs
    textEnd := some (s.nextIp bs.length) }

end Sys2Proof.Machine
end

