-- ==== Sys2Proof/Machine/Step.lean ====
section
/-! DEFINITION. One step: fetch, decode, execute (spec 00_scope.md R11, 60_exceptions.md R201). -/

namespace Sys2Proof.Machine

/-- One step decodes and executes the instruction at the instruction pointer (R11). At the end of the program text there is
no step: the run has ended, in success (R201, D15). A state with MXCSR[31:16] other than 0 is no launch state and is
refused (U6). -/
def step (s : State) : Host.Outcome State Fault Refusal :=
  if s.runEnded then .fault (.endOfText s)
  else if s.mxcsr.extractLsb' 16 16 ≠ 0 then .refused .mxcsrReserved
  else runDecoded s (fetchFrom s 15 0) (decode s.decodeCtx (fetchFrom s 15 0).1)

/-- The state in which the very next step runs the instruction whose bits are `w`: the program's launch (R221, D8; log
entry 2), with the instruction's bytes and zeros after them, 15 in all, as the program text where the fetch reads. -/
def State.withFetchWord (s : State) (nbits w : Nat) : State := s.launched.withFetchBytes (tableBytes nbits w)

end Sys2Proof.Machine
end

