-- ==== Sys2Proof/WellFormed.lean ====
section
/-! DEFINITION. Which terms of `Instr` are instructions of the admitted subset in a given mode (spec 30_encoding.md
rules R60 to R78, R82): exactly the terms an encoding stands for. `wellFormed` is a Bool, one check per condition. -/

namespace Sys2Proof

/-- Address form and address size agree, and no form takes the place of another: r/m 100 is SIB, r/m 101 without
displacement is disp32, SIB.base 101 without displacement is no base (R65 to R67). -/
def AddrForm.ok (asz : AddrSize) : AddrForm → Bool
  | .base rm d => asz != .a16 && rm != 4 && !(rm == 5 && d == .none)
  | .disp32 _ => asz != .a16
  | .sib _ _ b d => asz != .a16 && !(b == 5 && d == .none)
  | .sibNoBase _ _ _ => asz != .a16
  | .a16 rm d => asz == .a16 && !(rm == 6 && d == .none)
  | .a16Disp _ => asz == .a16

/-- Operand 2 is one an encoding stands for. -/
def Rm.ok (asz : AddrSize) : Rm → Bool
  | .reg _ => true
  | .mem a => a.ok asz

/-- Checks shared by the layouts: a REX byte among the prefixes exists in Mode64 only (R62); operand 2 (R64 to R67); no
16-bit addressing where it is refused (U14). -/
def commonOk (c : DecodeCtx) (pre : List Pre) (rm : Rm) : Bool :=
  (c.mode == .mode64 || pre.all (fun p => match p with | .rex _ => false | _ => true))
  && rm.ok (addrSize c.mode pre) && !addr16Refused c rm

/-- A LEGACY form with mandatory prefix `pp` (R60 to R62). The last check: a REX byte directly before 0FH is the `rex`
field, not a prefix. -/
def LegacyOp.ok (c : DecodeCtx) (pp : Pp) (p : LegacyOp) : Bool :=
  commonOk c p.pre p.rm
  && mandatory p.pre == pp
  && !p.pre.contains .lock
  && (c.lenientPrefixes || strictLegacy pp p.pre p.rex)
  && (c.mode == .mode64 || p.rex == none)
  && (p.rex != none || (match p.pre.getLast? with | some (.rex _) => false | _ => true))
  && decide (p.len ≤ 15)

/-- What VEX and EVEX ask of the prefixes before them (R61). -/
def vexPreOk (c : DecodeCtx) (pre : List Pre) : Bool :=
  !pre.any Pre.badBeforeVex && (c.lenientPrefixes || strictOptional pre)

/-- A three-byte VEX form; outside Mode64 the stored R and X are 1 (R71). -/
def Vex3Op.ok (c : DecodeCtx) (p : Vex3Op) : Bool :=
  commonOk c p.pre p.rm && vexPreOk c p.pre
  && (c.mode == .mode64 || (!p.r && !p.x))
  && decide (p.len ≤ 15)

/-- A two-byte VEX form; outside Mode64 the stored R is 1 (R84). -/
def Vex2Op.ok (c : DecodeCtx) (p : Vex2Op) : Bool :=
  commonOk c p.pre p.rm && vexPreOk c p.pre
  && (c.mode == .mode64 || !p.r)
  && decide (p.len ≤ 15)

/-- An EVEX form of the row with L'L = `ll` (R73, R77, U5, U14). Outside Mode64 the stored R and X are 1 (R84); B and R'
are 1 too, except where the mode itself makes every EVEX form #UD (log entry 15). -/
def EvexOp.ok (c : DecodeCtx) (ll : BitVec 2) (p : EvexOp) : Bool :=
  commonOk c p.pre p.rm && vexPreOk c p.pre
  && (c.mode == .mode64 || (!p.r && !p.x))
  && (!extensionRefused c.mode || (!p.b && !p.r4))
  && !evexAddr16Refused c p.rm
  && !(p.z && p.aaa == 0)
  && (p.ll == ll || (ll == 2 && p.ll == 3 && p.bc && p.rm.isReg))
  && decide (p.len ≤ 15)

/-- The term is an instruction of the admitted subset in the given mode. -/
def Instr.wellFormed (c : DecodeCtx) : Instr → Bool
  | .cvtdq2pd p => p.ok c .pF3
  | .vcvtdq2pd128Vex3 p => p.ok c
  | .vcvtdq2pd128Vex2 p => p.ok c
  | .vcvtdq2pd256Vex3 p => p.ok c
  | .vcvtdq2pd256Vex2 p => p.ok c
  | .vcvtdq2pd128Evex p => p.ok c 0
  | .vcvtdq2pd256Evex p => p.ok c 1
  | .vcvtdq2pd512Evex p => p.ok c 2
  | .cvtdq2ps p => p.ok c .none
  | .vcvtdq2ps128Vex3 p => p.ok c
  | .vcvtdq2ps128Vex2 p => p.ok c
  | .vcvtdq2ps256Vex3 p => p.ok c
  | .vcvtdq2ps256Vex2 p => p.ok c
  | .cvtpd2dq p => p.ok c .pF2
  | .vcvtpd2dq128Vex3 p => p.ok c
  | .vcvtpd2dq128Vex2 p => p.ok c
  | .vcvtpd2dq256Vex3 p => p.ok c
  | .vcvtpd2dq256Vex2 p => p.ok c
  | .cvtpd2pi p => p.ok c .p66
  | .cvtpd2ps p => p.ok c .p66
  | .vcvtpd2ps128Vex3 p => p.ok c
  | .vcvtpd2ps128Vex2 p => p.ok c
  | .vcvtpd2ps256Vex3 p => p.ok c
  | .vcvtpd2ps256Vex2 p => p.ok c

end Sys2Proof
end

