-- ==== Sys2Proof/Safety.lean ====
section
/-! DEFINITION. The terms the claims use: when a form is enabled, when an operand is readable and what it holds, what an
instruction leaves, the machine's invariant, and the numeric meaning of the floating-point formats and of rounding. -/

namespace Sys2Proof.Machine

/-! ## Safe runs -/

/-- A step that ends in neither a fault nor a refusal. -/
def Completes (s : State) : Prop := ∃ t, step s = .next t

/-- Every one of the first `n` steps completes. -/
def SafeFor : Nat → State → Prop
  | 0, _ => True
  | n + 1, s => ∃ t, step s = .next t ∧ SafeFor n t

/-- From `s`, a run that ends in success after `n` instructions, at the end of its program text in state `t` (R201, D15). -/
def RunSucceeds : Nat → State → State → Prop
  | 0, s, t => step s = .fault (.endOfText t)
  | n + 1, s, t => ∃ u, step s = .next u ∧ RunSucceeds n u t

/-! ## When a form executes normally (R181, R182, R221) -/

/-- The legacy SSE forms and CVTPD2PI: an admitted mode, SSE2, CR0.EM = 0, CR0.TS = 0, CR4.OSFXSR = 1. -/
abbrev LegacyEnabled (s : State) : Prop :=
  (s.mode = .mode64 ∨ s.mode = .mode32) ∧ s.cfg.sse2 = true ∧ s.cr0.getLsbD 2 = false ∧ s.cr0.getLsbD 3 = false
    ∧ s.cr4.getLsbD 9 = true

/-- The VEX forms: an admitted mode, AVX, CR0.TS = 0, CR4.OSXSAVE = 1, XCR0[2:1] = 11b. -/
abbrev VexEnabled (s : State) : Prop :=
  (s.mode = .mode64 ∨ s.mode = .mode32) ∧ s.cfg.avx = true ∧ s.cr0.getLsbD 3 = false ∧ s.cr4.getLsbD 18 = true
    ∧ s.xcr0.getLsbD 1 = true ∧ s.xcr0.getLsbD 2 = true

/-- The EVEX forms: an admitted mode, AVX512F, AVX512VL for the two shorter lengths, CR0.TS = 0, CR4.OSXSAVE = 1,
XCR0[2:1] = 11b, XCR0[7:5] = 111b. -/
abbrev EvexEnabled (needVl : Bool) (s : State) : Prop :=
  (s.mode = .mode64 ∨ s.mode = .mode32) ∧ s.cfg.avx512f = true ∧ (needVl = true → s.cfg.avx512vl = true)
    ∧ s.cr0.getLsbD 3 = false ∧ s.cr4.getLsbD 18 = true ∧ s.xcr0.getLsbD 1 = true ∧ s.xcr0.getLsbD 2 = true
    ∧ s.xcr0.getLsbD 5 = true ∧ s.xcr0.getLsbD 6 = true ∧ s.xcr0.getLsbD 7 = true

/-- No prefix or operand of the form asks for a refused treatment: EVEX.b = 0 or a memory operand (R76). -/
abbrev NotEmbeddedRounding (p : EvexOp) : Prop := p.bc = false ∨ p.rm.isReg = false

/-! ## Operands in memory and registers -/

/-- A segment violation of rule R45 by some byte at the offsets `offs`: in Mode64 a linear address that is not canonical;
otherwise a null selector (bits 15:2 = 0: log entry 43), a segment that may not be read, or an offset beyond the limit. -/
abbrev SegmentViolation (s : State) (g : SegReg) (ea : Qword) (offs : List Nat) : Prop :=
  (s.mode = .mode64 ∧ ∃ i ∈ offs, canonical s.cfg.linAddrBits (s.linear g ea i) = false)
    ∨ (s.mode ≠ .mode64 ∧ ((s.segment g).selector.extractLsb' 2 14 = 0 ∨ (s.segment g).readable = false
        ∨ ∃ i ∈ offs, (s.segment g).limit.toNat < ea.toNat + i))

/-- The condition of #AC (R44, R185): alignment checking is on (CR0.AM = 1, EFLAGS.AC = 1, CPL = 3) and a misaligned operand
of a form without the 16-byte requirement has at most 8 bytes, or is wider under `ac_on_wide_vectors` (U7). -/
abbrev AlignmentViolation (s : State) (acc : MemAccess) : Prop :=
  acc.align16 = false ∧ s.cr0.getLsbD 18 = true ∧ s.rflags.getLsbD 18 = true
    ∧ s.segs.cs.selector.extractLsb' 0 2 = 3 ∧ (acc.size ≤ 8 ∨ s.cfg.acOnWideVectors = true)
    ∧ (s.linear acc.seg acc.ea 0).toNat % acc.size ≠ 0

/-- The byte at offset i of a data operand is mapped for reading and holds `b` (R32, R50). -/
def byteIs (s : State) (g : SegReg) (ea : Qword) (i : Nat) (b : Byte) : Bool :=
  (s.translate .read (s.linear g ea i)).toOption.isSome
    && s.mem.read (s.linear g ea i).toNat == some b

/-- The bytes at the offsets `offs` of an operand of `size` bytes can be read, and `v` holds them: segment checks,
alignment, translation and memory all in order (R42 to R45, R50), no #AC. -/
def bytesAre (s : State) (g : SegReg) (ea : Qword) (size : Nat) (offs : List Nat) (align16 : Bool) (v : SrcVec) :
    Bool :=
  decide (¬SegmentViolation s g ea offs)
    && (!align16 || (s.linear g ea 0).toNat % 16 == 0)
    && decide (¬AlignmentViolation s ⟨g, ea, size, offs, align16⟩)
    && offs.all (fun i => byteIs s g ea i (v.extractLsb' (8 * i) 8))

/-- The source operand of `n` bytes can be had and its low `8n` bits are those of `v` (R102, R43). -/
def sourceIs (s : State) (src : Src) (n : Nat) (align16 : Bool) (v : SrcVec) : Bool :=
  match src with
  | .reg r => v == (s.vec r).setWidth 256
  | .mem g ea => bytesAre s g ea n (List.range n) align16 v

/-- Doubleword element j of a full register. -/
def vecDword (v : Vec) (j : Nat) : Dword := v.extractLsb' (32 * j) 32

/-! ## What an instruction leaves (R35) -/

/-- Everything but `ZMM[d]`, MXCSR and the instruction pointer is as before; every byte of memory reads as before. -/
structure OnlyVec (s t : State) (d : BitVec 5) : Prop where
  fields : t = { s with zmm := t.zmm, mxcsr := t.mxcsr, rip := t.rip }
  others : ∀ r, r ≠ d → t.vec r = s.vec r
  memory : ∀ a, t.mem.read a = s.mem.read a

/-- Everything but `MM[n]` and bits 79:64 above it, TOP, the tag word, MXCSR and the instruction pointer is as before
(R24, R25, R35). -/
structure OnlyMmx (s t : State) (n : BitVec 3) : Prop where
  fields : t = { s with x87 := t.x87, mxcsr := t.mxcsr, rip := t.rip }
  others : ∀ k : Fin 8, k.val ≠ n.toNat → t.x87.phys[k] = s.x87.phys[k]
  status : ∀ i < 16, i < 11 ∨ 13 < i → t.x87.status.getLsbD i = s.x87.status.getLsbD i
  control : t.x87.control = s.x87.control

/-- The instruction pointer stands after the instruction: `len` bytes further, the instruction's encoded length, modulo
2^32 outside Mode64 (R27), modulo 2^64 in Mode64 (the model's reading at the top: log entry 44). -/
abbrev IpAfter (i : Instr) (s t : State) : Prop :=
  t.rip.toNat = (s.rip.toNat + (encode i).length) % 2 ^ (if s.mode = .mode64 then 64 else 32)

/-- What a CVTDQ2PD form `i` leaves: element j converted from source element j, MXCSR unchanged, the instruction pointer
advanced, nothing else written. -/
structure Dq2pdDone (i : Instr) (s t : State) (o : Operands) (ne : Nat) (v : SrcVec) : Prop where
  frame : OnlyVec s t o.dest
  mxcsr : t.mxcsr = s.mxcsr
  ip : IpAfter i s t
  lanes : ∀ j < ne, vecQword (t.vec o.dest) j = cvtI32ToF64 (dwordAt v j)

/-- What a tier B form `i` with a vector destination leaves: doubleword j the value of `conv j`, every element's flags ORed
into MXCSR, the instruction pointer advanced, nothing else written. -/
structure DwordsDone (i : Instr) (s t : State) (o : Operands) (ne : Nat) (conv : Nat → Conv 32) : Prop where
  frame : OnlyVec s t o.dest
  mxcsr : t.mxcsr = s.mxcsr ||| ((condOf conv ne).flags).setWidth 32
  ip : IpAfter i s t
  lanes : ∀ j < ne, vecDword (t.vec o.dest) j = (conv j).val

/-- Element j of an EVEX form is enabled: bit j of opmask register `aaa` is 1, or `aaa` = 000b, no writemask (R22,
R75). -/
abbrev MaskOn (p : EvexOp) (s : State) (j : Nat) : Prop := p.aaa = 0 ∨ (s.opmask p.aaa).getLsbD j = true

/-- The offsets of the bytes of the enabled doublewords among `row` (R51). -/
def maskedOffs (p : EvexOp) (s : State) (row : Nat) : List Nat :=
  (List.range (4 * row)).filter fun k => decide (MaskOn p s (k / 4))

/-- What an EVEX form `i` leaves: enabled elements converted, disabled ones kept (z = 0) or zeroed (z = 1). -/
structure EvexDone (i : Instr) (s t : State) (p : EvexOp) (o : Operands) (kl : Nat) (src : Nat → Dword) : Prop where
  frame : OnlyVec s t o.dest
  mxcsr : t.mxcsr = s.mxcsr
  ip : IpAfter i s t
  on : ∀ j < kl, MaskOn p s j → vecQword (t.vec o.dest) j = cvtI32ToF64 (src j)
  merged : ∀ j < kl, ¬MaskOn p s j → p.z = false → vecQword (t.vec o.dest) j = vecQword (s.vec o.dest) j
  zeroed : ∀ j < kl, ¬MaskOn p s j → p.z = true → vecQword (t.vec o.dest) j = 0

/-- Bits 511:128 of `ZMM[d]` are as before: the legacy forms (R20). -/
abbrev UpperKept (s t : State) (d : BitVec 5) : Prop := (t.vec d).extractLsb' 128 384 = (s.vec d).extractLsb' 128 384

/-- Every bit of `ZMM[d]` from bit `n` up is 0: the VEX and EVEX forms (R20). -/
abbrev ZeroFrom (t : State) (d : BitVec 5) (n : Nat) : Prop := t.vec d >>> n = 0

/-- Every condition of elements 0 to n-1 is masked; with UM = 0 no result is tiny (R165, R166, R168). -/
abbrev AllMasked (s : State) (conv : Nat → Conv 32) (n : Nat) : Prop :=
  ∀ j < n, (conv j).flags &&& ~~~ s.simdMasks = 0 ∧ ((conv j).tiny = true → s.um = true)

/-! ## Instructions by family and layout -/

/-- The vector register a form writes; none for CVTPD2PI. -/
def destOf (i : Instr) (s : State) : Option (BitVec 5) :=
  match i with
  | .cvtdq2pd p => some (legacyOperands p s).dest
  | .vcvtdq2pd128Vex3 p => some (vex3Operands p s).dest
  | .vcvtdq2pd128Vex2 p => some (vex2Operands p s).dest
  | .vcvtdq2pd256Vex3 p => some (vex3Operands p s).dest
  | .vcvtdq2pd256Vex2 p => some (vex2Operands p s).dest
  | .vcvtdq2pd128Evex p => some (evexOperands p 1 s).dest
  | .vcvtdq2pd256Evex p => some (evexOperands p 1 s).dest
  | .vcvtdq2pd512Evex p => some (evexOperands p 1 s).dest
  | .cvtdq2ps p => some (legacyOperands p s).dest
  | .vcvtdq2ps128Vex3 p => some (vex3Operands p s).dest
  | .vcvtdq2ps128Vex2 p => some (vex2Operands p s).dest
  | .vcvtdq2ps256Vex3 p => some (vex3Operands p s).dest
  | .vcvtdq2ps256Vex2 p => some (vex2Operands p s).dest
  | .cvtpd2dq p => some (legacyOperands p s).dest
  | .vcvtpd2dq128Vex3 p => some (vex3Operands p s).dest
  | .vcvtpd2dq128Vex2 p => some (vex2Operands p s).dest
  | .vcvtpd2dq256Vex3 p => some (vex3Operands p s).dest
  | .vcvtpd2dq256Vex2 p => some (vex2Operands p s).dest
  | .cvtpd2pi _ => none
  | .cvtpd2ps p => some (legacyOperands p s).dest
  | .vcvtpd2ps128Vex3 p => some (vex3Operands p s).dest
  | .vcvtpd2ps128Vex2 p => some (vex2Operands p s).dest
  | .vcvtpd2ps256Vex3 p => some (vex3Operands p s).dest
  | .vcvtpd2ps256Vex2 p => some (vex2Operands p s).dest

/-- The MXCSR flags a form may set (R169). -/
def maySet : Instr → SimdFlags
  | .cvtdq2pd _ => 0
  | .vcvtdq2pd128Vex3 _ => 0
  | .vcvtdq2pd128Vex2 _ => 0
  | .vcvtdq2pd256Vex3 _ => 0
  | .vcvtdq2pd256Vex2 _ => 0
  | .vcvtdq2pd128Evex _ => 0
  | .vcvtdq2pd256Evex _ => 0
  | .vcvtdq2pd512Evex _ => 0
  | .cvtdq2ps _ => SimdFlags.pe
  | .vcvtdq2ps128Vex3 _ => SimdFlags.pe
  | .vcvtdq2ps128Vex2 _ => SimdFlags.pe
  | .vcvtdq2ps256Vex3 _ => SimdFlags.pe
  | .vcvtdq2ps256Vex2 _ => SimdFlags.pe
  | .cvtpd2dq _ => SimdFlags.ie ||| SimdFlags.pe
  | .vcvtpd2dq128Vex3 _ => SimdFlags.ie ||| SimdFlags.pe
  | .vcvtpd2dq128Vex2 _ => SimdFlags.ie ||| SimdFlags.pe
  | .vcvtpd2dq256Vex3 _ => SimdFlags.ie ||| SimdFlags.pe
  | .vcvtpd2dq256Vex2 _ => SimdFlags.ie ||| SimdFlags.pe
  | .cvtpd2pi _ => SimdFlags.ie ||| SimdFlags.pe
  | .cvtpd2ps _ => ~~~ SimdFlags.ze
  | .vcvtpd2ps128Vex3 _ => ~~~ SimdFlags.ze
  | .vcvtpd2ps128Vex2 _ => ~~~ SimdFlags.ze
  | .vcvtpd2ps256Vex3 _ => ~~~ SimdFlags.ze
  | .vcvtpd2ps256Vex2 _ => ~~~ SimdFlags.ze

/-- The forms of CVTDQ2PD: tier A (R3). -/
def tierA : Instr → Bool
  | .cvtdq2pd _ => true
  | .vcvtdq2pd128Vex3 _ => true
  | .vcvtdq2pd128Vex2 _ => true
  | .vcvtdq2pd256Vex3 _ => true
  | .vcvtdq2pd256Vex2 _ => true
  | .vcvtdq2pd128Evex _ => true
  | .vcvtdq2pd256Evex _ => true
  | .vcvtdq2pd512Evex _ => true
  | _ => false

/-- A form of a LEGACY, VEX or EVEX row (R60). -/
inductive Layout where
  | legacy | vex | evex
deriving DecidableEq, Repr

/-- The layout of a form. -/
def layoutOf : Instr → Layout
  | .cvtdq2pd _ => .legacy
  | .cvtdq2ps _ => .legacy
  | .cvtpd2dq _ => .legacy
  | .cvtpd2pi _ => .legacy
  | .cvtpd2ps _ => .legacy
  | .vcvtdq2pd128Evex _ => .evex
  | .vcvtdq2pd256Evex _ => .evex
  | .vcvtdq2pd512Evex _ => .evex
  | _ => .vex

/-- The four forms whose memory operand must be 16-byte aligned (R44). -/
def needsAlign16 : Instr → Bool
  | .cvtdq2ps _ => true
  | .cvtpd2dq _ => true
  | .cvtpd2pi _ => true
  | .cvtpd2ps _ => true
  | _ => false

/-- The source operand and the bytes a memory form reads, for the forms without a writemask (R43). -/
def plainSource (i : Instr) (s : State) : Option (Src × Nat) :=
  match i with
  | .cvtdq2pd p => some ((legacyOperands p s).src, 8)
  | .vcvtdq2pd128Vex3 p => some ((vex3Operands p s).src, 8)
  | .vcvtdq2pd128Vex2 p => some ((vex2Operands p s).src, 8)
  | .vcvtdq2pd256Vex3 p => some ((vex3Operands p s).src, 16)
  | .vcvtdq2pd256Vex2 p => some ((vex2Operands p s).src, 16)
  | .vcvtdq2pd128Evex _ => none
  | .vcvtdq2pd256Evex _ => none
  | .vcvtdq2pd512Evex _ => none
  | .cvtdq2ps p => some ((legacyOperands p s).src, 16)
  | .vcvtdq2ps128Vex3 p => some ((vex3Operands p s).src, 16)
  | .vcvtdq2ps128Vex2 p => some ((vex2Operands p s).src, 16)
  | .vcvtdq2ps256Vex3 p => some ((vex3Operands p s).src, 32)
  | .vcvtdq2ps256Vex2 p => some ((vex2Operands p s).src, 32)
  | .cvtpd2dq p => some ((legacyOperands p s).src, 16)
  | .vcvtpd2dq128Vex3 p => some ((vex3Operands p s).src, 16)
  | .vcvtpd2dq128Vex2 p => some ((vex2Operands p s).src, 16)
  | .vcvtpd2dq256Vex3 p => some ((vex3Operands p s).src, 32)
  | .vcvtpd2dq256Vex2 p => some ((vex2Operands p s).src, 32)
  | .cvtpd2pi p => some ((legacyOperands p s).src, 16)
  | .cvtpd2ps p => some ((legacyOperands p s).src, 16)
  | .vcvtpd2ps128Vex3 p => some ((vex3Operands p s).src, 16)
  | .vcvtpd2ps128Vex2 p => some ((vex2Operands p s).src, 16)
  | .vcvtpd2ps256Vex3 p => some ((vex3Operands p s).src, 32)
  | .vcvtpd2ps256Vex2 p => some ((vex2Operands p s).src, 32)

/-- The EVEX forms, with their row's lane count (R77). -/
def evexRowOf : Instr → Option (EvexOp × Nat)
  | .vcvtdq2pd128Evex p => some (p, 2)
  | .vcvtdq2pd256Evex p => some (p, 4)
  | .vcvtdq2pd512Evex p => some (p, 8)
  | _ => none

/-- The enables a form needs to get past #UD and #NM (R181, R182); AVX512VL only where the vector length needs it. -/
abbrev EnabledFor (i : Instr) (s : State) : Prop :=
  match evexRowOf i with
  | some (p, row) => EvexEnabled ((evexLength p row s.cfg).needVl row) s
  | none => if layoutOf i = .legacy then LegacyEnabled s else VexEnabled s

/-- EVEX.b = 1 with a register source, the case of rule R76. -/
def embeddedRounding (i : Instr) : Bool :=
  match evexRowOf i with
  | some (p, _) => p.bc && p.rm.isReg
  | none => false

/-- No x87 exception is pending, asked of CVTPD2PI alone (R143). -/
abbrev NoX87Pending (i : Instr) (s : State) : Prop :=
  match i with
  | .cvtpd2pi _ => s.x87.status.getLsbD 7 = false
  | _ => True

/-- The data access of a form with a memory operand (R43, R44, R51, R52): the whole operand, or the bytes of the enabled
elements, or the one broadcast datum. `none`: the source is a register. -/
def memAccessOf (i : Instr) (s : State) : Option MemAccess :=
  match evexRowOf i with
  | some (p, row) =>
    match (evexOperands p (evexDispScale p row) s).src with
    | .reg _ => none
    | .mem g ea =>
      some (if p.bc then ⟨g, ea, 4, if ∃ j < row, MaskOn p s j then List.range 4 else [], false⟩
        else ⟨g, ea, 4 * row, maskedOffs p s row, false⟩)
  | none =>
    match plainSource i s with
    | some (.mem g ea, n) => some ⟨g, ea, n, List.range n, needsAlign16 i⟩
    | _ => none

/-- The elements a tier B form converts from source `v`, and each element's conversion. -/
def simdLanes (i : Instr) (s : State) (v : SrcVec) : Option (Nat × (Nat → Conv 32)) :=
  match i with
  | .cvtdq2ps _ => some (4, s.dq2psLane v)
  | .vcvtdq2ps128Vex3 _ => some (4, s.dq2psLane v)
  | .vcvtdq2ps128Vex2 _ => some (4, s.dq2psLane v)
  | .vcvtdq2ps256Vex3 _ => some (8, s.dq2psLane v)
  | .vcvtdq2ps256Vex2 _ => some (8, s.dq2psLane v)
  | .cvtpd2dq _ => some (2, s.pd2dqLane v)
  | .vcvtpd2dq128Vex3 _ => some (2, s.pd2dqLane v)
  | .vcvtpd2dq128Vex2 _ => some (2, s.pd2dqLane v)
  | .vcvtpd2dq256Vex3 _ => some (4, s.pd2dqLane v)
  | .vcvtpd2dq256Vex2 _ => some (4, s.pd2dqLane v)
  | .cvtpd2pi _ => some (2, s.pd2dqLane v)
  | .cvtpd2ps _ => some (2, s.pd2psLane v)
  | .vcvtpd2ps128Vex3 _ => some (2, s.pd2psLane v)
  | .vcvtpd2ps128Vex2 _ => some (2, s.pd2psLane v)
  | .vcvtpd2ps256Vex3 _ => some (4, s.pd2psLane v)
  | .vcvtpd2ps256Vex2 _ => some (4, s.pd2psLane v)
  | _ => none

/-- The #UD causes of rule R181 that features, enables, the mode and AVX512VL make, for the form's layout. The causes in the
instruction's bytes (LOCK, bad prefixes, vvvv, reserved EVEX fields) and the unmasked SIMD condition are not among them. -/
def UdCause (i : Instr) (s : State) : Prop :=
  match layoutOf i with
  | .legacy => s.cfg.sse2 = false ∨ s.cr0.getLsbD 2 = true ∨ s.cr4.getLsbD 9 = false
  | .vex =>
    s.cfg.avx = false ∨ s.cr4.getLsbD 18 = false ∨ s.xcr0.getLsbD 1 = false ∨ s.xcr0.getLsbD 2 = false
      ∨ s.mode = .realAddress ∨ s.mode = .virtual8086
  | .evex =>
    s.cfg.avx512f = false ∨ s.cr4.getLsbD 18 = false ∨ s.xcr0.getLsbD 1 = false ∨ s.xcr0.getLsbD 2 = false
      ∨ s.xcr0.getLsbD 5 = false ∨ s.xcr0.getLsbD 6 = false ∨ s.xcr0.getLsbD 7 = false
      ∨ s.mode = .realAddress ∨ s.mode = .virtual8086
      ∨ (s.cfg.avx512vl = false ∧ embeddedRounding i = false ∧ ∃ p row, evexRowOf i = some (p, row) ∧ row ≠ 8)

/-! ## Instruction bytes in memory -/

/-- The instruction byte at offset i lies within the address space: below 2^64 and canonical in Mode64 (R27, R40), within
the code-segment limit otherwise (D10; for the modes D2 refuses, log entry 37). -/
abbrev FetchInRange (s : State) (i : Nat) : Prop :=
  if s.mode = .mode64 then
    s.rip.toNat + i < 2 ^ 64 ∧ canonical s.cfg.linAddrBits (BitVec.ofNat 64 (s.rip.toNat + i)) = true
  else s.rip.toNat + i ≤ s.segs.cs.limit.toNat

/-- The linear address of the instruction byte at offset i: the instruction pointer plus i in Mode64, through the CS base
modulo 2^32 otherwise (R31, R40; for each byte, log entry 41). -/
abbrev fetchAddress (s : State) (i : Nat) : Qword :=
  if s.mode = .mode64 then BitVec.ofNat 64 (s.rip.toNat + i)
  else BitVec.ofNat 64 ((s.segs.cs.base.toNat + s.rip.toNat + i) % 2 ^ 32)

/-- Every byte of `bs` can be fetched at its place after the instruction pointer, and stands there (R27, R40, R41). -/
def FetchesBytes (s : State) (bs : List Byte) : Prop :=
  ∀ j (h : j < bs.length), FetchInRange s j ∧ (s.translate .fetch (fetchAddress s j)).toOption.isSome = true
    ∧ s.mem.read (fetchAddress s j).toNat = some bs[j]

/-- The prefix bytes of an instruction, a REX byte directly before 0FH not among them. -/
def prefixesOf : Instr → List Pre
  | .cvtdq2pd p | .cvtdq2ps p | .cvtpd2dq p | .cvtpd2pi p | .cvtpd2ps p => p.pre
  | .vcvtdq2pd128Vex3 p | .vcvtdq2pd256Vex3 p | .vcvtdq2ps128Vex3 p | .vcvtdq2ps256Vex3 p | .vcvtpd2dq128Vex3 p
  | .vcvtpd2dq256Vex3 p | .vcvtpd2ps128Vex3 p | .vcvtpd2ps256Vex3 p => p.pre
  | .vcvtdq2pd128Vex2 p | .vcvtdq2pd256Vex2 p | .vcvtdq2ps128Vex2 p | .vcvtdq2ps256Vex2 p | .vcvtpd2dq128Vex2 p
  | .vcvtpd2dq256Vex2 p | .vcvtpd2ps128Vex2 p | .vcvtpd2ps256Vex2 p => p.pre
  | .vcvtdq2pd128Evex p | .vcvtdq2pd256Evex p | .vcvtdq2pd512Evex p => p.pre

/-- The bytes of an instruction with one more byte after its first `n` bytes. -/
def encodeWithByte (i : Instr) (n : Nat) (b : Byte) : List Byte :=
  (encode i).take n ++ b :: (encode i).drop n

/-! ## The invariant -/

/-- What holds of every state a run from a good state reaches: memory in canonical form; MXCSR[31:16] = 0 (R23, U6); no
vector register has a bit at or above `MAX_VL`, and registers 16 to 31 hold nothing without AVX512F (R20, R21); no
opmask bit at or above `KW` (R5, R22); outside Mode64 the instruction pointer has 32 bits (R27). -/
structure Inv (s : State) : Prop where
  memory : s.mem.wf = true
  mxcsr : s.mxcsr.extractLsb' 16 16 = 0
  width : ∀ r : BitVec 5, s.vec r >>> s.cfg.maxVl = 0
  count : s.cfg.avx512f = false → ∀ r : BitVec 5, 16 ≤ r.toNat → s.vec r = 0
  masks : ∀ n : BitVec 3, s.opmask n >>> s.cfg.opmaskWidth.bits = 0
  ip : s.mode ≠ .mode64 → s.rip.toNat < 2 ^ 32

/-! ## Encodings with one field changed -/

/-- The three-byte VEX bytes with the opcode map set to `map` and the stored vvvv field to `v` (R69). -/
def vex3BytesWith (map : BitVec 5) (v : BitVec 4) (pp : Pp) (l : Bool) (opc : Byte) (p : Vex3Op) : List Byte :=
  p.pre.map Pre.byte
    ++ 0xC4 :: (BitVec.ofBool (!p.r) ++ BitVec.ofBool (!p.x) ++ BitVec.ofBool (!p.b) ++ map)
    :: (BitVec.ofBool p.w ++ v ++ BitVec.ofBool l ++ pp.field)
    :: opc :: encodeModRM p.reg p.rm

/-- The two-byte VEX bytes with the stored vvvv field set to `v` (R70). -/
def vex2BytesWith (v : BitVec 4) (pp : Pp) (l : Bool) (opc : Byte) (p : Vex2Op) : List Byte :=
  p.pre.map Pre.byte
    ++ 0xC5 :: (BitVec.ofBool (!p.r) ++ v ++ BitVec.ofBool l ++ pp.field)
    :: opc :: encodeModRM p.reg p.rm

/-- The EVEX bytes with the stored vvvv and V' fields, P0[3:2] and P1[2] set as given (R72, R73). -/
def evexBytesWith (v : BitVec 4) (v' : Bool) (reserved : BitVec 2) (fixed : Bool) (p : EvexOp) : List Byte :=
  p.pre.map Pre.byte
    ++ 0x62
    :: (BitVec.ofBool (!p.r) ++ BitVec.ofBool (!p.x) ++ BitVec.ofBool (!p.b) ++ BitVec.ofBool (!p.r4) ++ reserved
        ++ 0b01#2)
    :: (0#1 ++ v ++ BitVec.ofBool fixed ++ 0b10#2)
    :: (BitVec.ofBool p.z ++ p.ll ++ BitVec.ofBool p.bc ++ BitVec.ofBool v' ++ p.aaa)
    :: 0xE6 :: encodeModRM p.reg p.rm

/-! ## Addresses as integers (R65 to R68) -/

/-- A displacement as an integer; a disp8 is multiplied by `n`. -/
def dispInt (n : Nat) : Disp → Int
  | .none => 0
  | .d8 d => d.toInt * n
  | .d32 d => d.toInt

/-- A 16-bit form's displacement as an integer. -/
def disp16Int : Disp16 → Int
  | .none => 0
  | .d8 d => d.toInt
  | .d16 d => d.toInt

/-- General register 8·`on` + `n` as an integer. -/
def regInt (s : State) (on : Bool) (n : BitVec 3) : Int := (s.reg (ext on n)).toNat

/-- The scaled index as an integer; index number 4 means none. -/
def indexInt (s : State) (x : Bool) (scale : BitVec 2) (index : BitVec 3) : Int :=
  if x = false ∧ index = 4 then 0 else regInt s x index * 2 ^ scale.toNat

/-- The register sum of a 16-bit addressing form (R67). -/
def base16Int (s : State) (rm : BitVec 3) : Int :=
  match rm.toNat with
  | 0 => regInt s false 3 + regInt s false 6
  | 1 => regInt s false 3 + regInt s false 7
  | 2 => regInt s false 5 + regInt s false 6
  | 3 => regInt s false 5 + regInt s false 7
  | 4 => regInt s false 6
  | 5 => regInt s false 7
  | 6 => regInt s false 5
  | _ => regInt s false 3

/-- The sum of rules R65 to R68 before truncation, over the integers. -/
def addressSum (s : State) (b x : Bool) (len n : Nat) : AddrForm → Int
  | .base rm d => regInt s b rm + dispInt n d
  | .disp32 d => if s.mode = .mode64 then s.rip.toNat + len + d.toInt else d.toInt
  | .sib scale index bs d => regInt s b bs + indexInt s x scale index + dispInt n d
  | .sibNoBase scale index d => indexInt s x scale index + d.toInt
  | .a16 rm d => base16Int s rm + disp16Int d
  | .a16Disp d => d.toNat

/-- The address size in bits. -/
def addrSizeBits : AddrSize → Nat
  | .a16 => 16
  | .a32 => 32
  | .a64 => 64

/-- The default segment (R66, R67): SS with base register 4 or 5, or with BP; DS otherwise. -/
def defaultSegment (b : Bool) : AddrForm → SegReg
  | .base rm _ => if b = false ∧ (rm = 4 ∨ rm = 5) then .ss else .ds
  | .sib _ _ bs _ => if b = false ∧ (bs = 4 ∨ bs = 5) then .ss else .ds
  | .a16 rm _ => if rm = 2 ∨ rm = 3 ∨ rm = 6 then .ss else .ds
  | _ => .ds

/-- What a form's operands are (R62, R65 to R70, R74): the destination is register `dest`, with a register source and
with a memory source alike; a register source is register `hi` + r/m; a memory source is the default segment or the
override, and the address sum modulo 2^A, `b` and `x` extending base and index and a disp8 scaled by `n`; `len` is the
encoded length. -/
structure OperandsAre (s : State) (pre : List Pre) (rm : Rm) (o : Operands) (dest hi : Nat) (b x : Bool) (n len : Nat) :
    Prop where
  dest : o.dest.toNat = dest
  reg : ∀ m, rm = .reg m → ∃ k, o.src = .reg k ∧ k.toNat = hi + m.toNat
  mem : ∀ a, rm = .mem a →
    ∃ ea : Qword, o.src = .mem ((segOverride s.mode pre).getD (defaultSegment b a)) ea
      ∧ (ea.toNat : Int) = addressSum s b x len n a % 2 ^ addrSizeBits (addrSize s.mode pre)
  len : o.len = len

/-! ## Numeric meaning of the formats and of rounding (R160 to R162) -/

/-- The value of a finite binary64 datum in units of 2^-1074 (R161). -/
def f64Value (v : Qword) : Int := if f64Sign v then -(f64Mag v : Int) else f64Mag v

/-- The biased exponent of a binary32 datum (R160). -/
def f32Exp (v : Dword) : Nat := (v.extractLsb' 23 8).toNat

/-- The fraction of a binary32 datum (R160). -/
def f32Frac (v : Dword) : Nat := (v.extractLsb' 0 23).toNat

/-- The value of a finite binary32 datum in units of 2^-149 (R160). -/
def f32Value (v : Dword) : Int :=
  let m : Nat := if f32Exp v = 0 then f32Frac v else (2 ^ 23 + f32Frac v) * 2 ^ (f32Exp v - 1)
  if v.getLsbD 31 then -(m : Int) else m

/-- A finite binary32 datum: e other than 255. -/
abbrev f32Finite (v : Dword) : Prop := f32Exp v ≠ 255

/-- The binary64 datum with the value of a normal binary32 datum (R160, R161). -/
def widenNormal (v : Dword) : Qword := f64Make (v.getLsbD 31) (f32Exp v + 896) (f32Frac v * 2 ^ 29)

/-- `n` quanta `q` are the rounding of `x` under `rc` (R162): nearest with ties to an even multiple, toward minus
infinity, toward plus infinity, toward zero. -/
def RoundsTo (rc : Rc) (x q n : Int) : Prop :=
  match rc with
  | .nearest => 2 * |n * q - x| < q ∨ (2 * |n * q - x| = q ∧ n % 2 = 0)
  | .down => n * q ≤ x ∧ x < (n + 1) * q
  | .up => (n - 1) * q < x ∧ x ≤ n * q
  | .zero => (0 ≤ x ∧ n * q ≤ x ∧ x < (n + 1) * q) ∨ (x < 0 ∧ (n - 1) * q < x ∧ x ≤ n * q)

/-- The flag set {PE} if a conversion is inexact, else none. -/
def peIf (inexact : Bool) : SimdFlags := if inexact then SimdFlags.pe else 0

/-- The quantum of a rounding to 24 significant bits of a magnitude given in some unit (R162); 1 when the magnitude has
no more than 24 bits, and is then its own rounding. -/
def sigQuantum (mag : Nat) : Nat := 2 ^ (Nat.log2 mag - 23)

end Sys2Proof.Machine
end

