-- ==== Sys2Proof/Certificates/Slice0/Obligations.lean ====
section
/-! DEFINITION. The statements for the provers. -/

open Sys2Proof Sys2Proof.Machine

/-! ## Encoding -/

/-- R60 to R81: every well-formed instruction, of every form, decodes from its own bytes, whatever follows them. -/
def Obligations.DecodeOfEncodeIsIdentity : Prop :=
  ∀ (c : DecodeCtx) (i : Instr) (rest : List Byte),
    i.wellFormed c = true → decode c (encode i ++ rest) = .instr i

/-- R60 to R82: what the decoder accepts is a well-formed instruction, and the bytes it read are exactly that
instruction's encoding: no bit of an accepted encoding is ignored. -/
def Obligations.DecodedBytesAreTheEncoding : Prop :=
  ∀ (c : DecodeCtx) (bytes : List Byte) (i : Instr),
    decode c bytes = .instr i → i.wellFormed c = true ∧ ∃ rest, bytes = encode i ++ rest

/-- Words written out from the spec's encodings (rules R81, R103 to R108, R121, R131, R141, R151) decode to the
instructions they stand for. -/
def Obligations.SpecWordsDecode : Prop :=
  ∀ lenient a16 : Bool,
    decode ⟨.mode64, lenient, a16⟩ [0xF3, 0x0F, 0xE6, 0xC1] = .instr (.cvtdq2pd ⟨[.rep], none, 0, .reg 1⟩)
    ∧ decode ⟨.mode64, lenient, a16⟩ [0xC5, 0xFE, 0xE6, 0xC1] = .instr (.vcvtdq2pd256Vex2 ⟨[], false, 0, .reg 1⟩)
    ∧ decode ⟨.mode64, lenient, a16⟩ [0x62, 0xF1, 0x7E, 0x0B, 0xE6, 0x48, 0x01]
      = .instr (.vcvtdq2pd128Evex
          ⟨[], false, false, false, false, false, 0, false, 3, 1, .mem (.base 0 (.d8 1))⟩)
    ∧ decode ⟨.mode64, lenient, a16⟩ [0x0F, 0x5B, 0xC1] = .instr (.cvtdq2ps ⟨[], none, 0, .reg 1⟩)
    ∧ decode ⟨.mode64, lenient, a16⟩ [0xF2, 0x0F, 0xE6, 0xC1] = .instr (.cvtpd2dq ⟨[.repne], none, 0, .reg 1⟩)
    ∧ decode ⟨.mode64, lenient, a16⟩ [0x66, 0x0F, 0x2D, 0xD9] = .instr (.cvtpd2pi ⟨[.opSize], none, 3, .reg 1⟩)
    ∧ decode ⟨.mode64, lenient, a16⟩ [0xC5, 0xFD, 0x5A, 0xC1] = .instr (.vcvtpd2ps256Vex2 ⟨[], false, 0, .reg 1⟩)

/-- R71, R82, R69: a VEX form whose stored vvvv is not 1111b is #UD. In Mode32 the three-byte value 0111b is refused
instead (U3), and a two-byte vvvv with its top bit clear is no VEX encoding at all (R84). The model's readings: in the four
modes that decision D2 refuses the two-byte case is as in Mode32, and #UD comes before D2's refusal (log entry 15); a
three-byte prefix with one of the maps 00010b and 00011b is refused (R82), with any other but 00001b it is #UD (R69; log
entry 38). -/
def Obligations.VexReservedFieldsAreUndefined : Prop :=
  (∀ (c : DecodeCtx) (pp : Pp) (l : Bool) (opc : Byte) (p : Vex3Op) (v : BitVec 4) (rest : List Byte),
    p.ok c = true → (vex3Row pp l opc).isSome = true → v ≠ 15 →
      (c.mode = .mode64 ∨ c.mode = .realAddress ∨ c.mode = .virtual8086 ∨ v ≠ 7 →
          decode c (vex3BytesWith 1 v pp l opc p ++ rest) = .ud)
      ∧ (c.mode = .mode32 ∧ v = 7 →
          decode c (vex3BytesWith 1 v pp l opc p ++ rest) = .refused .vexVvvvOutsideMode64))
  ∧ (∀ (c : DecodeCtx) (pp : Pp) (l : Bool) (opc : Byte) (p : Vex3Op) (map : BitVec 5) (v : BitVec 4)
      (rest : List Byte),
    p.ok c = true → map ≠ 1 →
      decode c (vex3BytesWith map v pp l opc p ++ rest) = if map = 2 ∨ map = 3 then .refused .otherMap else .ud)
  ∧ ∀ (c : DecodeCtx) (pp : Pp) (l : Bool) (opc : Byte) (p : Vex2Op) (v : BitVec 4) (rest : List Byte),
    p.ok c = true → (vex2Row pp l opc).isSome = true → v ≠ 15 →
      (c.mode = .mode64 ∨ v.getLsbD 3 = true → decode c (vex2BytesWith v pp l opc p ++ rest) = .ud)
      ∧ (c.mode ≠ .mode64 ∧ v.getLsbD 3 = false →
          decode c (vex2BytesWith v pp l opc p ++ rest) = .refused .notVexInThisMode)

/-- R73, R75, R77: in both admitted modes an EVEX form with a reserved field set otherwise is #UD: vvvv, V' (in Mode64),
P0[3:2], P1[2]; zeroing without a mask; L'L = 11b (with EVEX.b = 0 or a memory operand). In Mode32 a stored B, R' or V' of 0
is refused whatever the reserved fields hold (U5), and a stored R or X of 0 makes the bytes BOUND, refused (R84). The
model's readings: P0[3:2] raises #UD where R72 says refused (log entry 36); U5 comes before #UD (log entry 21). -/
def Obligations.EvexReservedFieldsAreUndefined : Prop :=
  ∀ (c : DecodeCtx) (ll : BitVec 2) (p : EvexOp) (rest : List Byte),
    c.mode = .mode64 ∨ c.mode = .mode32 → p.ok c ll = true →
      (∀ (v : BitVec 4) (v' : Bool) (reserved : BitVec 2) (fixed : Bool),
        c.mode = .mode64 ∨ v' = true → ¬(v = 15 ∧ v' = true ∧ reserved = 0 ∧ fixed = true) →
          decode c (evexBytesWith v v' reserved fixed p ++ rest) = .ud)
      ∧ decode c (encodeEvex { p with z := true, aaa := 0 } ++ rest) = .ud
      ∧ (p.bc = false ∨ p.rm.isReg = false → decode c (encodeEvex { p with ll := 3 } ++ rest) = .ud)
      ∧ (c.mode = .mode32 → ∀ (v : BitVec 4) (v' : Bool) (reserved : BitVec 2) (fixed b r4 : Bool),
        b = true ∨ r4 = true ∨ v' = false →
          decode c (evexBytesWith v v' reserved fixed { p with b := b, r4 := r4 } ++ rest)
            = .refused .evexBitsOutsideMode64)
      ∧ (c.mode = .mode32 → ∀ (v : BitVec 4) (v' : Bool) (reserved : BitVec 2) (fixed r x b r4 : Bool),
        r = true ∨ x = true →
          decode c (evexBytesWith v v' reserved fixed { p with r := r, x := x, b := b, r4 := r4 } ++ rest)
            = .refused .notVexInThisMode)

/-- R55: a LOCK byte at any place among the prefixes of a form raises #UD, with register and memory operands alike. -/
def Obligations.LockOnAnyFormRaisesUd : Prop :=
  ∀ (s : State) (i : Instr) (n : Nat),
    s.mxcsr.extractLsb' 16 16 = 0 → i.wellFormed s.decodeCtx = true → (encode i).length ≤ 14 →
    n ≤ (prefixesOf i).length → s.textEnd ≠ some s.rip → FetchesBytes s (encodeWithByte i n 0xF0) →
      step s = .fault (.exception .ud s)

/-- R61, R71, R73: 66H, F2H, F3H, and in Mode64 a REX byte, at any place before a VEX or EVEX lead byte is #UD. -/
def Obligations.BadPrefixBeforeVexIsUndefined : Prop :=
  ∀ (c : DecodeCtx) (i : Instr) (n : Nat) (b : Byte) (rest : List Byte),
    i.wellFormed c = true → layoutOf i ≠ .legacy → (encode i).length ≤ 14 → n ≤ (prefixesOf i).length →
    (b = 0x66 ∨ b = 0xF2 ∨ b = 0xF3 ∨ (c.mode = .mode64 ∧ 0x40 ≤ b.toNat ∧ b.toNat ≤ 0x4F)) →
      decode c (encodeWithByte i n b ++ rest) = .ud

/-- R60, R183: a LEGACY, VEX or EVEX form of more than 15 bytes is too long, whatever it would decode to: with every value of
the fields vvvv, V', P0[3:2] and P1[2], and with every VEX opcode map that is #UD when shorter (the maps 00010b and 00011b,
being another instruction's, are refused); so are 15 legacy prefix bytes with nothing else. That length comes before the
refusals of shorter sequences, and that the ModRM of a reserved map gives its length, are the model's readings (log entry
20). A step whose bytes are too long raises #GP(0). -/
def Obligations.LongerThanFifteenBytesIsTooLong : Prop :=
  (∀ (c : DecodeCtx) (opc : Byte) (p : LegacyOp) (rest : List Byte),
    (c.mode = .mode64 ∨ p.rex = none) → (∀ q ∈ p.pre, ∀ r, q ≠ .rex r) → p.rm.ok (addrSize c.mode p.pre) = true →
    (legacyRow (mandatory p.pre) opc).isSome = true → 15 < (encodeLegacy opc p).length →
      decode c (encodeLegacy opc p ++ rest) = .tooLong)
  ∧ (∀ (c : DecodeCtx) (map : BitVec 5) (v : BitVec 4) (pp : Pp) (l : Bool) (opc : Byte) (p : Vex3Op) (rest : List Byte),
    (c.mode = .mode64 ∨ p.r = false ∧ p.x = false) → (∀ q ∈ p.pre, ∀ r, q ≠ .rex r) →
    p.rm.ok (addrSize c.mode p.pre) = true → map ≠ 2 → map ≠ 3 → (map = 1 → (vex3Row pp l opc).isSome = true) →
    15 < (vex3BytesWith map v pp l opc p).length →
      decode c (vex3BytesWith map v pp l opc p ++ rest) = .tooLong)
  ∧ (∀ (c : DecodeCtx) (v : BitVec 4) (pp : Pp) (l : Bool) (opc : Byte) (p : Vex2Op) (rest : List Byte),
    (c.mode = .mode64 ∨ p.r = false ∧ v.getLsbD 3 = true) → (∀ q ∈ p.pre, ∀ r, q ≠ .rex r) →
    p.rm.ok (addrSize c.mode p.pre) = true → (vex2Row pp l opc).isSome = true →
    15 < (vex2BytesWith v pp l opc p).length → decode c (vex2BytesWith v pp l opc p ++ rest) = .tooLong)
  ∧ (∀ (c : DecodeCtx) (v : BitVec 4) (v' : Bool) (reserved : BitVec 2) (fixed : Bool) (p : EvexOp) (rest : List Byte),
    (c.mode = .mode64 ∨ p.r = false ∧ p.x = false) → (∀ q ∈ p.pre, ∀ r, q ≠ .rex r) →
    p.rm.ok (addrSize c.mode p.pre) = true → 15 < (evexBytesWith v v' reserved fixed p).length →
      decode c (evexBytesWith v v' reserved fixed p ++ rest) = .tooLong)
  ∧ (∀ (c : DecodeCtx) (bytes rest : List Byte),
    bytes.length = 15 → (∀ b ∈ bytes, (Pre.ofByte b).isSome = true) → decode c (bytes ++ rest) = .tooLong)
  ∧ ∀ (s : State) (bytes : List Byte),
    s.mxcsr.extractLsb' 16 16 = 0 → s.textEnd ≠ some s.rip → FetchesBytes s bytes →
    decode s.decodeCtx bytes = .tooLong →
      step s = .fault (.exception .gp s)

/-! ## Operands -/

/-- R62, R65 to R70, R74, R78, R21: the operands of every layout. In Mode64 REX or the VEX bit R extends the destination
number, B the register source or the base, X the index (the two-byte VEX prefix has X = B = 0, no REX means zeros); EVEX
adds R' to the destination and X to a register source; outside Mode64 no bit counts. -/
def Obligations.OperandsOfEveryLayout : Prop :=
  ∀ (s : State) (e : Bool), e = decide (s.mode = .mode64) →
    (∀ (opc : Byte) (p : LegacyOp) (w r x b : Bool),
      p.rex = some (BitVec.ofBool w ++ BitVec.ofBool r ++ BitVec.ofBool x ++ BitVec.ofBool b) →
        OperandsAre s p.pre p.rm (legacyOperands p s) (8 * (e && r).toNat + p.reg.toNat) (8 * (e && b).toNat)
          (e && b) (e && x) 1 (encodeLegacy opc p).length)
    ∧ (∀ (opc : Byte) (p : LegacyOp), p.rex = none →
        OperandsAre s p.pre p.rm (legacyOperands p s) p.reg.toNat 0 false false 1 (encodeLegacy opc p).length)
    ∧ (∀ (pp : Pp) (l : Bool) (opc : Byte) (p : Vex3Op),
        OperandsAre s p.pre p.rm (vex3Operands p s) (8 * (e && p.r).toNat + p.reg.toNat) (8 * (e && p.b).toNat)
          (e && p.b) (e && p.x) 1 (encodeVex3 pp l opc p).length)
    ∧ (∀ (pp : Pp) (l : Bool) (opc : Byte) (p : Vex2Op),
        OperandsAre s p.pre p.rm (vex2Operands p s) (8 * (e && p.r).toNat + p.reg.toNat) 0 false false 1
          (encodeVex2 pp l opc p).length)
    ∧ ∀ (p : EvexOp) (n : Nat),
        OperandsAre s p.pre p.rm (evexOperands p n s)
          (16 * (e && p.r4).toNat + 8 * (e && p.r).toNat + p.reg.toNat) (16 * (e && p.x).toNat + 8 * (e && p.b).toNat)
          (e && p.b) (e && p.x) n (encodeEvex p).length

/-- R65 to R68: the effective address of every addressing form is the sum of its parts modulo 2^A, A the address size,
and the segment is the default one unless an override counts. -/
def Obligations.EffectiveAddressIsTheSumModuloAddressSize : Prop :=
  ∀ (s : State) (pre : List Pre) (b x : Bool) (len n : Nat) (a : AddrForm),
    ∃ ea : Qword, s.memOperand pre b x len n a = .mem ((segOverride s.mode pre).getD (defaultSegment b a)) ea
      ∧ (ea.toNat : Int) = addressSum s b x len n a % 2 ^ addrSizeBits (addrSize s.mode pre)

/-- R78: an EVEX disp8 addresses what the disp32 of its value times N addresses, N being 8, 16, 32 by row and 4 with
broadcast, with and without a SIB byte; both are taken at the form's own scale, so a disp32 is not scaled. -/
def Obligations.CompressedDisplacementIsScaled : Prop :=
  ∀ (s : State) (p : EvexOp) (row N : Nat) (d : BitVec 8) (form : Disp → AddrForm),
    (row = 2 ∨ row = 4 ∨ row = 8) → N = (if p.bc = true then 4 else 4 * row) →
    ((∃ rm, form = .base rm) ∨ ∃ scale index bs, form = .sib scale index bs) →
      evexDispScale p row = N
      ∧ (evexOperands { p with rm := .mem (form (.d8 d)) } (evexDispScale p row) s).src
        = (evexOperands { p with rm := .mem (form (.d32 (d.signExtend 32 * BitVec.ofNat 32 N))) }
            (evexDispScale p row) s).src

/-- R61, R45, R31: the last segment override wins, in Mode64 only the FS and GS overrides counting; and the linear address
of byte i is base + EA + i, modulo 2^64 in Mode64 (where only FS and GS have a base), modulo 2^32 otherwise. The model's
readings: an ignored CS, DS, ES or SS override in Mode64 leaves an earlier FS or GS override in effect (log entry 28); the
modulus, which R45 gives for base + EA, counts for every byte i (log entry 41). -/
def Obligations.SegmentOverrideAndLinearAddress : Prop :=
  (∀ (pre post : List Pre) (r : SegReg), (∀ q ∈ post, q.isSeg = false) →
    segOverride .mode32 (pre ++ .seg r :: post) = some r
    ∧ segOverride .mode64 (pre ++ .seg r :: post) = if r = .fs ∨ r = .gs then some r else segOverride .mode64 pre)
  ∧ ∀ (s : State) (g : SegReg) (ea : Qword) (i : Nat),
    (s.linear g ea i).toNat =
      if s.mode = .mode64 then
        ((if g = .fs ∨ g = .gs then (s.segment g).base.toNat else 0) + ea.toNat + i) % 2 ^ 64
      else ((s.segment g).base.toNat + ea.toNat + i) % 2 ^ 32

/-! ## Conversions -/

/-- R100, R101: the double CvtI32ToF64 gives has exactly the integer's value, and is +0 or a normal number. -/
def Obligations.IntegerToDoubleIsExact : Prop :=
  ∀ v : Dword, f64Value (cvtI32ToF64 v) = v.toInt * 2 ^ 1074
    ∧ (if v = 0 then cvtI32ToF64 v = 0 else 1 ≤ f64Exp (cvtI32ToF64 v) ∧ f64Exp (cvtI32ToF64 v) ≤ 2046)

/-- R162: `roundDiv` gives the rounding of num/den, with its sign, under each rounding control. -/
def Obligations.RoundDivRoundsAsTheControlSays : Prop :=
  ∀ (rc : Rc) (neg : Bool) (num den : Nat), 0 < den →
    RoundsTo rc (if neg then -(num : Int) else num) den
      (if neg then -(roundDiv rc neg num den : Int) else roundDiv rc neg num den)

/-- R120: CvtI32ToF32 gives +0 for 0, and otherwise a normal single whose value is the integer rounded to 24 significant
bits, with PE exactly when that differs. -/
def Obligations.IntegerToSingleRounds : Prop :=
  ∀ (v : Dword) (rc : Rc),
    (v = 0 → cvtI32ToF32 v rc = ⟨0, 0, false⟩)
    ∧ (v ≠ 0 → ∃ n : Int, RoundsTo rc v.toInt (sigQuantum v.toInt.natAbs) n
        ∧ 1 ≤ f32Exp (cvtI32ToF32 v rc).val ∧ f32Exp (cvtI32ToF32 v rc).val ≤ 254
        ∧ f32Value (cvtI32ToF32 v rc).val = n * sigQuantum v.toInt.natAbs * 2 ^ 149
        ∧ (cvtI32ToF32 v rc).flags = peIf (n * sigQuantum v.toInt.natAbs ≠ v.toInt)
        ∧ (cvtI32ToF32 v rc).tiny = false)

/-- R130, R140: CvtF64ToI32 by cases: NaN or infinity, zero or flushed denormal, and otherwise the rounded value if it is
a signed doubleword, else the indefinite value with IE alone. -/
def Obligations.DoubleToIntegerRounds : Prop :=
  ∀ (v : Qword) (rc : Rc) (daz : Bool),
    (f64IsNan v = true ∨ f64IsInf v = true → cvtF64ToI32 v rc daz = ⟨0x80000000, SimdFlags.ie, false⟩)
    ∧ (f64IsZero v = true ∨ (f64IsDenormal v = true ∧ daz = true) → cvtF64ToI32 v rc daz = ⟨0, 0, false⟩)
    ∧ (f64Exp v ≠ 2047 → f64IsZero v = false → ¬(f64IsDenormal v = true ∧ daz = true) →
        ∃ n : Int, RoundsTo rc (f64Value v) (2 ^ 1074) n
          ∧ if -2147483648 ≤ n ∧ n ≤ 2147483647 then
              (cvtF64ToI32 v rc daz).val.toInt = n
              ∧ (cvtF64ToI32 v rc daz).flags = peIf (n * 2 ^ 1074 ≠ f64Value v)
            else cvtF64ToI32 v rc daz = ⟨0x80000000, SimdFlags.ie, false⟩)

/-- R150, R164, R167: narrowing of NaNs, infinities, zeros and flushed denormals, whatever the masks OM and UM are. -/
def Obligations.DoubleToSingleSpecialValues : Prop :=
  ∀ (v : Qword) (rc : Rc) (fz daz om um : Bool),
    (f64IsNan v = true →
      (narrowElement v rc fz daz om um).val = BitVec.ofBool (v.getLsbD 63) ++ 0xFF#8 ++ 1#1 ++ v.extractLsb' 29 22
      ∧ (narrowElement v rc fz daz om um).flags = if v.getLsbD 51 = true then 0 else SimdFlags.ie)
    ∧ (f64IsInf v = true → narrowElement v rc fz daz om um = ⟨BitVec.ofBool (v.getLsbD 63) ++ 0xFF#8 ++ 0#23, 0, false⟩)
    ∧ (f64IsZero v = true ∨ (f64IsDenormal v = true ∧ daz = true) →
        narrowElement v rc fz daz om um = ⟨BitVec.ofBool (v.getLsbD 63) ++ 0#31, 0, false⟩)

/-- R150, R168: a finite nonzero double rounds at 24 significant bits to n quanta. From 2^128 up the result is the
overflow value of the rounding control and sign, with OE, and with PE if OM = 1 or the rounded value differs from the
source's. That an exact overflow has no PE with OM = 0 is the model's reading (log entry 40). -/
def Obligations.DoubleToSingleOverflow : Prop :=
  ∀ (v : Qword) (rc : Rc) (fz daz om um : Bool) (n : Int),
    f64Exp v ≠ 2047 → 1 ≤ f64Exp v →
    RoundsTo rc (f64Value v) (sigQuantum (f64Mag v)) n → 2 ^ 1202 ≤ |n * sigQuantum (f64Mag v)| →
      narrowElement v rc fz daz om um =
        ⟨match rc, v.getLsbD 63 with
          | .nearest, false => 0x7F800000
          | .nearest, true => 0xFF800000
          | .zero, false => 0x7F7FFFFF
          | .zero, true => 0xFF7FFFFF
          | .down, false => 0x7F7FFFFF
          | .down, true => 0xFF800000
          | .up, false => 0x7F800000
          | .up, true => 0xFF7FFFFF,
        SimdFlags.oe ||| (if om = true then SimdFlags.pe else peIf (n * sigQuantum (f64Mag v) ≠ f64Value v)), false⟩

/-- R150, R168: rounded within the normal range of a single, the result has the rounded value and PE exactly when it
differs from the source's. -/
def Obligations.DoubleToSingleInRange : Prop :=
  ∀ (v : Qword) (rc : Rc) (fz daz om um : Bool) (n : Int),
    f64Exp v ≠ 2047 → 1 ≤ f64Exp v →
    RoundsTo rc (f64Value v) (sigQuantum (f64Mag v)) n →
    2 ^ 948 ≤ |n * sigQuantum (f64Mag v)| → |n * sigQuantum (f64Mag v)| < 2 ^ 1202 →
      f32Finite (narrowElement v rc fz daz om um).val
      ∧ f32Value (narrowElement v rc fz daz om um).val * 2 ^ 925 = n * sigQuantum (f64Mag v)
      ∧ (narrowElement v rc fz daz om um).flags = peIf (n * sigQuantum (f64Mag v) ≠ f64Value v)
      ∧ (narrowElement v rc fz daz om um).tiny = false

/-- R150, R167, R168: rounded below 2^-126 the result is tiny: a zero of the source's sign with UE and PE when
FZ = 1 and UM = 1, otherwise the source rounded once to a multiple of 2^-149 with the source's sign, with UE and PE exactly
when that differs; a denormal source adds DE. That PE goes by that rounding when UM = 0 is the model's reading (log
entry 40). -/
def Obligations.DoubleToSingleTiny : Prop :=
  ∀ (v : Qword) (rc : Rc) (fz daz om um : Bool) (n : Int),
    f64Exp v ≠ 2047 → f64IsZero v = false → ¬(f64IsDenormal v = true ∧ daz = true) →
    RoundsTo rc (f64Value v) (sigQuantum (f64Mag v)) n → |n * sigQuantum (f64Mag v)| < 2 ^ 948 →
      (narrowElement v rc fz daz om um).tiny = true
      ∧ (narrowElement v rc fz daz om um).val.getLsbD 31 = v.getLsbD 63
      ∧ (fz = true ∧ um = true →
          (narrowElement v rc fz daz om um).val.setWidth 31 = 0
          ∧ (narrowElement v rc fz daz om um).flags
            = (if f64IsDenormal v then SimdFlags.de else 0) ||| SimdFlags.ue ||| SimdFlags.pe)
      ∧ (fz = false ∨ um = false → ∃ k : Int, RoundsTo rc (f64Value v) (2 ^ 925) k
          ∧ f32Value (narrowElement v rc fz daz om um).val = k
          ∧ (narrowElement v rc fz daz om um).flags
            = (if f64IsDenormal v then SimdFlags.de else 0)
              ||| (if k * 2 ^ 925 = f64Value v then 0 else SimdFlags.ue ||| SimdFlags.pe))

/-- R135, R155: every 32-bit integer converted to a double and back is itself with no flag; a normal single widened to a
double (with the same value) converts back to itself with no flag. -/
def Obligations.ConversionsRoundTrip : Prop :=
  (∀ (v : Dword) (rc : Rc) (daz : Bool), cvtF64ToI32 (cvtI32ToF64 v) rc daz = ⟨v, 0, false⟩)
  ∧ ∀ (v : Dword) (rc : Rc) (fz daz om um : Bool), 1 ≤ f32Exp v → f32Exp v ≤ 254 →
    f64Value (widenNormal v) = f32Value v * 2 ^ 925 ∧ narrowElement (widenNormal v) rc fz daz om um = ⟨v, 0, false⟩

/-! ## What each form does: it completes, with this result and this frame -/

/-- R103: CVTDQ2PD xmm1, xmm2/m64 completes: two elements, bits above 127 kept, nothing else changed. -/
def Obligations.Cvtdq2pdLegacyResult : Prop :=
  ∀ (p : LegacyOp) (s : State) (v : SrcVec),
    LegacyEnabled s → sourceIs s (legacyOperands p s).src 8 false v = true →
      ∃ t, exec (.cvtdq2pd p) s = .next t ∧ Dq2pdDone (.cvtdq2pd p) s t (legacyOperands p s) 2 v
        ∧ UpperKept s t (legacyOperands p s).dest

/-- R104, R105: VCVTDQ2PD xmm1, xmm2/m64 and ymm1, xmm2/m128, with either VEX length, complete: two elements and zeros above
bit 127, four elements and zeros above bit 255. -/
def Obligations.Vcvtdq2pdVexResult : Prop :=
  ∀ (s : State) (v : SrcVec), VexEnabled s →
    (∀ p : Vex3Op, sourceIs s (vex3Operands p s).src 8 false v = true →
      ∃ t, exec (.vcvtdq2pd128Vex3 p) s = .next t ∧ Dq2pdDone (.vcvtdq2pd128Vex3 p) s t (vex3Operands p s) 2 v
        ∧ ZeroFrom t (vex3Operands p s).dest 128)
    ∧ (∀ p : Vex2Op, sourceIs s (vex2Operands p s).src 8 false v = true →
      ∃ t, exec (.vcvtdq2pd128Vex2 p) s = .next t ∧ Dq2pdDone (.vcvtdq2pd128Vex2 p) s t (vex2Operands p s) 2 v
        ∧ ZeroFrom t (vex2Operands p s).dest 128)
    ∧ (∀ p : Vex3Op, sourceIs s (vex3Operands p s).src 16 false v = true →
      ∃ t, exec (.vcvtdq2pd256Vex3 p) s = .next t ∧ Dq2pdDone (.vcvtdq2pd256Vex3 p) s t (vex3Operands p s) 4 v
        ∧ ZeroFrom t (vex3Operands p s).dest 256)
    ∧ (∀ p : Vex2Op, sourceIs s (vex2Operands p s).src 16 false v = true →
      ∃ t, exec (.vcvtdq2pd256Vex2 p) s = .next t ∧ Dq2pdDone (.vcvtdq2pd256Vex2 p) s t (vex2Operands p s) 4 v
        ∧ ZeroFrom t (vex2Operands p s).dest 256)

/-- R106 to R109, register source without EVEX.b: the three EVEX rows complete: enabled elements converted, disabled ones
kept or zeroed, zeros above the vector length. -/
def Obligations.Vcvtdq2pdEvexRegisterResult : Prop :=
  ∀ (p : EvexOp) (s : State) (m : BitVec 3) (r : BitVec 5), p.rm = .reg m → p.bc = false →
    ∀ (row : Nat) (i : Instr), (i, row) ∈ [(Instr.vcvtdq2pd128Evex p, 2), (.vcvtdq2pd256Evex p, 4),
        (.vcvtdq2pd512Evex p, 8)] →
      EvexEnabled (row != 8) s → (evexOperands p (4 * row) s).src = .reg r →
        ∃ t, exec i s = .next t
          ∧ EvexDone i s t p (evexOperands p (4 * row) s) row (fun j => vecDword (s.vec r) j)
          ∧ ZeroFrom t (evexOperands p (4 * row) s).dest (64 * row)

/-- R106 to R109, R51: a memory source without broadcast: the three EVEX rows complete when the bytes of the enabled
elements can be read, or no element is enabled; the other bytes do not matter. -/
def Obligations.Vcvtdq2pdEvexMemoryResult : Prop :=
  ∀ (p : EvexOp) (s : State) (v : SrcVec) (g : SegReg) (ea : Qword), p.bc = false →
    ∀ (row : Nat) (i : Instr), (i, row) ∈ [(Instr.vcvtdq2pd128Evex p, 2), (.vcvtdq2pd256Evex p, 4),
        (.vcvtdq2pd512Evex p, 8)] →
      EvexEnabled (row != 8) s → (evexOperands p (4 * row) s).src = .mem g ea →
      ((∀ j < row, ¬MaskOn p s j) ∨ bytesAre s g ea (4 * row) (maskedOffs p s row) false v = true) →
        ∃ t, exec i s = .next t
          ∧ EvexDone i s t p (evexOperands p (4 * row) s) row (fun j => dwordAt v j)
          ∧ ZeroFrom t (evexOperands p (4 * row) s).dest (64 * row)

/-- R106 to R109, R52: a broadcast source: the three EVEX rows complete when the one doubleword can be read, or no
element is enabled; every enabled element is its conversion. -/
def Obligations.Vcvtdq2pdEvexBroadcastResult : Prop :=
  ∀ (p : EvexOp) (s : State) (v : SrcVec) (g : SegReg) (ea : Qword), p.bc = true →
    ∀ (row : Nat) (i : Instr), (i, row) ∈ [(Instr.vcvtdq2pd128Evex p, 2), (.vcvtdq2pd256Evex p, 4),
        (.vcvtdq2pd512Evex p, 8)] →
      EvexEnabled (row != 8) s → (evexOperands p 4 s).src = .mem g ea →
      ((∀ j < row, ¬MaskOn p s j) ∨ bytesAre s g ea 4 (List.range 4) false v = true) →
        ∃ t, exec i s = .next t ∧ EvexDone i s t p (evexOperands p 4 s) row (fun _ => dwordAt v 0)
          ∧ ZeroFrom t (evexOperands p 4 s).dest (64 * row)

/-- R76, D14, the model's parameter `evex_b_reg` (log entry 18): EVEX.b = 1 with a register source is refused under
`refuse`, converts eight elements under `vl_512`, and the row's under `vl_from_LL` unless L'L is 11b, which is #UD. That under
`vl_512` no row needs AVX512VL is the model's reading (log entry 19). -/
def Obligations.EvexBWithRegisterFollowsTheParameter : Prop :=
  ∀ (p : EvexOp) (s : State) (m : BitVec 3) (r : BitVec 5), p.rm = .reg m → p.bc = true →
    (evexOperands p 4 s).src = .reg r →
    ∀ (row : Nat) (i : Instr), (i, row) ∈ [(Instr.vcvtdq2pd128Evex p, 2), (.vcvtdq2pd256Evex p, 4),
        (.vcvtdq2pd512Evex p, 8)] →
      (s.cfg.evexBReg = .refuse → EvexEnabled (row != 8) s → exec i s = .refused .evexBWithRegister)
      ∧ (s.cfg.evexBReg = .vl512 → EvexEnabled false s →
          ∃ t, exec i s = .next t ∧ EvexDone i s t p (evexOperands p 4 s) 8 (fun j => vecDword (s.vec r) j))
      ∧ (s.cfg.evexBReg = .vlFromLL → p.ll ≠ 3 → EvexEnabled (row != 8) s →
          ∃ t, exec i s = .next t ∧ EvexDone i s t p (evexOperands p 4 s) row (fun j => vecDword (s.vec r) j)
            ∧ ZeroFrom t (evexOperands p 4 s).dest (64 * row))
      ∧ (s.cfg.evexBReg = .vlFromLL → p.ll = 3 → exec i s = .fault (.exception .ud s))

/-- R121: CVTDQ2PS xmm1, xmm2/m128 completes when every condition is masked: four elements, bits above 127 kept, the
flags ORed into MXCSR. -/
def Obligations.Cvtdq2psLegacyResult : Prop :=
  ∀ (p : LegacyOp) (s : State) (v : SrcVec),
    LegacyEnabled s → sourceIs s (legacyOperands p s).src 16 true v = true → AllMasked s (s.dq2psLane v) 4 →
      ∃ t, exec (.cvtdq2ps p) s = .next t ∧ DwordsDone (.cvtdq2ps p) s t (legacyOperands p s) 4 (s.dq2psLane v)
        ∧ UpperKept s t (legacyOperands p s).dest

/-- R122, R123: VCVTDQ2PS xmm1, xmm2/m128 and ymm1, ymm2/m256, with either VEX length, complete when every condition is
masked: four or eight elements, zeros above them. -/
def Obligations.Vcvtdq2psVexResult : Prop :=
  ∀ (s : State) (v : SrcVec), VexEnabled s →
    (∀ p : Vex3Op, sourceIs s (vex3Operands p s).src 16 false v = true → AllMasked s (s.dq2psLane v) 4 →
      ∃ t, exec (.vcvtdq2ps128Vex3 p) s = .next t
        ∧ DwordsDone (.vcvtdq2ps128Vex3 p) s t (vex3Operands p s) 4 (s.dq2psLane v)
        ∧ ZeroFrom t (vex3Operands p s).dest 128)
    ∧ (∀ p : Vex2Op, sourceIs s (vex2Operands p s).src 16 false v = true → AllMasked s (s.dq2psLane v) 4 →
      ∃ t, exec (.vcvtdq2ps128Vex2 p) s = .next t
        ∧ DwordsDone (.vcvtdq2ps128Vex2 p) s t (vex2Operands p s) 4 (s.dq2psLane v)
        ∧ ZeroFrom t (vex2Operands p s).dest 128)
    ∧ (∀ p : Vex3Op, sourceIs s (vex3Operands p s).src 32 false v = true → AllMasked s (s.dq2psLane v) 8 →
      ∃ t, exec (.vcvtdq2ps256Vex3 p) s = .next t
        ∧ DwordsDone (.vcvtdq2ps256Vex3 p) s t (vex3Operands p s) 8 (s.dq2psLane v)
        ∧ ZeroFrom t (vex3Operands p s).dest 256)
    ∧ (∀ p : Vex2Op, sourceIs s (vex2Operands p s).src 32 false v = true → AllMasked s (s.dq2psLane v) 8 →
      ∃ t, exec (.vcvtdq2ps256Vex2 p) s = .next t
        ∧ DwordsDone (.vcvtdq2ps256Vex2 p) s t (vex2Operands p s) 8 (s.dq2psLane v)
        ∧ ZeroFrom t (vex2Operands p s).dest 256)

/-- R131: CVTPD2DQ xmm1, xmm2/m128 completes when every condition is masked: two doublewords, bits 127:64 zeroed, bits
above 127 kept. -/
def Obligations.Cvtpd2dqLegacyResult : Prop :=
  ∀ (p : LegacyOp) (s : State) (v : SrcVec),
    LegacyEnabled s → sourceIs s (legacyOperands p s).src 16 true v = true → AllMasked s (s.pd2dqLane v) 2 →
      ∃ t, exec (.cvtpd2dq p) s = .next t ∧ DwordsDone (.cvtpd2dq p) s t (legacyOperands p s) 2 (s.pd2dqLane v)
        ∧ vecQword (t.vec (legacyOperands p s).dest) 1 = 0 ∧ UpperKept s t (legacyOperands p s).dest

/-- R132, R133: VCVTPD2DQ xmm1, xmm2/m128 and xmm1, ymm2/m256, with either VEX length, complete when every condition is
masked: two or four doublewords, zeros above them. -/
def Obligations.Vcvtpd2dqVexResult : Prop :=
  ∀ (s : State) (v : SrcVec), VexEnabled s →
    (∀ p : Vex3Op, sourceIs s (vex3Operands p s).src 16 false v = true → AllMasked s (s.pd2dqLane v) 2 →
      ∃ t, exec (.vcvtpd2dq128Vex3 p) s = .next t
        ∧ DwordsDone (.vcvtpd2dq128Vex3 p) s t (vex3Operands p s) 2 (s.pd2dqLane v)
        ∧ ZeroFrom t (vex3Operands p s).dest 64)
    ∧ (∀ p : Vex2Op, sourceIs s (vex2Operands p s).src 16 false v = true → AllMasked s (s.pd2dqLane v) 2 →
      ∃ t, exec (.vcvtpd2dq128Vex2 p) s = .next t
        ∧ DwordsDone (.vcvtpd2dq128Vex2 p) s t (vex2Operands p s) 2 (s.pd2dqLane v)
        ∧ ZeroFrom t (vex2Operands p s).dest 64)
    ∧ (∀ p : Vex3Op, sourceIs s (vex3Operands p s).src 32 false v = true → AllMasked s (s.pd2dqLane v) 4 →
      ∃ t, exec (.vcvtpd2dq256Vex3 p) s = .next t
        ∧ DwordsDone (.vcvtpd2dq256Vex3 p) s t (vex3Operands p s) 4 (s.pd2dqLane v)
        ∧ ZeroFrom t (vex3Operands p s).dest 128)
    ∧ (∀ p : Vex2Op, sourceIs s (vex2Operands p s).src 32 false v = true → AllMasked s (s.pd2dqLane v) 4 →
      ∃ t, exec (.vcvtpd2dq256Vex2 p) s = .next t
        ∧ DwordsDone (.vcvtpd2dq256Vex2 p) s t (vex2Operands p s) 4 (s.pd2dqLane v)
        ∧ ZeroFrom t (vex2Operands p s).dest 128)

/-- R141, R142, R24, R25: CVTPD2PI completes when no x87 exception is pending and every condition is masked: MM[reg] gets
the two doublewords, bits 79:64 above it all ones, TOP 0, every tag valid; the other data registers, the other status
bits, the control word and every vector register are unchanged. -/
def Obligations.Cvtpd2piResult : Prop :=
  ∀ (p : LegacyOp) (s : State) (v : SrcVec),
    LegacyEnabled s → s.x87.status.getLsbD 7 = false → sourceIs s (legacyOperands p s).src 16 true v = true →
    AllMasked s (s.pd2dqLane v) 2 →
      ∃ t, exec (.cvtpd2pi p) s = .next t
        ∧ t = { s with x87 := t.x87, mxcsr := t.mxcsr, rip := t.rip }
        ∧ t.mm p.reg = (s.pd2dqLane v 1).val ++ (s.pd2dqLane v 0).val
        ∧ (t.x87.phys[p.reg.toNat]'p.reg.isLt).extractLsb' 64 16 = 0xFFFF
        ∧ (∀ n : Fin 8, n.val ≠ p.reg.toNat → t.x87.phys[n] = s.x87.phys[n])
        ∧ t.x87.status.extractLsb' 11 3 = 0
        ∧ (∀ i < 16, i < 11 ∨ 13 < i → t.x87.status.getLsbD i = s.x87.status.getLsbD i)
        ∧ t.x87.tag = 0 ∧ t.x87.control = s.x87.control
        ∧ t.mxcsr = s.mxcsr ||| ((s.pd2dqLane v 0).flags ||| (s.pd2dqLane v 1).flags).setWidth 32
        ∧ IpAfter (.cvtpd2pi p) s t

/-- R151: CVTPD2PS xmm1, xmm2/m128 completes when every condition is masked: two singles, bits 127:64 zeroed, bits above
127 kept. -/
def Obligations.Cvtpd2psLegacyResult : Prop :=
  ∀ (p : LegacyOp) (s : State) (v : SrcVec),
    LegacyEnabled s → sourceIs s (legacyOperands p s).src 16 true v = true → AllMasked s (s.pd2psLane v) 2 →
      ∃ t, exec (.cvtpd2ps p) s = .next t ∧ DwordsDone (.cvtpd2ps p) s t (legacyOperands p s) 2 (s.pd2psLane v)
        ∧ vecQword (t.vec (legacyOperands p s).dest) 1 = 0 ∧ UpperKept s t (legacyOperands p s).dest

/-- R152, R153: VCVTPD2PS xmm1, xmm2/m128 and xmm1, ymm2/m256, with either VEX length, complete when every condition is
masked: two or four singles, zeros above them. -/
def Obligations.Vcvtpd2psVexResult : Prop :=
  ∀ (s : State) (v : SrcVec), VexEnabled s →
    (∀ p : Vex3Op, sourceIs s (vex3Operands p s).src 16 false v = true → AllMasked s (s.pd2psLane v) 2 →
      ∃ t, exec (.vcvtpd2ps128Vex3 p) s = .next t
        ∧ DwordsDone (.vcvtpd2ps128Vex3 p) s t (vex3Operands p s) 2 (s.pd2psLane v)
        ∧ ZeroFrom t (vex3Operands p s).dest 64)
    ∧ (∀ p : Vex2Op, sourceIs s (vex2Operands p s).src 16 false v = true → AllMasked s (s.pd2psLane v) 2 →
      ∃ t, exec (.vcvtpd2ps128Vex2 p) s = .next t
        ∧ DwordsDone (.vcvtpd2ps128Vex2 p) s t (vex2Operands p s) 2 (s.pd2psLane v)
        ∧ ZeroFrom t (vex2Operands p s).dest 64)
    ∧ (∀ p : Vex3Op, sourceIs s (vex3Operands p s).src 32 false v = true → AllMasked s (s.pd2psLane v) 4 →
      ∃ t, exec (.vcvtpd2ps256Vex3 p) s = .next t
        ∧ DwordsDone (.vcvtpd2ps256Vex3 p) s t (vex3Operands p s) 4 (s.pd2psLane v)
        ∧ ZeroFrom t (vex3Operands p s).dest 128)
    ∧ (∀ p : Vex2Op, sourceIs s (vex2Operands p s).src 32 false v = true → AllMasked s (s.pd2psLane v) 4 →
      ∃ t, exec (.vcvtpd2ps256Vex2 p) s = .next t
        ∧ DwordsDone (.vcvtpd2ps256Vex2 p) s t (vex2Operands p s) 4 (s.pd2psLane v)
        ∧ ZeroFrom t (vex2Operands p s).dest 128)

/-! ## What every form keeps, sets and may not depend on -/

/-- R35: a form that completes changes its destination register, the MXCSR flags of its row of R35 and the instruction
pointer (CVTPD2PI: `MM[reg]` with bits 79:64 above it, TOP and the tag word in place of the register), and nothing else;
every byte of memory reads as before. At an exception none of that has changed but, for an unmasked SIMD floating-point
exception, MXCSR flags of the same row, set and never cleared (CR2 and the model's counter stand outside R35's table). -/
def Obligations.FrameOfEveryInstruction : Prop :=
  ∀ (i : Instr) (s : State),
    (∀ t, exec i s = .next t →
      (match destOf i s with
        | some d => OnlyVec s t d
        | none => ∃ p, i = .cvtpd2pi p ∧ OnlyMmx s t p.reg)
      ∧ (∃ f : SimdFlags, f &&& ~~~ maySet i = 0 ∧ t.mxcsr = s.mxcsr ||| f.setWidth 32)
      ∧ ∀ a, t.mem.read a = s.mem.read a)
    ∧ ∀ e u, exec i s = .fault (.exception e u) →
      u = { s with mxcsr := u.mxcsr, cr2 := u.cr2, free := u.free }
      ∧ (∃ f : SimdFlags, f &&& ~~~ maySet i = 0 ∧ u.mxcsr = s.mxcsr ||| f.setWidth 32)
      ∧ (u.mxcsr ≠ s.mxcsr → tierA i = false ∧ e = if s.cr4.getLsbD 10 = true then .xm else .ud)

/-- R23, R165: no step, completing or ending in an exception, clears an MXCSR flag, sets ZE or writes a control field. -/
def Obligations.MxcsrFlagsOnlyAccumulate : Prop :=
  ∀ s t : State, (step s = .next t ∨ ∃ e, step s = .fault (.exception e t)) →
    ∃ f : SimdFlags, f.getLsbD 2 = false ∧ t.mxcsr = s.mxcsr ||| f.setWidth 32

/-- R101, R23: MXCSR is not read by CVTDQ2PD: with any other MXCSR a form completes in the same way, faults with the same
exception, and is refused for the same reason. -/
def Obligations.Cvtdq2pdDoesNotReadMxcsr : Prop :=
  ∀ (i : Instr) (s : State) (m : Dword), tierA i = true →
    (∀ t, exec i s = .next t → exec i (s.setMxcsr m) = .next (t.setMxcsr m))
    ∧ (∀ e u, exec i s = .fault (.exception e u) → exec i (s.setMxcsr m) = .fault (.exception e (u.setMxcsr m)))
    ∧ (∀ r, exec i s = .refused r → exec i (s.setMxcsr m) = .refused r)

/-- R35, R42, R43, R51, R52: only the bytes of its data access matter to a form: with a memory that agrees on them it
completes in the same way. A form with a register source depends on no memory. -/
def Obligations.OnlyAccessedBytesMatter : Prop :=
  ∀ (i : Instr) (s t : State) (m : Memory), exec i s = .next t →
    (∀ acc, memAccessOf i s = some acc → ∀ k ∈ acc.offs,
      Memory.read m (s.linear acc.seg acc.ea k).toNat = s.mem.read (s.linear acc.seg acc.ea k).toNat) →
      exec i { s with mem := m } = .next { t with mem := m }

/-- R190: at an exception of a step the destination register, the instruction pointer and the x87 state are as before;
nothing has changed but MXCSR flags, ORed in by #XM or its #UD substitute alone, and CR2, by #PF alone (and the model's own
counter of free values). -/
def Obligations.ExceptionsArePrecise : Prop :=
  ∀ (s u : State) (e : Exn), step s = .fault (.exception e u) →
    u = { s with mxcsr := u.mxcsr, cr2 := u.cr2, free := u.free }
    ∧ (∃ f : SimdFlags, u.mxcsr = s.mxcsr ||| f.setWidth 32)
    ∧ (u.mxcsr ≠ s.mxcsr → e = if s.cr4.getLsbD 10 = true then .xm else .ud)
    ∧ (match e with
        | .pf la _ => u.cr2 = la
        | _ => u.cr2 = s.cr2)

/-! ## Exceptions -/

/-- R181: a missing feature or enable, real-address and virtual-8086 mode, and a missing AVX512VL, as its layout's column
says, raise #UD for a form whatever its operands are. The column's other causes (LOCK, bad prefixes, vvvv, reserved EVEX
fields, the unmasked SIMD condition) have statements of their own. That this holds in every mode, #UD coming before decision
D2's refusal in 16-bit protected and system-management mode, is the model's choice (log entry 15). -/
def Obligations.UndefinedOpcodeCauses : Prop :=
  ∀ (i : Instr) (s : State), UdCause i s → exec i s = .fault (.exception .ud s)

/-- R182: with CR0.TS = 1 every form raises #NM, if no #UD cause holds and before any operand is accessed; for CVTPD2PI
CR0.EM = 1 gives #UD. -/
def Obligations.DeviceNotAvailable : Prop :=
  (∀ (i : Instr) (s : State), s.cr0.getLsbD 3 = true →
    EnabledFor i { s with cr0 := s.cr0 &&& ~~~ 0x8#64 } →
    (∀ p row, evexRowOf i = some (p, row) → evexLength p row s.cfg ≠ .ud) →
      exec i s = .fault (.exception .nm s))
  ∧ ∀ (p : LegacyOp) (s : State), s.cr0.getLsbD 2 = true → exec (.cvtpd2pi p) s = .fault (.exception .ud s)

/-- R143: CVTPD2PI with an x87 exception pending raises #MF when CR0.NE = 1, before its memory operand is accessed, and is
refused when CR0.NE = 0 (U9). -/
def Obligations.PendingX87ExceptionComesFirst : Prop :=
  ∀ (p : LegacyOp) (s : State), LegacyEnabled s → s.x87.status.getLsbD 7 = true →
    (s.cr0.getLsbD 5 = true → exec (.cvtpd2pi p) s = .fault (.exception .mf s))
    ∧ (s.cr0.getLsbD 5 = false → exec (.cvtpd2pi p) s = .refused .ferrReporting)

/-- R187: #MF comes from CVTPD2PI alone, and only with the x87 exception already pending. -/
def Obligations.MfOnlyFromCvtpd2pi : Prop :=
  ∀ (i : Instr) (s u : State), exec i s = .fault (.exception .mf u) →
    (∃ p, i = .cvtpd2pi p) ∧ s.x87.status.getLsbD 7 = true ∧ s.cr0.getLsbD 5 = true

/-- R45, R183: a segment violation by an accessed byte raises #SS(0) through SS and #GP(0) through any other segment. The
model's readings: that the null selectors are 0 to 3 (log entry 43), that a null or execute-only SS raises #SS (log entry
13), and that an offset past FFFFFFFFH is beyond every limit, where a processor might wrap and read (log entry 14). -/
def Obligations.SegmentViolationsRaiseSsOrGp : Prop :=
  ∀ (i : Instr) (s : State) (acc : MemAccess),
    EnabledFor i s → NoX87Pending i s → memAccessOf i s = some acc → acc.offs ≠ [] →
    SegmentViolation s acc.seg acc.ea acc.offs →
      exec i s = .fault (.exception (if acc.seg = .ss then .ss else .gp) s)
      ∧ (if acc.seg = .ss then Exn.ss else Exn.gp).errorCode = some 0

/-- R44, R183: the four legacy tier B forms raise #GP(0) on an operand whose linear address is not a multiple of 16,
whatever the privilege level and alignment checking. -/
def Obligations.MisalignedSixteenByteOperandRaisesGp : Prop :=
  ∀ (i : Instr) (s : State) (acc : MemAccess),
    EnabledFor i s → NoX87Pending i s → needsAlign16 i = true → memAccessOf i s = some acc →
    ¬SegmentViolation s acc.seg acc.ea acc.offs → (s.linear acc.seg acc.ea 0).toNat % 16 ≠ 0 →
      exec i s = .fault (.exception .gp s)

/-- R44, R185, U7: with CR0.AM = 1, EFLAGS.AC = 1 and CPL = 3 a misaligned 4- or 8-byte operand raises #AC(0), and so does
a wider one of a form without the 16-byte requirement under `ac_on_wide_vectors`, if nothing of higher priority does and
every accessed byte translates. For a masked EVEX operand the whole operand's alignment counts: the model's reading (log
entry 12). -/
def Obligations.AlignmentCheckFault : Prop :=
  ∀ (i : Instr) (s : State) (acc : MemAccess),
    EnabledFor i s → NoX87Pending i s → memAccessOf i s = some acc → acc.offs ≠ [] →
    ¬SegmentViolation s acc.seg acc.ea acc.offs →
    (acc.size ≤ 8 ∨ (acc.align16 = false ∧ s.cfg.acOnWideVectors = true)) →
    s.cr0.getLsbD 18 = true → s.rflags.getLsbD 18 = true → s.segs.cs.selector.extractLsb' 0 2 = 3 →
    (s.linear acc.seg acc.ea 0).toNat % acc.size ≠ 0 →
    (∀ k ∈ acc.offs, (s.translate .read (s.linear acc.seg acc.ea k)).toOption.isSome = true) →
      exec i s = .fault (.exception .ac s) ∧ Exn.ac.errorCode = some 0

/-- R44, R185, U7, R186, R101: #AC comes only with CR0.AM = 1, EFLAGS.AC = 1 and CPL = 3, from a form with a misaligned
memory operand and no 16-byte requirement, and for an operand of more than 8 bytes only under `ac_on_wide_vectors`; #XM comes only from a tier B instruction, with CR4.OSXMMEXCPT = 1. -/
def Obligations.AcAndXmNeedTheirEnables : Prop :=
  (∀ (i : Instr) (s u : State), exec i s = .fault (.exception .ac u) →
    s.cr0.getLsbD 18 = true ∧ s.rflags.getLsbD 18 = true ∧ s.segs.cs.selector.extractLsb' 0 2 = 3
    ∧ ∃ acc, memAccessOf i s = some acc ∧ acc.align16 = false ∧ (acc.size ≤ 8 ∨ s.cfg.acOnWideVectors = true)
      ∧ (s.linear acc.seg acc.ea 0).toNat % acc.size ≠ 0)
  ∧ ∀ (i : Instr) (s u : State), exec i s = .fault (.exception .xm u) → tierA i = false ∧ s.cr4.getLsbD 10 = true

/-- R42, R50, R184: the first accessed byte that does not translate raises #PF with its linear address in CR2, if the
segment and alignment checks pass. That the lowest failing byte is the one reported when two pages fail is the model's
choice (log entry 39); pages are the model's form of `Translate` (log entry 8). -/
def Obligations.PageFaultOfTheFirstFailingByte : Prop :=
  ∀ (i : Instr) (s : State) (acc : MemAccess) (before after : List Nat) (k : Nat) (code : Dword),
    EnabledFor i s → NoX87Pending i s → memAccessOf i s = some acc →
    ¬SegmentViolation s acc.seg acc.ea acc.offs →
    (acc.align16 = true → (s.linear acc.seg acc.ea 0).toNat % 16 = 0) → ¬AlignmentViolation s acc →
    acc.offs = before ++ k :: after →
    (∀ j ∈ before, (s.translate .read (s.linear acc.seg acc.ea j)).toOption.isSome = true) →
    s.translate .read (s.linear acc.seg acc.ea k) = .error code →
      exec i s = .fault (.exception (.pf (s.linear acc.seg acc.ea k) code)
        { s with cr2 := s.linear acc.seg acc.ea k })

/-- R184: a fault code has W/R, I/D and U/S as the access and privilege say, P = 0 for a page that is not present and
P = 1 otherwise, RSVD = 1 exactly when a reserved bit is set in what maps the page (a frame beyond the physical address
width counts as one), and no bit above 4. Pages are the model's form of `Translate` (log entries 8, 26 and 35). -/
def Obligations.FaultCodeBits : Prop :=
  ∀ (bits : Nat) (ps : List Page) (cpl : BitVec 2) (k : Access) (la : Qword) (code : Dword),
    translateLA bits (.pages ps) cpl k la = .error code →
      code.getLsbD 1 = decide (k = .write) ∧ code.getLsbD 2 = decide (cpl = 3) ∧ code.getLsbD 4 = decide (k = .fetch)
      ∧ (code.getLsbD 0 = true ↔ ∃ q ∈ ps, q.number = la.toNat / pageSize)
      ∧ (code.getLsbD 3 = true ↔ ∃ q, ps.find? (fun q => q.number == la.toNat / pageSize) = some q
          ∧ (q.reserved = true ∨ 2 ^ bits < (q.frame + 1) * pageSize))
      ∧ code >>> 5 = 0

/-- D6, U11, R42: when every architectural check passes and an accessed byte is outside the memory given at launch, the
step is stuck at the first such byte. -/
def Obligations.ReadOutsideMemoryIsStuck : Prop :=
  ∀ (i : Instr) (s : State) (acc : MemAccess) (before after : List Nat) (k : Nat),
    EnabledFor i s → NoX87Pending i s → memAccessOf i s = some acc →
    ¬SegmentViolation s acc.seg acc.ea acc.offs →
    (acc.align16 = true → (s.linear acc.seg acc.ea 0).toNat % 16 = 0) → ¬AlignmentViolation s acc →
    acc.offs = before ++ k :: after →
    (∀ j ∈ acc.offs, (s.translate .read (s.linear acc.seg acc.ea j)).toOption.isSome = true) →
    (∀ j ∈ before, (s.mem.read (s.linear acc.seg acc.ea j).toNat).isSome = true) →
    s.mem.read (s.linear acc.seg acc.ea k).toNat = none →
      exec i s = .fault (.stuckData (s.linear acc.seg acc.ea k))

/-- R41, R42: a read that answers gives, at each accessed offset, the byte of memory there, least significant byte first,
and zeros elsewhere. -/
def Obligations.MemReadIsLittleEndian : Prop :=
  ∀ (acc : MemAccess) (s : State) (v : SrcVec), memRead acc s = .ok v →
    ∀ k < 32, if k ∈ acc.offs then s.mem.read (s.linear acc.seg acc.ea k).toNat = some (v.extractLsb' (8 * k) 8)
      else v.extractLsb' (8 * k) 8 = 0

/-- R166, R186, U8: a tier B form that detects an unmasked condition writes nothing and raises #XM, or #UD when
CR4.OSXMMEXCPT = 0; MXCSR gets some of the detected flags, and under the preferred image exactly those rule R166 names
(which of them an unmasked overflow or underflow has beside OE or UE is the model's reading, log entry 40). -/
def Obligations.UnmaskedConditionRaisesXm : Prop :=
  ∀ (i : Instr) (s : State) (v : SrcVec) (src : Src) (bytes ne : Nat) (conv : Nat → Conv 32),
    EnabledFor i s → NoX87Pending i s → plainSource i s = some (src, bytes) →
    sourceIs s src bytes (needsAlign16 i) v = true → simdLanes i s v = some (ne, conv) → ¬AllMasked s conv ne →
      ∃ (u : State) (f : SimdFlags),
        exec i s = .fault (.exception (if s.cr4.getLsbD 10 = true then .xm else .ud) u)
        ∧ u = { s with mxcsr := s.mxcsr ||| f.setWidth 32, free := u.free }
        ∧ f &&& ~~~ s.detected (condOf conv ne) = 0
        ∧ (s.cfg.xmImage = .rule166 →
            f = if ∃ j < ne, (conv j).flags &&& ~~~ s.simdMasks &&& preFlags ≠ 0
              then (condOf conv ne).flags &&& preFlags else s.detected (condOf conv ne))

/-! ## The step, the invariant, reset -/

/-- R11, R27, R201, D15: when the bytes at the instruction pointer decode to an instruction, the step is that
instruction's; at the end of the program text, there and nowhere else, the run has ended in success with the state as it
is. That only equality with the end address counts is the model's reading (log entry 42). -/
def Obligations.StepRunsTheDecodedInstruction : Prop :=
  (∀ (s : State) (bytes : List Byte) (i : Instr),
    s.mxcsr.extractLsb' 16 16 = 0 → s.textEnd ≠ some s.rip → FetchesBytes s bytes →
    decode s.decodeCtx bytes = .instr i →
      i.wellFormed s.decodeCtx = true ∧ step s = exec i s)
  ∧ ∀ s t : State, step s = .fault (.endOfText t) ↔ s.textEnd = some s.rip ∧ t = s

/-- R5, R20 to R23, R27, R32: every step keeps the invariant: memory in canonical form, reserved MXCSR bits 0, no vector
or opmask bit beyond its width, a 32-bit instruction pointer outside Mode64. -/
def Obligations.StepKeepsTheInvariant : Prop :=
  ∀ s t : State, Inv s → step s = .next t → Inv t

/-- R34: the invariant holds after RESET (with the model's choices of log entries 3 to 6). -/
def Obligations.InvariantHoldsAtReset : Prop := Inv State.reset

/-- R34: the values the spec gives for RESET, RDX (register 2) apart. -/
def Obligations.ResetValues : Prop :=
  (∀ r : BitVec 5, State.reset.vec r = 0) ∧ (∀ n : BitVec 3, State.reset.opmask n = 0 ∧ State.reset.mm n = 0)
    ∧ State.reset.mxcsr = 0x1F80 ∧ State.reset.x87.status = 0 ∧ State.reset.x87.tag = 0x5555
    ∧ (∀ n : Fin 8, State.reset.x87.phys[n] = 0)
    ∧ (∀ n : BitVec 4, n ≠ 2 → State.reset.reg n = 0) ∧ State.reset.rip = 0xFFF0
    ∧ State.reset.fetchLinear 0 = 0xFFFFFFF0
    ∧ State.reset.segs.cs.selector = 0xF000 ∧ State.reset.segs.cs.base = 0xFFFF0000 ∧ State.reset.rflags = 2
    ∧ State.reset.cr0 = 0x60000010 ∧ State.reset.cr4 = 0 ∧ State.reset.xcr0 = 1
    ∧ State.reset.mode = .realAddress ∧ State.reset.cpl = 0

/-- R220, R34: with the values of RESET every form raises #UD, whatever memory holds. -/
def Obligations.EveryFormIsUndefinedAtReset : Prop :=
  ∀ (i : Instr) (m : Memory),
    exec i { State.reset with mem := m } = .fault (.exception .ud { State.reset with mem := m })

/-- R27, R183, R184, R189, D10, U13, D6: the fetch, in both admitted modes. `bytes` are the first bytes of an instruction and
can be fetched; the instruction needs the byte after them. If that byte is out of range, the first byte raises #GP(0) and a
later one has the instruction refused; if it does not translate, #PF with the byte's own linear address in CR2; if it
translates and does not exist, the machine is stuck. Every proper part of a well-formed instruction's bytes needs the byte
after it. Rule R189 gives #GP on a code fetch without saying when: that the first byte beyond a Mode32 limit raises it, and
that the fetch checks nothing else of CS, is the model's reading (log entries 22 and 29). -/
def Obligations.FetchFaults : Prop :=
  (∀ (s : State) (bytes : List Byte),
    s.mxcsr.extractLsb' 16 16 = 0 → s.textEnd ≠ some s.rip →
    (s.mode = .mode64 ∨ s.mode = .mode32 ∧ s.rip.toNat < 2 ^ 32) →
    FetchesBytes s bytes → decode s.decodeCtx bytes = .truncated →
      (¬FetchInRange s bytes.length →
        step s = if bytes = [] then .fault (.exception .gp s) else .refused .fetchCrossesEnd)
      ∧ (FetchInRange s bytes.length →
        (∀ code : Dword, s.translate .fetch (fetchAddress s bytes.length) = .error code →
          step s = .fault (.exception (.pf (fetchAddress s bytes.length) code)
            { s with cr2 := fetchAddress s bytes.length }))
        ∧ ((s.translate .fetch (fetchAddress s bytes.length)).toOption.isSome = true →
          s.mem.read (fetchAddress s bytes.length).toNat = none →
            step s = .fault (.stuckFetch (fetchAddress s bytes.length)))))
  ∧ ∀ (c : DecodeCtx) (i : Instr) (n : Nat),
    i.wellFormed c = true → n < (encode i).length → decode c ((encode i).take n) = .truncated

/-- R221: a launched state meets the enables of every form, if the processor has the features and EVEX.b = 1 with a
register is not used; the requirement rows of R221 that concern control bits hold. -/
def Obligations.LaunchedStateEnablesEveryForm : Prop :=
  ∀ (s : State) (i : Instr), s.cfg.sse2 = true → s.cfg.avx = true → s.cfg.avx512f = true → s.cfg.avx512vl = true →
    EnabledFor i s.launched ∧ s.launched.osxmmexcpt = true ∧ s.launched.cr0.getLsbD 0 = true

/-! ## The fields of MXCSR -/

/-- R23: each field of MXCSR stands at its bits: RC at 14:13, DAZ at 6, FZ at 15, the six masks at 12:7 in the flags' order
(OM at 10, UM at 11), the flags IE, DE, ZE, OE, UE, PE at 0 to 5. -/
def Obligations.MxcsrFieldsAreTheirBits : Prop :=
  ∀ s : State,
    s.rc = (match s.mxcsr.getLsbD 14, s.mxcsr.getLsbD 13 with
      | false, false => .nearest
      | false, true => .down
      | true, false => .up
      | true, true => .zero)
    ∧ s.daz = s.mxcsr.getLsbD 6 ∧ s.fz = s.mxcsr.getLsbD 15 ∧ s.om = s.mxcsr.getLsbD 10 ∧ s.um = s.mxcsr.getLsbD 11
    ∧ (∀ n < 6, s.simdMasks.getLsbD n = s.mxcsr.getLsbD (7 + n))
    ∧ ∀ (n : Nat) (f : SimdFlags), (n, f) ∈ [(0, SimdFlags.ie), (1, .de), (2, .ze), (3, .oe), (4, .ue), (5, .pe)] →
      ∀ k < 32, (orFlags s.mxcsr f).getLsbD k = (s.mxcsr.getLsbD k || decide (k = n))
end

