-- ==== Sys2Proof/Laws/State.lean ====
section
/-! SUPPORT. One lemma per field per update of the state, true by unfolding, and what each update does to a register read.
-/

namespace Sys2Proof.Machine

/-! ### `State.setVec` -/

@[simp] theorem State.setVec_cfg (s : State) (n : BitVec 5) (v : Vec) : (s.setVec n v).cfg = s.cfg := rfl
@[simp] theorem State.setVec_mode (s : State) (n : BitVec 5) (v : Vec) : (s.setVec n v).mode = s.mode := rfl
@[simp] theorem State.setVec_rip (s : State) (n : BitVec 5) (v : Vec) : (s.setVec n v).rip = s.rip := rfl
@[simp] theorem State.setVec_gpr (s : State) (n : BitVec 5) (v : Vec) : (s.setVec n v).gpr = s.gpr := rfl
@[simp] theorem State.setVec_rflags (s : State) (n : BitVec 5) (v : Vec) : (s.setVec n v).rflags = s.rflags := rfl
@[simp] theorem State.setVec_segs (s : State) (n : BitVec 5) (v : Vec) : (s.setVec n v).segs = s.segs := rfl
@[simp] theorem State.setVec_cr0 (s : State) (n : BitVec 5) (v : Vec) : (s.setVec n v).cr0 = s.cr0 := rfl
@[simp] theorem State.setVec_cr2 (s : State) (n : BitVec 5) (v : Vec) : (s.setVec n v).cr2 = s.cr2 := rfl
@[simp] theorem State.setVec_cr4 (s : State) (n : BitVec 5) (v : Vec) : (s.setVec n v).cr4 = s.cr4 := rfl
@[simp] theorem State.setVec_xcr0 (s : State) (n : BitVec 5) (v : Vec) : (s.setVec n v).xcr0 = s.xcr0 := rfl
@[simp] theorem State.setVec_zmm (s : State) (n : BitVec 5) (v : Vec) : (s.setVec n v).zmm = s.zmm.set n.toNat v n.isLt := rfl
@[simp] theorem State.setVec_k (s : State) (n : BitVec 5) (v : Vec) : (s.setVec n v).k = s.k := rfl
@[simp] theorem State.setVec_mxcsr (s : State) (n : BitVec 5) (v : Vec) : (s.setVec n v).mxcsr = s.mxcsr := rfl
@[simp] theorem State.setVec_x87 (s : State) (n : BitVec 5) (v : Vec) : (s.setVec n v).x87 = s.x87 := rfl
@[simp] theorem State.setVec_paging (s : State) (n : BitVec 5) (v : Vec) : (s.setVec n v).paging = s.paging := rfl
@[simp] theorem State.setVec_mem (s : State) (n : BitVec 5) (v : Vec) : (s.setVec n v).mem = s.mem := rfl
@[simp] theorem State.setVec_textEnd (s : State) (n : BitVec 5) (v : Vec) : (s.setVec n v).textEnd = s.textEnd := rfl
@[simp] theorem State.setVec_free (s : State) (n : BitVec 5) (v : Vec) : (s.setVec n v).free = s.free := rfl

/-! ### `State.writeBack` -/

@[simp] theorem State.writeBack_cfg (s : State) (u : Bool) (n : BitVec 5) (v : Vec) : (s.writeBack u n v).cfg = s.cfg := rfl
@[simp] theorem State.writeBack_mode (s : State) (u : Bool) (n : BitVec 5) (v : Vec) : (s.writeBack u n v).mode = s.mode := rfl
@[simp] theorem State.writeBack_rip (s : State) (u : Bool) (n : BitVec 5) (v : Vec) : (s.writeBack u n v).rip = s.rip := rfl
@[simp] theorem State.writeBack_gpr (s : State) (u : Bool) (n : BitVec 5) (v : Vec) : (s.writeBack u n v).gpr = s.gpr := rfl
@[simp] theorem State.writeBack_rflags (s : State) (u : Bool) (n : BitVec 5) (v : Vec) : (s.writeBack u n v).rflags = s.rflags := rfl
@[simp] theorem State.writeBack_segs (s : State) (u : Bool) (n : BitVec 5) (v : Vec) : (s.writeBack u n v).segs = s.segs := rfl
@[simp] theorem State.writeBack_cr0 (s : State) (u : Bool) (n : BitVec 5) (v : Vec) : (s.writeBack u n v).cr0 = s.cr0 := rfl
@[simp] theorem State.writeBack_cr2 (s : State) (u : Bool) (n : BitVec 5) (v : Vec) : (s.writeBack u n v).cr2 = s.cr2 := rfl
@[simp] theorem State.writeBack_cr4 (s : State) (u : Bool) (n : BitVec 5) (v : Vec) : (s.writeBack u n v).cr4 = s.cr4 := rfl
@[simp] theorem State.writeBack_xcr0 (s : State) (u : Bool) (n : BitVec 5) (v : Vec) : (s.writeBack u n v).xcr0 = s.xcr0 := rfl
@[simp] theorem State.writeBack_k (s : State) (u : Bool) (n : BitVec 5) (v : Vec) : (s.writeBack u n v).k = s.k := rfl
@[simp] theorem State.writeBack_mxcsr (s : State) (u : Bool) (n : BitVec 5) (v : Vec) : (s.writeBack u n v).mxcsr = s.mxcsr := rfl
@[simp] theorem State.writeBack_x87 (s : State) (u : Bool) (n : BitVec 5) (v : Vec) : (s.writeBack u n v).x87 = s.x87 := rfl
@[simp] theorem State.writeBack_paging (s : State) (u : Bool) (n : BitVec 5) (v : Vec) : (s.writeBack u n v).paging = s.paging := rfl
@[simp] theorem State.writeBack_mem (s : State) (u : Bool) (n : BitVec 5) (v : Vec) : (s.writeBack u n v).mem = s.mem := rfl
@[simp] theorem State.writeBack_textEnd (s : State) (u : Bool) (n : BitVec 5) (v : Vec) : (s.writeBack u n v).textEnd = s.textEnd := rfl
@[simp] theorem State.writeBack_free (s : State) (u : Bool) (n : BitVec 5) (v : Vec) : (s.writeBack u n v).free = s.free := rfl

/-! ### `State.setMxcsr` -/

@[simp] theorem State.setMxcsr_cfg (s : State) (v : Dword) : (s.setMxcsr v).cfg = s.cfg := rfl
@[simp] theorem State.setMxcsr_mode (s : State) (v : Dword) : (s.setMxcsr v).mode = s.mode := rfl
@[simp] theorem State.setMxcsr_rip (s : State) (v : Dword) : (s.setMxcsr v).rip = s.rip := rfl
@[simp] theorem State.setMxcsr_gpr (s : State) (v : Dword) : (s.setMxcsr v).gpr = s.gpr := rfl
@[simp] theorem State.setMxcsr_rflags (s : State) (v : Dword) : (s.setMxcsr v).rflags = s.rflags := rfl
@[simp] theorem State.setMxcsr_segs (s : State) (v : Dword) : (s.setMxcsr v).segs = s.segs := rfl
@[simp] theorem State.setMxcsr_cr0 (s : State) (v : Dword) : (s.setMxcsr v).cr0 = s.cr0 := rfl
@[simp] theorem State.setMxcsr_cr2 (s : State) (v : Dword) : (s.setMxcsr v).cr2 = s.cr2 := rfl
@[simp] theorem State.setMxcsr_cr4 (s : State) (v : Dword) : (s.setMxcsr v).cr4 = s.cr4 := rfl
@[simp] theorem State.setMxcsr_xcr0 (s : State) (v : Dword) : (s.setMxcsr v).xcr0 = s.xcr0 := rfl
@[simp] theorem State.setMxcsr_zmm (s : State) (v : Dword) : (s.setMxcsr v).zmm = s.zmm := rfl
@[simp] theorem State.setMxcsr_k (s : State) (v : Dword) : (s.setMxcsr v).k = s.k := rfl
@[simp] theorem State.setMxcsr_mxcsr (s : State) (v : Dword) : (s.setMxcsr v).mxcsr = v := rfl
@[simp] theorem State.setMxcsr_x87 (s : State) (v : Dword) : (s.setMxcsr v).x87 = s.x87 := rfl
@[simp] theorem State.setMxcsr_paging (s : State) (v : Dword) : (s.setMxcsr v).paging = s.paging := rfl
@[simp] theorem State.setMxcsr_mem (s : State) (v : Dword) : (s.setMxcsr v).mem = s.mem := rfl
@[simp] theorem State.setMxcsr_textEnd (s : State) (v : Dword) : (s.setMxcsr v).textEnd = s.textEnd := rfl
@[simp] theorem State.setMxcsr_free (s : State) (v : Dword) : (s.setMxcsr v).free = s.free := rfl

/-! ### `State.setX87` -/

@[simp] theorem State.setX87_cfg (s : State) (x : X87) : (s.setX87 x).cfg = s.cfg := rfl
@[simp] theorem State.setX87_mode (s : State) (x : X87) : (s.setX87 x).mode = s.mode := rfl
@[simp] theorem State.setX87_rip (s : State) (x : X87) : (s.setX87 x).rip = s.rip := rfl
@[simp] theorem State.setX87_gpr (s : State) (x : X87) : (s.setX87 x).gpr = s.gpr := rfl
@[simp] theorem State.setX87_rflags (s : State) (x : X87) : (s.setX87 x).rflags = s.rflags := rfl
@[simp] theorem State.setX87_segs (s : State) (x : X87) : (s.setX87 x).segs = s.segs := rfl
@[simp] theorem State.setX87_cr0 (s : State) (x : X87) : (s.setX87 x).cr0 = s.cr0 := rfl
@[simp] theorem State.setX87_cr2 (s : State) (x : X87) : (s.setX87 x).cr2 = s.cr2 := rfl
@[simp] theorem State.setX87_cr4 (s : State) (x : X87) : (s.setX87 x).cr4 = s.cr4 := rfl
@[simp] theorem State.setX87_xcr0 (s : State) (x : X87) : (s.setX87 x).xcr0 = s.xcr0 := rfl
@[simp] theorem State.setX87_zmm (s : State) (x : X87) : (s.setX87 x).zmm = s.zmm := rfl
@[simp] theorem State.setX87_k (s : State) (x : X87) : (s.setX87 x).k = s.k := rfl
@[simp] theorem State.setX87_mxcsr (s : State) (x : X87) : (s.setX87 x).mxcsr = s.mxcsr := rfl
@[simp] theorem State.setX87_x87 (s : State) (x : X87) : (s.setX87 x).x87 = x := rfl
@[simp] theorem State.setX87_paging (s : State) (x : X87) : (s.setX87 x).paging = s.paging := rfl
@[simp] theorem State.setX87_mem (s : State) (x : X87) : (s.setX87 x).mem = s.mem := rfl
@[simp] theorem State.setX87_textEnd (s : State) (x : X87) : (s.setX87 x).textEnd = s.textEnd := rfl
@[simp] theorem State.setX87_free (s : State) (x : X87) : (s.setX87 x).free = s.free := rfl

/-! ### `State.advance` -/

@[simp] theorem State.advance_cfg (s : State) (len : Nat) : (s.advance len).cfg = s.cfg := rfl
@[simp] theorem State.advance_mode (s : State) (len : Nat) : (s.advance len).mode = s.mode := rfl
@[simp] theorem State.advance_rip (s : State) (len : Nat) : (s.advance len).rip = s.nextIp len := rfl
@[simp] theorem State.advance_gpr (s : State) (len : Nat) : (s.advance len).gpr = s.gpr := rfl
@[simp] theorem State.advance_rflags (s : State) (len : Nat) : (s.advance len).rflags = s.rflags := rfl
@[simp] theorem State.advance_segs (s : State) (len : Nat) : (s.advance len).segs = s.segs := rfl
@[simp] theorem State.advance_cr0 (s : State) (len : Nat) : (s.advance len).cr0 = s.cr0 := rfl
@[simp] theorem State.advance_cr2 (s : State) (len : Nat) : (s.advance len).cr2 = s.cr2 := rfl
@[simp] theorem State.advance_cr4 (s : State) (len : Nat) : (s.advance len).cr4 = s.cr4 := rfl
@[simp] theorem State.advance_xcr0 (s : State) (len : Nat) : (s.advance len).xcr0 = s.xcr0 := rfl
@[simp] theorem State.advance_zmm (s : State) (len : Nat) : (s.advance len).zmm = s.zmm := rfl
@[simp] theorem State.advance_k (s : State) (len : Nat) : (s.advance len).k = s.k := rfl
@[simp] theorem State.advance_mxcsr (s : State) (len : Nat) : (s.advance len).mxcsr = s.mxcsr := rfl
@[simp] theorem State.advance_x87 (s : State) (len : Nat) : (s.advance len).x87 = s.x87 := rfl
@[simp] theorem State.advance_paging (s : State) (len : Nat) : (s.advance len).paging = s.paging := rfl
@[simp] theorem State.advance_mem (s : State) (len : Nat) : (s.advance len).mem = s.mem := rfl
@[simp] theorem State.advance_textEnd (s : State) (len : Nat) : (s.advance len).textEnd = s.textEnd := rfl
@[simp] theorem State.advance_free (s : State) (len : Nat) : (s.advance len).free = s.free := rfl

/-! ### `State.drawn` -/

@[simp] theorem State.drawn_cfg (s : State) : s.drawn.cfg = s.cfg := rfl
@[simp] theorem State.drawn_mode (s : State) : s.drawn.mode = s.mode := rfl
@[simp] theorem State.drawn_rip (s : State) : s.drawn.rip = s.rip := rfl
@[simp] theorem State.drawn_gpr (s : State) : s.drawn.gpr = s.gpr := rfl
@[simp] theorem State.drawn_rflags (s : State) : s.drawn.rflags = s.rflags := rfl
@[simp] theorem State.drawn_segs (s : State) : s.drawn.segs = s.segs := rfl
@[simp] theorem State.drawn_cr0 (s : State) : s.drawn.cr0 = s.cr0 := rfl
@[simp] theorem State.drawn_cr2 (s : State) : s.drawn.cr2 = s.cr2 := rfl
@[simp] theorem State.drawn_cr4 (s : State) : s.drawn.cr4 = s.cr4 := rfl
@[simp] theorem State.drawn_xcr0 (s : State) : s.drawn.xcr0 = s.xcr0 := rfl
@[simp] theorem State.drawn_zmm (s : State) : s.drawn.zmm = s.zmm := rfl
@[simp] theorem State.drawn_k (s : State) : s.drawn.k = s.k := rfl
@[simp] theorem State.drawn_mxcsr (s : State) : s.drawn.mxcsr = s.mxcsr := rfl
@[simp] theorem State.drawn_x87 (s : State) : s.drawn.x87 = s.x87 := rfl
@[simp] theorem State.drawn_paging (s : State) : s.drawn.paging = s.paging := rfl
@[simp] theorem State.drawn_mem (s : State) : s.drawn.mem = s.mem := rfl
@[simp] theorem State.drawn_textEnd (s : State) : s.drawn.textEnd = s.textEnd := rfl
@[simp] theorem State.drawn_free (s : State) : s.drawn.free = s.free + 1 := rfl

/-! ### `State.withFetchBytes` -/

@[simp] theorem State.withFetchBytes_cfg (s : State) (bs : List Byte) : (s.withFetchBytes bs).cfg = s.cfg := rfl
@[simp] theorem State.withFetchBytes_mode (s : State) (bs : List Byte) : (s.withFetchBytes bs).mode = s.mode := rfl
@[simp] theorem State.withFetchBytes_rip (s : State) (bs : List Byte) : (s.withFetchBytes bs).rip = s.rip := rfl
@[simp] theorem State.withFetchBytes_gpr (s : State) (bs : List Byte) : (s.withFetchBytes bs).gpr = s.gpr := rfl
@[simp] theorem State.withFetchBytes_rflags (s : State) (bs : List Byte) : (s.withFetchBytes bs).rflags = s.rflags := rfl
@[simp] theorem State.withFetchBytes_segs (s : State) (bs : List Byte) : (s.withFetchBytes bs).segs = s.segs := rfl
@[simp] theorem State.withFetchBytes_cr0 (s : State) (bs : List Byte) : (s.withFetchBytes bs).cr0 = s.cr0 := rfl
@[simp] theorem State.withFetchBytes_cr2 (s : State) (bs : List Byte) : (s.withFetchBytes bs).cr2 = s.cr2 := rfl
@[simp] theorem State.withFetchBytes_cr4 (s : State) (bs : List Byte) : (s.withFetchBytes bs).cr4 = s.cr4 := rfl
@[simp] theorem State.withFetchBytes_xcr0 (s : State) (bs : List Byte) : (s.withFetchBytes bs).xcr0 = s.xcr0 := rfl
@[simp] theorem State.withFetchBytes_zmm (s : State) (bs : List Byte) : (s.withFetchBytes bs).zmm = s.zmm := rfl
@[simp] theorem State.withFetchBytes_k (s : State) (bs : List Byte) : (s.withFetchBytes bs).k = s.k := rfl
@[simp] theorem State.withFetchBytes_mxcsr (s : State) (bs : List Byte) : (s.withFetchBytes bs).mxcsr = s.mxcsr := rfl
@[simp] theorem State.withFetchBytes_x87 (s : State) (bs : List Byte) : (s.withFetchBytes bs).x87 = s.x87 := rfl
@[simp] theorem State.withFetchBytes_paging (s : State) (bs : List Byte) : (s.withFetchBytes bs).paging = s.paging := rfl
@[simp] theorem State.withFetchBytes_mem (s : State) (bs : List Byte) : (s.withFetchBytes bs).mem = s.mem.writeAll (s.fetchLinear 0).toNat bs := rfl
@[simp] theorem State.withFetchBytes_textEnd (s : State) (bs : List Byte) :
    (s.withFetchBytes bs).textEnd = some (s.nextIp bs.length) := rfl
@[simp] theorem State.withFetchBytes_free (s : State) (bs : List Byte) : (s.withFetchBytes bs).free = s.free := rfl

/-! ### `State.launched` -/

@[simp] theorem State.launched_cfg (s : State) : s.launched.cfg = s.cfg := rfl
@[simp] theorem State.launched_mode (s : State) : s.launched.mode = .mode64 := rfl
@[simp] theorem State.launched_rip (s : State) : s.launched.rip = s.rip := rfl
@[simp] theorem State.launched_gpr (s : State) : s.launched.gpr = s.gpr := rfl
@[simp] theorem State.launched_rflags (s : State) : s.launched.rflags = s.rflags := rfl
@[simp] theorem State.launched_segs (s : State) : s.launched.segs = s.segs := rfl
@[simp] theorem State.launched_cr0 (s : State) : s.launched.cr0 = (s.cr0 ||| 0x1#64) &&& ~~~ 0xC#64 := rfl
@[simp] theorem State.launched_cr2 (s : State) : s.launched.cr2 = s.cr2 := rfl
@[simp] theorem State.launched_cr4 (s : State) : s.launched.cr4 = s.cr4 ||| 0x40600#64 := rfl
@[simp] theorem State.launched_xcr0 (s : State) : s.launched.xcr0 = s.xcr0 ||| 0xE7#64 := rfl
@[simp] theorem State.launched_zmm (s : State) : s.launched.zmm = s.zmm := rfl
@[simp] theorem State.launched_k (s : State) : s.launched.k = s.k := rfl
@[simp] theorem State.launched_mxcsr (s : State) : s.launched.mxcsr = s.mxcsr := rfl
@[simp] theorem State.launched_x87 (s : State) : s.launched.x87 = s.x87 := rfl
@[simp] theorem State.launched_paging (s : State) : s.launched.paging = s.paging := rfl
@[simp] theorem State.launched_mem (s : State) : s.launched.mem = s.mem := rfl
@[simp] theorem State.launched_textEnd (s : State) : s.launched.textEnd = s.textEnd := rfl
@[simp] theorem State.launched_free (s : State) : s.launched.free = s.free := rfl

/-! ### Reading a register after an update -/

theorem State.vec_setVec (s : State) (n r : BitVec 5) (v : Vec) :
    (s.setVec n v).vec r = if r = n then v else s.vec r := by
  unfold State.vec
  simp only [State.setVec_zmm, Vector.getElem_set]
  by_cases h : n.toNat = r.toNat
  · simp [BitVec.eq_of_toNat_eq h]
  · have : ¬ r = n := fun e => h (by rw [e])
    simp [h, this]

@[simp] theorem State.vec_setVec_self (s : State) (n : BitVec 5) (v : Vec) : (s.setVec n v).vec n = v := by
  rw [State.vec_setVec, if_pos rfl]

theorem State.vec_setVec_of_ne (s : State) {n r : BitVec 5} (h : r ≠ n) (v : Vec) :
    (s.setVec n v).vec r = s.vec r := by
  rw [State.vec_setVec, if_neg h]

@[simp] theorem State.vec_setMxcsr (s : State) (v : Dword) (r : BitVec 5) : (s.setMxcsr v).vec r = s.vec r := rfl
@[simp] theorem State.vec_setX87 (s : State) (x : X87) (r : BitVec 5) : (s.setX87 x).vec r = s.vec r := rfl
@[simp] theorem State.vec_advance (s : State) (len : Nat) (r : BitVec 5) : (s.advance len).vec r = s.vec r := rfl
@[simp] theorem State.nextIp_setVec (s : State) (n : BitVec 5) (v : Vec) (len : Nat) :
    (s.setVec n v).nextIp len = s.nextIp len := rfl
@[simp] theorem State.nextIp_writeBack (s : State) (u : Bool) (n : BitVec 5) (v : Vec) (len : Nat) :
    (s.writeBack u n v).nextIp len = s.nextIp len := rfl
@[simp] theorem State.nextIp_setMxcsr (s : State) (v : Dword) (len : Nat) :
    (s.setMxcsr v).nextIp len = s.nextIp len := rfl
@[simp] theorem State.nextIp_setX87 (s : State) (x : X87) (len : Nat) : (s.setX87 x).nextIp len = s.nextIp len := rfl

end Sys2Proof.Machine
end

