-- ==== Sys2Proof/Laws/Ops.lean ====
section
/-! SUPPORT. What each shared operation can do, said once: exceptions and outcomes, the enabling checks, memory as data,
memory access, the response to SIMD conditions, and the packing of elements. Later proofs cite these and do not unfold
the operations. -/

namespace Sys2Proof.Machine

/-! ### The instruction pointer and the writemask -/

/-- `nextIp` counts modulo 2^64 in Mode64 and modulo 2^32 otherwise (R27). -/
theorem nextIp_toNat (s : State) (len : Nat) :
    (s.nextIp len).toNat = (s.rip.toNat + len) % 2 ^ (if s.mode = .mode64 then 64 else 32) := by
  unfold State.nextIp
  split
  · simp [BitVec.toNat_add]
  · simp only [BitVec.toNat_setWidth, BitVec.toNat_add, BitVec.toNat_ofNat]
    omega

/-- The model's test of the writemask is bit j of the opmask register, or no writemask. -/
theorem evexEnabled_eq (p : EvexOp) (s : State) (j : Nat) : evexEnabled p s j = decide (MaskOn p s j) := by
  simp [evexEnabled, MaskOn, Bool.decide_or, beq_eq_decide]

theorem enabledOffs_eq (p : EvexOp) (s : State) (row : Nat) : enabledOffs (evexEnabled p s) row = maskedOffs p s row := by
  simp [enabledOffs, maskedOffs, evexEnabled_eq]

theorem any_enabled_iff (p : EvexOp) (s : State) (row : Nat) :
    (List.range row).any (evexEnabled p s) = true ↔ ∃ j < row, MaskOn p s j := by
  simp [List.any_eq_true, evexEnabled_eq, MaskOn]

/-- The data access of an EVEX form, in the terms its meaning uses. -/
theorem memAccessOf_evex {i : Instr} {p : EvexOp} {row : Nat} (h : evexRowOf i = some (p, row)) (s : State) :
    memAccessOf i s =
      match (evexOperands p (evexDispScale p row) s).src with
      | .reg _ => none
      | .mem g ea =>
        some (if p.bc then ⟨g, ea, 4, if (List.range row).any (evexEnabled p s) then List.range 4 else [], false⟩
          else ⟨g, ea, 4 * row, enabledOffs (evexEnabled p s) row, false⟩) := by
  unfold memAccessOf
  rw [h]
  dsimp only
  cases (evexOperands p (evexDispScale p row) s).src with
  | reg n => rfl
  | mem g ea => simp only [any_enabled_iff, enabledOffs_eq]

/-! ### Outcomes and exceptions -/

theorem outcome_eq_next {r : Res State} {t : State} : outcome r = .next t ↔ r = .ok t := by
  unfold outcome
  split <;> simp

/-- An exception never becomes a next state. -/
theorem outcome_raise_ne_next (e : Exn) (s t : State) : outcome (.error (raise e s)) ≠ .next t := by
  cases e <;> simp [raise, outcome]

/-- What `raise` hands over: the exception and the state, with CR2 loaded by a page fault. -/
theorem raise_eq (e : Exn) (s : State) :
    ∃ u : State, raise e s = .fault (.exception e u) ∧ u = { s with cr2 := u.cr2 } := by
  cases e <;> exact ⟨_, rfl, rfl⟩

/-! ### The enabling checks -/

/-- The checks pass exactly when no #UD cause holds, the mode is admitted and CR0.TS is 0. -/
theorem enter_eq_ok {g : Gate} {s : State} {u : Unit} :
    enter g s = .ok u ↔ s.gateUd g = false ∧ admittedMode s.mode = true ∧ s.ts = false := by
  unfold enter
  cases s.gateUd g <;> cases admittedMode s.mode <;> cases s.ts <;> simp

theorem admittedMode_eq_true {m : Mode} : admittedMode m = true ↔ m = .mode64 ∨ m = .mode32 := by
  cases m <;> simp [admittedMode]

theorem enter_legacy_ok {s : State} (h : LegacyEnabled s) : enter .legacy s = .ok () := by
  obtain ⟨hm, h1, h2, h3, h4⟩ := h
  refine enter_eq_ok.2 ⟨?_, admittedMode_eq_true.2 hm, h3⟩
  rw [State.gateUd, State.em, State.osfxsr, h1, h2, h4]
  rfl

theorem enter_vex_ok {s : State} (h : VexEnabled s) : enter .vex s = .ok () := by
  obtain ⟨hm, h1, h3, h4, h5, h6⟩ := h
  refine enter_eq_ok.2 ⟨?_, admittedMode_eq_true.2 hm, h3⟩
  rcases hm with hm | hm <;> simp [State.gateUd, State.osxsave, State.avxStateOn, noVex, h1, h4, h5, h6, hm]

theorem enter_evex_ok {s : State} {nv : Bool} (h : EvexEnabled nv s) : enter (.evex nv) s = .ok () := by
  obtain ⟨hm, h1, h2, h3, h4, h5, h6, h7, h8, h9⟩ := h
  refine enter_eq_ok.2 ⟨?_, admittedMode_eq_true.2 hm, h3⟩
  cases nv <;> rcases hm with hm | hm <;>
    simp_all [State.gateUd, State.osxsave, State.avxStateOn, State.avx512StateOn, noVex]

/-- How the checks stop: #UD, a mode that is not admitted, or #NM. -/
theorem enter_error {g : Gate} {s : State} {e : Stop} (h : enter g s = .error e) :
    (e = raise .ud s ∧ s.gateUd g = true) ∨ (e = .refused .modeNotAdmitted ∧ admittedMode s.mode = false)
      ∨ (e = raise .nm s ∧ s.gateUd g = false ∧ s.ts = true) := by
  unfold enter at h
  cases hg : s.gateUd g <;> cases hm : admittedMode s.mode <;> cases ht : s.ts <;> simp_all

/-! ### Memory as data -/

/-- A byte just stored reads back. -/
theorem Memory.read_write_same (m : Memory) (a : Nat) (v : Byte) : (Memory.write m a v).read a = some v := by
  induction m with
  | nil => simp [Memory.write, Memory.read]
  | cons c m ih =>
    obtain ⟨b, w⟩ := c
    unfold Memory.write
    split
    · simp [Memory.read]
    · split
      · simp [Memory.read]
      · rename_i _ h2
        simp [Memory.read, Ne.symm h2, ih]

/-- Every other byte reads as before. -/
theorem Memory.read_write_other (m : Memory) {a b : Nat} (v : Byte) (h : b ≠ a) :
    (Memory.write m a v).read b = m.read b := by
  induction m with
  | nil => simp [Memory.write, Memory.read, Ne.symm h]
  | cons c m ih =>
    obtain ⟨x, w⟩ := c
    unfold Memory.write
    split
    · simp [Memory.read, Ne.symm h]
    · split
      · rename_i _ h2
        subst h2
        simp [Memory.read, Ne.symm h]
      · simp only [Memory.read]
        split
        · rfl
        · exact ih

theorem Memory.wf_iff {m : Memory} :
    Memory.wf m = true ↔ m.Pairwise (fun x y => x.1 < y.1) ∧ ∀ c ∈ m, c.1 < 2 ^ 64 := by
  simp [Memory.wf]

theorem Memory.mem_write {m : Memory} {a : Nat} {v : Byte} {c : Host.Cell} (h : c ∈ Memory.write m a v) :
    c.1 = a ∨ c ∈ m := by
  induction m with
  | nil => simp [Memory.write] at h; simp [h]
  | cons x m ih =>
    obtain ⟨b, w⟩ := x
    unfold Memory.write at h
    split at h
    · rcases List.mem_cons.1 h with h | h
      · simp [h]
      · exact .inr h
    · split at h
      · rcases List.mem_cons.1 h with h | h
        · simp [h]
        · exact .inr (List.mem_cons_of_mem _ h)
      · rcases List.mem_cons.1 h with h | h
        · simp [h]
        · exact (ih h).imp id (List.mem_cons_of_mem _)

/-- A store keeps the canonical form. -/
theorem Memory.wf_write {m : Memory} (h : Memory.wf m = true) {a : Nat} (ha : a < 2 ^ 64) (v : Byte) :
    Memory.wf (Memory.write m a v) = true := by
  rw [Memory.wf_iff] at h ⊢
  refine ⟨?_, fun c hc => (Memory.mem_write hc).elim (fun e => e ▸ ha) (h.2 c)⟩
  obtain ⟨hp, -⟩ := h
  induction m with
  | nil => simp [Memory.write]
  | cons x m ih =>
    obtain ⟨b, w⟩ := x
    rw [List.pairwise_cons] at hp
    unfold Memory.write
    split
    · rename_i hlt
      refine List.pairwise_cons.2 ⟨fun c hc => ?_, List.pairwise_cons.2 hp⟩
      rcases List.mem_cons.1 hc with rfl | hc
      · exact hlt
      · exact hlt.trans (hp.1 c hc)
    · split
      · rename_i _ heq
        subst heq
        exact List.pairwise_cons.2 ⟨fun c hc => hp.1 c hc, hp.2⟩
      · rename_i h1 h2
        refine List.pairwise_cons.2 ⟨fun c hc => ?_, ih hp.2⟩
        rcases Memory.mem_write hc with e | hc
        · show b < c.1
          omega
        · exact hp.1 c hc

/-- Stores at consecutive addresses keep the canonical form. -/
theorem Memory.wf_writeAll (vs : List Byte) {m : Memory} (h : Memory.wf m = true) {a : Nat}
    (ha : a + vs.length ≤ 2 ^ 64) : Memory.wf (Memory.writeAll m a vs) = true := by
  induction vs generalizing m a with
  | nil => exact h
  | cons v vs ih =>
    rw [List.length_cons] at ha
    exact ih (Memory.wf_write h (by omega) v) (by omega)

/-- Stores at consecutive addresses leave every byte below them. -/
theorem Memory.read_writeAll_below (vs : List Byte) (m : Memory) {a b : Nat} (h : b < a) :
    (Memory.writeAll m a vs).read b = m.read b := by
  induction vs generalizing m a with
  | nil => rfl
  | cons v vs ih => rw [Memory.writeAll, ih _ (by omega), Memory.read_write_other _ _ (by omega)]

/-- Stores at consecutive addresses leave every byte above them. -/
theorem Memory.read_writeAll_above (vs : List Byte) (m : Memory) {a b : Nat} (h : a + vs.length ≤ b) :
    (Memory.writeAll m a vs).read b = m.read b := by
  induction vs generalizing m a with
  | nil => rfl
  | cons v vs ih =>
    rw [List.length_cons] at h
    rw [Memory.writeAll, ih _ (by omega), Memory.read_write_other _ _ (by omega)]

/-- Bytes stored at consecutive addresses read back. -/
theorem Memory.read_writeAll (vs : List Byte) (m : Memory) (a i : Nat) (h : i < vs.length) :
    (Memory.writeAll m a vs).read (a + i) = some vs[i] := by
  induction vs generalizing m a i with
  | nil => exact absurd h (Nat.not_lt_zero _)
  | cons v vs ih =>
    cases i with
    | zero =>
      rw [Memory.writeAll, Memory.read_writeAll_below _ _ (by omega)]
      exact Memory.read_write_same _ _ _
    | succ i =>
      rw [List.length_cons] at h
      have := ih (Memory.write m a v) (a + 1) i (by omega)
      rw [Memory.writeAll, show a + (i + 1) = a + 1 + i by omega, this]
      rfl

/-- A `scatter` keeps the canonical form. -/
theorem scatter_wf {s : State} {g : SegReg} {ea : Qword} {v : SrcVec} {offs : List Nat} {m : Memory}
    (h : scatter s g ea v offs = .ok m) (hs : Memory.wf s.mem = true) : Memory.wf m = true := by
  induction offs generalizing m with
  | nil =>
    simp only [scatter, Except.ok.injEq] at h
    exact h ▸ hs
  | cons i is ih =>
    unfold scatter at h
    split at h
    · cases h
    · split at h
      · cases h
      · rename_i _ hm
        cases h
        exact Memory.wf_write (ih hm) (BitVec.isLt _) _

/-- `memWrite` keeps the canonical form and changes memory alone. -/
theorem memWrite_ok {acc : MemAccess} {v : SrcVec} {s t : State} (h : memWrite acc v s = .ok t) :
    t = { s with mem := t.mem } ∧ (Memory.wf s.mem = true → Memory.wf t.mem = true) := by
  unfold memWrite at h
  split at h
  · cases h; exact ⟨rfl, id⟩
  · split at h
    · cases h
    · split at h
      · rename_i hm
        cases h
        exact ⟨rfl, scatter_wf hm⟩
      · cases h

theorem reset_memory_wf : Memory.wf State.reset.mem = true := by decide

/-! ### Memory access -/

/-- The segment checks of a read, in the spec's words. -/
theorem segmentOk_iff {s : State} {g : SegReg} {ea : Qword} {offs : List Nat} :
    s.segmentOk .read g ea offs = true ↔ ¬SegmentViolation s g ea offs := by
  unfold State.segmentOk SegmentViolation Segment.isNull Segment.allows
  by_cases hm : s.mode = .mode64
  · simp [hm]
  · simp only [hm, if_false, false_and, false_or, ne_eq, not_false_eq_true, true_and, Bool.and_eq_true,
      Bool.not_eq_true', beq_eq_false_iff_ne, List.all_eq_true, decide_eq_true_eq, not_or, not_exists, not_and,
      Bool.not_eq_false, Nat.not_lt]
    tauto

/-- The condition of #AC, in the spec's words. -/
theorem alignFault_iff {s : State} {acc : MemAccess} : s.alignFault acc = true ↔ AlignmentViolation s acc := by
  unfold State.alignFault AlignmentViolation State.alignCheck State.am State.acFlag State.cpl State.misaligned
  simp only [Bool.and_eq_true, Bool.or_eq_true, Bool.not_eq_true', decide_eq_true_eq, beq_iff_eq, bne_iff_ne, ne_eq]
  tauto

theorem alignFault_eq_false {s : State} {acc : MemAccess} : s.alignFault acc = false ↔ ¬AlignmentViolation s acc := by
  rw [← alignFault_iff, Bool.not_eq_true]

/-- The checks pass exactly when segment, alignment and translation are all in order. -/
theorem accessCheck_eq_none {k : Access} {acc : MemAccess} {s : State} :
    accessCheck k acc s = none ↔
      s.segmentOk k acc.seg acc.ea acc.offs = true ∧ (acc.align16 && s.misaligned acc 16) = false
        ∧ s.alignFault acc = false ∧ s.pageFault k acc.seg acc.ea acc.offs = none := by
  unfold accessCheck
  cases s.segmentOk k acc.seg acc.ea acc.offs <;> cases (acc.align16 && s.misaligned acc 16) <;>
    cases s.alignFault acc <;> rcases s.pageFault k acc.seg acc.ea acc.offs with _ | ⟨la, c⟩ <;> simp

/-- How the checks stop: by one of the four memory exceptions, with nothing but CR2 and the model's counter changed. -/
theorem accessCheck_eq_some {k : Access} {acc : MemAccess} {s : State} {stop : Stop}
    (h : accessCheck k acc s = some stop) :
    ∃ e u, stop = .fault (.exception e u) ∧ u = { s with cr2 := u.cr2, free := u.free }
      ∧ (e = segmentExn acc.seg ∨ e = .gp ∨ e = .ac ∨ ∃ la c, e = .pf la c ∧ u.cr2 = la) := by
  have hseg : ∃ u, raise (segmentExn acc.seg) s = .fault (.exception (segmentExn acc.seg) u) ∧ u = s := by
    unfold segmentExn; split <;> exact ⟨_, rfl, rfl⟩
  unfold accessCheck at h
  split at h
  · obtain ⟨u, hu, rfl⟩ := hseg
    cases h; exact ⟨_, _, hu, rfl, .inl rfl⟩
  · split at h
    · cases h; exact ⟨_, _, rfl, rfl, .inr (.inl rfl)⟩
    · split at h
      · cases h
      · cases h; exact ⟨_, _, rfl, rfl, .inr (.inr (.inl rfl))⟩
      · cases h; exact ⟨_, _, rfl, rfl, .inr (.inr (.inr ⟨_, _, rfl, rfl⟩))⟩
      · cases h
        split
        · exact ⟨_, _, rfl, rfl, .inr (.inr (.inl rfl))⟩
        · exact ⟨_, _, rfl, rfl, .inr (.inr (.inr ⟨_, _, rfl, rfl⟩))⟩

/-- A translation that answers gives a physical address of at most `bits` bits, the physical address width (R5). -/
theorem translateLA_lt {bits : Nat} {p : Paging} {cpl : BitVec 2} {k : Access} {la pa : Qword}
    (h : translateLA bits p cpl k la = .ok pa) : pa.toNat < 2 ^ bits := by
  unfold translateLA at h
  split at h
  · cases h
    exact lt_of_le_of_lt (by rw [BitVec.toNat_ofNat]; exact Nat.mod_le _ _) (Nat.mod_lt _ (Nat.two_pow_pos _))
  · dsimp only at h
    split at h
    · cases h
    · rename_i q _
      split_ifs at h with h1 h2
      cases h
      have hq : (q.frame + 1) * pageSize ≤ 2 ^ bits := by
        simp only [Bool.or_eq_true, not_or, Page.beyond, decide_eq_true_eq] at h1
        omega
      have hm : la.toNat % pageSize < pageSize := Nat.mod_lt _ (by decide)
      have hle : q.frame * pageSize + la.toNat % pageSize < 2 ^ bits := by
        rw [Nat.succ_mul] at hq; omega
      exact lt_of_le_of_lt (by rw [BitVec.toNat_ofNat]; exact Nat.mod_le _ _) hle

/-- Under the identity every address translates. -/
theorem translate_identity {s : State} (h : s.paging = .identity) (k : Access) (la : Qword) :
    (s.translate k la).toOption.isSome = true := by
  rw [State.translate, h]; rfl

theorem pageFault_eq_none {k : Access} {g : SegReg} {ea : Qword} {offs : List Nat} {s : State} :
    s.pageFault k g ea offs = none ↔
      ∀ i ∈ offs, (s.translate k (s.linear g ea i)).toOption.isSome = true := by
  simp only [State.pageFault, List.findSome?_eq_none_iff]
  refine forall₂_congr fun i _ => ?_
  cases s.translate k (s.linear g ea i) <;> simp [Except.toOption]

/-- Bit j of a byte placed at byte offset i. -/
theorem getLsbD_placed (b : Byte) (i j : Nat) (hj : j < 256) :
    (b.setWidth 256 <<< (8 * i)).getLsbD j = (decide (8 * i ≤ j) && b.getLsbD (j - 8 * i)) := by
  simp only [BitVec.getLsbD_shiftLeft, BitVec.getLsbD_setWidth, hj, decide_true, Bool.true_and]
  by_cases h : 8 * i ≤ j
  · simp [h, Nat.not_lt.2 h, show j - 8 * i < 256 by omega]
  · simp [h, Nat.lt_of_not_le h]

/-- What `gather` collects, bit by bit: bit j belongs to byte j / 8, if that byte is accessed. -/
theorem gather_bits {s : State} {g : SegReg} {ea : Qword} {offs : List Nat} {v : SrcVec}
    (h : gather s g ea offs = .ok v) (j : Nat) (hj : j < 256) :
    v.getLsbD j = (decide (j / 8 ∈ offs)
      && ((s.mem.read (s.linear g ea (j / 8)).toNat).getD 0).getLsbD (j % 8)) := by
  induction offs generalizing v with
  | nil =>
    simp only [gather, Except.ok.injEq] at h
    subst h; simp
  | cons i is ih =>
    unfold gather at h
    split at h
    · cases h
    · rename_i b hb
      split at h
      · cases h
      · rename_i w hw
        simp only [Except.ok.injEq] at h
        subst h
        rw [BitVec.getLsbD_or, ih hw, getLsbD_placed _ _ _ hj]
        by_cases e : j / 8 = i
        · subst e
          have h1 : 8 * (j / 8) ≤ j := by omega
          have h2 : j - 8 * (j / 8) = j % 8 := by omega
          simp only [h1, h2, hb, decide_true, Bool.true_and, Option.getD_some, List.mem_cons, true_or]
          cases b.getLsbD (j % 8) <;> simp
        · have : (decide (8 * i ≤ j) && b.getLsbD (j - 8 * i)) = false := by
            by_cases hle : 8 * i ≤ j
            · rw [BitVec.getLsbD_of_ge b (j - 8 * i) (by omega), Bool.and_false]
            · simp [hle]
          rw [this, Bool.or_false]
          simp [e]

/-- Every byte `gather` reads exists. -/
theorem gather_exists {s : State} {g : SegReg} {ea : Qword} {offs : List Nat} {v : SrcVec}
    (h : gather s g ea offs = .ok v) : ∀ i ∈ offs, ∃ b, s.mem.read (s.linear g ea i).toNat = some b := by
  induction offs generalizing v with
  | nil => simp
  | cons i is ih =>
    unfold gather at h
    split at h
    · cases h
    · rename_i b hb
      split at h
      · cases h
      · rename_i w hw
        exact List.forall_mem_cons.2 ⟨⟨b, hb⟩, ih hw⟩

/-- Bytes that all exist are gathered. -/
theorem gather_total {s : State} {g : SegReg} {ea : Qword} {offs : List Nat}
    (h : ∀ i ∈ offs, ∃ b, s.mem.read (s.linear g ea i).toNat = some b) : ∃ v, gather s g ea offs = .ok v := by
  induction offs with
  | nil => exact ⟨0, rfl⟩
  | cons i is ih =>
    obtain ⟨⟨b, hb⟩, ht⟩ := List.forall_mem_cons.1 h
    obtain ⟨w, hw⟩ := ih ht
    exact ⟨_, by rw [gather, hb, hw]⟩

/-- A read that answers: nothing accessed, or checks passed and bytes gathered. -/
theorem memRead_eq_ok {acc : MemAccess} {s : State} {v : SrcVec} :
    memRead acc s = .ok v ↔
      (acc.offs = [] ∧ v = 0) ∨
        (acc.offs ≠ [] ∧ accessCheck .read acc s = none ∧ gather s acc.seg acc.ea acc.offs = .ok v) := by
  unfold memRead
  split
  · rename_i h; simp only [h, Except.ok.injEq, true_and, ne_eq, not_true_eq_false, false_and, or_false]; exact eq_comm
  · rename_i h
    split
    · rename_i h2; simp [h, h2]
    · rename_i h2
      split
      · rename_i h3; simp [h, h2, h3]
      · rename_i h3; simp [h, h2, h3]

/-- How a read stops: a memory exception, or a byte outside memory. -/
theorem memRead_error {acc : MemAccess} {s : State} {e : Stop} (h : memRead acc s = .error e) :
    accessCheck .read acc s = some e ∨ ∃ la, e = .fault (.stuckData la) := by
  unfold memRead at h
  split at h
  · cases h
  · split at h
    · cases h; exact .inl ‹_›
    · split at h
      · cases h
      · cases h; exact .inr ⟨_, rfl⟩

/-! ### SIMD conditions -/

/-- The flags of elements 0 to n-1 together, bit by bit. -/
theorem condOf_flags {w : Nat} (f : Nat → Conv w) (n i : Nat) :
    (condOf f n).flags.getLsbD i = true ↔ ∃ j < n, (f j).flags.getLsbD i = true := by
  induction n with
  | zero => simp [condOf]
  | succ n ih =>
    simp only [condOf, BitVec.getLsbD_or, Bool.or_eq_true, ih]
    constructor
    · rintro (⟨j, hj, h⟩ | h)
      · exact ⟨j, by omega, h⟩
      · exact ⟨n, by omega, h⟩
    · rintro ⟨j, hj, h⟩
      rcases Nat.lt_succ_iff_lt_or_eq.1 hj with hj | rfl
      · exact .inl ⟨j, hj, h⟩
      · exact .inr h

theorem condOf_tiny {w : Nat} (f : Nat → Conv w) (n : Nat) :
    (condOf f n).tiny = true ↔ ∃ j < n, (f j).tiny = true := by
  induction n with
  | zero => simp [condOf]
  | succ n ih =>
    simp only [condOf, Bool.or_eq_true, ih]
    constructor
    · rintro (⟨j, hj, h⟩ | h)
      · exact ⟨j, by omega, h⟩
      · exact ⟨n, by omega, h⟩
    · rintro ⟨j, hj, h⟩
      rcases Nat.lt_succ_iff_lt_or_eq.1 hj with hj | rfl
      · exact .inl ⟨j, hj, h⟩
      · exact .inr h

/-- The response completes exactly when no detected condition is unmasked, and then ORs the flags into MXCSR. -/
theorem simdRespond_eq_ok {c : Cond} {s : State} {m : Dword} :
    simdRespond c s = .ok m ↔ s.unmasked c = 0 ∧ m = orFlags s.mxcsr c.flags := by
  unfold simdRespond
  split
  · rename_i h; simp only [h, Except.ok.injEq, true_and]; exact eq_comm
  · rename_i h
    exact Iff.intro (fun e => by cases e) (fun e => absurd e.1 h)

/-- The response's fault: #XM or #UD, with nothing but MXCSR flags and the model's counter changed. -/
theorem simdRespond_error {c : Cond} {s : State} {e : Stop} (h : simdRespond c s = .error e) :
    s.unmasked c ≠ 0 ∧ e = raise (if s.osxmmexcpt then .xm else .ud) (s.atSimdFault c) := by
  unfold simdRespond at h
  split at h
  · cases h
  · cases h; exact ⟨‹_›, rfl⟩

/-! ### Elements -/

/-- Bit i of packed quadwords. -/
theorem packQ_bits (f : Nat → Qword) (n i : Nat) (hi : i < 512) :
    (packQ f n).getLsbD i = (decide (i < 64 * n) && (f (i / 64)).getLsbD (i % 64)) := by
  induction n with
  | zero => simp [packQ]
  | succ n ih =>
    simp only [packQ, BitVec.getLsbD_or, ih, BitVec.getLsbD_shiftLeft, BitVec.getLsbD_setWidth]
    by_cases h1 : i < 64 * n
    · simp [h1, show i < 64 * (n + 1) by omega]
    · by_cases h2 : i < 64 * (n + 1)
      · have e1 : i / 64 = n := by omega
        have e2 : i - 64 * n = i % 64 := by omega
        simp [h1, h2, hi, e1, e2, show i % 64 < 512 by omega]
      · simp [h1, h2, BitVec.getLsbD_of_ge (f n) (i - 64 * n) (by omega)]

/-- Bit i of packed doublewords. -/
theorem packD_bits (f : Nat → Dword) (n i : Nat) (hi : i < 512) :
    (packD f n).getLsbD i = (decide (i < 32 * n) && (f (i / 32)).getLsbD (i % 32)) := by
  induction n with
  | zero => simp [packD]
  | succ n ih =>
    simp only [packD, BitVec.getLsbD_or, ih, BitVec.getLsbD_shiftLeft, BitVec.getLsbD_setWidth]
    by_cases h1 : i < 32 * n
    · simp [h1, show i < 32 * (n + 1) by omega]
    · by_cases h2 : i < 32 * (n + 1)
      · have e1 : i / 32 = n := by omega
        have e2 : i - 32 * n = i % 32 := by omega
        simp [h1, h2, hi, e1, e2, show i % 32 < 512 by omega]
      · simp [h1, h2, BitVec.getLsbD_of_ge (f n) (i - 32 * n) (by omega)]

theorem vecQword_packQ (f : Nat → Qword) {n j : Nat} (hj : j < n) (hn : n ≤ 8) : vecQword (packQ f n) j = f j := by
  apply BitVec.eq_of_getLsbD_eq
  intro i hi
  rw [vecQword, BitVec.getLsbD_extractLsb', packQ_bits _ _ _ (by omega)]
  simp [hi, show 64 * j + i < 64 * n by omega, show (64 * j + i) / 64 = j by omega,
    show (64 * j + i) % 64 = i by omega]

theorem vecDword_packD (f : Nat → Dword) {n j : Nat} (hj : j < n) (hn : n ≤ 16) : vecDword (packD f n) j = f j := by
  apply BitVec.eq_of_getLsbD_eq
  intro i hi
  rw [vecDword, BitVec.getLsbD_extractLsb', packD_bits _ _ _ (by omega)]
  simp [hi, show 32 * j + i < 32 * n by omega, show (32 * j + i) / 32 = j by omega,
    show (32 * j + i) % 32 = i by omega]

theorem packQ_above (f : Nat → Qword) (n : Nat) : packQ f n >>> (64 * n) = 0 := by
  apply BitVec.eq_of_getLsbD_eq
  intro i hi
  rw [BitVec.getLsbD_ushiftRight]
  by_cases h : 64 * n + i < 512
  · rw [packQ_bits _ _ _ h]; simp
  · rw [BitVec.getLsbD_of_ge _ _ (by omega)]; simp

theorem packD_above (f : Nat → Dword) (n : Nat) : packD f n >>> (32 * n) = 0 := by
  apply BitVec.eq_of_getLsbD_eq
  intro i hi
  rw [BitVec.getLsbD_ushiftRight]
  by_cases h : 32 * n + i < 512
  · rw [packD_bits _ _ _ h]; simp
  · rw [BitVec.getLsbD_of_ge _ _ (by omega)]; simp

/-- Bit i after a merge: from the new value below 128, from the old one above. -/
theorem mergeLow128_bits (old v : Vec) (i : Nat) :
    (mergeLow128 old v).getLsbD i = if i < 128 then v.getLsbD i else old.getLsbD i := by
  simp only [mergeLow128, BitVec.getLsbD_append, BitVec.getLsbD_extractLsb']
  split
  · rename_i h; simp [h]
  · rename_i h
    by_cases h2 : i < 512
    · simp [show i - 128 < 384 by omega, show 128 + (i - 128) = i by omega]
    · rw [BitVec.getLsbD_of_ge old i (by omega)]
      simp [show ¬ i - 128 < 384 by omega]

theorem mergeLow128_upper (old v : Vec) : (mergeLow128 old v).extractLsb' 128 384 = old.extractLsb' 128 384 := by
  apply BitVec.eq_of_getLsbD_eq
  intro i hi
  simp [hi, mergeLow128_bits]

theorem vecQword_mergeLow128 (old v : Vec) {j : Nat} (hj : j < 2) : vecQword (mergeLow128 old v) j = vecQword v j := by
  apply BitVec.eq_of_getLsbD_eq
  intro i hi
  simp [vecQword, hi, mergeLow128_bits, show 64 * j + i < 128 by omega]

theorem vecDword_mergeLow128 (old v : Vec) {j : Nat} (hj : j < 4) : vecDword (mergeLow128 old v) j = vecDword v j := by
  apply BitVec.eq_of_getLsbD_eq
  intro i hi
  simp [vecDword, hi, mergeLow128_bits, show 32 * j + i < 128 by omega]

/-! ### Narrowing under the masks -/

/-- Without an overflow the mask OM plays no part, and UM only lets FZ act (R168). -/
theorem narrowElement_of_not_overflow {v : Qword} {rc : Rc} {fz daz om um : Bool}
    (h : (cvtF64ToF32 v rc (fz && um) daz).flags.getLsbD 3 = false) :
    narrowElement v rc fz daz om um = cvtF64ToF32 v rc (fz && um) daz := by
  simp only [narrowElement, h, Bool.and_false, Bool.false_and, Bool.false_eq_true, if_false]

/-- With the masks OM and UM set an element is R150's `CvtF64ToF32`. -/
theorem narrowElement_masked (v : Qword) (rc : Rc) (fz daz : Bool) :
    narrowElement v rc fz daz true true = cvtF64ToF32 v rc fz daz := by
  simp [narrowElement]

/-- The masks change no element's value, and no flag but PE beyond what FZ does. -/
theorem narrowElement_cases (v : Qword) (rc : Rc) (fz daz om um : Bool) :
    narrowElement v rc fz daz om um = cvtF64ToF32 v rc (fz && um) daz
    ∨ narrowElement v rc fz daz om um = { cvtF64ToF32 v rc (fz && um) daz with
        flags := (cvtF64ToF32 v rc (fz && um) daz).flags &&& ~~~ SimdFlags.pe } := by
  unfold narrowElement
  dsimp only
  split
  · exact .inr rfl
  · exact .inl rfl

end Sys2Proof.Machine
end

