-- ==== Sys2Proof/Laws/Meanings.lean ====
section
/-! SUPPORT. What each shared course of an instruction, each fetch and each step can do, said once: the form in which a
next state is reached, and that a readable operand is read. -/

namespace Sys2Proof.Machine

/-! ### Operands -/

/-- A source that can be had is read, and every bit of its `n` bytes is the bit claimed. -/
theorem readSource_of_sourceIs {s : State} {src : Src} {n : Nat} {al : Bool} {v : SrcVec} (hn0 : 0 < n)
    (hn : n ≤ 32) (h : sourceIs s src n al v = true) :
    ∃ w, readSource src n al s = .ok w ∧ ∀ i < 8 * n, w.getLsbD i = v.getLsbD i := by
  cases src with
  | reg r =>
    simp only [sourceIs, beq_iff_eq] at h
    exact ⟨_, rfl, fun i _ => by rw [h]⟩
  | mem g ea =>
    simp only [sourceIs, bytesAre, byteIs, Bool.and_eq_true, Bool.or_eq_true, Bool.not_eq_true', beq_iff_eq,
      List.all_eq_true, decide_eq_true_eq] at h
    obtain ⟨⟨⟨hseg, hal⟩, hac⟩, hb⟩ := h
    obtain ⟨w, hw⟩ := gather_total (s := s) (g := g) (ea := ea) (offs := List.range n)
      (fun i hi => ⟨_, (hb i hi).2⟩)
    refine ⟨w, ?_, fun i hi => ?_⟩
    · refine memRead_eq_ok.2 (.inr ⟨by simp; omega, accessCheck_eq_none.2 ⟨segmentOk_iff.2 hseg, ?_, alignFault_eq_false.2 hac, ?_⟩, hw⟩)
      · rcases hal with hal | hal
        · simp [hal]
        · simp [State.misaligned, hal]
      · exact pageFault_eq_none.2 (fun i hi => (hb i hi).1)
    · have hm : i / 8 ∈ List.range n := List.mem_range.2 (by omega)
      rw [gather_bits hw i (by omega), (hb _ hm).2]
      simp only [hm, decide_true, Bool.true_and, Option.getD_some, BitVec.getLsbD_extractLsb']
      simp [show i % 8 < 8 by omega, show 8 * (i / 8) + i % 8 = i by omega]

theorem dwordAt_congr {v w : SrcVec} {n j : Nat} (h : ∀ i < n, w.getLsbD i = v.getLsbD i) (hj : 32 * j + 32 ≤ n) :
    dwordAt w j = dwordAt v j := by
  apply BitVec.eq_of_getLsbD_eq
  intro i hi
  simp [dwordAt, hi, h (32 * j + i) (by omega)]

theorem qwordAt_congr {v w : SrcVec} {n j : Nat} (h : ∀ i < n, w.getLsbD i = v.getLsbD i) (hj : 64 * j + 64 ≤ n) :
    qwordAt w j = qwordAt v j := by
  apply BitVec.eq_of_getLsbD_eq
  intro i hi
  simp [qwordAt, hi, h (64 * j + i) (by omega)]

/-! ### The courses of the meanings -/

/-- How a legacy or VEX form of CVTDQ2PD reaches a next state, and which. -/
theorem dq2pd_eq_ok {g : Gate} {u : Bool} {ne : Nat} {o : Operands} {s t : State} :
    dq2pd g u ne o s = .ok t ↔
      enter g s = .ok () ∧ ∃ src, readSource o.src (4 * ne) false s = .ok src
        ∧ t = (s.writeBack u o.dest (packQ (fun j => cvtI32ToF64 (dwordAt src j)) ne)).advance o.len := by
  unfold dq2pd
  rcases enter g s with e | ⟨⟩
  · simp
  · rcases readSource o.src (4 * ne) false s with e | src
    · simp
    · simp [eq_comm]

/-- How a tier B form with a vector destination reaches a next state, and which. -/
theorem convertToDwords_eq_ok {g : Gate} {u al : Bool} {bytes ne : Nat} {conv : SrcVec → Nat → Conv 32}
    {o : Operands} {s t : State} :
    convertToDwords g u al bytes ne conv o s = .ok t ↔
      enter g s = .ok () ∧ ∃ src, readSource o.src bytes al s = .ok src
        ∧ s.unmasked (condOf (conv src) ne) = 0
        ∧ t = ((s.writeBack u o.dest (packD (fun j => (conv src j).val) ne)).setMxcsr
            (orFlags s.mxcsr (condOf (conv src) ne).flags)).advance o.len := by
  unfold convertToDwords
  rcases enter g s with e | ⟨⟩
  · simp
  · rcases readSource o.src bytes al s with e | src
    · simp
    · dsimp only
      rcases h : simdRespond (condOf (conv src) ne) s with e | m
      · have hu := (simdRespond_error h).1
        exact Iff.intro (fun e => by cases e) (fun ⟨_, w, hw, h0, _⟩ => absurd (by cases hw; exact h0) hu)
      · obtain ⟨h1, rfl⟩ := simdRespond_eq_ok.1 h
        simp only [Except.ok.injEq, true_and, exists_eq_left', h1]
        exact eq_comm

theorem checkX87_eq_ok {s : State} {u : Unit} : checkX87 s = .ok u ↔ s.x87.status.getLsbD 7 = false := by
  unfold checkX87
  cases s.x87.status.getLsbD 7 <;> cases s.ne <;> simp

/-- How CVTPD2PI reaches a next state, and which. -/
theorem pd2pi_eq_ok {p : LegacyOp} {s t : State} :
    pd2pi p s = .ok t ↔
      enter .legacy s = .ok () ∧ s.x87.status.getLsbD 7 = false
        ∧ ∃ src, readSource (legacyOperands p s).src 16 true s = .ok src
        ∧ s.unmasked (condOf (s.pd2dqLane src) 2) = 0
        ∧ t = ((s.setX87 (s.x87.writeMm p.reg ((s.pd2dqLane src 1).val ++ (s.pd2dqLane src 0).val))).setMxcsr
            (orFlags s.mxcsr (condOf (s.pd2dqLane src) 2).flags)).advance p.len := by
  unfold pd2pi
  rcases enter .legacy s with e | ⟨⟩
  · simp
  · rcases hx : checkX87 s with e | ⟨⟩
    · have : ¬ s.x87.status.getLsbD 7 = false := fun h => by rw [checkX87_eq_ok (u := ()) |>.2 h] at hx; cases hx
      simp [this]
    · have hx := checkX87_eq_ok.1 hx
      rcases readSource (legacyOperands p s).src 16 true s with e | src
      · simp
      · dsimp only
        rcases h : simdRespond (condOf (s.pd2dqLane src) 2) s with e | m
        · have hu := (simdRespond_error h).1
          exact Iff.intro (fun e => by cases e)
            (fun ⟨_, _, w, hw, h0, _⟩ => absurd (by cases hw; exact h0) hu)
        · obtain ⟨h1, rfl⟩ := simdRespond_eq_ok.1 h
          simp only [Except.ok.injEq, hx, true_and, exists_eq_left', h1]
          exact eq_comm

/-- How an EVEX form reaches a next state, and which. -/
theorem dq2pdEvex_eq_ok {row : Nat} {p : EvexOp} {s t : State} :
    dq2pdEvex row p s = .ok t ↔
      ∃ kl, evexLength p row s.cfg = .lanes kl
        ∧ enter (.evex (kl != 8)) s = .ok ()
        ∧ ∃ src, evexSource p kl (evexOperands p (evexDispScale p row) s).src s = .ok src
        ∧ t = ((s.setVec (evexOperands p (evexDispScale p row) s).dest
            (packQ (evexLane p s (s.vec (evexOperands p (evexDispScale p row) s).dest) src) kl))).advance
              (evexOperands p (evexDispScale p row) s).len := by
  unfold dq2pdEvex
  rcases hl : evexLength p row s.cfg with kl | _ | _
  · simp only [reduceCtorEq, if_false, EvexLength.lanes.injEq, exists_eq_left', EvexLength.needVl]
    rcases enter (.evex (kl != 8)) s with e | ⟨⟩
    · simp
    · rcases evexSource p kl (evexOperands p (evexDispScale p row) s).src s with e | src
      · simp
      · simp [eq_comm]
  · simp
  · simp only [reduceCtorEq, if_false, false_and, exists_false, iff_false]
    rcases enter (.evex (EvexLength.needVl row .refuse)) s with e | ⟨⟩ <;> simp

/-- Without embedded rounding the row decides the length. -/
theorem evexLength_of_not_rounding {p : EvexOp} (h : NotEmbeddedRounding p) (row : Nat) (c : Config) :
    evexLength p row c = .lanes row := by
  rcases h with h | h <;> simp [evexLength, h]

/-! ### Fetch and step -/

/-- The run has ended exactly when the instruction pointer is at the end of the program text. -/
theorem runEnded_iff {s : State} : s.runEnded = true ↔ s.textEnd = some s.rip := by
  unfold State.runEnded; exact beq_iff_eq

theorem step_of_textEnd {s : State} (h : s.textEnd = some s.rip) : step s = .fault (.endOfText s) := by
  unfold step; rw [if_pos (runEnded_iff.2 h)]

/-- The linear address of an instruction byte is the one rule R40 gives it. -/
theorem fetchLinear_eq {s : State} {i : Nat} : s.fetchLinear i = fetchAddress s i := by
  unfold fetchAddress State.fetchLinear State.linear State.segBase
  split
  · simp [*, BitVec.ofNat_add]
  · apply BitVec.eq_of_toNat_eq
    simp [*, State.segment, BitVec.toNat_add]
/-- What the fetch of one byte does: out of range, it raises #GP(0) or refuses; in range it goes by translation and memory. -/
theorem fetchStop_eq {s : State} {i : Nat} :
    fetchStop s i =
      if FetchInRange s i then
        match s.translate .fetch (fetchAddress s i) with
        | .error code => some (raise (.pf (fetchAddress s i) code) s)
        | .ok _ => if s.mem.read (fetchAddress s i).toNat = none then some (.fault (.stuckFetch (fetchAddress s i))) else none
      else if i = 0 ∧ (s.mode ≠ .mode64 → s.rip.toNat < 2 ^ 32) then some (raise .gp s)
      else some (.refused .fetchCrossesEnd) := by
  have hr := s.rip.isLt
  have hl := s.segs.cs.limit.isLt
  by_cases h : FetchInRange s i
  · rw [if_pos h]
    unfold fetchStop
    rw [fetchLinear_eq]
    by_cases hm : s.mode = .mode64
    · simp only [FetchInRange, hm, if_true] at h
      have : ¬2 ^ 64 ≤ s.rip.toNat + i := by omega
      have hc : canonical s.cfg.linAddrBits (fetchAddress s i) = true := by simp only [fetchAddress, hm, if_true, h.2]
      simp only [hm, if_true, this, hc, decide_false, Bool.not_true, if_false, Bool.false_eq_true]
      rcases s.translate .fetch (fetchAddress s i) with c | p
      · rfl
      · rcases s.mem.read (fetchAddress s i).toNat with _ | b <;> simp
    · simp only [FetchInRange, hm, if_false] at h
      have : ¬2 ^ 32 ≤ s.rip.toNat + i := by omega
      simp only [hm, if_false, this, h, decide_false, decide_true, Bool.not_true, Bool.false_eq_true]
      rcases s.translate .fetch (fetchAddress s i) with c | p
      · rfl
      · rcases s.mem.read (fetchAddress s i).toNat with _ | b <;> simp
  · rw [if_neg h]
    unfold fetchStop
    by_cases hm : s.mode = .mode64
    · simp only [FetchInRange, hm, if_true, not_and] at h
      by_cases hw : 2 ^ 64 ≤ s.rip.toNat + i
      · have h0 : ¬i = 0 := by omega
        simp only [hm, if_true, decide_eq_true hw, h0, false_and, if_false]
      · have hc : canonical s.cfg.linAddrBits (s.fetchLinear i) = false := by
          have := h (by omega)
          rw [fetchLinear_eq, fetchAddress, if_pos hm]
          exact Bool.not_eq_true _ ▸ this
        simp only [hm, if_true, decide_eq_false hw, hc, Bool.not_false, Bool.false_eq_true, if_false, ne_eq,
          not_true_eq_false, false_implies, and_true]
        split <;> rfl
    · simp only [FetchInRange, hm, if_false] at h
      by_cases hw : 2 ^ 32 ≤ s.rip.toNat + i
      · have h0 : ¬(i = 0 ∧ s.rip.toNat < 2 ^ 32) := by omega
        simp only [hm, if_false, decide_eq_true hw, if_true, ne_eq, not_false_eq_true, true_implies, h0]
      · have h0 : s.rip.toNat < 2 ^ 32 := by omega
        simp only [hm, if_false, decide_eq_false hw, decide_eq_false h, Bool.not_false, if_true, Bool.false_eq_true,
          h0, implies_true, and_true]
        split <;> rfl

/-- A byte that can be fetched exists. -/
theorem fetchStop_eq_none {s : State} {i : Nat} (h : fetchStop s i = none) :
    ∃ b, s.mem.read (s.fetchLinear i).toNat = some b := by
  rcases hb : s.mem.read (s.fetchLinear i).toNat with _ | b
  · unfold fetchStop at h
    rw [hb] at h
    dsimp only at h
    split_ifs at h <;> (split at h <;> cases h)
  · exact ⟨b, rfl⟩

/-- Fetched bytes are bytes of memory, in order, and no more than asked for. -/
theorem fetchFrom_spec (s : State) (n i : Nat) :
    (fetchFrom s n i).1.length ≤ n
      ∧ ∀ j (h : j < (fetchFrom s n i).1.length), s.mem.read (s.fetchLinear (i + j)).toNat = some (fetchFrom s n i).1[j] := by
  induction n generalizing i with
  | zero => exact ⟨Nat.le_refl _, fun j h => absurd h (Nat.not_lt_zero _)⟩
  | succ n ih =>
    rcases hst : fetchStop s i with _ | stop
    · have e : (fetchFrom s (n + 1) i).1
          = ((s.mem.read (s.fetchLinear i).toNat).getD 0) :: (fetchFrom s n (i + 1)).1 := by
        rw [fetchFrom, hst]
      obtain ⟨b, hb⟩ := fetchStop_eq_none hst
      obtain ⟨h1, h2⟩ := ih (i + 1)
      constructor
      · rw [e, List.length_cons]; omega
      · intro j hj
        cases j with
        | zero => simp [e, hb]
        | succ j =>
          have hj' : j < (fetchFrom s n (i + 1)).1.length := by
            rw [e, List.length_cons] at hj; omega
          have := h2 j hj'
          rw [show i + (j + 1) = i + 1 + j by omega, this]
          simp [e]
    · have e : (fetchFrom s (n + 1) i).1 = [] := by rw [fetchFrom, hst]
      rw [e]
      exact ⟨Nat.zero_le _, fun j h => absurd h (Nat.not_lt_zero _)⟩

theorem runDecoded_eq_next {s t : State} {f : List Byte × Option Stop} {d : Decoded} :
    runDecoded s f d = .next t ↔ ∃ i, d = .instr i ∧ exec i s = .next t := by
  cases d with
  | instr i => simp [runDecoded]
  | ud => simp [runDecoded, outcome_raise_ne_next]
  | tooLong => simp [runDecoded, outcome_raise_ne_next]
  | refused r => simp [runDecoded]
  | truncated =>
    obtain ⟨bs, _ | stop⟩ := f
    · simp [runDecoded, fetchOutcome, outcome_raise_ne_next]
    · cases stop <;> simp [runDecoded, fetchOutcome, outcome]

/-- How a step reaches a next state: the bytes at the instruction pointer decode to an instruction that reaches it. -/
theorem step_eq_next {s t : State} :
    step s = .next t ↔
      s.textEnd ≠ some s.rip ∧ s.mxcsr.extractLsb' 16 16 = 0
        ∧ ∃ i, decode s.decodeCtx (fetchFrom s 15 0).1 = .instr i ∧ exec i s = .next t := by
  unfold step
  split
  · rename_i h
    exact ⟨fun e => (by cases e), fun e => absurd (runEnded_iff.1 h) e.1⟩
  rename_i hr
  rw [runEnded_iff] at hr
  split
  · rename_i h
    exact ⟨fun e => (by cases e), fun e => absurd e.2.1 h⟩
  · rename_i h
    rw [runDecoded_eq_next]
    exact ⟨fun e => ⟨hr, not_not.1 h, e⟩, fun e => e.2.2⟩

end Sys2Proof.Machine
end

