-- ==== Sys2Proof/Laws/PerInstr.lean ====
section
/-! SUPPORT. The per-instruction family `EncodedLength`: a well-formed instruction has 3 to 15 bytes (R60). One lemma per
constructor of `Instr`. -/

namespace Sys2Proof.Laws

/-- An instruction that is well formed in some mode has 3 to 15 bytes. -/
def EncodedLength.Statement (i : Instr) : Prop :=
  ∀ c, i.wellFormed c = true → 3 ≤ (encode i).length ∧ (encode i).length ≤ 15

theorem encodeModRM_length_pos (reg : BitVec 3) (rm : Rm) : 1 ≤ (encodeModRM reg rm).length := by
  rcases rm with n | a
  · simp [encodeModRM]
  · cases a <;> simp [encodeModRM]

theorem legacy_length {c : DecodeCtx} {pp : Pp} {p : LegacyOp} (opc : Byte) (h : p.ok c pp = true) :
    3 ≤ (encodeLegacy opc p).length ∧ (encodeLegacy opc p).length ≤ 15 := by
  have hl : (encodeLegacy opc p).length = p.len := by simp [LegacyOp.len, encodeLegacy]
  simp only [LegacyOp.ok, Bool.and_eq_true, decide_eq_true_eq] at h
  have := encodeModRM_length_pos p.reg p.rm
  refine ⟨?_, hl ▸ h.2⟩
  simp only [encodeLegacy, List.length_append, List.length_cons]
  omega

theorem vex3_length {c : DecodeCtx} {p : Vex3Op} (pp : Pp) (l : Bool) (opc : Byte) (h : p.ok c = true) :
    3 ≤ (encodeVex3 pp l opc p).length ∧ (encodeVex3 pp l opc p).length ≤ 15 := by
  have hl : (encodeVex3 pp l opc p).length = p.len := by simp [Vex3Op.len, encodeVex3]
  simp only [Vex3Op.ok, Bool.and_eq_true, decide_eq_true_eq] at h
  have := encodeModRM_length_pos p.reg p.rm
  refine ⟨?_, hl ▸ h.2⟩
  simp only [encodeVex3, List.length_append, List.length_cons]
  omega

theorem vex2_length {c : DecodeCtx} {p : Vex2Op} (pp : Pp) (l : Bool) (opc : Byte) (h : p.ok c = true) :
    3 ≤ (encodeVex2 pp l opc p).length ∧ (encodeVex2 pp l opc p).length ≤ 15 := by
  have hl : (encodeVex2 pp l opc p).length = p.len := by simp [Vex2Op.len, encodeVex2]
  simp only [Vex2Op.ok, Bool.and_eq_true, decide_eq_true_eq] at h
  have := encodeModRM_length_pos p.reg p.rm
  refine ⟨?_, hl ▸ h.2⟩
  simp only [encodeVex2, List.length_append, List.length_cons]
  omega

theorem evex_length {c : DecodeCtx} {ll : BitVec 2} {p : EvexOp} (h : p.ok c ll = true) :
    3 ≤ (encodeEvex p).length ∧ (encodeEvex p).length ≤ 15 := by
  simp only [EvexOp.ok, Bool.and_eq_true, decide_eq_true_eq] at h
  refine ⟨?_, h.2⟩
  simp only [encodeEvex, List.length_append, List.length_cons]
  omega

theorem EncodedLength.cvtdq2pd (p : LegacyOp) : EncodedLength.Statement (.cvtdq2pd p) := fun _ h => legacy_length _ h
theorem EncodedLength.vcvtdq2pd128Vex3 (p : Vex3Op) : EncodedLength.Statement (.vcvtdq2pd128Vex3 p) := fun _ h => vex3_length _ _ _ h
theorem EncodedLength.vcvtdq2pd128Vex2 (p : Vex2Op) : EncodedLength.Statement (.vcvtdq2pd128Vex2 p) := fun _ h => vex2_length _ _ _ h
theorem EncodedLength.vcvtdq2pd256Vex3 (p : Vex3Op) : EncodedLength.Statement (.vcvtdq2pd256Vex3 p) := fun _ h => vex3_length _ _ _ h
theorem EncodedLength.vcvtdq2pd256Vex2 (p : Vex2Op) : EncodedLength.Statement (.vcvtdq2pd256Vex2 p) := fun _ h => vex2_length _ _ _ h
theorem EncodedLength.vcvtdq2pd128Evex (p : EvexOp) : EncodedLength.Statement (.vcvtdq2pd128Evex p) := fun _ h => evex_length h
theorem EncodedLength.vcvtdq2pd256Evex (p : EvexOp) : EncodedLength.Statement (.vcvtdq2pd256Evex p) := fun _ h => evex_length h
theorem EncodedLength.vcvtdq2pd512Evex (p : EvexOp) : EncodedLength.Statement (.vcvtdq2pd512Evex p) := fun _ h => evex_length h
theorem EncodedLength.cvtdq2ps (p : LegacyOp) : EncodedLength.Statement (.cvtdq2ps p) := fun _ h => legacy_length _ h
theorem EncodedLength.vcvtdq2ps128Vex3 (p : Vex3Op) : EncodedLength.Statement (.vcvtdq2ps128Vex3 p) := fun _ h => vex3_length _ _ _ h
theorem EncodedLength.vcvtdq2ps128Vex2 (p : Vex2Op) : EncodedLength.Statement (.vcvtdq2ps128Vex2 p) := fun _ h => vex2_length _ _ _ h
theorem EncodedLength.vcvtdq2ps256Vex3 (p : Vex3Op) : EncodedLength.Statement (.vcvtdq2ps256Vex3 p) := fun _ h => vex3_length _ _ _ h
theorem EncodedLength.vcvtdq2ps256Vex2 (p : Vex2Op) : EncodedLength.Statement (.vcvtdq2ps256Vex2 p) := fun _ h => vex2_length _ _ _ h
theorem EncodedLength.cvtpd2dq (p : LegacyOp) : EncodedLength.Statement (.cvtpd2dq p) := fun _ h => legacy_length _ h
theorem EncodedLength.vcvtpd2dq128Vex3 (p : Vex3Op) : EncodedLength.Statement (.vcvtpd2dq128Vex3 p) := fun _ h => vex3_length _ _ _ h
theorem EncodedLength.vcvtpd2dq128Vex2 (p : Vex2Op) : EncodedLength.Statement (.vcvtpd2dq128Vex2 p) := fun _ h => vex2_length _ _ _ h
theorem EncodedLength.vcvtpd2dq256Vex3 (p : Vex3Op) : EncodedLength.Statement (.vcvtpd2dq256Vex3 p) := fun _ h => vex3_length _ _ _ h
theorem EncodedLength.vcvtpd2dq256Vex2 (p : Vex2Op) : EncodedLength.Statement (.vcvtpd2dq256Vex2 p) := fun _ h => vex2_length _ _ _ h
theorem EncodedLength.cvtpd2pi (p : LegacyOp) : EncodedLength.Statement (.cvtpd2pi p) := fun _ h => legacy_length _ h
theorem EncodedLength.cvtpd2ps (p : LegacyOp) : EncodedLength.Statement (.cvtpd2ps p) := fun _ h => legacy_length _ h
theorem EncodedLength.vcvtpd2ps128Vex3 (p : Vex3Op) : EncodedLength.Statement (.vcvtpd2ps128Vex3 p) := fun _ h => vex3_length _ _ _ h
theorem EncodedLength.vcvtpd2ps128Vex2 (p : Vex2Op) : EncodedLength.Statement (.vcvtpd2ps128Vex2 p) := fun _ h => vex2_length _ _ _ h
theorem EncodedLength.vcvtpd2ps256Vex3 (p : Vex3Op) : EncodedLength.Statement (.vcvtpd2ps256Vex3 p) := fun _ h => vex3_length _ _ _ h
theorem EncodedLength.vcvtpd2ps256Vex2 (p : Vex2Op) : EncodedLength.Statement (.vcvtpd2ps256Vex2 p) := fun _ h => vex2_length _ _ _ h

end Sys2Proof.Laws
end

