-- ==== Sys2Proof/Tests/Slice0.lean ====
section
/-! SUPPORT. Tests: the well-formedness smoke, every row's decoding, one step per instruction and its faults, and for
every statement with hypotheses a witness that meets them. Expected results are the vectors V3 to V18 of
spec/95_test_vectors.md or were worked out by hand from the rule named. -/

namespace Sys2Proof.Machine.Tests

-- One theorem at a time: hundreds of kernel evaluations waiting in threads of their own would exhaust memory.
set_option Elab.async false

/-! ## Building small states -/

def bytesOf (l : List Nat) : List Byte := l.map (BitVec.ofNat 8)

/-- A flat segment (D5). -/
def flat (selector : BitVec 16) : Segment := ⟨selector, 0, 0xFFFFFFFF, true, true⟩

/-- A launched Mode64 state at CPL 3 with flat segments (R221). -/
def s64 : State :=
  { State.reset.launched with
    rip := 0x400
    segs := ⟨flat 0x2B, flat 0x33, flat 0x2B, flat 0x2B, flat 0x2B, flat 0x2B⟩ }

/-- The same in Mode32. -/
def s32 : State := { s64 with mode := .mode32 }

def put (a : Nat) (l : List Nat) (s : State) : State := { s with mem := s.mem.writeAll a (bytesOf l) }

def setReg (n : BitVec 4) (v : Qword) (s : State) : State := { s with gpr := s.gpr.set n.toNat v n.isLt }

def setZmm (n : BitVec 5) (v : Vec) (s : State) : State := s.setVec n v

def setMask (n : BitVec 3) (v : Qword) (s : State) : State := { s with k := s.k.set n.toNat v n.isLt }

/-- The step of the state with these bytes at its instruction pointer. -/
def run (l : List Nat) (s : State) : Host.Outcome State Fault Refusal := step (put s.rip.toNat l s)

/-- What a next state shows. -/
def shows {α : Type} (o : Host.Outcome State Fault Refusal) (f : State → α) : Option α :=
  match o with
  | .next t => some (f t)
  | _ => none

/-- The exception of a fault, with MXCSR, CR2 and the instruction pointer at it. -/
def faults (o : Host.Outcome State Fault Refusal) : Option (Exn × Dword × Qword × Qword) :=
  match o with
  | .fault (.exception e t) => some (e, t.mxcsr, t.cr2, t.rip)
  | _ => none

def refuses (o : Host.Outcome State Fault Refusal) : Option Refusal :=
  match o with
  | .refused r => some r
  | _ => none

/-- Bits 127:0 of a register, and whether the rest is all ones or all zeros. -/
def low128 (t : State) (n : BitVec 5) : BitVec 128 × Bool × Bool :=
  ((t.vec n).extractLsb' 0 128, (t.vec n) >>> 128 == (-1 : Vec) >>> 128, (t.vec n) >>> 128 == 0)

/-- A memory operand of 32 bytes at 1000H: doublewords 1 to 8. -/
def dwords1to8 : List Nat := (List.range 32).map fun i => if i % 4 = 0 then i / 4 + 1 else 0

/-- The source of vectors V8 and V13: -3 and 7 as doublewords; the same as doubles. -/
def srcDq : Vec := 0x0000000400000003FFFFFFFD00000007
def srcPd : Vec := 0xC008000000000000401C000000000000

def withSrc (v : Vec) (s : State) : State := setZmm 1 v (setZmm 0 (-1) s)

/-! ## Well-formedness: an ill-formed term for each check -/

def c64 : DecodeCtx := ⟨.mode64, false, false⟩
def c64l : DecodeCtx := ⟨.mode64, true, false⟩
def c32 : DecodeCtx := ⟨.mode32, false, false⟩
def c32a : DecodeCtx := ⟨.mode32, false, true⟩
def cReal : DecodeCtx := ⟨.realAddress, false, false⟩

def ev : EvexOp := ⟨[], false, false, false, false, false, 2, false, 0, 0, .reg 1⟩

theorem test_wf_accepts : (Instr.cvtdq2pd ⟨[.seg .fs, .addrSize, .rep], some 5, 0, .mem (.sib 2 1 3 (.d8 16))⟩).wellFormed c64
    ∧ (Instr.vcvtdq2pd512Evex { ev with z := true, aaa := 7 }).wellFormed c64
    ∧ (Instr.vcvtpd2ps256Vex3 ⟨[], true, true, true, true, 7, .mem (.disp32 9)⟩).wellFormed c64
    ∧ (Instr.cvtdq2ps ⟨[.addrSize], none, 1, .mem (.a16Disp 9)⟩).wellFormed c32a := by decide

theorem test_wf_mandatory : (Instr.cvtdq2pd ⟨[.repne], none, 0, .reg 1⟩).wellFormed c64 = false := by decide

theorem test_wf_lock : (Instr.cvtdq2pd ⟨[.lock, .rep], none, 0, .reg 1⟩).wellFormed c64l = false := by decide

theorem test_wf_redundant_prefixes : (Instr.cvtdq2pd ⟨[.rep, .rep], none, 0, .reg 1⟩).wellFormed c64 = false
    ∧ (Instr.cvtdq2pd ⟨[.rep, .rep], none, 0, .reg 1⟩).wellFormed c64l = true
    ∧ (Instr.cvtdq2pd ⟨[.rep], some 8, 0, .reg 1⟩).wellFormed c64 = false := by decide

theorem test_wf_rex_outside_mode64 : (Instr.cvtdq2pd ⟨[.rep], some 0, 0, .reg 1⟩).wellFormed c32 = false
    ∧ (Instr.cvtdq2pd ⟨[.rex 0, .rep], none, 0, .reg 1⟩).wellFormed ⟨.mode32, true, false⟩ = false := by decide

theorem test_wf_rex_field_not_a_prefix : (Instr.cvtdq2pd ⟨[.rep, .rex 1], none, 0, .reg 1⟩).wellFormed c64l = false := by
  decide

theorem test_wf_address_forms : (Instr.cvtdq2ps ⟨[], none, 0, .mem (.base 4 .none)⟩).wellFormed c64 = false
    ∧ (Instr.cvtdq2ps ⟨[], none, 0, .mem (.base 5 .none)⟩).wellFormed c64 = false
    ∧ (Instr.cvtdq2ps ⟨[], none, 0, .mem (.sib 0 0 5 .none)⟩).wellFormed c64 = false
    ∧ (Instr.cvtdq2ps ⟨[], none, 0, .mem (.a16 0 .none)⟩).wellFormed c64 = false
    ∧ (Instr.cvtdq2ps ⟨[.addrSize], none, 0, .mem (.a16 6 .none)⟩).wellFormed c32a = false
    ∧ (Instr.cvtdq2ps ⟨[.addrSize], none, 0, .mem (.base 0 .none)⟩).wellFormed c32a = false := by decide

theorem test_wf_addr16 : (Instr.cvtdq2ps ⟨[.addrSize], none, 0, .mem (.a16 0 .none)⟩).wellFormed c32 = false
    ∧ (Instr.vcvtdq2pd512Evex { ev with pre := [.addrSize], rm := .mem (.a16 0 .none) }).wellFormed c32a = false := by
  decide

theorem test_wf_length : (Instr.cvtdq2ps ⟨List.replicate 12 .addrSize, none, 0, .reg 0⟩).wellFormed c64l = true
    ∧ (Instr.cvtdq2ps ⟨List.replicate 13 .addrSize, none, 0, .reg 0⟩).wellFormed c64l = false
    ∧ (Instr.vcvtdq2ps128Vex2 ⟨List.replicate 12 .addrSize, false, 0, .reg 0⟩).wellFormed c64l = false
    ∧ (Instr.vcvtdq2ps128Vex3 ⟨List.replicate 11 .addrSize, false, false, false, false, 0, .reg 0⟩).wellFormed c64l = false
    ∧ (Instr.vcvtdq2pd512Evex { ev with pre := List.replicate 10 .addrSize }).wellFormed c64l = false := by decide

theorem test_wf_vex : (Instr.vcvtdq2ps128Vex2 ⟨[.rep], false, 0, .reg 0⟩).wellFormed c64 = false
    ∧ (Instr.vcvtdq2ps128Vex2 ⟨[], true, 0, .reg 0⟩).wellFormed c32 = false
    ∧ (Instr.vcvtdq2ps128Vex3 ⟨[], false, true, false, false, 0, .reg 0⟩).wellFormed c32 = false
    ∧ (Instr.vcvtdq2ps128Vex3 ⟨[.seg .es, .seg .es], false, false, false, false, 0, .reg 0⟩).wellFormed c64 = false := by
  decide

theorem test_wf_evex : (Instr.vcvtdq2pd512Evex { ev with z := true }).wellFormed c64 = false
    ∧ (Instr.vcvtdq2pd256Evex ev).wellFormed c64 = false
    ∧ (Instr.vcvtdq2pd512Evex { ev with ll := 3 }).wellFormed c64 = false
    ∧ (Instr.vcvtdq2pd512Evex { ev with ll := 3, bc := true }).wellFormed c64 = true
    ∧ (Instr.vcvtdq2pd512Evex { ev with b := true }).wellFormed c32 = false
    ∧ (Instr.vcvtdq2pd512Evex { ev with r4 := true }).wellFormed c32 = false
    ∧ (Instr.vcvtdq2pd512Evex { ev with r := true }).wellFormed cReal = false := by decide

/-! ## Decoding: a word of every row, written out from V16 and rules R60 to R81 -/

def dec (l : List Nat) : Decoded := decode c64 (bytesOf l)

theorem test_dec_cvtdq2pd : dec [0xF3, 0x0F, 0xE6, 0x5C, 0x8B, 0x10]
      = .instr (.cvtdq2pd ⟨[.rep], none, 3, .mem (.sib 2 1 3 (.d8 0x10))⟩)
    ∧ dec [0xF3, 0x45, 0x0F, 0xE6, 0xC1] = .instr (.cvtdq2pd ⟨[.rep], some 5, 0, .reg 1⟩)
    ∧ dec [0xF3, 0x0F, 0xE6, 0x05, 0x00, 0x01, 0x00, 0x00]
      = .instr (.cvtdq2pd ⟨[.rep], none, 0, .mem (.disp32 0x100)⟩) := by decide

theorem test_dec_vcvtdq2pd128Vex3 : dec [0xC4, 0xC1, 0x7A, 0xE6, 0xC1]
    = .instr (.vcvtdq2pd128Vex3 ⟨[], false, false, true, false, 0, .reg 1⟩) := by decide

theorem test_dec_vcvtdq2pd128Vex2 : dec [0xC5, 0x7A, 0xE6, 0xD1]
    = .instr (.vcvtdq2pd128Vex2 ⟨[], true, 2, .reg 1⟩) := by decide

theorem test_dec_vcvtdq2pd256Vex3 : dec [0xC4, 0x01, 0x7E, 0xE6, 0xA4, 0x48, 0x00, 0x01, 0x00, 0x00]
    = .instr (.vcvtdq2pd256Vex3 ⟨[], true, true, true, false, 4, .mem (.sib 1 1 0 (.d32 0x100))⟩) := by decide

theorem test_dec_vcvtdq2pd256Vex2 : dec [0xC5, 0xFE, 0xE6, 0xC1]
    = .instr (.vcvtdq2pd256Vex2 ⟨[], false, 0, .reg 1⟩) := by decide

theorem test_dec_vcvtdq2pd128Evex : dec [0x62, 0xF1, 0x7E, 0x1B, 0xE6, 0x48, 0x02]
      = .instr (.vcvtdq2pd128Evex ⟨[], false, false, false, false, false, 0, true, 3, 1, .mem (.base 0 (.d8 2))⟩)
    ∧ dec [0x62, 0xE1, 0x7E, 0x08, 0xE6, 0xC1]
      = .instr (.vcvtdq2pd128Evex ⟨[], false, false, false, true, false, 0, false, 0, 0, .reg 1⟩) := by decide

theorem test_dec_vcvtdq2pd256Evex : dec [0x62, 0x91, 0x7E, 0x28, 0xE6, 0xCF]
    = .instr (.vcvtdq2pd256Evex ⟨[], false, true, true, false, false, 1, false, 0, 1, .reg 7⟩) := by decide

theorem test_dec_vcvtdq2pd512Evex : dec [0x62, 0xF1, 0x7E, 0xC9, 0xE6, 0xD3]
      = .instr (.vcvtdq2pd512Evex ⟨[], false, false, false, false, true, 2, false, 1, 2, .reg 3⟩)
    ∧ dec [0x62, 0x81, 0x7E, 0x48, 0xE6, 0xC9]
      = .instr (.vcvtdq2pd512Evex ⟨[], false, true, true, true, false, 2, false, 0, 1, .reg 1⟩) := by decide

theorem test_dec_cvtdq2ps : dec [0x0F, 0x5B, 0x0E]
    = .instr (.cvtdq2ps ⟨[], none, 1, .mem (.base 6 .none)⟩) := by decide

theorem test_dec_vcvtdq2ps128Vex3 : dec [0xC4, 0x61, 0xF8, 0x5B, 0xC1]
    = .instr (.vcvtdq2ps128Vex3 ⟨[], true, false, false, true, 0, .reg 1⟩) := by decide

theorem test_dec_vcvtdq2ps128Vex2 : dec [0xC5, 0xF8, 0x5B, 0xC1]
    = .instr (.vcvtdq2ps128Vex2 ⟨[], false, 0, .reg 1⟩) := by decide

theorem test_dec_vcvtdq2ps256Vex3 : dec [0xC4, 0xA1, 0x7C, 0x5B, 0x04, 0x08]
    = .instr (.vcvtdq2ps256Vex3 ⟨[], false, true, false, false, 0, .mem (.sib 0 1 0 .none)⟩) := by decide

theorem test_dec_vcvtdq2ps256Vex2 : dec [0xC5, 0xFC, 0x5B, 0xC1]
    = .instr (.vcvtdq2ps256Vex2 ⟨[], false, 0, .reg 1⟩) := by decide

theorem test_dec_cvtpd2dq : dec [0xF2, 0x0F, 0xE6, 0xD0]
    = .instr (.cvtpd2dq ⟨[.repne], none, 2, .reg 0⟩) := by decide

theorem test_dec_vcvtpd2dq128Vex3 : dec [0xC4, 0xE1, 0x7B, 0xE6, 0x45, 0x08]
    = .instr (.vcvtpd2dq128Vex3 ⟨[], false, false, false, false, 0, .mem (.base 5 (.d8 8))⟩) := by decide

theorem test_dec_vcvtpd2dq128Vex2 : dec [0xC5, 0xFB, 0xE6, 0x00]
    = .instr (.vcvtpd2dq128Vex2 ⟨[], false, 0, .mem (.base 0 .none)⟩) := by decide

theorem test_dec_vcvtpd2dq256Vex3 : dec [0xC4, 0xE1, 0x7F, 0xE6, 0x04, 0x25, 0x78, 0x56, 0x34, 0x12]
    = .instr (.vcvtpd2dq256Vex3 ⟨[], false, false, false, false, 0, .mem (.sibNoBase 0 4 0x12345678)⟩) := by decide

theorem test_dec_vcvtpd2dq256Vex2 : dec [0xC5, 0xFF, 0xE6, 0x00]
    = .instr (.vcvtpd2dq256Vex2 ⟨[], false, 0, .mem (.base 0 .none)⟩) := by decide

theorem test_dec_cvtpd2pi : dec [0x66, 0x44, 0x0F, 0x2D, 0xC1]
    = .instr (.cvtpd2pi ⟨[.opSize], some 4, 0, .reg 1⟩) := by decide

theorem test_dec_cvtpd2ps : dec [0x66, 0x0F, 0x5A, 0xC1]
    = .instr (.cvtpd2ps ⟨[.opSize], none, 0, .reg 1⟩) := by decide

theorem test_dec_vcvtpd2ps128Vex3 : dec [0xC4, 0xE1, 0x79, 0x5A, 0xC1]
    = .instr (.vcvtpd2ps128Vex3 ⟨[], false, false, false, false, 0, .reg 1⟩) := by decide

theorem test_dec_vcvtpd2ps128Vex2 : dec [0xC5, 0xF9, 0x5A, 0xC1]
    = .instr (.vcvtpd2ps128Vex2 ⟨[], false, 0, .reg 1⟩) := by decide

theorem test_dec_vcvtpd2ps256Vex3 : dec [0x2E, 0x67, 0xC4, 0xE1, 0x7D, 0x5A, 0xC8]
    = .instr (.vcvtpd2ps256Vex3 ⟨[.seg .cs, .addrSize], false, false, false, false, 1, .reg 0⟩) := by decide

theorem test_dec_vcvtpd2ps256Vex2 : dec [0xC5, 0xFD, 0x5A, 0xC8]
    = .instr (.vcvtpd2ps256Vex2 ⟨[], false, 1, .reg 0⟩) := by decide

/-- The 16-bit addressing table (R67). -/
theorem test_dec_addr16 : decode c32a (bytesOf [0x67, 0x0F, 0x5B, 0x42, 0xFE])
      = .instr (.cvtdq2ps ⟨[.addrSize], none, 0, .mem (.a16 2 (.d8 0xFE))⟩)
    ∧ decode c32a (bytesOf [0x67, 0x0F, 0x5B, 0x06, 0x34, 0x12])
      = .instr (.cvtdq2ps ⟨[.addrSize], none, 0, .mem (.a16Disp 0x1234)⟩)
    ∧ decode c32 (bytesOf [0x67, 0x0F, 0x5B, 0x42, 0xFE]) = .refused .addr16 := by decide

/-- V17: the sequences that are #UD. -/
theorem test_dec_ud : [[0xC5, 0xF2, 0xE6, 0xC1], [0xC4, 0xE1, 0x72, 0xE6, 0xC1], [0x62, 0xF1, 0x76, 0x48, 0xE6, 0xC1],
    [0x62, 0xF1, 0x7E, 0x40, 0xE6, 0xC1], [0x62, 0xF1, 0x7E, 0x68, 0xE6, 0xC1], [0x62, 0xF1, 0x7E, 0xC8, 0xE6, 0xC1],
    [0x62, 0xF5, 0x7E, 0x48, 0xE6, 0xC1], [0x62, 0xF1, 0x7A, 0x48, 0xE6, 0xC1], [0xF0, 0xF3, 0x0F, 0xE6, 0xC1],
    [0x66, 0xC5, 0xFA, 0xE6, 0xC1], [0xF3, 0xC5, 0xFA, 0xE6, 0xC1], [0x40, 0xC5, 0xFA, 0xE6, 0xC1],
    [0xF3, 0x62, 0xF1, 0x7E, 0x48, 0xE6, 0xC1]].all (fun l => dec l == .ud) = true := by decide

/-- The VEX maps: 00000b, 00100b and 11111b are #UD (R69), 00011b holds other instructions (R82). -/
theorem test_dec_vex_maps : [0xE0, 0xE4, 0xFF].all (fun b => dec [0xC4, b, 0x7A, 0xE6, 0xC1] == .ud) = true
    ∧ dec [0xC4, 0xE3, 0x7A, 0xE6, 0xC1] = .refused .otherMap := by decide

/-- Length comes before #UD (R60, R189): a reserved map behind 10 and behind 11 segment prefixes, 15 and 16 bytes. -/
theorem test_dec_reserved_map_too_long : dec (List.replicate 10 0x2E ++ [0xC4, 0xE0, 0x7A, 0xE6, 0xC1]) = .ud
    ∧ dec (List.replicate 11 0x2E ++ [0xC4, 0xE0, 0x7A, 0xE6, 0xC1]) = .tooLong := by decide

/-- #UD comes before the refusal of 16-bit addressing: LOCK, vvvv, and zeroing without a mask, in Mode32. -/
theorem test_dec_ud_before_addr16 : decode c32a (bytesOf [0x67, 0x62, 0xF1, 0x7E, 0x48, 0xE6, 0x00]) = .refused .addr16
    ∧ [[0xF0, 0x67, 0x62, 0xF1, 0x7E, 0x48, 0xE6, 0x00], [0x67, 0x62, 0xF1, 0x76, 0x48, 0xE6, 0x00],
        [0x67, 0x62, 0xF1, 0x7E, 0xC8, 0xE6, 0x00]].all (fun l => decode c32a (bytesOf l) == .ud) = true := by decide

/-- U3 and U5 are not about real-address mode: stored vvvv = 0111b and V' = 0 are #UD there (R71, R73, R220). -/
theorem test_dec_real_mode : decode cReal (bytesOf [0xC4, 0xE1, 0x3A, 0xE6, 0xC1]) = .ud
    ∧ decode cReal (bytesOf [0x62, 0xF1, 0x7E, 0x40, 0xE6, 0xC1]) = .ud
    ∧ decode cReal (bytesOf [0x62, 0xE1, 0x7E, 0x48, 0xE6, 0xC1])
      = .instr (.vcvtdq2pd512Evex { ev with r4 := true }) := by decide

/-- V17: the sequences that are refused. -/
theorem test_dec_refused : dec [0x62, 0xF1, 0xFE, 0x48, 0xE6, 0xC1] = .refused .evexW1
    ∧ dec [0xF3, 0x48, 0x0F, 0xE6, 0xC1] = .refused .redundantPrefixes
    ∧ dec [0x66, 0xF3, 0x0F, 0xE6, 0xC1] = .refused .redundantPrefixes
    ∧ dec [0xC4, 0xE2, 0x7A, 0xE6, 0xC1] = .refused .otherMap
    ∧ dec [0x62, 0xF1, 0x7C, 0x48, 0x5B, 0xC1] = .refused .otherInstruction
    ∧ decode c32 (bytesOf [0xC4, 0x41, 0x7A, 0xE6, 0xC1]) = .refused .notVexInThisMode
    ∧ decode c32 (bytesOf [0xC4, 0xE1, 0x3A, 0xE6, 0xC1]) = .refused .vexVvvvOutsideMode64
    ∧ decode c32 (bytesOf [0x62, 0xE1, 0x7E, 0x48, 0xE6, 0xC1]) = .refused .evexBitsOutsideMode64
    ∧ dec [0x90] = .refused .otherInstruction := by decide

/-! ## The conversions: vectors V3 to V7 -/

theorem test_i32_to_f64 : [(0x00000000, 0x0000000000000000), (0x00000001, 0x3FF0000000000000), (0xFFFFFFFF, 0xBFF0000000000000),
    (0x01000001, 0x4170000010000000), (0xF8A432EB, 0xC19D6F3454000000), (0x7FFFFFFF, 0x41DFFFFFFFC00000),
    (0x80000001, 0xC1DFFFFFFFC00000), (0x80000000, 0xC1E0000000000000)].all
      (fun p : Dword × Qword => cvtI32ToF64 p.1 == p.2) = true := by decide +kernel

theorem test_i32_to_f32 : [(0x01000001, Rc.nearest, 0x4B800000, true), (0x01000001, .up, 0x4B800001, true),
    (0x01000003, .nearest, 0x4B800002, true), (0xFEFFFFFF, .down, 0xCB800001, true), (0x02000003, .nearest, 0x4C000001, true),
    (0x7FFFFFC0, .nearest, 0x4F000000, true), (0x7FFFFFC0, .zero, 0x4EFFFFFF, true), (0x80000000, .down, 0xCF000000, false),
    (0x01000002, .up, 0x4B800001, false)].all
      (fun p : Dword × Rc × Dword × Bool => cvtI32ToF32 p.1 p.2.1 == ⟨p.2.2.1, peIf p.2.2.2, false⟩) = true := by
  decide +kernel

theorem test_f64_to_i32 : [(0x3FE0000000000000, Rc.nearest, 0x00000000, SimdFlags.pe), (0x3FF8000000000000, .nearest, 2, .pe),
    (0xC004000000000000, .nearest, 0xFFFFFFFE, .pe), (0xC004000000000000, .down, 0xFFFFFFFD, .pe),
    (0x41DFFFFFFFD00000, .up, 0x80000000, .ie), (0x41DFFFFFFFD00000, .nearest, 0x7FFFFFFF, .pe),
    (0xC1E0000000000000, .nearest, 0x80000000, 0), (0xC1E0000000100000, .nearest, 0x80000000, .pe),
    (0xC1E0000000100000, .down, 0x80000000, .ie), (0x7FF8000000000000, .nearest, 0x80000000, .ie),
    (0x8000000000000001, .down, 0xFFFFFFFF, .pe), (0x8000000000000000, .down, 0, 0)].all
      (fun p : Qword × Rc × Dword × SimdFlags => cvtF64ToI32 p.1 p.2.1 false == ⟨p.2.2.1, p.2.2.2, false⟩) = true
    ∧ cvtF64ToI32 0x8000000000000001 .down true = ⟨0, 0, false⟩ := by decide +kernel

/-- Value and flags under FZ = 0, DAZ = 0. -/
def narrow (v : Qword) (rc : Rc) : Dword × SimdFlags := ((cvtF64ToF32 v rc false false).val, (cvtF64ToF32 v rc false false).flags)

theorem test_f64_to_f32 : narrow 0x3FF0000030000000 .nearest = (0x3F800002, .pe)
    ∧ narrow 0xBFB999999999999A .down = (0xBDCCCCCD, .pe)
    ∧ narrow 0x47EFFFFFF0000000 .nearest = (0x7F800000, .oe ||| .pe) ∧ narrow 0x47EFFFFFF0000000 .zero = (0x7F7FFFFF, .pe)
    ∧ narrow 0xC7F0000000000000 .up = (0xFF7FFFFF, .oe ||| .pe) ∧ narrow 0x380FFFFFFFFFFFFF .nearest = (0x00800000, .pe)
    ∧ narrow 0x380FFFFFFFFFFFFF .down = (0x007FFFFF, .ue ||| .pe) ∧ narrow 0x36A0000000000000 .zero = (1, 0)
    ∧ narrow 0x3690000000000000 .nearest = (0, .ue ||| .pe) ∧ narrow 0xB690000000000000 .down = (0x80000001, .ue ||| .pe)
    ∧ narrow 0x0000000000000001 .up = (1, .de ||| .ue ||| .pe) ∧ narrow 0xFFF4000000000123 .nearest = (0xFFE00000, .ie)
    ∧ narrow 0x7FF8000020000001 .nearest = (0x7FC00001, 0) ∧ narrow 0xFFF0000000000000 .nearest = (0xFF800000, 0) := by
  decide +kernel

theorem test_f64_to_f32_fz_daz : (cvtF64ToF32 0x36A0000000000000 .nearest true false).flags = .ue ||| .pe
    ∧ (cvtF64ToF32 0xB690000000000000 .nearest true true).val = 0x80000000
    ∧ cvtF64ToF32 0x0000000000000001 .nearest true true = ⟨0, 0, false⟩
    ∧ (cvtF64ToF32 0x380FFFFFFFFFFFFF .nearest true false).val = 0x00800000 := by decide +kernel

/-- R168: FZ flushes with UM = 1 only; PE comes with every overflow with OM = 1 only. 2^-149 and 2^257 are exact. -/
theorem test_narrow_unmasked : (narrowElement 0x36A0000000000000 .nearest true false true true).flags = .ue ||| .pe
    ∧ narrowElement 0x36A0000000000000 .nearest true false true false = ⟨1, 0, true⟩
    ∧ (narrowElement 0x5000000000000000 .nearest false false true true).flags = .oe ||| .pe
    ∧ (narrowElement 0x5000000000000000 .nearest false false false true).flags = .oe
    ∧ (narrowElement 0x5000000000000001 .nearest false false false true).flags = .oe ||| .pe := by decide +kernel

/-- R166, R168 in the fault's image: CVTPD2PS of 2^257 with OM = 0, and of 2^-149 with UM = 0 and FZ = 1. -/
theorem test_step_narrow_unmasked :
    (faults (run [0x66, 0x0F, 0x5A, 0xC1] { withSrc (0x5000000000000000 ||| 0x5000000000000000 <<< 64) s64 with mxcsr := 0x1B80 })).map
      (fun x => (x.1, x.2.1)) = some (.xm, 0x1B88)
    ∧ (faults (run [0x66, 0x0F, 0x5A, 0xC1] { withSrc (0x36A0000000000000 ||| 0x36A0000000000000 <<< 64) s64 with mxcsr := 0x9780 })).map
      (fun x => (x.1, x.2.1)) = some (.xm, 0x9790) := by decide +kernel

/-! ## One step of each instruction: vectors V2, V8 to V14 -/

theorem test_step_cvtdq2pd : shows (run [0xF3, 0x0F, 0xE6, 0xC1] (withSrc srcDq s64)) (fun t => (low128 t 0, t.rip))
    = some ((0xC008000000000000401C000000000000, true, false), 0x404) := by decide +kernel

/-- V9: the second element comes from the old bits 63:32. -/
theorem test_step_cvtdq2pd_same_register : shows (run [0xF3, 0x0F, 0xE6, 0xC0] (setZmm 0 0xFFFFFFFF00000001 s64))
    (fun t => (low128 t 0).1) = some 0xBFF00000000000003FF0000000000000 := by decide +kernel

theorem test_step_vcvtdq2pd128Vex2 : shows (run [0xC5, 0xFA, 0xE6, 0xC1] (withSrc srcDq s64)) (fun t => (low128 t 0, t.rip))
    = some ((0xC008000000000000401C000000000000, false, true), 0x404) := by decide +kernel

/-- V8, W = 1. -/
theorem test_step_vcvtdq2pd128Vex3 : shows (run [0xC4, 0xE1, 0xFA, 0xE6, 0xC1] (withSrc srcDq s64)) (fun t => (low128 t 0, t.rip))
    = some ((0xC008000000000000401C000000000000, false, true), 0x405) := by decide +kernel

/-- V2. -/
theorem test_step_vcvtdq2pd256Vex2 : shows (run [0xC5, 0xFE, 0xE6, 0xC1] (withSrc 0x00000004000000030000000200000001 s64))
    (fun t => t.vec 0) = some 0x4010000000000000400800000000000040000000000000003FF0000000000000 := by decide +kernel

theorem test_step_vcvtdq2pd256Vex3 : shows (run [0xC4, 0xC1, 0x7E, 0xE6, 0x00] (put 0x1001 dwords1to8 (setReg 8 0x1001 s64)))
    (fun t => t.vec 0) = some 0x4010000000000000400800000000000040000000000000003FF0000000000000 := by decide +kernel

/-- The old value of vectors V10 and V11: quadword j is AAAAAAAAAAAAAA00H + j. -/
def oldVec : Vec := packQ (fun j => 0xAAAAAAAAAAAAAA00 + BitVec.ofNat 64 j) 8

def v10 (mask : Qword) : State :=
  setMask 1 mask (setZmm 2 oldVec (setZmm 3 0x00000008000000070000000600000005800000007FFFFFFFFFFFFFFF00000001 s64))

def quads (t : State) (n : BitVec 5) : List Nat := (List.range 8).map fun j => (vecQword (t.vec n) j).toNat

theorem test_step_vcvtdq2pd512Evex : shows (run [0x62, 0xF1, 0x7E, 0x49, 0xE6, 0xD3] (v10 0xF)) (fun t => quads t 2)
      = some [0x3FF0000000000000, 0xBFF0000000000000, 0x41DFFFFFFFC00000, 0xC1E0000000000000, 0xAAAAAAAAAAAAAA04,
        0xAAAAAAAAAAAAAA05, 0xAAAAAAAAAAAAAA06, 0xAAAAAAAAAAAAAA07]
    ∧ shows (run [0x62, 0xF1, 0x7E, 0xC9, 0xE6, 0xD3] (v10 0xFF00)) (fun t => quads t 2) = some [0, 0, 0, 0, 0, 0, 0, 0] := by
  decide +kernel

/-- V11: disp8 02H times 4, one doubleword to eight elements under mask A5H. -/
theorem test_step_vcvtdq2pd512Evex_broadcast : shows (run [0x62, 0xF1, 0x7E, 0x5A, 0xE6, 0x63, 0x02]
      (put 0x2008 [42, 0, 0, 0] (setReg 3 0x2000 (setMask 2 0xA5 (setZmm 4 oldVec s64))))) (fun t => quads t 4)
    = some [0x4045000000000000, 0xAAAAAAAAAAAAAA01, 0x4045000000000000, 0xAAAAAAAAAAAAAA03, 0xAAAAAAAAAAAAAA04,
        0x4045000000000000, 0xAAAAAAAAAAAAAA06, 0x4045000000000000] := by decide +kernel

theorem test_step_vcvtdq2pd256Evex : shows (run [0x62, 0xF1, 0x7E, 0x29, 0xE6, 0xD3] (v10 0x5)) (fun t => quads t 2)
    = some [0x3FF0000000000000, 0xAAAAAAAAAAAAAA01, 0x41DFFFFFFFC00000, 0xAAAAAAAAAAAAAA03, 0, 0, 0, 0] := by decide +kernel

/-- V11: disp8 01H times 16, 16 bytes at 1010H. -/
theorem test_step_vcvtdq2pd256Evex_memory : shows (run [0x62, 0xF1, 0x7E, 0x28, 0xE6, 0x48, 0x01]
      (put 0x1010 dwords1to8 (setReg 0 0x1000 s64))) (fun t => t.vec 1)
    = some 0x4010000000000000400800000000000040000000000000003FF0000000000000 := by decide +kernel

theorem test_step_vcvtdq2pd128Evex : shows (run [0x62, 0xF1, 0x7E, 0x09, 0xE6, 0xD3] (v10 0)) (fun t => quads t 2)
    = some [0xAAAAAAAAAAAAAA00, 0xAAAAAAAAAAAAAA01, 0, 0, 0, 0, 0, 0] := by decide +kernel

/-- V11: disp8 01H times 8. -/
theorem test_step_vcvtdq2pd128Evex_memory : shows (run [0x62, 0xF1, 0x7E, 0x08, 0xE6, 0x48, 0x01]
      (put 0x1008 [7, 0, 0, 0, 0xFD, 0xFF, 0xFF, 0xFF] (setReg 0 0x1000 s64))) (fun t => low128 t 1)
    = some (0xC008000000000000401C000000000000, false, true) := by decide +kernel

theorem test_step_cvtdq2ps : shows (run [0x0F, 0x5B, 0xC1] (withSrc srcDq s64)) (fun t => (low128 t 0, t.mxcsr))
    = some ((0x4080000040400000C040000040E00000, true, false), 0x1F80) := by decide +kernel

theorem test_step_vcvtdq2ps128Vex2 : shows (run [0xC5, 0xF8, 0x5B, 0xC1] (withSrc srcDq s64)) (fun t => low128 t 0)
    = some (0x4080000040400000C040000040E00000, false, true) := by decide +kernel

theorem test_step_vcvtdq2ps128Vex3 : shows (run [0xC4, 0xE1, 0x78, 0x5B, 0xC1] (withSrc srcDq s64)) (fun t => low128 t 0)
    = some (0x4080000040400000C040000040E00000, false, true) := by decide +kernel

theorem test_step_vcvtdq2ps256Vex2 : shows (run [0xC5, 0xFC, 0x5B, 0xC1] (withSrc (srcDq ||| 5 <<< 224) s64)) (fun t => t.vec 0)
    = some 0x40A000000000000000000000000000004080000040400000C040000040E00000 := by decide +kernel

theorem test_step_vcvtdq2ps256Vex3 : shows (run [0xC4, 0xE1, 0x7C, 0x5B, 0xC1] (withSrc (srcDq ||| 5 <<< 224) s64)) (fun t => t.vec 0)
    = some 0x40A000000000000000000000000000004080000040400000C040000040E00000 := by decide +kernel

theorem test_step_cvtpd2dq : shows (run [0xF2, 0x0F, 0xE6, 0xC1] (withSrc srcPd s64)) (fun t => (low128 t 0, t.mxcsr))
    = some ((0x0000000000000000FFFFFFFD00000007, true, false), 0x1F80) := by decide +kernel

theorem test_step_vcvtpd2dq128Vex2 : shows (run [0xC5, 0xFB, 0xE6, 0xC1] (withSrc srcPd s64)) (fun t => low128 t 0)
    = some (0x0000000000000000FFFFFFFD00000007, false, true) := by decide +kernel

theorem test_step_vcvtpd2dq128Vex3 : shows (run [0xC4, 0xE1, 0x7B, 0xE6, 0xC1] (withSrc srcPd s64)) (fun t => low128 t 0)
    = some (0x0000000000000000FFFFFFFD00000007, false, true) := by decide +kernel

theorem test_step_vcvtpd2dq256Vex2 : shows (run [0xC5, 0xFF, 0xE6, 0xC1] (withSrc (srcPd ||| srcPd <<< 128) s64)) (fun t => low128 t 0)
    = some (0xFFFFFFFD00000007FFFFFFFD00000007, false, true) := by decide +kernel

theorem test_step_vcvtpd2dq256Vex3 : shows (run [0xC4, 0xE1, 0x7F, 0xE6, 0xC1] (withSrc (srcPd ||| srcPd <<< 128) s64)) (fun t => low128 t 0)
    = some (0xFFFFFFFD00000007FFFFFFFD00000007, false, true) := by decide +kernel

theorem test_step_cvtpd2ps : shows (run [0x66, 0x0F, 0x5A, 0xC1] (withSrc srcPd s64)) (fun t => low128 t 0)
    = some (0x0000000000000000C040000040E00000, true, false) := by decide +kernel

theorem test_step_vcvtpd2ps128Vex2 : shows (run [0xC5, 0xF9, 0x5A, 0xC1] (withSrc srcPd s64)) (fun t => low128 t 0)
    = some (0x0000000000000000C040000040E00000, false, true) := by decide +kernel

theorem test_step_vcvtpd2ps128Vex3 : shows (run [0xC4, 0xE1, 0x79, 0x5A, 0xC1] (withSrc srcPd s64)) (fun t => low128 t 0)
    = some (0x0000000000000000C040000040E00000, false, true) := by decide +kernel

theorem test_step_vcvtpd2ps256Vex2 : shows (run [0xC5, 0xFD, 0x5A, 0xC1] (withSrc (srcPd ||| srcPd <<< 128) s64)) (fun t => low128 t 0)
    = some (0xC040000040E00000C040000040E00000, false, true) := by decide +kernel

theorem test_step_vcvtpd2ps256Vex3 : shows (run [0xC4, 0xE1, 0x7D, 0x5A, 0xC1] (withSrc (srcPd ||| srcPd <<< 128) s64)) (fun t => low128 t 0)
    = some (0xC040000040E00000C040000040E00000, false, true) := by decide +kernel

/-- The state of vector V14 with the given operand bytes. -/
def v14 (lo hi : Qword) : State :=
  let s := { setReg 0 0x3000 s32 with x87 := { X87.reset with status := 0x2800, tag := 0xFFFF } }
  { s with mem := s.mem.writeAll 0x3000 ((List.range 8).map (fun i => lo.extractLsb' (8 * i) 8)
      ++ (List.range 8).map (fun i => hi.extractLsb' (8 * i) 8)) }

def v14Bytes : List Nat := [0x66, 0x0F, 0x2D, 0x18]

theorem test_step_cvtpd2pi : shows (run v14Bytes (v14 0x401C000000000000 0xC008000000000000))
      (fun t => (t.x87.phys[3], t.x87.status, t.x87.tag, t.mxcsr, t.rip))
      = some (0xFFFFFFFFFFFD00000007, 0, 0, 0x1F80, 0x404)
    ∧ shows (run v14Bytes (v14 0x3FE0000000000000 0x41E0000000000000)) (fun t => (t.mm 3, t.mxcsr))
      = some (0x8000000000000000, 0x1FA1) := by decide +kernel

theorem test_step_cvtpd2pi_faults :
    (faults (run v14Bytes (setReg 0 0x3008 (v14 0 0)))).map (·.1) = some .gp
    ∧ (faults (run v14Bytes { v14 0 0 with x87 := { X87.reset with status := 0x2880 }, cr0 := 0x60000031 })).map (·.1) = some .mf
    ∧ refuses (run v14Bytes { v14 0 0 with x87 := { X87.reset with status := 0x2880 } }) = some .ferrReporting
    ∧ (faults (run v14Bytes { v14 0 0 with cr0 := 0x60000015 })).map (·.1) = some .ud := by decide +kernel

/-! ## Flags and the unmasked response: vector V15 -/

def v15 (mxcsr : Dword) : State := { setZmm 1 0x00000004010000010000000200000001 s64 with mxcsr := mxcsr }

theorem test_flags_accumulate :
    [(0x1F80, 0x1FA0), (0x1FA0, 0x1FA0), (0x3F80, 0x3FA0), (0x5F80, 0x5FA0)].all
      (fun p : Dword × Dword => shows (run [0x0F, 0x5B, 0xC1] (v15 p.1)) (fun t => t.mxcsr) == some p.2) = true
    ∧ shows (run [0x0F, 0x5B, 0xC1] (v15 0x5F80)) (fun t => vecDword (t.vec 0) 2) = some 0x4B800001 := by decide +kernel

theorem test_unmasked_raises : faults (run [0x0F, 0x5B, 0xC1] (v15 0x0F80)) = some (.xm, 0x0FA0, 0, 0x400)
    ∧ faults (run [0x0F, 0x5B, 0xC1] { v15 0x0F80 with cr4 := 0x40200 }) = some (.ud, 0x0FA0, 0, 0x400) := by decide +kernel

/-! ## Faults of the memory operand: vectors V12 and V18 -/

def rights : PageRights := ⟨true, true, true, true, true, true⟩

/-- V12: the page at 1000H (and the program's) present, the page at 2000H not; CPL 3. -/
def v12 (mask : Qword) : State :=
  put 0x1FF0 (List.replicate 16 0)
    (setReg 0 0x1FFC (setMask 3 mask { s64 with paging := .pages [⟨0, 0, rights, false⟩, ⟨1, 1, rights, false⟩] }))

theorem test_fault_suppression :
    shows (run [0x62, 0xF1, 0x7E, 0x4B, 0xE6, 0x08] (v12 0)) (fun t => t.rip) = some 0x406
    ∧ shows (run [0x62, 0xF1, 0x7E, 0x4B, 0xE6, 0x08] (v12 1)) (fun t => t.rip) = some 0x406
    ∧ faults (run [0x62, 0xF1, 0x7E, 0x4B, 0xE6, 0x08] (v12 2)) = some (.pf 0x2000 4, 0x1F80, 0x2000, 0x400)
    ∧ faults (run [0x62, 0xF1, 0x7E, 0x4B, 0xE6, 0x08] (v12 0xFF)) = some (.pf 0x2000 4, 0x1F80, 0x2000, 0x400) := by
  decide +kernel

def rax (v : Qword) : State := put 0x1000 (List.replicate 64 0) (setReg 0 v (setReg 5 v s64))

theorem test_alignment : shows (run [0xF3, 0x0F, 0xE6, 0x00] (rax 0x1001)) (fun t => t.rip) = some 0x404
    ∧ (faults (run [0x0F, 0x5B, 0x00] (rax 0x1008))).map (·.1) = some .gp
    ∧ shows (run [0xC5, 0xF8, 0x5B, 0x00] (rax 0x1008)) (fun t => t.rip) = some 0x404
    ∧ (faults (run [0x66, 0x0F, 0x5A, 0x00] (rax 0x1004))).map (·.1) = some .gp
    ∧ (faults (run [0xF3, 0x0F, 0xE6, 0x00] { rax 0x1004 with cr0 := 0x60040011, rflags := 0x40002 })).map (·.1)
      = some .ac := by decide +kernel

theorem test_canonical : (faults (run [0xF3, 0x0F, 0xE6, 0x00] (rax 0x0000800000000000))).map (·.1) = some .gp
    ∧ (faults (run [0xF3, 0x0F, 0xE6, 0x45, 0x00] (rax 0x0000800000000000))).map (·.1) = some .ss
    ∧ shows (run [0x67, 0xF3, 0x0F, 0xE6, 0x00] (rax 0x0000000100001000)) (fun t => t.rip) = some 0x405 := by
  decide +kernel

/-- V17: the enables. -/
theorem test_enables : (faults (run [0xC5, 0xFA, 0xE6, 0xC1] { s64 with cr4 := 0x600 })).map (·.1) = some .ud
    ∧ (faults (run [0x62, 0xF1, 0x7E, 0x48, 0xE6, 0xC1] { s64 with xcr0 := 7 })).map (·.1) = some .ud
    ∧ (faults (run [0xF3, 0x0F, 0xE6, 0xC1] { s64 with cr4 := 0x40400 })).map (·.1) = some .ud
    ∧ (faults (run [0xF3, 0x0F, 0xE6, 0xC1] { s64 with cr0 := 0x60000019 })).map (·.1) = some .nm
    ∧ refuses (run [0x62, 0xF1, 0x7E, 0x58, 0xE6, 0xC1] s64) = some .evexBWithRegister := by decide +kernel

/-- R68: the address counts from the next instruction. -/
theorem test_rip_relative : shows (run [0xF3, 0x0F, 0xE6, 0x05, 0x00, 0x01, 0x00, 0x00] (put 0x508 [1, 0, 0, 0, 2, 0, 0, 0] s64))
    (fun t => (low128 t 0).1) = some 0x40000000000000003FF0000000000000 := by decide +kernel

/-- A run of one instruction ends in success at the end of its four-byte text; a step there is none. -/
theorem test_run_succeeds :
    (match step (s64.withFetchBytes (bytesOf [0xC5, 0xFE, 0xE6, 0xC1])) with
      | .next t => match step t with
        | .fault (.endOfText u) => u.rip == 0x404
        | _ => false
      | _ => false) = true := by decide +kernel

/-- A table row's word through the host's two functions: CVTDQ2PD xmm0, xmm1 as the first instruction. -/
theorem test_withFetchWord : shows (step (State.reset.withFetchWord 32 0xC1E60FF3)) (fun t => t.rip) = some 0xFFF4
    ∧ decodeTableWord 32 0xC1E60FF3 = some (.cvtdq2pd ⟨[.rep], none, 0, .reg 1⟩) := by decide +kernel

/-! ## Witnesses: concrete values that meet the hypotheses of each statement that has any, clause by clause -/

/-- The outcome is a next state. -/
def isNext (o : Host.Outcome State Fault Refusal) : Bool := (shows o id).isSome

theorem next_of_isNext {o : Host.Outcome State Fault Refusal} (h : isNext o = true) : ∃ t, o = .next t := by
  cases o with
  | next t => exact ⟨t, rfl⟩
  | fault _ => simp [isNext, shows] at h
  | refused _ => simp [isNext, shows] at h

/-- The exception the outcome is a fault with. -/
def exnOf (o : Host.Outcome State Fault Refusal) : Option Exn := (faults o).map (·.1)

theorem fault_of_exnOf {o : Host.Outcome State Fault Refusal} {e : Exn} (h : exnOf o = some e) :
    ∃ u, o = .fault (.exception e u) := by
  rcases o with t | f | r
  · simp [exnOf, faults] at h
  · cases f with
    | exception e' u => simp [exnOf, faults] at h; exact ⟨u, by rw [h]⟩
    | stuckData _ => simp [exnOf, faults] at h
    | stuckFetch _ => simp [exnOf, faults] at h
    | endOfText _ => simp [exnOf, faults] at h
  · simp [exnOf, faults] at h

/-- `EnabledFor` and `NoX87Pending`, evaluated. -/
def enabledB (i : Instr) (s : State) : Bool :=
  match evexRowOf i with
  | some (p, row) => decide (EvexEnabled ((evexLength p row s.cfg).needVl row) s)
  | none => if layoutOf i = .legacy then decide (LegacyEnabled s) else decide (VexEnabled s)

theorem enabledFor_iff (i : Instr) (s : State) : EnabledFor i s ↔ enabledB i s = true := by
  unfold EnabledFor enabledB
  rcases evexRowOf i with _ | ⟨p, row⟩
  · by_cases hl : layoutOf i = .legacy <;> simp only [hl, if_true, if_false, decide_eq_true_eq]
  · simp only [decide_eq_true_eq]

def noX87B (i : Instr) (s : State) : Bool :=
  match i with
  | .cvtpd2pi _ => !s.x87.status.getLsbD 7
  | _ => true

theorem noX87Pending_iff (i : Instr) (s : State) : NoX87Pending i s ↔ noX87B i s = true := by
  cases i <;> simp [NoX87Pending, noX87B]

/-- Operands: xmm0, xmm1; xmm0, [rax]. -/
def legR (pre : List Pre) : LegacyOp := ⟨pre, none, 0, .reg 1⟩
def legM (pre : List Pre) : LegacyOp := ⟨pre, none, 0, .mem (.base 0 .none)⟩
def v3R : Vex3Op := ⟨[], false, false, false, false, 0, .reg 1⟩
def v3M : Vex3Op := ⟨[], false, false, false, false, 0, .mem (.base 0 .none)⟩
def v2R : Vex2Op := ⟨[], false, 0, .reg 1⟩
def v2M : Vex2Op := ⟨[], false, 0, .mem (.base 0 .none)⟩
def evM : EvexOp := { ev with rm := .mem (.base 0 .none) }

/-- Doublewords 1 to 8, as a value, and a state with them at 1000H, in RAX's place, and in register 1. -/
def src8 : SrcVec := 0x0000000800000007000000060000000500000004000000030000000200000001
def sDq : State := put 0x1000 dwords1to8 (setReg 0 0x1000 (setZmm 1 (src8.setWidth 512) s64))

/-- The doubles 7, -3, 7, -3 in the same places. -/
def srcPd4 : SrcVec := (srcPd ||| srcPd <<< 128).setWidth 256
def sPd : State :=
  put 0x1000 ((List.range 32).map fun i => (srcPd4.extractLsb' (8 * i) 8).toNat)
    (setReg 0 0x1000 (setZmm 1 (srcPd4.setWidth 512) s64))

/-! ### Encoding -/

theorem witness_DecodeOfEncodeIsIdentity :
    (Instr.vcvtdq2pd512Evex { ev with r := true, x := true, b := true, r4 := true, z := true, aaa := 7 }).wellFormed c64
      = true := by decide

theorem witness_DecodedBytesAreTheEncoding :
    decode c64 (bytesOf [0xF3, 0x45, 0x0F, 0xE6, 0xC1, 0x90]) = .instr (.cvtdq2pd ⟨[.rep], some 5, 0, .reg 1⟩) := by decide

/-- Mode64; real-address mode with 7; Mode32 with another value than 7, and with 7; the two-byte prefix in Mode64, and in
Mode32 with the top bit of vvvv set and clear; maps at the ends of each clause. -/
theorem witness_VexReservedFieldsAreUndefined :
    (v3R.ok cReal = true ∧ cReal.mode = .realAddress ∧ (7 : BitVec 4) ≠ 15)
    ∧ (∀ m ∈ [(0 : BitVec 5), 2, 3, 4, 31], m ≠ 1)
    ∧ (v3R.ok c64 = true ∧ (vex3Row .pF3 false 0xE6).isSome = true ∧ (0 : BitVec 4) ≠ 15 ∧ c64.mode = .mode64)
    ∧ (v3R.ok c32 = true ∧ (8 : BitVec 4) ≠ 15 ∧ (8 : BitVec 4) ≠ 7 ∧ c32.mode = .mode32)
    ∧ (v2R.ok c64 = true ∧ (vex2Row .none true 0x5B).isSome = true ∧ (7 : BitVec 4) ≠ 15)
    ∧ v2R.ok c32 = true ∧ (14 : BitVec 4) ≠ 15 ∧ (14 : BitVec 4).getLsbD 3 = true
    ∧ (7 : BitVec 4).getLsbD 3 = false := by decide

theorem witness_EvexReservedFieldsAreUndefined :
    c64.mode = .mode64 ∧ ev.ok c64 2 = true ∧ evM.ok c64 2 = true
    ∧ c32.mode = .mode32 ∧ ev.ok c32 2 = true ∧ evM.ok c32 2 = true
    ∧ ¬((14 : BitVec 4) = 15 ∧ true = true ∧ (0 : BitVec 2) = 0 ∧ true = true)
    ∧ ¬((15 : BitVec 4) = 15 ∧ false = true ∧ (0 : BitVec 2) = 0 ∧ true = true)
    ∧ ¬((15 : BitVec 4) = 15 ∧ true = true ∧ (1 : BitVec 2) = 0 ∧ true = true)
    ∧ ¬((15 : BitVec 4) = 15 ∧ true = true ∧ (0 : BitVec 2) = 0 ∧ false = true)
    ∧ ev.bc = false ∧ { evM with bc := true }.rm.isReg = false := by decide

/-- A LOCK byte as the first byte and as the last prefix byte, with a register and with a memory operand. -/
theorem witness_LockOnAnyFormRaisesUd :
    ∀ p ∈ [(legR [.rep], 0), (legM [.seg .fs, .rep], 2)],
      s64.mxcsr.extractLsb' 16 16 = 0 ∧ (Instr.cvtdq2pd p.1).wellFormed s64.decodeCtx = true
      ∧ (encode (.cvtdq2pd p.1)).length ≤ 14 ∧ p.2 ≤ (prefixesOf (.cvtdq2pd p.1)).length
      ∧ (s64.withFetchBytes (encodeWithByte (.cvtdq2pd p.1) p.2 0xF0)).textEnd ≠ some 0x400
      ∧ FetchesBytes (s64.withFetchBytes (encodeWithByte (.cvtdq2pd p.1) p.2 0xF0))
          (encodeWithByte (.cvtdq2pd p.1) p.2 0xF0) := by
  unfold FetchesBytes; decide +kernel

/-- A form of 14 bytes, with a byte before its first and after its last prefix; REX in Mode64 at both ends of its range. -/
theorem witness_BadPrefixBeforeVexIsUndefined :
    ∀ i ∈ [Instr.vcvtdq2pd512Evex { ev with rm := .mem (.sibNoBase 0 4 9), pre := [.seg .fs, .addrSize] },
        .vcvtdq2ps128Vex2 v2R],
      i.wellFormed c64 = true ∧ layoutOf i ≠ .legacy ∧ (encode i).length ≤ 14 ∧ 0 ≤ (prefixesOf i).length
      ∧ c64.mode = .mode64 ∧ 0x40 ≤ (0x40 : Byte).toNat ∧ (0x4F : Byte).toNat ≤ 0x4F := by decide

theorem witness_LongerThanFifteenBytesIsTooLong :
    (let p : LegacyOp := ⟨List.replicate 13 .addrSize, none, 0, .reg 1⟩;
      c64.mode = .mode64 ∧ (∀ q ∈ p.pre, q = .addrSize) ∧ p.rm.ok (addrSize c64.mode p.pre) = true
      ∧ (legacyRow (mandatory p.pre) 0x5B).isSome = true ∧ (encodeLegacy 0x5B p).length = 16)
    ∧ (let p : Vex3Op := { v3R with pre := List.replicate 11 .addrSize };
      (p.r = false ∧ p.x = false) ∧ (∀ q ∈ p.pre, q = .addrSize) ∧ p.rm.ok (addrSize c32.mode p.pre) = true
      ∧ (vex3Row .none false 0x5B).isSome = true
      ∧ ∀ map ∈ [(0 : BitVec 5), 1, 4, 31], map ≠ 2 ∧ map ≠ 3 ∧ (vex3BytesWith map 15 .none false 0x5B p).length = 16)
    ∧ (let p : Vex2Op := { v2R with pre := List.replicate 12 .addrSize };
      (p.r = false ∧ (8 : BitVec 4).getLsbD 3 = true) ∧ (∀ q ∈ p.pre, q = .addrSize)
      ∧ p.rm.ok (addrSize c32.mode p.pre) = true
      ∧ (vex2Row .none false 0x5B).isSome = true ∧ (vex2BytesWith 8 .none false 0x5B p).length = 16)
    ∧ (let p : EvexOp := { ev with pre := List.replicate 10 .addrSize };
      (p.r = false ∧ p.x = false) ∧ (∀ q ∈ p.pre, q = .addrSize) ∧ p.rm.ok (addrSize c32.mode p.pre) = true
      ∧ (evexBytesWith 0 true 3 false p).length = 16)
    ∧ (bytesOf (List.replicate 15 0xF3)).length = 15
    ∧ ∀ b ∈ bytesOf (List.replicate 15 0xF3), (Pre.ofByte b).isSome = true := by decide

/-- Fifteen prefix bytes at the instruction pointer. -/
theorem witness_LongerThanFifteenBytesIsTooLong_step :
    let l : List Nat := List.replicate 15 0x66;
    (put 0x400 l s64).mxcsr.extractLsb' 16 16 = 0 ∧ (put 0x400 l s64).textEnd ≠ some (put 0x400 l s64).rip
    ∧ FetchesBytes (put 0x400 l s64) (bytesOf l)
    ∧ decode (put 0x400 l s64).decodeCtx (bytesOf l) = .tooLong := by
  unfold FetchesBytes; decide +kernel

/-! ### Operands -/

/-- Each layout with every extension bit set, a register and a memory operand, in Mode64 and in Mode32. -/
theorem witness_OperandsOfEveryLayout :
    true = decide (s64.mode = .mode64) ∧ false = decide (s32.mode = .mode64)
    ∧ (⟨[.rep], some 7, 0, .reg 1⟩ : LegacyOp).rex
      = some (BitVec.ofBool false ++ BitVec.ofBool true ++ BitVec.ofBool true ++ BitVec.ofBool true)
    ∧ (legM [.rep]).rex = none := by decide

/-- Each row, with and without broadcast, with and without a SIB byte. -/
theorem witness_CompressedDisplacementIsScaled :
    (∀ row ∈ [2, 4, 8], row = 2 ∨ row = 4 ∨ row = 8) ∧ ev.bc = false ∧ { ev with bc := true }.bc = true
    ∧ (∃ rm, AddrForm.base 0 = .base rm) ∧ ∃ scale index bs, AddrForm.sib 1 2 3 = .sib scale index bs :=
  ⟨by decide, rfl, rfl, ⟨_, rfl⟩, ⟨_, _, _, rfl⟩⟩

theorem witness_SegmentOverrideAndLinearAddress : ∀ q ∈ [Pre.addrSize, Pre.rep], q.isSeg = false := by decide

/-! ### Conversions -/

theorem witness_RoundDivRoundsAsTheControlSays : 0 < 1 := by decide +kernel

theorem witness_IntegerToSingleRounds : (0 : Dword) = 0 ∧ (0x80000000 : Dword) ≠ 0 := by decide +kernel

/-- A NaN and an infinity; zeros and a denormal under DAZ; finite sources on both sides of each end of the range. -/
theorem witness_DoubleToIntegerRounds :
    f64IsNan 0x7FF0000000000001 = true ∧ f64IsInf 0xFFF0000000000000 = true
    ∧ f64IsZero 0x8000000000000000 = true ∧ f64IsDenormal 0x800FFFFFFFFFFFFF = true
    ∧ [(0x41DFFFFFFFC00000 : Qword), 0x41E0000000000000, 0xC1E0000000000000, 0xC1E0000000200000, 1].all
      (fun v => decide (f64Exp v ≠ 2047 ∧ f64IsZero v = false ∧ ¬(f64IsDenormal v = true ∧ false = true))) = true := by
  decide +kernel

theorem witness_DoubleToSingleSpecialValues :
    f64IsNan 0xFFF0000000000001 = true ∧ f64IsInf 0x7FF0000000000000 = true ∧ f64IsZero 0 = true
    ∧ f64IsDenormal 0x000FFFFFFFFFFFFF = true := by decide +kernel

/-- The smallest overflow: 2^128 itself; and a value that only rounding brings there. -/
theorem witness_DoubleToSingleOverflow :
    (f64Exp 0x47F0000000000000 ≠ 2047 ∧ 1 ≤ f64Exp 0x47F0000000000000
      ∧ RoundsTo .zero (f64Value 0x47F0000000000000) (sigQuantum (f64Mag 0x47F0000000000000)) (2 ^ 23)
      ∧ (2 : Int) ^ 1202 ≤ |(2 ^ 23 : Int) * sigQuantum (f64Mag 0x47F0000000000000)|)
    ∧ RoundsTo .nearest (f64Value 0xC7EFFFFFF0000000) (sigQuantum (f64Mag 0xC7EFFFFFF0000000)) (-(2 ^ 24))
    ∧ (2 : Int) ^ 1202 ≤ |(-(2 ^ 24) : Int) * sigQuantum (f64Mag 0xC7EFFFFFF0000000)| := by
  unfold RoundsTo; decide +kernel

/-- The two ends of the range: 2^-126, and the largest finite single. -/
theorem witness_DoubleToSingleInRange :
    ∀ p ∈ [((0x3810000000000000 : Qword), (2 ^ 23 : Int)), (0xC7EFFFFFE0000000, -(2 ^ 24 - 1))],
      f64Exp p.1 ≠ 2047 ∧ 1 ≤ f64Exp p.1
      ∧ RoundsTo .nearest (f64Value p.1) (sigQuantum (f64Mag p.1)) p.2
      ∧ (2 : Int) ^ 948 ≤ |p.2 * sigQuantum (f64Mag p.1)| ∧ |p.2 * sigQuantum (f64Mag p.1)| < (2 : Int) ^ 1202 := by
  unfold RoundsTo; decide +kernel

/-- The two ends of the range: the largest tiny value at 24 bits, and the smallest denormal. -/
theorem witness_DoubleToSingleTiny :
    ∀ p ∈ [((0xB80FFFFFE0000000 : Qword), (-(2 ^ 24 - 1) : Int)), (1, 1)],
      f64Exp p.1 ≠ 2047 ∧ f64IsZero p.1 = false ∧ ¬(f64IsDenormal p.1 = true ∧ false = true)
      ∧ RoundsTo .down (f64Value p.1) (sigQuantum (f64Mag p.1)) p.2
      ∧ |p.2 * sigQuantum (f64Mag p.1)| < (2 : Int) ^ 948 := by
  unfold RoundsTo; decide +kernel

theorem witness_ConversionsRoundTrip : 1 ≤ f32Exp 0x00800000 ∧ f32Exp 0xFF7FFFFF ≤ 254 := by decide +kernel

/-! ### Results -/

theorem witness_Cvtdq2pdLegacyResult : LegacyEnabled sDq
    ∧ sourceIs sDq (legacyOperands (legR [.rep]) sDq).src 8 false src8 = true
    ∧ sourceIs sDq (legacyOperands (legM [.rep]) sDq).src 8 false src8 = true := by decide +kernel

theorem witness_Vcvtdq2pdVexResult : VexEnabled sDq
    ∧ sourceIs sDq (vex3Operands v3M sDq).src 8 false src8 = true ∧ sourceIs sDq (vex2Operands v2M sDq).src 8 false src8 = true
    ∧ sourceIs sDq (vex3Operands v3M sDq).src 16 false src8 = true
    ∧ sourceIs sDq (vex2Operands v2R sDq).src 16 false src8 = true := by decide +kernel

theorem witness_Vcvtdq2pdEvexRegisterResult : ev.rm = .reg 1 ∧ ev.bc = false ∧ EvexEnabled true sDq ∧ EvexEnabled false sDq
    ∧ (evexOperands ev 8 sDq).src = .reg 1 ∧ (evexOperands ev 16 sDq).src = .reg 1
    ∧ (evexOperands ev 32 sDq).src = .reg 1 := by decide +kernel

/-- All elements; none (with an address that cannot be read); the last alone, the bytes below it outside memory. -/
theorem witness_Vcvtdq2pdEvexMemoryResult : EvexEnabled true sDq ∧ evM.bc = false
    ∧ (evexOperands evM 32 sDq).src = .mem .ds 0x1000
    ∧ bytesAre sDq .ds 0x1000 32 (maskedOffs evM sDq 8) false src8 = true
    ∧ (∀ j < 8, ¬MaskOn { evM with aaa := 3 } (setReg 0 0x0000800000000000 sDq) j)
    ∧ (evexOperands { evM with aaa := 3 } 32 (setReg 0 0x0000800000000000 sDq)).src = .mem .ds 0x0000800000000000
    ∧ bytesAre (put 0x201C [8, 0, 0, 0] (setMask 3 0x80 sDq)) .ds 0x2000 32
        (maskedOffs { evM with aaa := 3 } (setMask 3 0x80 sDq) 8) false src8 = true := by decide +kernel

theorem witness_Vcvtdq2pdEvexBroadcastResult :
    let p : EvexOp := { evM with bc := true, aaa := 3 };
    EvexEnabled true sDq ∧ (evexOperands p 4 sDq).src = .mem .ds 0x1000
    ∧ bytesAre sDq .ds 0x1000 4 (List.range 4) false src8 = true ∧ (∀ j < 2, ¬MaskOn p (setMask 3 0xFC sDq) j) := by
  decide +kernel

/-- Under each value of the parameter. -/
theorem witness_EvexBWithRegisterFollowsTheParameter :
    let p : EvexOp := { ev with bc := true };
    p.rm = .reg 1 ∧ (evexOperands p 4 sDq).src = .reg 1 ∧ sDq.cfg.evexBReg = .refuse ∧ EvexEnabled true sDq
    ∧ (∀ b ∈ [EvexBReg.vl512, .vlFromLL], EvexEnabled true { sDq with cfg := { sDq.cfg with evexBReg := b } })
    ∧ p.ll ≠ 3 ∧ { p with ll := 3 }.ll = 3 := by decide +kernel

theorem witness_Cvtdq2psLegacyResult : LegacyEnabled sDq
    ∧ sourceIs sDq (legacyOperands (legR []) sDq).src 16 true src8 = true
    ∧ sourceIs sDq (legacyOperands (legM []) sDq).src 16 true src8 = true ∧ AllMasked sDq (sDq.dq2psLane src8) 4 := by
  decide +kernel

/-- An inexact element, its condition masked. -/
theorem witness_Vcvtdq2psVexResult : VexEnabled sDq
    ∧ sourceIs sDq (vex3Operands v3M sDq).src 16 false src8 = true ∧ sourceIs sDq (vex2Operands v2R sDq).src 16 false src8 = true
    ∧ sourceIs sDq (vex3Operands v3R sDq).src 32 false src8 = true ∧ sourceIs sDq (vex2Operands v2M sDq).src 32 false src8 = true
    ∧ AllMasked sDq (sDq.dq2psLane src8) 8 ∧ AllMasked sDq (sDq.dq2psLane (src8 ||| 0x01000001)) 8 := by decide +kernel

theorem witness_Cvtpd2dqLegacyResult : LegacyEnabled sPd
    ∧ sourceIs sPd (legacyOperands (legR [.repne]) sPd).src 16 true srcPd4 = true
    ∧ sourceIs sPd (legacyOperands (legM [.repne]) sPd).src 16 true srcPd4 = true ∧ AllMasked sPd (sPd.pd2dqLane srcPd4) 2 := by
  decide +kernel

theorem witness_Vcvtpd2dqVexResult : VexEnabled sPd
    ∧ sourceIs sPd (vex3Operands v3M sPd).src 16 false srcPd4 = true ∧ sourceIs sPd (vex2Operands v2R sPd).src 16 false srcPd4 = true
    ∧ sourceIs sPd (vex3Operands v3R sPd).src 32 false srcPd4 = true ∧ sourceIs sPd (vex2Operands v2M sPd).src 32 false srcPd4 = true
    ∧ AllMasked sPd (sPd.pd2dqLane srcPd4) 2 ∧ AllMasked sPd (sPd.pd2dqLane srcPd4) 4 := by decide +kernel

theorem witness_Cvtpd2piResult : LegacyEnabled sPd ∧ sPd.x87.status.getLsbD 7 = false
    ∧ sourceIs sPd (legacyOperands (legM [.opSize]) sPd).src 16 true srcPd4 = true
    ∧ sourceIs sPd (legacyOperands (legR [.opSize]) sPd).src 16 true srcPd4 = true
    ∧ AllMasked sPd (sPd.pd2dqLane srcPd4) 2 := by decide +kernel

theorem witness_Cvtpd2psLegacyResult : LegacyEnabled sPd
    ∧ sourceIs sPd (legacyOperands (legR [.opSize]) sPd).src 16 true srcPd4 = true
    ∧ sourceIs sPd (legacyOperands (legM [.opSize]) sPd).src 16 true srcPd4 = true ∧ AllMasked sPd (sPd.pd2psLane srcPd4) 2 := by
  decide +kernel

theorem witness_Vcvtpd2psVexResult : VexEnabled sPd
    ∧ sourceIs sPd (vex3Operands v3M sPd).src 16 false srcPd4 = true ∧ sourceIs sPd (vex2Operands v2R sPd).src 16 false srcPd4 = true
    ∧ sourceIs sPd (vex3Operands v3R sPd).src 32 false srcPd4 = true ∧ sourceIs sPd (vex2Operands v2M sPd).src 32 false srcPd4 = true
    ∧ AllMasked sPd (sPd.pd2psLane srcPd4) 2 ∧ AllMasked sPd (sPd.pd2psLane srcPd4) 4 := by decide +kernel

/-! ### What every form keeps, sets and may not depend on -/

theorem witness_FrameOfEveryInstruction : (∃ t, exec (.vcvtdq2pd256Vex2 v2M) sDq = .next t)
    ∧ (∃ t, exec (.cvtpd2pi (legM [.opSize])) sPd = .next t)
    ∧ ∃ u, exec (.cvtdq2ps (legR [])) (v15 0x0F80) = .fault (.exception .xm u) :=
  ⟨next_of_isNext (by decide +kernel), next_of_isNext (by decide +kernel), fault_of_exnOf (by decide +kernel)⟩

/-- With a flag newly set, and at an exception. -/
theorem witness_MxcsrFlagsOnlyAccumulate :
    (∃ t, run [0x0F, 0x5B, 0xC1] (setZmm 1 0x01000001 s64) = .next t)
    ∧ ∃ u, run [0x0F, 0x5B, 0xC1] (v15 0x0F80) = .fault (.exception .xm u) :=
  ⟨next_of_isNext (by decide +kernel), fault_of_exnOf (by decide +kernel)⟩

theorem witness_Cvtdq2pdDoesNotReadMxcsr : tierA (.cvtdq2pd (legM [.rep])) = true
    ∧ (∃ t, exec (.cvtdq2pd (legM [.rep])) sDq = .next t)
    ∧ (∃ u, exec (.cvtdq2pd (legM [.rep])) { sDq with cr0 := 0x60000019 } = .fault (.exception .nm u))
    ∧ refuses (exec (.vcvtdq2pd512Evex { ev with bc := true }) sDq) = some .evexBWithRegister :=
  ⟨by decide, next_of_isNext (by decide +kernel), fault_of_exnOf (by decide +kernel), by decide +kernel⟩

/-- The memory with the bytes around the operand changed. -/
theorem witness_OnlyAccessedBytesMatter : (∃ t, exec (.cvtdq2pd (legM [.rep])) sDq = .next t)
    ∧ memAccessOf (.cvtdq2pd (legM [.rep])) sDq = some ⟨.ds, 0x1000, 8, List.range 8, false⟩
    ∧ ∀ k ∈ List.range 8, Memory.read (sDq.mem.writeAll 0x1008 (bytesOf [9, 9])) (sDq.linear .ds 0x1000 k).toNat
        = sDq.mem.read (sDq.linear .ds 0x1000 k).toNat :=
  ⟨next_of_isNext (by decide +kernel), by decide +kernel, by decide +kernel⟩

theorem witness_ExceptionsArePrecise :
    (∃ u, run [0x0F, 0x5B, 0xC1] (v15 0x0F80) = .fault (.exception .xm u))
    ∧ (∃ u, run [0x0F, 0x5B, 0xC1] { v15 0x0F80 with cr4 := 0x40200 } = .fault (.exception .ud u))
    ∧ (∃ u, run [0x62, 0xF1, 0x7E, 0x4B, 0xE6, 0x08] (v12 2) = .fault (.exception (.pf 0x2000 4) u))
    ∧ ∃ u, run [0x0F, 0x5B, 0x00] (rax 0x1008) = .fault (.exception .gp u) :=
  ⟨fault_of_exnOf (by decide +kernel), fault_of_exnOf (by decide +kernel), fault_of_exnOf (by decide +kernel),
    fault_of_exnOf (by decide +kernel)⟩

/-! ### Exceptions -/

/-- One for each layout: CR0.EM; XCR0 without AVX state; a missing AVX512VL. -/
theorem witness_UndefinedOpcodeCauses : UdCause (.cvtdq2pd (legR [.rep])) { s64 with cr0 := 0x60000015 }
    ∧ UdCause (.vcvtdq2ps128Vex2 v2R) { s64 with xcr0 := 3 }
    ∧ UdCause (.vcvtdq2pd256Evex { ev with ll := 1 }) { s64 with cfg := { s64.cfg with avx512vl := false } } := by
  refine ⟨by simp [UdCause, layoutOf], by simp [UdCause, layoutOf, s64], ?_⟩
  unfold UdCause
  refine Or.inr (Or.inr (Or.inr (Or.inr (Or.inr (Or.inr (Or.inr (Or.inr (Or.inr ⟨rfl, by decide, _, _, rfl, by decide⟩))))))))

theorem witness_DeviceNotAvailable :
    let s : State := { s64 with cr0 := 0x60000019 };
    (s.cr0.getLsbD 3 = true ∧ EnabledFor (.cvtdq2pd (legR [.rep])) { s with cr0 := s.cr0 &&& ~~~ 0x8#64 }
      ∧ (∀ p row, evexRowOf (.cvtdq2pd (legR [.rep])) = some (p, row) → evexLength p row s.cfg ≠ .ud)
      ∧ EnabledFor (.vcvtdq2pd128Evex ev) { s with cr0 := s.cr0 &&& ~~~ 0x8#64 }
      ∧ evexLength ev 2 s.cfg ≠ .ud)
    ∧ ({ s64 with cr0 := 0x60000015 } : State).cr0.getLsbD 2 = true := by
  simp only [enabledFor_iff]
  exact ⟨⟨by decide +kernel, by decide +kernel, (fun _ _ h => by cases h), by decide +kernel, by decide +kernel⟩, by decide⟩

theorem witness_PendingX87ExceptionComesFirst :
    let s : State := { sPd with x87 := { X87.reset with status := 0x0080 } };
    LegacyEnabled s ∧ LegacyEnabled { s with cr0 := s.cr0 ||| 0x20 } ∧ s.x87.status.getLsbD 7 = true
    ∧ s.cr0.getLsbD 5 = false ∧ (s.cr0 ||| 0x20).getLsbD 5 = true := by decide +kernel

theorem witness_MfOnlyFromCvtpd2pi : ∃ u, exec (.cvtpd2pi (legM [.opSize]))
    { sPd with x87 := { X87.reset with status := 0x0080 }, cr0 := 0x60000031 } = .fault (.exception .mf u) :=
  fault_of_exnOf (by decide +kernel)

/-- Mode64: the last byte alone is not canonical, through DS and through SS. Mode32: the limit is the last byte but one;
a null selector; an execute-only segment. -/
theorem witness_SegmentViolationsRaiseSsOrGp :
    let i : Instr := .cvtdq2pd (legM [.rep]);
    let iss : Instr := .cvtdq2pd ⟨[.rep], none, 0, .mem (.base 5 (.d8 0))⟩;
    let s : State := rax 0x00007FFFFFFFFFF9;
    let t : Segment → State := fun d => { rax 0x1000 with mode := .mode32, segs := ⟨flat 0x2B, flat 0x33, flat 0x2B, d, flat 0x2B, flat 0x2B⟩ };
    (EnabledFor i s ∧ NoX87Pending i s ∧ memAccessOf i s = some ⟨.ds, 0x00007FFFFFFFFFF9, 8, List.range 8, false⟩
      ∧ SegmentViolation s .ds 0x00007FFFFFFFFFF9 (List.range 8))
    ∧ (EnabledFor iss s ∧ memAccessOf iss s = some ⟨.ss, 0x00007FFFFFFFFFF9, 8, List.range 8, false⟩
      ∧ SegmentViolation s .ss 0x00007FFFFFFFFFF9 (List.range 8))
    ∧ ∀ d ∈ [⟨0x2B, 0, 0x1006, true, true⟩, ⟨3, 0, 0xFFFFFFFF, true, true⟩, ⟨0x2B, 0, 0xFFFFFFFF, false, false⟩],
        EnabledFor i (t d) ∧ memAccessOf i (t d) = some ⟨.ds, 0x1000, 8, List.range 8, false⟩
        ∧ SegmentViolation (t d) .ds 0x1000 (List.range 8) := by
  simp only [enabledFor_iff, SegmentViolation]; decide +kernel

/-- One byte past a multiple of 16, in Mode64 and in Mode32. -/
theorem witness_MisalignedSixteenByteOperandRaisesGp :
    ∀ s ∈ [rax 0x1001, { rax 0x1001 with mode := .mode32 }],
      EnabledFor (.cvtdq2ps (legM [])) s ∧ NoX87Pending (.cvtdq2ps (legM [])) s ∧ needsAlign16 (.cvtdq2ps (legM [])) = true
      ∧ memAccessOf (.cvtdq2ps (legM [])) s = some ⟨.ds, 0x1001, 16, List.range 16, true⟩
      ∧ ¬SegmentViolation s .ds 0x1001 (List.range 16) ∧ (s.linear .ds 0x1001 0).toNat % 16 ≠ 0 := by
  simp only [enabledFor_iff, SegmentViolation]; decide +kernel

/-- An 8-byte operand at 4 modulo 8, and a broadcast doubleword at 1 modulo 4. -/
theorem witness_AlignmentCheckFault :
    let s : Qword → State := fun a =>
      { rax a with cr0 := 0x60040011, rflags := 0x40002, cfg := { (rax a).cfg with acOnWideVectors := true } };
    ∀ p ∈ [(Instr.cvtdq2pd (legM [.rep]), (0x1004 : Qword), 8), (.vcvtdq2pd512Evex { evM with bc := true }, 0x1001, 4),
        (.vcvtdq2ps128Vex3 v3M, 0x1008, 16)],
      EnabledFor p.1 (s p.2.1) ∧ NoX87Pending p.1 (s p.2.1)
      ∧ memAccessOf p.1 (s p.2.1) = some ⟨.ds, p.2.1, p.2.2, List.range p.2.2, false⟩
      ∧ ¬SegmentViolation (s p.2.1) .ds p.2.1 (List.range p.2.2) 
      ∧ (p.2.2 ≤ 8 ∨ false = false ∧ (s p.2.1).cfg.acOnWideVectors = true)
      ∧ (s p.2.1).cr0.getLsbD 18 = true ∧ (s p.2.1).rflags.getLsbD 18 = true
      ∧ (s p.2.1).segs.cs.selector.extractLsb' 0 2 = 3 ∧ ((s p.2.1).linear .ds p.2.1 0).toNat % p.2.2 ≠ 0
      ∧ ∀ k ∈ List.range p.2.2,
          ((s p.2.1).translate .read ((s p.2.1).linear .ds p.2.1 k)).toOption.isSome = true := by
  simp only [enabledFor_iff, noX87Pending_iff, SegmentViolation]; decide +kernel

theorem witness_AcAndXmNeedTheirEnables :
    (∃ u, exec (.cvtdq2pd (legM [.rep])) { rax 0x1004 with cr0 := 0x60040011, rflags := 0x40002 }
      = .fault (.exception .ac u))
    ∧ ∃ u, exec (.cvtdq2ps (legR [])) (v15 0x0F80) = .fault (.exception .xm u) :=
  ⟨fault_of_exnOf (by decide +kernel), fault_of_exnOf (by decide +kernel)⟩

/-- Vector V12: the first failing byte is the operand's fifth, the first of the next page. -/
theorem witness_PageFaultOfTheFirstFailingByte :
    let i : Instr := .vcvtdq2pd512Evex evM;
    let s : State := v12 0;
    EnabledFor i s ∧ NoX87Pending i s ∧ memAccessOf i s = some ⟨.ds, 0x1FFC, 32, List.range 32, false⟩
    ∧ ¬SegmentViolation s .ds 0x1FFC (List.range 32) ∧ ¬AlignmentViolation s ⟨.ds, 0x1FFC, 32, List.range 32, false⟩
    ∧ List.range 32 = List.range 4 ++ 4 :: (List.range 27).map (· + 5)
    ∧ (∀ j ∈ List.range 4, (s.translate .read (s.linear .ds 0x1FFC j)).toOption.isSome = true)
    ∧ s.translate .read (s.linear .ds 0x1FFC 4) = .error 4 := by
  simp only [enabledFor_iff, SegmentViolation]
  refine ⟨?_, trivial, ?_, ?_, ?_, ?_, ?_, rfl⟩ <;> decide +kernel

/-- A page that is not present, one without the right, one with a reserved bit set, and the first frame beyond the
physical address width; the frame below it translates. -/
theorem witness_FaultCodeBits :
    translateLA 52 (.pages []) 3 .fetch 0x1000 = .error 0x14
    ∧ translateLA 52 (.pages [⟨1, 1, { rights with userRead := false }, false⟩]) 3 .read 0x1FFF = .error 5
    ∧ translateLA 52 (.pages [⟨1, 1, rights, true⟩]) 0 .write 0x1000 = .error 0xB
    ∧ translateLA 36 (.pages [⟨1, 2 ^ 24, rights, false⟩]) 3 .read 0x1000 = .error 0xD
    ∧ translateLA 36 (.pages [⟨1, 2 ^ 24 - 1, rights, false⟩]) 3 .read 0x1000 = .ok 0xFFFFFF000 := by
  refine ⟨rfl, rfl, rfl, rfl, rfl⟩

/-- Seven of eight bytes stand in memory. -/
theorem witness_ReadOutsideMemoryIsStuck :
    let i : Instr := .cvtdq2pd (legM [.rep]);
    let s : State := put 0x3000 (List.replicate 7 1) (setReg 0 0x3000 s64);
    EnabledFor i s ∧ NoX87Pending i s ∧ memAccessOf i s = some ⟨.ds, 0x3000, 8, List.range 8, false⟩
    ∧ ¬SegmentViolation s .ds 0x3000 (List.range 8) ∧ ¬AlignmentViolation s ⟨.ds, 0x3000, 8, List.range 8, false⟩
    ∧ List.range 8 = List.range 7 ++ 7 :: []
    ∧ (∀ j ∈ List.range 8, (s.translate .read (s.linear .ds 0x3000 j)).toOption.isSome = true)
    ∧ (∀ j ∈ List.range 7, (s.mem.read (s.linear .ds 0x3000 j).toNat).isSome = true)
    ∧ s.mem.read (s.linear .ds 0x3000 7).toNat = none := by
  simp only [enabledFor_iff, SegmentViolation]; decide +kernel

/-- The value of a read, if it answers. -/
def readOk (r : Res SrcVec) : Option SrcVec :=
  match r with
  | .ok v => some v
  | .error _ => none

theorem ok_of_readOk {r : Res SrcVec} (h : (readOk r).isSome = true) : ∃ v, r = .ok v := by
  cases r with
  | ok v => exact ⟨v, rfl⟩
  | error _ => simp [readOk] at h

theorem witness_MemReadIsLittleEndian : ∃ v, memRead ⟨.ds, 0x1000, 32, [4, 5, 6, 7, 28, 31], false⟩ sDq = .ok v :=
  ok_of_readOk (by decide +kernel)

/-- A post-computation condition (inexact), and a pre-computation one (invalid), each unmasked. -/
theorem witness_UnmaskedConditionRaisesXm :
    (let i : Instr := .cvtdq2ps (legR []);
      let s := v15 0x0F80;
      EnabledFor i s ∧ NoX87Pending i s ∧ plainSource i s = some (.reg 1, 16)
      ∧ sourceIs s (.reg 1) 16 (needsAlign16 i) 0x00000004010000010000000200000001 = true
      ∧ s.cfg.xmImage = .rule166
      ∧ ¬AllMasked s (s.dq2psLane 0x00000004010000010000000200000001) 4)
    ∧ simdLanes (.cvtdq2ps (legR [])) (v15 0x0F80) 0x00000004010000010000000200000001
        = some (4, (v15 0x0F80).dq2psLane 0x00000004010000010000000200000001)
    ∧ (let s := { setZmm 1 0x7FF00000000000017FF0000000000000 s64 with mxcsr := 0x1F00 };
        sourceIs s (.reg 1) 16 (needsAlign16 (.cvtpd2pi (legR [.opSize]))) 0x7FF00000000000017FF0000000000000 = true
        ∧ ¬AllMasked s (s.pd2dqLane 0x7FF00000000000017FF0000000000000) 2) := by
  simp only [enabledFor_iff]
  exact ⟨by decide +kernel, rfl, by decide +kernel⟩

/-! ### The step, the invariant, reset -/

theorem witness_StepRunsTheDecodedInstruction :
    let bytes : List Byte := bytesOf [0xC5, 0xFE, 0xE6, 0x00];
    let s : State := put 0x400 [0xC5, 0xFE, 0xE6, 0x00] sDq;
    s.mxcsr.extractLsb' 16 16 = 0 ∧ s.textEnd ≠ some s.rip ∧ FetchesBytes s bytes
    ∧ decode s.decodeCtx bytes = .instr (.vcvtdq2pd256Vex2 v2M) := by
  unfold FetchesBytes; decide +kernel

theorem witness_StepKeepsTheInvariant : Inv (put 0x400 [0xC5, 0xFE, 0xE6, 0x00] sDq)
    ∧ ∃ t, step (put 0x400 [0xC5, 0xFE, 0xE6, 0x00] sDq) = .next t :=
  ⟨⟨by decide +kernel, by decide +kernel, by decide +kernel, by decide +kernel, by decide +kernel, by decide +kernel⟩,
    next_of_isNext (by decide +kernel)⟩

/-- The run at the end of its text. -/
theorem witness_StepRunsTheDecodedInstruction_end : { s64 with textEnd := some 0x400 }.textEnd = some s64.rip := rfl

/-- First bytes that cannot be had: the first address that is not canonical, the first offset beyond the limit, a page that
is not present, in Mode64 and, at the last offset within the limit of a segment that wraps, in Mode32. -/
theorem witness_FetchFaults :
    (let s : State := { s64 with rip := 0x0000800000000000 };
      s.mxcsr.extractLsb' 16 16 = 0 ∧ s.textEnd ≠ some s.rip ∧ s.mode = .mode64 ∧ FetchesBytes s []
      ∧ decode s.decodeCtx [] = .truncated ∧ ¬FetchInRange s 0)
    ∧ (let s : State := { s32 with segs := { s32.segs with cs := ⟨0x33, 0, 0x3FF, true, true⟩ } };
      s.mode = .mode32 ∧ s.rip.toNat < 2 ^ 32 ∧ FetchesBytes s [] ∧ ¬FetchInRange s 0)
    ∧ (let s : State := { s64 with paging := .pages [] };
      FetchesBytes s [] ∧ FetchInRange s 0 ∧ s.translate .fetch (fetchAddress s 0) = .error 0x14)
    ∧ (let s : State := { s32 with paging := .pages [], segs := { s32.segs with cs := ⟨0x33, 0xFFFFFF00, 0x400, true, true⟩ } };
      s.mode = .mode32 ∧ s.rip.toNat < 2 ^ 32 ∧ FetchesBytes s [] ∧ FetchInRange s 0 ∧ fetchAddress s 0 = 0x300
      ∧ s.translate .fetch (fetchAddress s 0) = .error 0x14) := by
  unfold FetchesBytes
  refine ⟨by decide +kernel, by decide +kernel, by decide +kernel, by decide +kernel⟩

/-- A second byte that cannot be had, the first being 0FH: beyond the last canonical address, at the code limit, on a page
that is not present, and outside memory. -/
theorem witness_FetchFaults_later :
    let part : List Byte := [0x0F];
    decode c64 part = .truncated ∧ decode c32 part = .truncated
    ∧ (let s : State := put 0x00007FFFFFFFFFFF [0x0F] { s64 with rip := 0x00007FFFFFFFFFFF };
      FetchesBytes s part ∧ ¬FetchInRange s 1)
    ∧ (let s : State := put 0x400 [0x0F] { s32 with segs := { s32.segs with cs := ⟨0x33, 0, 0x400, true, true⟩ } };
      FetchesBytes s part ∧ ¬FetchInRange s 1)
    ∧ (let s : State := put 0x1FFF [0x0F] { s64 with rip := 0x1FFF, paging := .pages [⟨1, 1, rights, false⟩] };
      FetchesBytes s part ∧ FetchInRange s 1 ∧ s.translate .fetch (fetchAddress s 1) = .error 0x14)
    ∧ (let s : State := put 0x400 [0x0F] s64;
      FetchesBytes s part ∧ FetchInRange s 1 ∧ (s.translate .fetch (fetchAddress s 1)).toOption.isSome = true
      ∧ s.mem.read (fetchAddress s 1).toNat = none)
    ∧ (Instr.vcvtpd2ps256Vex2 v2R).wellFormed c64 = true ∧ 3 < (encode (.vcvtpd2ps256Vex2 v2R)).length := by
  unfold FetchesBytes
  refine ⟨by decide, by decide, by decide +kernel, by decide +kernel, by decide +kernel, by decide +kernel, by decide⟩

theorem witness_LaunchedStateEnablesEveryForm : State.reset.cfg.sse2 = true ∧ State.reset.cfg.avx = true
    ∧ State.reset.cfg.avx512f = true ∧ State.reset.cfg.avx512vl = true := by decide

end Sys2Proof.Machine.Tests
end

/-! What a form writes and what it leaves (R35). Each course of an instruction is taken apart once: the state it completes
with, and the state at each exception it can end in. The flags a course may add are bounded by the flags of one element. -/
section

namespace Sys2Proof.Machine

/-! ### Flag sets that stay within a row of R35 -/

/-- Every flag of `f` is one of `allow`. -/
abbrev FlagsWithin (allow f : SimdFlags) : Prop := f &&& ~~~ allow = 0

theorem flagsWithin_zero (allow : SimdFlags) : FlagsWithin allow 0 := BitVec.zero_and

theorem FlagsWithin.or {allow f g : SimdFlags} (hf : FlagsWithin allow f) (hg : FlagsWithin allow g) :
    FlagsWithin allow (f ||| g) := by
  have distrib : (f ||| g) &&& ~~~ allow = (f &&& ~~~ allow) ||| (g &&& ~~~ allow) := by
    ext i; simp [Bool.and_or_distrib_right]
  rw [FlagsWithin, distrib, hf, hg]
  exact BitVec.or_zero

theorem FlagsWithin.and_right {allow f : SimdFlags} (hf : FlagsWithin allow f) (g : SimdFlags) :
    FlagsWithin allow (f &&& g) := by
  have swap : f &&& g &&& ~~~ allow = f &&& ~~~ allow &&& g := by
    rw [BitVec.and_assoc, BitVec.and_comm g, BitVec.and_assoc]
  rw [FlagsWithin, swap, hf]
  exact BitVec.zero_and

/-- The flags of `allow` alone separate the MXCSR of `t` from that of `s`, set and never cleared. -/
def AddsFlags (allow : SimdFlags) (s t : State) : Prop :=
  ∃ f : SimdFlags, FlagsWithin allow f ∧ t.mxcsr = orFlags s.mxcsr f

theorem addsFlags_of_mxcsr_eq (allow : SimdFlags) {s t : State} (h : t.mxcsr = s.mxcsr) : AddsFlags allow s t :=
  ⟨0, flagsWithin_zero allow, by simp [orFlags, h]⟩

theorem AddsFlags.mxcsr_eq {s t : State} (h : AddsFlags 0 s t) : t.mxcsr = s.mxcsr := by
  obtain ⟨f, hf, ht⟩ := h
  have f_zero : f = 0 := BitVec.and_allOnes.symm.trans hf
  simpa [orFlags, f_zero] using ht

/-! ### The flags of one element (R120, R130, R150, R169) -/

/-- One element's flags are within `allow`, and so is the underflow that a tiny result counts as with UM = 0 (R168). -/
structure ConvWithin (allow : SimdFlags) (c : Conv 32) : Prop where
  flags : FlagsWithin allow c.flags
  tiny : c.tiny = true → FlagsWithin allow SimdFlags.ue

theorem cvtI32ToF32_within (v : Dword) (rc : Rc) : ConvWithin SimdFlags.pe (cvtI32ToF32 v rc) := by
  unfold cvtI32ToF32
  dsimp only
  split
  · exact ⟨flagsWithin_zero _, nofun⟩
  · refine ⟨?_, nofun⟩
    dsimp only
    split
    · exact flagsWithin_zero _
    · decide

theorem cvtF64ToI32_within (v : Qword) (rc : Rc) (daz : Bool) :
    ConvWithin (SimdFlags.ie ||| SimdFlags.pe) (cvtF64ToI32 v rc daz) := by
  have invalid : FlagsWithin (SimdFlags.ie ||| SimdFlags.pe) SimdFlags.ie := by decide
  have inexact : FlagsWithin (SimdFlags.ie ||| SimdFlags.pe) SimdFlags.pe := by decide
  unfold cvtF64ToI32
  split
  · exact ⟨invalid, nofun⟩
  · split
    · exact ⟨flagsWithin_zero _, nofun⟩
    · extract_lets neg r n
      split
      · exact ⟨invalid, nofun⟩
      · refine ⟨?_, nofun⟩
        dsimp only
        split
        · exact flagsWithin_zero _
        · exact inexact

theorem narrowFinite_flags_within (rc : Rc) (fz neg : Bool) (mag : Nat) {f : SimdFlags}
    (hf : FlagsWithin (~~~ SimdFlags.ze) f) : FlagsWithin (~~~ SimdFlags.ze) (narrowFinite rc fz neg mag f).flags := by
  have overflow : FlagsWithin (~~~ SimdFlags.ze) SimdFlags.oe := by decide
  have underflow : FlagsWithin (~~~ SimdFlags.ze) SimdFlags.ue := by decide
  have inexact : FlagsWithin (~~~ SimdFlags.ze) SimdFlags.pe := by decide
  unfold narrowFinite
  dsimp only
  split
  · exact (hf.or overflow).or inexact
  · split
    · split
      · exact (hf.or underflow).or inexact
      · dsimp only
        split
        · exact hf
        · exact (hf.or underflow).or inexact
    · dsimp only
      split
      · exact hf
      · exact hf.or inexact

theorem cvtF64ToF32_flags_within (v : Qword) (rc : Rc) (fz daz : Bool) :
    FlagsWithin (~~~ SimdFlags.ze) (cvtF64ToF32 v rc fz daz).flags := by
  unfold cvtF64ToF32
  dsimp only
  split
  · dsimp only; split <;> decide
  · split
    · exact flagsWithin_zero _
    · split
      · exact flagsWithin_zero _
      · split
        · exact flagsWithin_zero _
        · exact narrowFinite_flags_within rc fz _ _ (by split <;> decide)

theorem narrowElement_within (v : Qword) (rc : Rc) (fz daz om um : Bool) :
    ConvWithin (~~~ SimdFlags.ze) (narrowElement v rc fz daz om um) := by
  have narrowed := cvtF64ToF32_flags_within v rc (fz && um) daz
  refine ⟨?_, fun _ => by decide⟩
  rcases narrowElement_cases v rc fz daz om um with h | h
  · rw [h]; exact narrowed
  · rw [h]; exact narrowed.and_right _

/-! ### The flags of all elements, and the state at a SIMD exception -/

theorem condOf_flags_within {allow : SimdFlags} {f : Nat → Conv 32} (h : ∀ j, ConvWithin allow (f j)) (n : Nat) :
    FlagsWithin allow (condOf f n).flags := by
  induction n with
  | zero => exact flagsWithin_zero allow
  | succ n ih => exact ih.or (h n).flags

theorem detected_within {allow : SimdFlags} {f : Nat → Conv 32} (h : ∀ j, ConvWithin allow (f j)) (n : Nat) (s : State) :
    FlagsWithin allow (s.detected (condOf f n)) := by
  have flags := condOf_flags_within h n
  unfold State.detected
  split
  next tiny_unmasked =>
    obtain ⟨htiny, -⟩ := (Bool.and_eq_true _ _).mp tiny_unmasked
    obtain ⟨j, -, hj⟩ := (condOf_tiny f n).1 htiny
    exact flags.or ((h j).tiny hj)
  next => exact flags

/-- Both images of R166 and U8 are part of the detected flags. -/
theorem atSimdFault_frame (s : State) (c : Cond) :
    s.atSimdFault c = { s with mxcsr := (s.atSimdFault c).mxcsr, free := (s.atSimdFault c).free }
      ∧ ∃ g, (s.atSimdFault c).mxcsr = orFlags s.mxcsr (s.detected c &&& g) := by
  unfold State.atSimdFault
  split
  · refine ⟨rfl, ?_⟩
    unfold State.rule166Flags
    split
    · exact ⟨preFlags, rfl⟩
    · exact ⟨BitVec.allOnes 6, by rw [BitVec.and_allOnes, State.setMxcsr_mxcsr]⟩
  · exact ⟨rfl, _, rfl⟩

/-! ### What a stop leaves -/

/-- The state at an exception `x` of an instruction that began in `s` and may set the flags `allow`. -/
structure ExnFrame (allow : SimdFlags) (s : State) (x : Exn) (u : State) : Prop where
  fields : u = { s with mxcsr := u.mxcsr, cr2 := u.cr2, free := u.free }
  flags : AddsFlags allow s u
  cause : u.mxcsr ≠ s.mxcsr → x = if s.cr4.getLsbD 10 = true then .xm else .ud

/-- If a stop is an exception, it leaves what `ExnFrame` says. -/
def StopFrame (allow : SimdFlags) (s : State) (e : Stop) : Prop :=
  ∀ x u, e = .fault (.exception x u) → ExnFrame allow s x u

/-- An exception that leaves MXCSR alone meets every row's frame. -/
theorem exnFrame_of_mxcsr_kept (allow : SimdFlags) {s u : State} (x : Exn)
    (h : u = { s with cr2 := u.cr2, free := u.free }) : ExnFrame allow s x u := by
  have mxcsr_eq : u.mxcsr = s.mxcsr := by rw [h]
  exact ⟨by rw [mxcsr_eq]; exact h, addsFlags_of_mxcsr_eq allow mxcsr_eq, fun hne => absurd mxcsr_eq hne⟩

theorem stopFrame_refused (allow : SimdFlags) (s : State) (r : Refusal) : StopFrame allow s (.refused r) :=
  fun _ _ h => by cases h

theorem stopFrame_stuckData (allow : SimdFlags) (s : State) (la : Qword) :
    StopFrame allow s (.fault (.stuckData la)) :=
  fun _ _ h => by cases h

theorem stopFrame_raise (allow : SimdFlags) (s : State) (x : Exn) : StopFrame allow s (raise x s) := by
  obtain ⟨u, hraise, hu⟩ := raise_eq x s
  rw [hraise]
  rintro _ _ ⟨⟩
  exact exnFrame_of_mxcsr_kept allow x (by rw [hu])

theorem stopFrame_enter (allow : SimdFlags) {g : Gate} {s : State} {e : Stop} (h : enter g s = .error e) :
    StopFrame allow s e := by
  rcases enter_error h with ⟨rfl, -⟩ | ⟨rfl, -⟩ | ⟨rfl, -⟩
  · exact stopFrame_raise allow s .ud
  · exact stopFrame_refused allow s _
  · exact stopFrame_raise allow s .nm

theorem stopFrame_checkX87 (allow : SimdFlags) {s : State} {e : Stop} (h : checkX87 s = .error e) :
    StopFrame allow s e := by
  unfold checkX87 at h
  split at h
  · split at h
    · cases h; exact stopFrame_raise allow s .mf
    · cases h; exact stopFrame_refused allow s _
  · cases h

theorem stopFrame_memRead (allow : SimdFlags) {acc : MemAccess} {s : State} {e : Stop} (h : memRead acc s = .error e) :
    StopFrame allow s e := by
  rcases memRead_error h with hcheck | ⟨la, rfl⟩
  · obtain ⟨x, u, rfl, hu, -⟩ := accessCheck_eq_some hcheck
    rintro _ _ ⟨⟩
    exact exnFrame_of_mxcsr_kept allow x hu
  · exact stopFrame_stuckData allow s la

theorem stopFrame_readSource (allow : SimdFlags) {src : Src} {n : Nat} {al : Bool} {s : State} {e : Stop}
    (h : readSource src n al s = .error e) : StopFrame allow s e := by
  cases src with
  | reg r => cases h
  | mem seg ea => exact stopFrame_memRead allow h

theorem stopFrame_evexSource (allow : SimdFlags) {p : EvexOp} {kl : Nat} {src : Src} {s : State} {e : Stop}
    (h : evexSource p kl src s = .error e) : StopFrame allow s e := by
  unfold evexSource at h
  split at h
  · cases h
  · split at h
    · split at h
      next hread => cases h; exact stopFrame_memRead allow hread
      next => cases h
    · split at h
      next hread => cases h; exact stopFrame_memRead allow hread
      next => cases h

theorem stopFrame_simdRespond {allow : SimdFlags} {f : Nat → Conv 32} (hf : ∀ j, ConvWithin allow (f j)) {n : Nat}
    {s : State} {e : Stop} (h : simdRespond (condOf f n) s = .error e) : StopFrame allow s e := by
  obtain ⟨-, rfl⟩ := simdRespond_error h
  obtain ⟨hfields, g, hmxcsr⟩ := atSimdFault_frame s (condOf f n)
  have frame : ExnFrame allow s (if s.osxmmexcpt then .xm else .ud) (s.atSimdFault (condOf f n)) :=
    ⟨by rw [hfields], ⟨_, (detected_within hf n s).and_right g, hmxcsr⟩, fun _ => rfl⟩
  cases hx : s.osxmmexcpt <;>
    · rw [hx] at frame
      rintro _ _ ⟨⟩
      exact frame

/-! ### What a completed write leaves -/

theorem onlyVec_setVec_advance (s : State) (d : BitVec 5) (v : Vec) (len : Nat) :
    OnlyVec s ((s.setVec d v).advance len) d where
  fields := rfl
  others _ hr := State.vec_setVec_of_ne s hr v
  memory _ := rfl

theorem onlyVec_setVec_setMxcsr_advance (s : State) (d : BitVec 5) (v : Vec) (m : Dword) (len : Nat) :
    OnlyVec s (((s.setVec d v).setMxcsr m).advance len) d where
  fields := rfl
  others _ hr := State.vec_setVec_of_ne s hr v
  memory _ := rfl

theorem clearTop_getLsbD_of_not_top (w : BitVec 16) {i : Nat} (hi : i < 16) (h : i < 11 ∨ 13 < i) :
    (clearTop w).getLsbD i = w.getLsbD i := by
  have kept : ∀ j < 16, (j < 11 ∨ 13 < j) → (0xC7FF#16).getLsbD j = true := by decide
  rw [clearTop, BitVec.getLsbD_and, kept i hi h, Bool.and_true]

theorem onlyMmx_writeMm (s : State) (n : BitVec 3) (v : Qword) (m : Dword) (len : Nat) :
    OnlyMmx s (((s.setX87 (s.x87.writeMm n v)).setMxcsr m).advance len) n where
  fields := rfl
  others k hk := Vector.getElem_set_ne n.isLt k.isLt (Ne.symm hk)
  status _ hi h := clearTop_getLsbD_of_not_top s.x87.status hi h
  control := rfl

/-! ### What each course of an instruction leaves -/

/-- A result completes in states of which `done` holds, with flags of `allow` added, and stops as `StopFrame` says. -/
structure CourseFrame (allow : SimdFlags) (done : State → Prop) (s : State) (r : Res State) : Prop where
  completes : ∀ t, r = .ok t → done t ∧ AddsFlags allow s t
  stops : ∀ e, r = .error e → StopFrame allow s e

theorem dq2pd_frame (g : Gate) (u : Bool) (ne : Nat) (o : Operands) (s : State) :
    CourseFrame 0 (OnlyVec s · o.dest) s (dq2pd g u ne o s) where
  completes t h := by
    obtain ⟨-, src, -, rfl⟩ := dq2pd_eq_ok.1 h
    exact ⟨onlyVec_setVec_advance s _ _ _, addsFlags_of_mxcsr_eq 0 rfl⟩
  stops e h := by
    unfold dq2pd at h
    split at h
    next henter => cases h; exact stopFrame_enter 0 henter
    next =>
      split at h
      next hread => cases h; exact stopFrame_readSource 0 hread
      next => cases h

theorem dq2pdEvex_frame (row : Nat) (p : EvexOp) (s : State) :
    CourseFrame 0 (OnlyVec s · (evexOperands p 1 s).dest) s (dq2pdEvex row p s) where
  completes t h := by
    obtain ⟨kl, -, -, src, -, rfl⟩ := dq2pdEvex_eq_ok.1 h
    exact ⟨onlyVec_setVec_advance s _ _ _, addsFlags_of_mxcsr_eq 0 rfl⟩
  stops e h := by
    unfold dq2pdEvex at h
    split at h
    · cases h; exact stopFrame_raise 0 s .ud
    · split at h
      next henter => cases h; exact stopFrame_enter 0 henter
      next =>
        split at h
        · dsimp only at h
          split at h
          next hsource => cases h; exact stopFrame_evexSource 0 hsource
          next => cases h
        · cases h; exact stopFrame_refused 0 s _

theorem convertToDwords_frame {allow : SimdFlags} {conv : SrcVec → Nat → Conv 32}
    (hconv : ∀ src j, ConvWithin allow (conv src j)) (g : Gate) (u al : Bool) (bytes ne : Nat) (o : Operands) (s : State) :
    CourseFrame allow (OnlyVec s · o.dest) s (convertToDwords g u al bytes ne conv o s) where
  completes t h := by
    obtain ⟨-, src, -, -, rfl⟩ := convertToDwords_eq_ok.1 h
    exact ⟨onlyVec_setVec_setMxcsr_advance s _ _ _ _, _, condOf_flags_within (hconv src) ne, rfl⟩
  stops e h := by
    unfold convertToDwords at h
    split at h
    next henter => cases h; exact stopFrame_enter allow henter
    next =>
      split at h
      next hread => cases h; exact stopFrame_readSource allow hread
      next src _ =>
        split at h
        next hsimd => cases h; exact stopFrame_simdRespond (hconv src) hsimd
        next => cases h

theorem pd2pi_frame (p : LegacyOp) (s : State) :
    CourseFrame (SimdFlags.ie ||| SimdFlags.pe) (OnlyMmx s · p.reg) s (pd2pi p s) where
  completes t h := by
    obtain ⟨-, -, src, -, -, rfl⟩ := pd2pi_eq_ok.1 h
    exact ⟨onlyMmx_writeMm s _ _ _ _, _, condOf_flags_within (fun j => cvtF64ToI32_within _ _ _) 2, rfl⟩
  stops e h := by
    unfold pd2pi at h
    split at h
    next henter => cases h; exact stopFrame_enter _ henter
    next =>
      split at h
      next hx87 => cases h; exact stopFrame_checkX87 _ hx87
      next =>
        split at h
        next hread => cases h; exact stopFrame_readSource _ hread
        next =>
          split at h
          next hsimd => cases h; exact stopFrame_simdRespond (fun j => cvtF64ToI32_within _ _ _) hsimd
          next => cases h

/-! ### What each form leaves -/

/-- R35's column of destinations: the one vector register of the form, or the MMX register of CVTPD2PI. -/
def WritesOnlyDest (i : Instr) (s t : State) : Prop :=
  match destOf i s with
  | some d => OnlyVec s t d
  | none => ∃ p, i = .cvtpd2pi p ∧ OnlyMmx s t p.reg

theorem WritesOnlyDest.mem_eq {i : Instr} {s t : State} (h : WritesOnlyDest i s t) : t.mem = s.mem := by
  unfold WritesOnlyDest at h
  split at h
  · rw [h.fields]
  · obtain ⟨p, -, hmmx⟩ := h
    rw [hmmx.fields]

/-- A form may leave what R35 lets it write, on completing and at an exception. -/
def FormFrame (i : Instr) (s : State) : Prop :=
  ∃ r, exec i s = outcome r ∧ CourseFrame (maySet i) (WritesOnlyDest i s) s r

/-- Each form runs one of the four courses, whose frame is the form's row of R35. -/
theorem exec_frame (i : Instr) (s : State) : FormFrame i s := by
  have single (src : SrcVec) (j : Nat) : ConvWithin SimdFlags.pe (s.dq2psLane src j) := cvtI32ToF32_within _ _
  have integer (src : SrcVec) (j : Nat) : ConvWithin (SimdFlags.ie ||| SimdFlags.pe) (s.pd2dqLane src j) :=
    cvtF64ToI32_within _ _ _
  have narrow (src : SrcVec) (j : Nat) : ConvWithin (~~~ SimdFlags.ze) (s.pd2psLane src j) :=
    narrowElement_within _ _ _ _ _ _
  cases i with
  | cvtdq2pd p | vcvtdq2pd128Vex3 p | vcvtdq2pd128Vex2 p | vcvtdq2pd256Vex3 p | vcvtdq2pd256Vex2 p =>
    exact ⟨_, rfl, dq2pd_frame _ _ _ _ s⟩
  | vcvtdq2pd128Evex p | vcvtdq2pd256Evex p | vcvtdq2pd512Evex p => exact ⟨_, rfl, dq2pdEvex_frame _ p s⟩
  | cvtdq2ps p | vcvtdq2ps128Vex3 p | vcvtdq2ps128Vex2 p | vcvtdq2ps256Vex3 p | vcvtdq2ps256Vex2 p =>
    exact ⟨_, rfl, convertToDwords_frame single _ _ _ _ _ _ s⟩
  | cvtpd2dq p | vcvtpd2dq128Vex3 p | vcvtpd2dq128Vex2 p | vcvtpd2dq256Vex3 p | vcvtpd2dq256Vex2 p =>
    exact ⟨_, rfl, convertToDwords_frame integer _ _ _ _ _ _ s⟩
  | cvtpd2pi p =>
    obtain ⟨completes, stops⟩ := pd2pi_frame p s
    exact ⟨_, rfl, fun t h => ⟨⟨p, rfl, (completes t h).1⟩, (completes t h).2⟩, stops⟩
  | cvtpd2ps p | vcvtpd2ps128Vex3 p | vcvtpd2ps128Vex2 p | vcvtpd2ps256Vex3 p | vcvtpd2ps256Vex2 p =>
    exact ⟨_, rfl, convertToDwords_frame narrow _ _ _ _ _ _ s⟩

theorem exec_eq_next_frame {i : Instr} {s t : State} (h : exec i s = .next t) :
    WritesOnlyDest i s t ∧ AddsFlags (maySet i) s t := by
  obtain ⟨r, hr, frame⟩ := exec_frame i s
  exact frame.completes t (outcome_eq_next.1 (hr ▸ h))

theorem outcome_eq_fault {r : Res State} {f : Fault} : outcome r = .fault f ↔ r = .error (.fault f) := by
  unfold outcome
  split <;> simp

theorem exec_eq_exception_frame {i : Instr} {s u : State} {x : Exn} (h : exec i s = .fault (.exception x u)) :
    ExnFrame (maySet i) s x u := by
  obtain ⟨r, hr, frame⟩ := exec_frame i s
  exact frame.stops _ (outcome_eq_fault.1 (hr ▸ h)) x u rfl

/-- R101: CVTDQ2PD has no flag to set. -/
theorem maySet_eq_zero_of_tierA {i : Instr} (h : tierA i = true) : maySet i = 0 := by
  cases i <;> simp [tierA] at h <;> rfl

theorem tierA_eq_false_of_mxcsr_ne {i : Instr} {s u : State} (hflags : AddsFlags (maySet i) s u)
    (hne : u.mxcsr ≠ s.mxcsr) : tierA i = false := by
  rw [← Bool.not_eq_true]
  intro htier
  rw [maySet_eq_zero_of_tierA htier] at hflags
  exact hne hflags.mxcsr_eq

/-- Settles O35: the frame of the form's course, on completing and at an exception. -/
theorem frameOfEveryInstruction : Obligations.FrameOfEveryInstruction := by
  intro i s
  constructor
  · intro t ht
    obtain ⟨hdest, hflags⟩ := exec_eq_next_frame ht
    exact ⟨hdest, hflags, fun a => by rw [hdest.mem_eq]⟩
  · intro x u hu
    obtain ⟨hfields, hflags, hcause⟩ := exec_eq_exception_frame hu
    exact ⟨hfields, hflags, fun hne => ⟨tierA_eq_false_of_mxcsr_ne hflags hne, hcause hne⟩⟩

end Sys2Proof.Machine
end

/-! What LOCK does to a form (R55). The bytes with F0H put among the prefixes are the encoding of the same fields with `lock`
among its prefixes; each layout decodes such an encoding to #UD whatever bytes follow; and a step decodes the bytes that
stand at its instruction pointer. -/
section

namespace Sys2Proof

/-! ### Prefix bytes (R61, R62) -/

/-- The prefix a byte is read as is the one whose byte it is, but for REX, which is no legacy prefix. -/
theorem Pre.ofByte_byte {p : Pre} (h : ∀ r, p ≠ .rex r) : Pre.ofByte p.byte = some p := by
  cases p with
  | seg r => cases r <;> decide
  | rex r => exact absurd rfl (h r)
  | opSize | addrSize | lock | repne | rep => decide

@[simp] theorem Pre.ofByte_rexByte (r : BitVec 4) : Pre.ofByte (rexByte r) = none := by
  revert r; decide

@[simp] theorem isRexByte_rexByte (r : BitVec 4) : isRexByte (rexByte r) = true := by
  revert r; decide

@[simp] theorem rexByte_low (r : BitVec 4) : (rexByte r).extractLsb' 0 4 = r := by
  revert r; decide

theorem rexByte_ne_escape (r : BitVec 4) : rexByte r ≠ 0x0F := by
  revert r; decide

theorem Pre.byte_ne_escape (p : Pre) : p.byte ≠ 0x0F := by
  cases p with
  | seg r => cases r <;> decide
  | rex r => exact rexByte_ne_escape r
  | opSize | addrSize | lock | repne | rep => decide

/-! ### Reading the prefixes back (R84) -/

/-- The REX bytes among the prefixes `pre` of what `tail` goes on with are read as such: they stand in Mode64, and none
directly before 0FH, where it would be the `rex` field (R62). -/
structure RexPlaced (mode64 : Bool) (pre : List Pre) (tail : List Byte) : Prop where
  mode : ∀ r, .rex r ∈ pre → mode64 = true
  last : tail.head? = some 0x0F → ∀ r, pre.getLast? ≠ some (.rex r)

theorem RexPlaced.of_cons {m : Bool} {p : Pre} {ps : List Pre} {tail : List Byte} (h : RexPlaced m (p :: ps) tail) :
    RexPlaced m ps tail where
  mode r hr := h.mode r (List.mem_cons_of_mem _ hr)
  last ht r hr := h.last ht r (by rw [List.getLast?_cons, hr]; rfl)

/-- A REX byte with the prefixes after it is not directly before 0FH. -/
theorem RexPlaced.head?_ne_escape {m : Bool} {r : BitVec 4} {ps : List Pre} {tail : List Byte}
    (h : RexPlaced m (.rex r :: ps) tail) : (ps.map Pre.byte ++ tail).head? ≠ some 0x0F := by
  cases ps with
  | nil => exact fun ht => h.last ht r rfl
  | cons q qs => simpa using q.byte_ne_escape

theorem parsePrefixes_byte_cons {m : Bool} {p : Pre} (bs : List Byte) (h : ∀ r, p ≠ .rex r) :
    parsePrefixes m (p.byte :: bs) = (p :: (parsePrefixes m bs).1, (parsePrefixes m bs).2) := by
  simp [parsePrefixes, Pre.ofByte_byte h]

theorem parsePrefixes_rexByte_cons {r : BitVec 4} {bs : List Byte} (h : ¬bs.head? = some 0x0F#8) :
    parsePrefixes true (rexByte r :: bs) = (.rex r :: (parsePrefixes true bs).1, (parsePrefixes true bs).2) := by
  simp [parsePrefixes, h]

theorem parsePrefixes_map_byte {m : Bool} {pre : List Pre} {tail : List Byte} (h : RexPlaced m pre tail) :
    parsePrefixes m (pre.map Pre.byte ++ tail) = (pre ++ (parsePrefixes m tail).1, (parsePrefixes m tail).2) := by
  induction pre with
  | nil => rfl
  | cons p ps ih =>
    have ih := ih h.of_cons
    rw [List.map_cons, List.cons_append]
    by_cases hp : ∃ r, p = .rex r
    · obtain ⟨r, rfl⟩ := hp
      obtain rfl : m = true := h.mode r List.mem_cons_self
      exact (parsePrefixes_rexByte_cons h.head?_ne_escape).trans (by rw [ih]; rfl)
    · rw [parsePrefixes_byte_cons _ (not_exists.1 hp), ih]
      rfl

/-- The lead bytes of a layout end the prefixes: 0FH, C5H, C4H and 62H. -/
theorem parsePrefixes_lead {m : Bool} {b : Byte} (bs : List Byte) (hb : b ∈ [(0x0F : Byte), 0xC5, 0xC4, 0x62]) :
    parsePrefixes m (b :: bs) = ([], none, b :: bs) := by
  have hlead : ∀ b ∈ [(0x0F : Byte), 0xC5, 0xC4, 0x62], Pre.ofByte b = none ∧ isRexByte b = false := by decide
  simp [parsePrefixes, hlead b hb]

/-- The REX byte directly before 0FH is the `rex` field (R62). -/
theorem parsePrefixes_rex_escape {m : Bool} {rex : Option (BitVec 4)} (bs : List Byte) (h : m = true ∨ rex = none) :
    parsePrefixes m ((rex.map rexByte).toList ++ 0x0F :: bs) = ([], rex, 0x0F :: bs) := by
  cases rex with
  | none => exact parsePrefixes_lead bs (by decide)
  | some r => simp [parsePrefixes, h.resolve_right (Option.some_ne_none r)]

/-! ### Reading ModRM back (R64 to R67) -/

@[simp] theorem modRM_mod (md : BitVec 2) (reg rm : BitVec 3) : (modRM md reg rm).extractLsb' 6 2 = md := by
  revert md reg rm; decide

@[simp] theorem modRM_reg (md : BitVec 2) (reg rm : BitVec 3) : (modRM md reg rm).extractLsb' 3 3 = reg := by
  revert md reg rm; decide

@[simp] theorem modRM_rm (md : BitVec 2) (reg rm : BitVec 3) : (modRM md reg rm).extractLsb' 0 3 = rm := by
  revert md reg rm; decide

@[simp] theorem sibByte_scale (scale : BitVec 2) (index base : BitVec 3) :
    (sibByte scale index base).extractLsb' 6 2 = scale := modRM_mod scale index base

@[simp] theorem sibByte_index (scale : BitVec 2) (index base : BitVec 3) :
    (sibByte scale index base).extractLsb' 3 3 = index := modRM_reg scale index base

@[simp] theorem sibByte_base (scale : BitVec 2) (index base : BitVec 3) :
    (sibByte scale index base).extractLsb' 0 3 = base := modRM_rm scale index base

theorem le16_bytes (d : BitVec 16) : le16 (d.extractLsb' 0 8) (d.extractLsb' 8 8) = d :=
  (BitVec.extractLsb'_append_extractLsb'_eq_extractLsb' rfl).trans BitVec.extractLsb'_eq_self

theorem le32_bytes (d : BitVec 32) :
    le32 (d.extractLsb' 0 8) (d.extractLsb' 8 8) (d.extractLsb' 16 8) (d.extractLsb' 24 8) = d := by
  rw [le32, BitVec.extractLsb'_append_extractLsb'_eq_extractLsb' (show 24 = 16 + 8 from rfl),
    BitVec.extractLsb'_append_extractLsb'_eq_extractLsb' (show 16 = 8 + 8 from rfl),
    BitVec.extractLsb'_append_extractLsb'_eq_extractLsb' (show 8 = 0 + 8 from rfl)]
  exact BitVec.extractLsb'_eq_self

theorem parseDisp_bytes (d : Disp) (rest : List Byte) : parseDisp d.md (d.bytes ++ rest) = some d := by
  cases d <;> simp [parseDisp, Disp.md, Disp.bytes, bytes32, le32_bytes]

theorem Disp.md_ne_three (d : Disp) : d.md ≠ 3#2 := by cases d <;> simp [Disp.md]

theorem Disp16.md_ne_three (d : Disp16) : d.md ≠ 3#2 := by cases d <;> simp [Disp16.md]

theorem Disp.md_eq_zero {d : Disp} : d.md = 0#2 ↔ d = .none := by cases d <;> simp [Disp.md]

theorem parseModRM_mem32 {asz : AddrSize} {md : BitVec 2} (reg rm : BitVec 3) (bs : List Byte) (hasz : asz ≠ .a16)
    (hmd : md ≠ 3#2) : parseModRM asz (modRM md reg rm :: bs) = (parseMem32 md rm bs).map fun a => (reg, .mem a) := by
  cases asz with
  | a16 => exact absurd rfl hasz
  | a32 | a64 => simp [parseModRM, hmd]

theorem parseModRM_mem16 {md : BitVec 2} (reg rm : BitVec 3) (bs : List Byte) (hmd : md ≠ 3#2) :
    parseModRM .a16 (modRM md reg rm :: bs) = (parseMem16 md rm bs).map fun a => (reg, .mem a) := by
  simp [parseModRM, hmd]

/-- The bytes of operand 2 are read back, whatever follows them. -/
theorem parseModRM_encodeModRM {asz : AddrSize} (reg : BitVec 3) {rm : Rm} (rest : List Byte) (h : rm.ok asz = true) :
    parseModRM asz (encodeModRM reg rm ++ rest) = some (reg, rm) := by
  cases rm with
  | reg n => simp [encodeModRM, parseModRM]
  | mem a =>
    cases a with
    | base rm d =>
      obtain ⟨⟨hasz, hsib⟩, hdisp⟩ : (asz ≠ .a16 ∧ rm ≠ 4#3) ∧ ¬(rm = 5#3 ∧ d = .none) := by
        simpa [Rm.ok, AddrForm.ok, ← not_and_or] using h
      rw [encodeModRM, List.cons_append, parseModRM_mem32 _ _ _ hasz d.md_ne_three]
      simp [parseMem32, parseDisp_bytes, Disp.md_eq_zero, hsib, hdisp]
    | disp32 d =>
      have hasz : asz ≠ .a16 := by simpa [Rm.ok, AddrForm.ok] using h
      rw [encodeModRM, List.cons_append, parseModRM_mem32 _ _ _ hasz (by decide)]
      simp [parseMem32, bytes32, le32_bytes]
    | sib scale index base d =>
      obtain ⟨hasz, hbase⟩ : asz ≠ .a16 ∧ ¬(base = 5#3 ∧ d = .none) := by
        simpa [Rm.ok, AddrForm.ok, ← not_and_or] using h
      rw [encodeModRM, List.cons_append, parseModRM_mem32 _ _ _ hasz d.md_ne_three]
      simp [parseMem32, parseSib, parseDisp_bytes, Disp.md_eq_zero, hbase]
    | sibNoBase scale index d =>
      have hasz : asz ≠ .a16 := by simpa [Rm.ok, AddrForm.ok] using h
      rw [encodeModRM, List.cons_append, parseModRM_mem32 _ _ _ hasz (by decide)]
      simp [parseMem32, parseSib, bytes32, le32_bytes]
    | a16 rm d =>
      obtain ⟨rfl, hdisp⟩ : asz = .a16 ∧ ¬(rm = 6#3 ∧ d = .none) := by
        simpa [Rm.ok, AddrForm.ok, ← not_and_or] using h
      rw [encodeModRM, List.cons_append, parseModRM_mem16 _ _ _ d.md_ne_three]
      cases d with
      | none => simp [parseMem16, Disp16.md, show rm ≠ 6#3 from fun e => hdisp ⟨e, rfl⟩]
      | d8 d => simp [parseMem16, Disp16.md, Disp16.bytes]
      | d16 d => simp [parseMem16, Disp16.md, Disp16.bytes, bytes16, le16_bytes]
    | a16Disp d =>
      obtain rfl : asz = .a16 := by simpa [Rm.ok, AddrForm.ok] using h
      rw [encodeModRM, List.cons_append, parseModRM_mem16 _ _ _ (by decide)]
      simp [parseMem16, bytes16, le16_bytes]

/-! ### A prefix put among the others -/

/-- The prefixes with LOCK put after the first `n`. -/
def insertLock (pre : List Pre) (n : Nat) : List Pre := pre.take n ++ .lock :: pre.drop n

@[simp] theorem mem_insertLock {pre : List Pre} {n : Nat} {p : Pre} : p ∈ insertLock pre n ↔ p = .lock ∨ p ∈ pre := by
  have hsplit : p ∈ pre ↔ p ∈ pre.take n ∨ p ∈ pre.drop n := by rw [← List.mem_append, List.take_append_drop]
  simp only [insertLock, List.mem_append, List.mem_cons, hsplit]
  tauto

/-- LOCK takes no part in choosing the address size (R84). -/
theorem addrSize_insertLock (m : Mode) (pre : List Pre) (n : Nat) : addrSize m (insertLock pre n) = addrSize m pre := by
  simp [addrSize]

/-- LOCK takes no part in choosing the mandatory prefix (R61). -/
theorem mandatory_insertLock (pre : List Pre) (n : Nat) : mandatory (insertLock pre n) = mandatory pre := by
  have hfind (q : Pre → Bool) (hq : q .lock = false) :
      (insertLock pre n).reverse.find? q = pre.reverse.find? q := by
    have hsplit : pre.reverse = (pre.drop n).reverse ++ (pre.take n).reverse := by
      rw [← List.reverse_append, List.take_append_drop]
    rw [hsplit]
    simp [insertLock, List.find?_append, hq]
  simp [mandatory, hfind]

/-- R61, R71, R73: LOCK is a bad prefix before VEX and EVEX. -/
theorem any_badBeforeVex_insertLock (pre : List Pre) (n : Nat) : (insertLock pre n).any Pre.badBeforeVex = true :=
  List.any_eq_true.2 ⟨.lock, mem_insertLock.2 (.inl rfl), rfl⟩

theorem rexPlaced_insertLock {m : Bool} {pre : List Pre} {tail : List Byte} (h : RexPlaced m pre tail) (n : Nat) :
    RexPlaced m (insertLock pre n) tail where
  mode r hr := h.mode r (by simpa using hr)
  last ht r hr := by
    rcases hdrop : pre.drop n with _ | ⟨q, qs⟩
    · simp [insertLock, hdrop] at hr
    · refine h.last ht r ?_
      rw [← List.take_append_drop n pre, hdrop]
      simpa [insertLock, hdrop] using hr

/-- The byte F0H put among the prefix bytes of an encoding is the encoding of LOCK put among the prefixes. -/
theorem insert_lock_byte {pre : List Pre} {n : Nat} (body : List Byte) (hn : n ≤ pre.length) :
    (pre.map Pre.byte ++ body).take n ++ 0xF0 :: (pre.map Pre.byte ++ body).drop n
      = (insertLock pre n).map Pre.byte ++ body := by
  have hlen : n ≤ (pre.map Pre.byte).length := by simpa using hn
  simp [insertLock, List.take_append_of_le_length hlen, List.drop_append_of_le_length hlen, List.map_take, List.map_drop,
    Pre.byte]

/-! ### The payload bytes of VEX and EVEX (R69, R70, R72) -/

/-- The byte after C4H: the stored R, X and B, and the opcode map 0FH. -/
def vex3P0 (p : Vex3Op) : Byte :=
  BitVec.ofBool (!p.r) ++ BitVec.ofBool (!p.x) ++ BitVec.ofBool (!p.b) ++ 0b00001#5

/-- The last payload byte of VEX, `e` its top bit: W in the three-byte form, the stored R in the two-byte form. -/
def vexP (e l : Bool) (pp : Pp) : Byte := BitVec.ofBool e ++ 0b1111#4 ++ BitVec.ofBool l ++ pp.field

/-- The byte after 62H: the stored R, X, B and R', and the opcode map. -/
def evexP0 (p : EvexOp) : Byte :=
  BitVec.ofBool (!p.r) ++ BitVec.ofBool (!p.x) ++ BitVec.ofBool (!p.b) ++ BitVec.ofBool (!p.r4) ++ 0b0001#4

/-- The last payload byte of EVEX, with the stored V' = 1. -/
def evexP2 (p : EvexOp) : Byte := BitVec.ofBool p.z ++ p.ll ++ BitVec.ofBool p.bc ++ 0b1#1 ++ p.aaa

theorem encodeVex3_eq (pp : Pp) (l : Bool) (opc : Byte) (p : Vex3Op) :
    encodeVex3 pp l opc p
      = p.pre.map Pre.byte ++ 0xC4 :: vex3P0 p :: vexP p.w l pp :: opc :: encodeModRM p.reg p.rm := rfl

theorem encodeVex2_eq (pp : Pp) (l : Bool) (opc : Byte) (p : Vex2Op) :
    encodeVex2 pp l opc p = p.pre.map Pre.byte ++ 0xC5 :: vexP (!p.r) l pp :: opc :: encodeModRM p.reg p.rm := rfl

theorem encodeEvex_eq (p : EvexOp) :
    encodeEvex p
      = p.pre.map Pre.byte ++ 0x62 :: evexP0 p :: 0x7E :: evexP2 p :: 0xE6 :: encodeModRM p.reg p.rm := rfl

theorem vex3P0_map (p : Vex3Op) : (vex3P0 p).extractLsb' 0 5 = 1#5 := by
  have h : ∀ r x b : Bool, (BitVec.ofBool r ++ BitVec.ofBool x ++ BitVec.ofBool b ++ 0b00001#5).extractLsb' 0 5 = 1#5 := by
    decide
  exact h _ _ _

/-- Without R and X the top bits are 11b, so that the bytes are no LES (R84). -/
theorem vex3P0_top {p : Vex3Op} (hr : p.r = false) (hx : p.x = false) : (vex3P0 p).extractLsb' 6 2 = 3#2 := by
  rw [vex3P0, hr, hx]; cases p.b <;> decide

@[simp] theorem vexP_vvvv (e l : Bool) (pp : Pp) : (vexP e l pp).extractLsb' 3 4 = 15#4 := by
  cases pp <;> revert e l <;> decide

@[simp] theorem vexP_l (e l : Bool) (pp : Pp) : (vexP e l pp)[2] = l := by
  cases pp <;> revert e l <;> decide

@[simp] theorem vexP_pp (e l : Bool) (pp : Pp) : Pp.ofField ((vexP e l pp).extractLsb' 0 2) = pp := by
  cases pp <;> revert e l <;> decide

/-- With a stored R of 1 the top bits are 11b, so that the bytes are no LDS (R84). -/
theorem vexP_top (l : Bool) (pp : Pp) : (vexP true l pp).extractLsb' 6 2 = 3#2 := by
  cases pp <;> revert l <;> decide

theorem evexP0_map (p : EvexOp) : (evexP0 p).extractLsb' 0 2 = 1#2 := by
  have h : ∀ r x b r4 : Bool,
      (BitVec.ofBool r ++ BitVec.ofBool x ++ BitVec.ofBool b ++ BitVec.ofBool r4 ++ 0b0001#4).extractLsb' 0 2 = 1#2 := by
    decide
  exact h _ _ _ _

/-- Without R and X the top bits are 11b, so that the bytes are no BOUND (R84). -/
theorem evexP0_top {p : EvexOp} (hr : p.r = false) (hx : p.x = false) : (evexP0 p).extractLsb' 6 2 = 3#2 := by
  rw [evexP0, hr, hx]; cases p.b <;> cases p.r4 <;> decide

/-- Without B and R' bits 5:4 are 11b, as U5 asks. -/
theorem evexP0_extension {p : EvexOp} (hb : p.b = false) (hr4 : p.r4 = false) :
    (evexP0 p).extractLsb' 4 2 = 3#2 := by
  rw [evexP0, hb, hr4]; cases p.r <;> cases p.x <;> decide

theorem evexP2_v' (p : EvexOp) : (evexP2 p)[3] = true := by
  have h : ∀ (z bc : Bool) (ll : BitVec 2) (aaa : BitVec 3),
      (BitVec.ofBool z ++ ll ++ BitVec.ofBool bc ++ 0b1#1 ++ aaa)[3] = true := by decide
  exact h _ _ _ _

/-! ### What well-formedness gives each layout -/

theorem commonOk_rm {c : DecodeCtx} {pre : List Pre} {rm : Rm} (h : commonOk c pre rm = true) :
    rm.ok (addrSize c.mode pre) = true := by
  simp only [commonOk, Bool.and_eq_true] at h
  exact h.1.2

theorem commonOk_rex {c : DecodeCtx} {pre : List Pre} {rm : Rm} (h : commonOk c pre rm = true) (r : BitVec 4)
    (hr : .rex r ∈ pre) : (c.mode == .mode64) = true := by
  simp only [commonOk, Bool.and_eq_true, Bool.or_eq_true, List.all_eq_true] at h
  exact h.1.1.resolve_right fun hall => absurd (hall _ hr) (by simp)

/-- Before a lead byte other than 0FH a REX byte may stand last. -/
theorem commonOk_rexPlaced {c : DecodeCtx} {pre : List Pre} {rm : Rm} (h : commonOk c pre rm = true) {b : Byte}
    (bs : List Byte) (hb : b ≠ 0x0F) : RexPlaced (c.mode == .mode64) pre (b :: bs) :=
  ⟨commonOk_rex h, fun hhead => absurd (Option.some.inj hhead) hb⟩

theorem LegacyOp.rexPlaced_of_ok {c : DecodeCtx} {pp : Pp} {p : LegacyOp} (h : p.ok c pp = true) (bs : List Byte) :
    RexPlaced (c.mode == .mode64) p.pre ((p.rex.map rexByte).toList ++ 0x0F :: bs) := by
  simp only [LegacyOp.ok, Bool.and_eq_true] at h
  obtain ⟨⟨⟨⟨⟨⟨hcommon, -⟩, -⟩, -⟩, -⟩, hlast⟩, -⟩ := h
  refine ⟨commonOk_rex hcommon, fun hhead r hr => ?_⟩
  rcases hrex : p.rex with _ | bits
  · simp [hrex, hr] at hlast
  · rw [hrex] at hhead
    exact rexByte_ne_escape bits (Option.some.inj hhead)

/-! ### LOCK before the fields of each layout (R55, R61, R71, R73) -/

theorem decodeLegacy_of_lock {c : DecodeCtx} {pre : List Pre} {opc : Byte} {rm : Rm} (rex : Option (BitVec 4))
    (reg : BitVec 3) (rest : List Byte) (hlock : .lock ∈ pre) (hrow : (legacyRow (mandatory pre) opc).isSome = true)
    (hrm : rm.ok (addrSize c.mode pre) = true) :
    decodeLegacy c pre rex (opc :: (encodeModRM reg rm ++ rest)) = .ud := by
  obtain ⟨row, hrow⟩ := Option.isSome_iff_exists.1 hrow
  simp [decodeLegacy, hrow, parseModRM_encodeModRM reg rest hrm, hlock]

theorem finishVex_of_bad {c : DecodeCtx} {pre : List Pre} (fieldsOk a16 : Bool) (i : Instr)
    (h : pre.any Pre.badBeforeVex = true) : finishVex c pre fieldsOk a16 i = .ud := by
  rw [finishVex, if_pos h]

theorem decodeVex3_of_bad {c : DecodeCtx} {pre : List Pre} {pp : Pp} {l : Bool} {opc : Byte} {p : Vex3Op}
    (rest : List Byte) (hbad : pre.any Pre.badBeforeVex = true) (hrow : (vex3Row pp l opc).isSome = true)
    (hmode : c.mode = .mode64 ∨ p.r = false ∧ p.x = false) (hrm : p.rm.ok (addrSize c.mode pre) = true) :
    decodeVex3 c pre (vex3P0 p :: vexP p.w l pp :: opc :: (encodeModRM p.reg p.rm ++ rest)) = .ud := by
  obtain ⟨row, hrow⟩ := Option.isSome_iff_exists.1 hrow
  have hvex : ¬(c.mode ≠ .mode64 ∧ (vex3P0 p).extractLsb' 6 2 ≠ 3#2) := fun ⟨hm, htop⟩ =>
    have ⟨hr, hx⟩ := hmode.resolve_left hm
    htop (vex3P0_top hr hx)
  simp [decodeVex3, hvex, vex3P0_map, hrow, parseModRM_encodeModRM p.reg rest hrm, finishVex_of_bad _ _ _ hbad]

theorem decodeVex2_of_bad {c : DecodeCtx} {pre : List Pre} {pp : Pp} {l : Bool} {opc : Byte} {p : Vex2Op}
    (rest : List Byte) (hbad : pre.any Pre.badBeforeVex = true) (hrow : (vex2Row pp l opc).isSome = true)
    (hmode : c.mode = .mode64 ∨ p.r = false) (hrm : p.rm.ok (addrSize c.mode pre) = true) :
    decodeVex2 c pre (vexP (!p.r) l pp :: opc :: (encodeModRM p.reg p.rm ++ rest)) = .ud := by
  obtain ⟨row, hrow⟩ := Option.isSome_iff_exists.1 hrow
  have hvex : ¬(c.mode ≠ .mode64 ∧ (vexP (!p.r) l pp).extractLsb' 6 2 ≠ 3#2) := fun ⟨hm, htop⟩ =>
    htop (hmode.resolve_left hm ▸ vexP_top l pp)
  simp [decodeVex2, hvex, hrow, parseModRM_encodeModRM p.reg rest hrm, finishVex_of_bad _ _ _ hbad]

theorem decodeEvex_of_bad {c : DecodeCtx} {pre : List Pre} {p : EvexOp} (rest : List Byte)
    (hbad : pre.any Pre.badBeforeVex = true) (hmode : c.mode = .mode64 ∨ p.r = false ∧ p.x = false)
    (hext : extensionRefused c.mode = false ∨ p.b = false ∧ p.r4 = false)
    (hrm : p.rm.ok (addrSize c.mode pre) = true) :
    decodeEvex c pre (evexP0 p :: 0x7E :: evexP2 p :: 0xE6 :: (encodeModRM p.reg p.rm ++ rest)) = .ud := by
  have hevex : ¬(c.mode ≠ .mode64 ∧ (evexP0 p).extractLsb' 6 2 ≠ 3#2) := fun ⟨hm, htop⟩ =>
    have ⟨hr, hx⟩ := hmode.resolve_left hm
    htop (evexP0_top hr hx)
  have hneutral : ¬(extensionRefused c.mode = true ∧ (evexP0 p).extractLsb' 4 2 ≠ 3#2) := fun ⟨hm, hbits⟩ =>
    have ⟨hb, hr4⟩ := hext.resolve_left (Bool.not_eq_false _ ▸ hm)
    hbits (evexP0_extension hb hr4)
  simp [decodeEvex, hevex, hneutral, evexP0_map, evexP2_v', parseModRM_encodeModRM p.reg rest hrm,
    finishVex_of_bad _ _ _ hbad]

/-! ### LOCK among the prefixes of each layout (R55) -/

/-- The prefixes of a VEX or EVEX form with a LOCK byte put among them, read back. -/
theorem parsePrefixes_lock_lead {c : DecodeCtx} {pre : List Pre} {rm : Rm} {n : Nat} {b : Byte} (body rest : List Byte)
    (hcommon : commonOk c pre rm = true) (hn : n ≤ pre.length) (hb : b ∈ [(0xC5 : Byte), 0xC4, 0x62]) :
    parsePrefixes (c.mode == .mode64)
        ((pre.map Pre.byte ++ b :: body).take n ++ 0xF0 :: (pre.map Pre.byte ++ b :: body).drop n ++ rest)
      = (insertLock pre n, none, b :: (body ++ rest)) := by
  have hplaced := commonOk_rexPlaced hcommon (body ++ rest) (show b ≠ 0x0F from fun e => absurd (e ▸ hb) (by decide))
  rw [insert_lock_byte _ hn, List.append_assoc, List.cons_append, parsePrefixes_map_byte (rexPlaced_insertLock hplaced n),
    parsePrefixes_lead _ (List.mem_cons_of_mem _ hb), List.append_nil]

/-- The prefixes of a LEGACY form with a LOCK byte put among them, read back. -/
theorem parsePrefixes_lock_legacy {c : DecodeCtx} {pp : Pp} {p : LegacyOp} {n : Nat} (opc : Byte) (rest : List Byte)
    (hok : p.ok c pp = true) (hn : n ≤ p.pre.length) :
    parsePrefixes (c.mode == .mode64) ((encodeLegacy opc p).take n ++ 0xF0 :: (encodeLegacy opc p).drop n ++ rest)
      = (insertLock p.pre n, p.rex, 0x0F :: opc :: (encodeModRM p.reg p.rm ++ rest)) := by
  have hplaced := rexPlaced_insertLock (p.rexPlaced_of_ok hok (opc :: (encodeModRM p.reg p.rm ++ rest))) n
  simp only [LegacyOp.ok, Bool.and_eq_true, Bool.or_eq_true, beq_iff_eq] at hok
  obtain ⟨⟨⟨-, hrex⟩, -⟩, -⟩ := hok
  have hparse := parsePrefixes_map_byte hplaced
  rw [parsePrefixes_rex_escape _ (hrex.imp_left beq_iff_eq.2), List.append_nil] at hparse
  have hbytes : encodeLegacy opc p
      = p.pre.map Pre.byte ++ ((p.rex.map rexByte).toList ++ 0x0F :: opc :: encodeModRM p.reg p.rm) :=
    List.append_assoc _ _ _
  rw [hbytes, insert_lock_byte _ hn, List.append_assoc, List.append_assoc]
  exact hparse

/-- With one byte more an encoding of at most 14 bytes is not too long, so that #UD stays #UD (R60). -/
theorem decode_insert_eq_ud {c : DecodeCtx} {bs : List Byte} {n : Nat} {b : Byte} (hlen : bs.length ≤ 14)
    (h : ∀ rest, decodeBody c (bs.take n ++ b :: bs.drop n ++ rest) = .ud) (rest : List Byte) :
    decode c (bs.take n ++ b :: bs.drop n ++ rest) = .ud := by
  have hfits : (bs.take n ++ b :: bs.drop n).length ≤ 15 := by
    simp only [List.length_append, List.length_cons, List.length_take, List.length_drop]
    omega
  rw [decode, List.take_append, List.take_of_length_le hfits, h]

theorem decode_lock_legacy {c : DecodeCtx} {pp : Pp} {opc : Byte} {p : LegacyOp} {n : Nat}
    (hrow : (legacyRow pp opc).isSome = true) (hok : p.ok c pp = true) (hlen : (encodeLegacy opc p).length ≤ 14)
    (hn : n ≤ p.pre.length) :
    ∀ rest, decode c ((encodeLegacy opc p).take n ++ 0xF0 :: (encodeLegacy opc p).drop n ++ rest) = .ud := by
  refine decode_insert_eq_ud hlen fun rest => ?_
  simp only [decodeBody, parsePrefixes_lock_legacy opc rest hok hn, if_true]
  simp only [LegacyOp.ok, Bool.and_eq_true, beq_iff_eq] at hok
  obtain ⟨⟨⟨⟨⟨⟨hcommon, rfl⟩, -⟩, -⟩, -⟩, -⟩, -⟩ := hok
  exact decodeLegacy_of_lock _ _ _ (mem_insertLock.2 (.inl rfl)) (by rwa [mandatory_insertLock])
    (by rw [addrSize_insertLock]; exact commonOk_rm hcommon)

theorem decode_lock_vex3 {c : DecodeCtx} {pp : Pp} {l : Bool} {opc : Byte} {p : Vex3Op} {n : Nat}
    (hrow : (vex3Row pp l opc).isSome = true) (hok : p.ok c = true) (hlen : (encodeVex3 pp l opc p).length ≤ 14)
    (hn : n ≤ p.pre.length) :
    ∀ rest, decode c ((encodeVex3 pp l opc p).take n ++ 0xF0 :: (encodeVex3 pp l opc p).drop n ++ rest) = .ud := by
  refine decode_insert_eq_ud hlen fun rest => ?_
  simp only [Vex3Op.ok, Bool.and_eq_true, Bool.or_eq_true, beq_iff_eq, Bool.not_eq_true'] at hok
  obtain ⟨⟨⟨hcommon, -⟩, hmode⟩, -⟩ := hok
  rw [encodeVex3_eq, decodeBody, parsePrefixes_lock_lead _ rest hcommon hn (by decide)]
  exact decodeVex3_of_bad _ (any_badBeforeVex_insertLock _ _) hrow hmode
    (by rw [addrSize_insertLock]; exact commonOk_rm hcommon)

theorem decode_lock_vex2 {c : DecodeCtx} {pp : Pp} {l : Bool} {opc : Byte} {p : Vex2Op} {n : Nat}
    (hrow : (vex2Row pp l opc).isSome = true) (hok : p.ok c = true) (hlen : (encodeVex2 pp l opc p).length ≤ 14)
    (hn : n ≤ p.pre.length) :
    ∀ rest, decode c ((encodeVex2 pp l opc p).take n ++ 0xF0 :: (encodeVex2 pp l opc p).drop n ++ rest) = .ud := by
  refine decode_insert_eq_ud hlen fun rest => ?_
  simp only [Vex2Op.ok, Bool.and_eq_true, Bool.or_eq_true, beq_iff_eq, Bool.not_eq_true'] at hok
  obtain ⟨⟨⟨hcommon, -⟩, hmode⟩, -⟩ := hok
  rw [encodeVex2_eq, decodeBody, parsePrefixes_lock_lead _ rest hcommon hn (by decide)]
  exact decodeVex2_of_bad _ (any_badBeforeVex_insertLock _ _) hrow hmode
    (by rw [addrSize_insertLock]; exact commonOk_rm hcommon)

theorem decode_lock_evex {c : DecodeCtx} {ll : BitVec 2} {p : EvexOp} {n : Nat} (hok : p.ok c ll = true)
    (hlen : (encodeEvex p).length ≤ 14) (hn : n ≤ p.pre.length) :
    ∀ rest, decode c ((encodeEvex p).take n ++ 0xF0 :: (encodeEvex p).drop n ++ rest) = .ud := by
  refine decode_insert_eq_ud hlen fun rest => ?_
  simp only [EvexOp.ok, Bool.and_eq_true, Bool.or_eq_true, beq_iff_eq, Bool.not_eq_true'] at hok
  obtain ⟨⟨⟨⟨⟨⟨⟨hcommon, -⟩, hmode⟩, hext⟩, -⟩, -⟩, -⟩, -⟩ := hok
  rw [encodeEvex_eq, decodeBody, parsePrefixes_lock_lead _ rest hcommon hn (by decide)]
  exact decodeEvex_of_bad _ (any_badBeforeVex_insertLock _ _) hmode hext
    (by rw [addrSize_insertLock]; exact commonOk_rm hcommon)

/-- R55: with a LOCK byte among its prefixes the bytes of a form decode to #UD, whatever follows them. -/
theorem decode_encodeWithByte_lock {c : DecodeCtx} {i : Instr} {n : Nat} (hok : i.wellFormed c = true)
    (hlen : (encode i).length ≤ 14) (hn : n ≤ (Machine.prefixesOf i).length) :
    ∀ rest, decode c (Machine.encodeWithByte i n 0xF0 ++ rest) = .ud := by
  cases i with
  | cvtdq2pd p | cvtdq2ps p | cvtpd2dq p | cvtpd2pi p | cvtpd2ps p => exact decode_lock_legacy rfl hok hlen hn
  | vcvtdq2pd128Vex3 p | vcvtdq2pd256Vex3 p | vcvtdq2ps128Vex3 p | vcvtdq2ps256Vex3 p | vcvtpd2dq128Vex3 p
  | vcvtpd2dq256Vex3 p | vcvtpd2ps128Vex3 p | vcvtpd2ps256Vex3 p => exact decode_lock_vex3 rfl hok hlen hn
  | vcvtdq2pd128Vex2 p | vcvtdq2pd256Vex2 p | vcvtdq2ps128Vex2 p | vcvtdq2ps256Vex2 p | vcvtpd2dq128Vex2 p
  | vcvtpd2dq256Vex2 p | vcvtpd2ps128Vex2 p | vcvtpd2ps256Vex2 p => exact decode_lock_vex2 rfl hok hlen hn
  | vcvtdq2pd128Evex p | vcvtdq2pd256Evex p | vcvtdq2pd512Evex p => exact decode_lock_evex hok hlen hn

end Sys2Proof

namespace Sys2Proof.Machine

/-! ### The bytes a step decodes (R40, R41) -/

theorem fetchStop_eq_none_of_fetchable {s : State} {i : Nat} {b : Byte} (hrange : FetchInRange s i)
    (hpage : (s.translate .fetch (fetchAddress s i)).toOption.isSome = true)
    (hread : s.mem.read (fetchAddress s i).toNat = some b) : fetchStop s i = none := by
  rw [fetchStop_eq, if_pos hrange]
  rcases htr : s.translate .fetch (fetchAddress s i) with code | page
  · rw [htr] at hpage; cases hpage
  · simp [hread]

/-- The fetch yields the bytes that can be had at its offset, then whatever it can have after them. -/
theorem fetchFrom_of_fetchable {s : State} {bs : List Byte} {n i : Nat} (hlen : bs.length ≤ n)
    (h : ∀ j (hj : j < bs.length), fetchStop s (i + j) = none ∧ s.mem.read (s.fetchLinear (i + j)).toNat = some bs[j]) :
    ∃ rest, (fetchFrom s n i).1 = bs ++ rest := by
  induction bs generalizing n i with
  | nil => exact ⟨_, rfl⟩
  | cons b bs ih =>
    cases n with
    | zero => exact absurd hlen (Nat.not_succ_le_zero _)
    | succ n =>
      obtain ⟨hstop, hread⟩ : fetchStop s i = none ∧ s.mem.read (s.fetchLinear i).toNat = some b :=
        h 0 (Nat.succ_pos _)
      obtain ⟨rest, hrest⟩ := ih (n := n) (i := i + 1) (Nat.le_of_succ_le_succ hlen) fun j hj => by
        rw [Nat.add_assoc, Nat.add_comm 1 j]
        exact h (j + 1) (Nat.succ_lt_succ hj)
      exact ⟨rest, by simp [fetchFrom, hstop, hread, hrest]⟩

theorem FetchesBytes.fetchFrom_eq {s : State} {bs : List Byte} (h : FetchesBytes s bs) (hlen : bs.length ≤ 15) :
    ∃ rest, (fetchFrom s 15 0).1 = bs ++ rest := by
  refine fetchFrom_of_fetchable hlen fun j hj => ?_
  obtain ⟨hrange, hpage, hread⟩ := h j hj
  rw [Nat.zero_add, fetchLinear_eq]
  exact ⟨fetchStop_eq_none_of_fetchable hrange hpage hread, hread⟩

/-- A step whose bytes decode to #UD raises it with the state unchanged (R190). -/
theorem step_of_decode_ud {s : State} (hend : s.textEnd ≠ some s.rip) (hmxcsr : s.mxcsr.extractLsb' 16 16 = 0)
    (h : decode s.decodeCtx (fetchFrom s 15 0).1 = .ud) : step s = .fault (.exception .ud s) := by
  rw [step, if_neg (mt runEnded_iff.1 hend), if_neg (not_not.2 hmxcsr), h]
  rfl

theorem encodeWithByte_length (i : Instr) (n : Nat) (b : Byte) : (encodeWithByte i n b).length = (encode i).length + 1 := by
  simp only [encodeWithByte, List.length_append, List.length_cons, List.length_take, List.length_drop]
  omega

/-- Settles O6: the step decodes the bytes with LOCK among the prefixes and what follows them, which is #UD. -/
theorem lockOnAnyFormRaisesUd : Obligations.LockOnAnyFormRaisesUd := by
  intro s i n hmxcsr hok hlen hn hend hbytes
  have hfits : (encodeWithByte i n 0xF0).length ≤ 15 := by rw [encodeWithByte_length]; omega
  obtain ⟨rest, hfetched⟩ := hbytes.fetchFrom_eq hfits
  exact step_of_decode_ud hend hmxcsr (hfetched ▸ decode_encodeWithByte_lock hok hlen hn rest)

end Sys2Proof.Machine
end

/-! Which exceptions a form and a step raise (R182, R187, R190). The checks before any operand are one call of `enter` for
every form; every other place where a form can stop is named once, and so are the exceptions of a step before its form runs. -/
section

namespace Sys2Proof.Machine

/-! ### The checks before any operand (R181, R182, R189) -/

/-- The column of R181 that a form's checks go by. -/
def gateOf (i : Instr) (s : State) : Gate :=
  match evexRowOf i with
  | some (p, row) => .evex ((evexLength p row s.cfg).needVl row)
  | none => if layoutOf i = .legacy then .legacy else .vex

theorem enter_gateOf_ok {i : Instr} {s : State} (h : EnabledFor i s) : enter (gateOf i s) s = .ok () := by
  unfold EnabledFor at h
  unfold gateOf
  rcases hrow : evexRowOf i with _ | ⟨p, row⟩
  · rw [hrow] at h
    dsimp only at h ⊢
    split at h
    next hlegacy => rw [if_pos hlegacy]; exact enter_legacy_ok h
    next hvex => rw [if_neg hvex]; exact enter_vex_ok h
  · rw [hrow] at h
    exact enter_evex_ok h

theorem dq2pd_of_enter_error {g : Gate} {s : State} {e : Stop} (h : enter g s = .error e) (u : Bool) (ne : Nat)
    (o : Operands) : dq2pd g u ne o s = .error e := by
  rw [dq2pd, h]

theorem dq2pdEvex_of_enter_error {row : Nat} {p : EvexOp} {s : State} {e : Stop} (hlen : evexLength p row s.cfg ≠ .ud)
    (h : enter (.evex ((evexLength p row s.cfg).needVl row)) s = .error e) : dq2pdEvex row p s = .error e := by
  rw [dq2pdEvex, if_neg hlen, h]

theorem convertToDwords_of_enter_error {g : Gate} {s : State} {e : Stop} (h : enter g s = .error e) (u al : Bool)
    (bytes ne : Nat) (conv : SrcVec → Nat → Conv 32) (o : Operands) :
    convertToDwords g u al bytes ne conv o s = .error e := by
  rw [convertToDwords, h]

theorem pd2pi_of_enter_error {p : LegacyOp} {s : State} {e : Stop} (h : enter .legacy s = .error e) :
    pd2pi p s = .error e := by
  rw [pd2pi, h]

/-- A form whose checks stop it ends so, whatever its operands are. -/
theorem exec_of_enter_error {i : Instr} {s : State} {e : Stop}
    (hlen : ∀ p row, evexRowOf i = some (p, row) → evexLength p row s.cfg ≠ .ud)
    (h : enter (gateOf i s) s = .error e) : exec i s = outcome (.error e) := by
  cases i with
  | cvtdq2pd p | vcvtdq2pd128Vex3 p | vcvtdq2pd128Vex2 p | vcvtdq2pd256Vex3 p | vcvtdq2pd256Vex2 p =>
    exact congrArg outcome (dq2pd_of_enter_error h _ _ _)
  | vcvtdq2pd128Evex p | vcvtdq2pd256Evex p | vcvtdq2pd512Evex p =>
    exact congrArg outcome (dq2pdEvex_of_enter_error (hlen _ _ rfl) h)
  | cvtpd2pi p => exact congrArg outcome (pd2pi_of_enter_error h)
  | cvtdq2ps p | vcvtdq2ps128Vex3 p | vcvtdq2ps128Vex2 p | vcvtdq2ps256Vex3 p | vcvtdq2ps256Vex2 p
  | cvtpd2dq p | vcvtpd2dq128Vex3 p | vcvtpd2dq128Vex2 p | vcvtpd2dq256Vex3 p | vcvtpd2dq256Vex2 p
  | cvtpd2ps p | vcvtpd2ps128Vex3 p | vcvtpd2ps128Vex2 p | vcvtpd2ps256Vex3 p | vcvtpd2ps256Vex2 p =>
    exact congrArg outcome (convertToDwords_of_enter_error h _ _ _ _ _ _)

theorem enter_of_gateUd {g : Gate} {s : State} (h : s.gateUd g = true) : enter g s = .error (raise .ud s) := by
  rw [enter, if_pos h]

/-- CR0.TS cleared, as the operating system does at #NM (R182). -/
def State.clearTs (s : State) : State := { s with cr0 := s.cr0 &&& ~~~ 0x8#64 }

theorem State.clearTs_em (s : State) : s.clearTs.em = s.em := by
  have kept : (~~~ 0x8#64).getLsbD 2 = true := by decide
  rw [State.em, State.clearTs, BitVec.getLsbD_and, kept, Bool.and_true, State.em]

/-- No #UD cause of R181 looks at CR0.TS. -/
theorem State.clearTs_gateUd (s : State) (g : Gate) : s.clearTs.gateUd g = s.gateUd g := by
  cases g with
  | legacy => unfold State.gateUd; rw [State.clearTs_em]; rfl
  | vex => rfl
  | evex needVl => rfl

/-- R182: where CR0.TS is all that stops a form, the checks raise #NM. -/
theorem enter_eq_nm {g : Gate} {s : State} (hts : s.ts = true) (h : enter g s.clearTs = .ok ()) :
    enter g s = .error (raise .nm s) := by
  obtain ⟨hgate, hmode, -⟩ := enter_eq_ok.1 h
  rw [State.clearTs_gateUd] at hgate
  have hmode : admittedMode s.mode = true := hmode
  simp [enter, hgate, hmode, hts]

/-- Settles O41: #NM and CVTPD2PI's #UD both come from the checks that every form begins with. -/
theorem deviceNotAvailable : Obligations.DeviceNotAvailable := by
  constructor
  · intro i s hts henabled hlen
    exact exec_of_enter_error hlen (enter_eq_nm hts (enter_gateOf_ok (s := s.clearTs) henabled))
  · intro p s hem
    have hgate : s.gateUd .legacy = true := by simp [State.gateUd, State.em, hem]
    exact exec_of_enter_error (i := .cvtpd2pi p) nofun (enter_of_gateUd hgate)

/-! ### CR2 at an exception (R184, R190) -/

/-- CR2 as `x` leaves it: the faulting address after a page fault, unchanged after any other exception. -/
def Cr2AtException (s : State) (x : Exn) (u : State) : Prop :=
  match x with
  | .pf la _ => u.cr2 = la
  | _ => u.cr2 = s.cr2

/-- The stop is `x`, raised in a state that has the CR2 of `s`. -/
def RaisedFrom (s : State) (x : Exn) (e : Stop) : Prop :=
  ∃ v : State, e = raise x v ∧ v.cr2 = s.cr2

theorem raisedFrom_raise (s : State) (x : Exn) : RaisedFrom s x (raise x s) := ⟨s, rfl, rfl⟩

theorem RaisedFrom.exception {s u : State} {x y : Exn} (h : RaisedFrom s x (.fault (.exception y u))) :
    y = x ∧ Cr2AtException s x u := by
  obtain ⟨v, hraise, hcr2⟩ := h
  cases x with
  | pf la code => cases hraise; exact ⟨rfl, rfl⟩
  | ud | nm | ss | gp | mf | ac | xm => cases hraise; exact ⟨rfl, hcr2⟩

/-! ### The exceptions of each operation -/

/-- The memory exceptions (R183 to R185), one of which a failed check of an access raises. -/
theorem accessCheck_raisedFrom {k : Access} {acc : MemAccess} {s : State} {e : Stop}
    (h : accessCheck k acc s = some e) :
    ∃ x, RaisedFrom s x e ∧ (x = segmentExn acc.seg ∨ x = .gp ∨ x = .ac ∨ ∃ la code, x = .pf la code) := by
  unfold accessCheck at h
  split at h
  next => cases h; exact ⟨_, raisedFrom_raise s _, .inl rfl⟩
  next =>
    split at h
    next => cases h; exact ⟨_, raisedFrom_raise s _, .inr (.inl rfl)⟩
    next =>
      split at h
      next => cases h
      next => cases h; exact ⟨_, raisedFrom_raise s _, .inr (.inr (.inl rfl))⟩
      next => cases h; exact ⟨_, raisedFrom_raise s _, .inr (.inr (.inr ⟨_, _, rfl⟩))⟩
      next =>
        cases h
        split
        next => exact ⟨_, ⟨s.drawn, rfl, rfl⟩, .inr (.inr (.inl rfl))⟩
        next => exact ⟨_, ⟨s.drawn, rfl, rfl⟩, .inr (.inr (.inr ⟨_, _, rfl⟩))⟩

theorem memRead_exception {acc : MemAccess} {s u : State} {x : Exn}
    (h : memRead acc s = .error (.fault (.exception x u))) : x ≠ .mf ∧ Cr2AtException s x u := by
  rcases memRead_error h with hcheck | ⟨la, hstuck⟩
  · obtain ⟨y, hraised, hy⟩ := accessCheck_raisedFrom hcheck
    obtain ⟨rfl, hcr2⟩ := hraised.exception
    refine ⟨?_, hcr2⟩
    rcases hy with rfl | rfl | rfl | ⟨la, code, rfl⟩
    · unfold segmentExn; split <;> decide
    · decide
    · decide
    · nofun
  · cases hstuck

theorem enter_exception {g : Gate} {s u : State} {x : Exn} (h : enter g s = .error (.fault (.exception x u))) :
    (x = .ud ∨ x = .nm) ∧ u = s := by
  rcases enter_error h with ⟨hud, -⟩ | ⟨hmode, -⟩ | ⟨hnm, -⟩
  · cases hud; exact ⟨.inl rfl, rfl⟩
  · cases hmode
  · cases hnm; exact ⟨.inr rfl, rfl⟩

theorem simdRespond_exception {c : Cond} {s u : State} {x : Exn}
    (h : simdRespond c s = .error (.fault (.exception x u))) : (x = .xm ∨ x = .ud) ∧ u.cr2 = s.cr2 := by
  obtain ⟨-, hraise⟩ := simdRespond_error h
  have hcr2 : (s.atSimdFault c).cr2 = s.cr2 := by rw [(atSimdFault_frame s c).1]
  split at hraise
  · cases hraise; exact ⟨.inl rfl, hcr2⟩
  · cases hraise; exact ⟨.inr rfl, hcr2⟩

/-- R143: the check raises #MF alone, for an exception already pending and with CR0.NE = 1. -/
theorem checkX87_exception {s u : State} {x : Exn} (h : checkX87 s = .error (.fault (.exception x u))) :
    x = .mf ∧ u = s ∧ s.x87.status.getLsbD 7 = true ∧ s.cr0.getLsbD 5 = true := by
  unfold checkX87 at h
  split at h
  next hpending =>
    split at h
    next hne => cases h; exact ⟨rfl, rfl, hpending, hne⟩
    next => cases h
  next => cases h

/-! ### Where a form can stop -/

/-- The operation that stops the form `i` begun in `s`. -/
inductive StopSource (i : Instr) (s : State) : Stop → Prop where
  /-- The checks before any operand (R181, R182, D2). -/
  | enter {g : Gate} {e : Stop} (h : enter g s = .error e) : StopSource i s e
  /-- A vector length that is #UD (R76, D14). -/
  | lengthUd : StopSource i s (raise .ud s)
  /-- Embedded rounding under `evex_b_reg = refuse` (R76, D14). -/
  | embeddedRounding : StopSource i s (.refused .evexBWithRegister)
  /-- CVTPD2PI's check for a pending x87 exception (R143). -/
  | pendingX87 {p : LegacyOp} {e : Stop} (hi : i = .cvtpd2pi p) (h : checkX87 s = .error e) : StopSource i s e
  /-- The read of a memory operand (R42). -/
  | memRead {acc : MemAccess} {e : Stop} (h : memRead acc s = .error e) : StopSource i s e
  /-- The response to an unmasked SIMD condition (R166, R186). -/
  | simd {c : Cond} {e : Stop} (h : simdRespond c s = .error e) : StopSource i s e

theorem readSource_stopSource (i : Instr) {src : Src} {n : Nat} {al : Bool} {s : State} {e : Stop}
    (h : readSource src n al s = .error e) : StopSource i s e := by
  cases src with
  | reg r => cases h
  | mem seg ea => exact .memRead h

theorem evexSource_stopSource (i : Instr) {p : EvexOp} {kl : Nat} {src : Src} {s : State} {e : Stop}
    (h : evexSource p kl src s = .error e) : StopSource i s e := by
  unfold evexSource at h
  split at h
  next => cases h
  next =>
    split at h
    next =>
      split at h
      next hread => cases h; exact .memRead hread
      next => cases h
    next =>
      split at h
      next hread => cases h; exact .memRead hread
      next => cases h

theorem dq2pd_stopSource (i : Instr) {g : Gate} {u : Bool} {ne : Nat} {o : Operands} {s : State} {e : Stop}
    (h : dq2pd g u ne o s = .error e) : StopSource i s e := by
  unfold dq2pd at h
  split at h
  next henter => cases h; exact .enter henter
  next =>
    split at h
    next hread => cases h; exact readSource_stopSource i hread
    next => cases h

theorem dq2pdEvex_stopSource (i : Instr) {row : Nat} {p : EvexOp} {s : State} {e : Stop}
    (h : dq2pdEvex row p s = .error e) : StopSource i s e := by
  unfold dq2pdEvex at h
  split at h
  next => cases h; exact .lengthUd
  next =>
    split at h
    next henter => cases h; exact .enter henter
    next =>
      split at h
      next =>
        dsimp only at h
        split at h
        next hsource => cases h; exact evexSource_stopSource i hsource
        next => cases h
      next => cases h; exact .embeddedRounding

theorem convertToDwords_stopSource (i : Instr) {g : Gate} {u al : Bool} {bytes ne : Nat}
    {conv : SrcVec → Nat → Conv 32} {o : Operands} {s : State} {e : Stop}
    (h : convertToDwords g u al bytes ne conv o s = .error e) : StopSource i s e := by
  unfold convertToDwords at h
  split at h
  next henter => cases h; exact .enter henter
  next =>
    split at h
    next hread => cases h; exact readSource_stopSource i hread
    next =>
      split at h
      next hsimd => cases h; exact .simd hsimd
      next => cases h

theorem pd2pi_stopSource {p : LegacyOp} {s : State} {e : Stop} (h : pd2pi p s = .error e) :
    StopSource (.cvtpd2pi p) s e := by
  unfold pd2pi at h
  split at h
  next henter => cases h; exact .enter henter
  next =>
    split at h
    next hx87 => cases h; exact .pendingX87 rfl hx87
    next =>
      split at h
      next hread => cases h; exact readSource_stopSource _ hread
      next =>
        split at h
        next hsimd => cases h; exact .simd hsimd
        next => cases h

/-- Each form runs one of the four courses. -/
theorem exec_stopSource {i : Instr} {s : State} {f : Fault} (h : exec i s = .fault f) : StopSource i s (.fault f) := by
  cases i with
  | cvtdq2pd p | vcvtdq2pd128Vex3 p | vcvtdq2pd128Vex2 p | vcvtdq2pd256Vex3 p | vcvtdq2pd256Vex2 p =>
    exact dq2pd_stopSource _ (outcome_eq_fault.1 h)
  | vcvtdq2pd128Evex p | vcvtdq2pd256Evex p | vcvtdq2pd512Evex p =>
    exact dq2pdEvex_stopSource _ (outcome_eq_fault.1 h)
  | cvtpd2pi p => exact pd2pi_stopSource (outcome_eq_fault.1 h)
  | cvtdq2ps p | vcvtdq2ps128Vex3 p | vcvtdq2ps128Vex2 p | vcvtdq2ps256Vex3 p | vcvtdq2ps256Vex2 p
  | cvtpd2dq p | vcvtpd2dq128Vex3 p | vcvtpd2dq128Vex2 p | vcvtpd2dq256Vex3 p | vcvtpd2dq256Vex2 p
  | cvtpd2ps p | vcvtpd2ps128Vex3 p | vcvtpd2ps128Vex2 p | vcvtpd2ps256Vex3 p | vcvtpd2ps256Vex2 p =>
    exact convertToDwords_stopSource _ (outcome_eq_fault.1 h)

/-- Settles O43: of the places where a form can stop, only CVTPD2PI's check for a pending x87 exception raises #MF. -/
theorem mfOnlyFromCvtpd2pi : Obligations.MfOnlyFromCvtpd2pi := by
  intro i s u h
  cases exec_stopSource h with
  | enter henter =>
    obtain ⟨hx | hx, -⟩ := enter_exception henter
    · cases hx
    · cases hx
  | pendingX87 hi hx87 =>
    obtain ⟨-, -, hpending, hne⟩ := checkX87_exception hx87
    exact ⟨⟨_, hi⟩, hpending, hne⟩
  | memRead hread => exact absurd rfl (memRead_exception hread).1
  | simd hsimd =>
    obtain ⟨hx | hx, -⟩ := simdRespond_exception hsimd
    · cases hx
    · cases hx

/-! ### Precision (R190) -/

theorem exec_exception_cr2 {i : Instr} {s u : State} {x : Exn} (h : exec i s = .fault (.exception x u)) :
    Cr2AtException s x u := by
  cases exec_stopSource h with
  | enter henter =>
    obtain ⟨rfl | rfl, rfl⟩ := enter_exception henter
    · rfl
    · rfl
  | lengthUd => rfl
  | pendingX87 _ hx87 =>
    obtain ⟨rfl, rfl, -, -⟩ := checkX87_exception hx87
    rfl
  | memRead hread => exact (memRead_exception hread).2
  | simd hsimd =>
    obtain ⟨rfl | rfl, hcr2⟩ := simdRespond_exception hsimd
    · exact hcr2
    · exact hcr2

/-- What R190 asks of the state `u` at an exception `x` of a step from `s`. -/
structure PreciseAt (s : State) (x : Exn) (u : State) : Prop where
  frame : ∃ allow, ExnFrame allow s x u
  cr2 : Cr2AtException s x u

theorem exec_preciseAt {i : Instr} {s u : State} {x : Exn} (h : exec i s = .fault (.exception x u)) :
    PreciseAt s x u :=
  ⟨⟨maySet i, exec_eq_exception_frame h⟩, exec_exception_cr2 h⟩

theorem raise_preciseAt {s u : State} {x y : Exn} (h : raise y s = .fault (.exception x u)) : PreciseAt s x u := by
  obtain ⟨rfl, hcr2⟩ := RaisedFrom.exception ⟨s, h.symm, rfl⟩
  exact ⟨⟨0, stopFrame_raise 0 s x x u h⟩, hcr2⟩

theorem fetchStop_raise {s u : State} {i : Nat} {x : Exn} (h : fetchStop s i = some (.fault (.exception x u))) :
    ∃ y, raise y s = .fault (.exception x u) := by
  rw [fetchStop_eq] at h
  split at h
  next =>
    split at h
    next => exact ⟨_, Option.some.inj h⟩
    next =>
      split at h
      next => cases h
      next => cases h
  next =>
    split at h
    next => exact ⟨_, Option.some.inj h⟩
    next => cases h

/-- Fetched bytes end early where one of them cannot be had. -/
theorem fetchFrom_stop {s : State} {n i : Nat} {e : Stop} (h : (fetchFrom s n i).2 = some e) :
    ∃ j, fetchStop s j = some e := by
  induction n generalizing i with
  | zero => cases h
  | succ n ih =>
    unfold fetchFrom at h
    split at h
    next hstop => cases h; exact ⟨i, hstop⟩
    next => exact ih h

theorem fetchOutcome_raise {s u : State} {n i : Nat} {x : Exn}
    (h : fetchOutcome s (fetchFrom s n i).2 = .fault (.exception x u)) :
    ∃ y, raise y s = .fault (.exception x u) := by
  rcases hend : (fetchFrom s n i).2 with _ | e
  · rw [hend] at h
    exact ⟨.gp, Except.error.inj (outcome_eq_fault.1 h)⟩
  · rw [hend] at h
    obtain ⟨j, hstop⟩ := fetchFrom_stop hend
    rw [Except.error.inj (outcome_eq_fault.1 h)] at hstop
    exact fetchStop_raise hstop

/-- An exception of a step is raised by its fetch or its decoding in the state before, or by the form it runs. -/
theorem step_exception {s u : State} {x : Exn} (h : step s = .fault (.exception x u)) :
    (∃ y, raise y s = .fault (.exception x u)) ∨ ∃ i, exec i s = .fault (.exception x u) := by
  unfold step at h
  split at h
  next => cases h
  next =>
    split at h
    next => cases h
    next =>
      cases hdecoded : decode s.decodeCtx (fetchFrom s 15 0).1 with
      | instr i => rw [hdecoded] at h; exact .inr ⟨i, h⟩
      | ud => rw [hdecoded] at h; exact .inl ⟨.ud, Except.error.inj (outcome_eq_fault.1 h)⟩
      | tooLong => rw [hdecoded] at h; exact .inl ⟨.gp, Except.error.inj (outcome_eq_fault.1 h)⟩
      | refused r => rw [hdecoded] at h; cases h
      | truncated => rw [hdecoded] at h; exact .inl (fetchOutcome_raise h)

theorem step_preciseAt {s u : State} {x : Exn} (h : step s = .fault (.exception x u)) : PreciseAt s x u := by
  rcases step_exception h with ⟨y, hraise⟩ | ⟨i, hexec⟩
  · exact raise_preciseAt hraise
  · exact exec_preciseAt hexec

/-- Settles O39: a step's exception is raised in the state before it, or leaves what its form's frame and CR2's rule say. -/
theorem exceptionsArePrecise : Obligations.ExceptionsArePrecise := by
  intro s u x h
  obtain ⟨⟨allow, frame⟩, hcr2⟩ := step_preciseAt h
  obtain ⟨f, -, hmxcsr⟩ := frame.flags
  exact ⟨frame.fields, ⟨f, hmxcsr⟩, frame.cause, hcr2⟩

end Sys2Proof.Machine
end

/-! Reading an encoding back, and what the decoder accepts (R60 to R84). Each layout's bytes, with any value of the fields the
decoder checks, decode to one answer, given here once per layout; a proper part of them decodes to "more bytes are needed";
and what each parser accepts is written back by the encoder. -/
section

namespace Sys2Proof

open Machine

/-! ### The payload bytes of VEX and EVEX with any checked fields (R69, R70, R72) -/

/-- The byte after C4H with opcode map `map`. -/
def vex3P0With (map : BitVec 5) (p : Vex3Op) : Byte :=
  BitVec.ofBool (!p.r) ++ BitVec.ofBool (!p.x) ++ BitVec.ofBool (!p.b) ++ map

/-- The last payload byte of VEX with stored vvvv `v`; `e` is its top bit. -/
def vexPWith (e : Bool) (v : BitVec 4) (l : Bool) (pp : Pp) : Byte :=
  BitVec.ofBool e ++ v ++ BitVec.ofBool l ++ pp.field

/-- The byte after 62H with P0[3:2] = `reserved`. -/
def evexP0With (reserved : BitVec 2) (p : EvexOp) : Byte :=
  BitVec.ofBool (!p.r) ++ BitVec.ofBool (!p.x) ++ BitVec.ofBool (!p.b) ++ BitVec.ofBool (!p.r4) ++ reserved ++ 0b01#2

/-- The second EVEX payload byte with stored vvvv `v` and P1[2] = `fixed`. -/
def evexP1With (v : BitVec 4) (fixed : Bool) : Byte := 0#1 ++ v ++ BitVec.ofBool fixed ++ 0b10#2

/-- The last EVEX payload byte with stored V' = `v'`. -/
def evexP2With (v' : Bool) (p : EvexOp) : Byte :=
  BitVec.ofBool p.z ++ p.ll ++ BitVec.ofBool p.bc ++ BitVec.ofBool v' ++ p.aaa

theorem vex3BytesWith_eq (map : BitVec 5) (v : BitVec 4) (pp : Pp) (l : Bool) (opc : Byte) (p : Vex3Op) :
    vex3BytesWith map v pp l opc p
      = p.pre.map Pre.byte ++ 0xC4 :: vex3P0With map p :: vexPWith p.w v l pp :: opc :: encodeModRM p.reg p.rm := rfl

theorem vex2BytesWith_eq (v : BitVec 4) (pp : Pp) (l : Bool) (opc : Byte) (p : Vex2Op) :
    vex2BytesWith v pp l opc p
      = p.pre.map Pre.byte ++ 0xC5 :: vexPWith (!p.r) v l pp :: opc :: encodeModRM p.reg p.rm := rfl

theorem evexBytesWith_eq (v : BitVec 4) (v' : Bool) (reserved : BitVec 2) (fixed : Bool) (p : EvexOp) :
    evexBytesWith v v' reserved fixed p
      = p.pre.map Pre.byte ++ 0x62 :: evexP0With reserved p :: evexP1With v fixed :: evexP2With v' p :: 0xE6
        :: encodeModRM p.reg p.rm := rfl

theorem encodeVex3_eq_bytesWith (pp : Pp) (l : Bool) (opc : Byte) (p : Vex3Op) :
    encodeVex3 pp l opc p = vex3BytesWith 1 15 pp l opc p := rfl

theorem encodeVex2_eq_bytesWith (pp : Pp) (l : Bool) (opc : Byte) (p : Vex2Op) :
    encodeVex2 pp l opc p = vex2BytesWith 15 pp l opc p := rfl

theorem encodeEvex_eq_bytesWith (p : EvexOp) : encodeEvex p = evexBytesWith 15 true 0 true p := by
  have first (r x b r4 : Bool) : BitVec.ofBool r ++ BitVec.ofBool x ++ BitVec.ofBool b ++ BitVec.ofBool r4 ++ 0b0001#4
      = BitVec.ofBool r ++ BitVec.ofBool x ++ BitVec.ofBool b ++ BitVec.ofBool r4 ++ 0#2 ++ 0b01#2 := by
    revert r x b r4; decide
  rw [encodeEvex, evexBytesWith, first]
  rfl

theorem vex3P0With_fields (map : BitVec 5) (p : Vex3Op) :
    (vex3P0With map p).extractLsb' 0 5 = map ∧ (vex3P0With map p).getLsbD 7 = !p.r
      ∧ (vex3P0With map p).getLsbD 6 = !p.x ∧ (vex3P0With map p).getLsbD 5 = !p.b := by
  have fields : ∀ (r x b : Bool) (m : BitVec 5),
      (BitVec.ofBool r ++ BitVec.ofBool x ++ BitVec.ofBool b ++ m).extractLsb' 0 5 = m
        ∧ (BitVec.ofBool r ++ BitVec.ofBool x ++ BitVec.ofBool b ++ m).getLsbD 7 = r
        ∧ (BitVec.ofBool r ++ BitVec.ofBool x ++ BitVec.ofBool b ++ m).getLsbD 6 = x
        ∧ (BitVec.ofBool r ++ BitVec.ofBool x ++ BitVec.ofBool b ++ m).getLsbD 5 = b := by decide
  exact fields _ _ _ _

theorem vexPWith_fields (e : Bool) (v : BitVec 4) (l : Bool) (pp : Pp) :
    (vexPWith e v l pp).extractLsb' 3 4 = v ∧ (vexPWith e v l pp).getLsbD 7 = e ∧ (vexPWith e v l pp).getLsbD 2 = l
      ∧ Pp.ofField ((vexPWith e v l pp).extractLsb' 0 2) = pp := by
  have fields : ∀ (e l : Bool) (v : BitVec 4) (f : BitVec 2),
      (BitVec.ofBool e ++ v ++ BitVec.ofBool l ++ f).extractLsb' 3 4 = v
        ∧ (BitVec.ofBool e ++ v ++ BitVec.ofBool l ++ f).getLsbD 7 = e
        ∧ (BitVec.ofBool e ++ v ++ BitVec.ofBool l ++ f).getLsbD 2 = l
        ∧ (BitVec.ofBool e ++ v ++ BitVec.ofBool l ++ f).extractLsb' 0 2 = f := by decide
  obtain ⟨hv, he, hl, hf⟩ := fields e l v pp.field
  refine ⟨hv, he, hl, ?_⟩
  rw [vexPWith, hf]
  cases pp <;> rfl

theorem vexPWith_six (e : Bool) (v : BitVec 4) (l : Bool) (pp : Pp) :
    (vexPWith e v l pp).getLsbD 6 = v.getLsbD 3 := by
  have six : ∀ (e l : Bool) (v : BitVec 4) (f : BitVec 2),
      (BitVec.ofBool e ++ v ++ BitVec.ofBool l ++ f).getLsbD 6 = v.getLsbD 3 := by decide
  exact six _ _ _ _

theorem evexP0With_fields (reserved : BitVec 2) (p : EvexOp) :
    (evexP0With reserved p).extractLsb' 0 2 = 1#2 ∧ (evexP0With reserved p).extractLsb' 2 2 = reserved
      ∧ (evexP0With reserved p).getLsbD 7 = !p.r ∧ (evexP0With reserved p).getLsbD 6 = !p.x
      ∧ (evexP0With reserved p).getLsbD 5 = !p.b ∧ (evexP0With reserved p).getLsbD 4 = !p.r4 := by
  have fields : ∀ (r x b r4 : Bool) (f : BitVec 2),
      let w := BitVec.ofBool r ++ BitVec.ofBool x ++ BitVec.ofBool b ++ BitVec.ofBool r4 ++ f ++ 0b01#2
      w.extractLsb' 0 2 = 1#2 ∧ w.extractLsb' 2 2 = f ∧ w.getLsbD 7 = r ∧ w.getLsbD 6 = x ∧ w.getLsbD 5 = b
        ∧ w.getLsbD 4 = r4 := by decide
  exact fields _ _ _ _ _

theorem evexP1With_fields (v : BitVec 4) (fixed : Bool) :
    (evexP1With v fixed).extractLsb' 3 4 = v ∧ (evexP1With v fixed).extractLsb' 0 2 = 2#2
      ∧ (evexP1With v fixed).getLsbD 2 = fixed ∧ (evexP1With v fixed).getLsbD 7 = false := by
  revert v fixed; decide

theorem evexP2With_fields (v' : Bool) (p : EvexOp) :
    (evexP2With v' p).getLsbD 7 = p.z ∧ (evexP2With v' p).extractLsb' 5 2 = p.ll ∧ (evexP2With v' p).getLsbD 4 = p.bc
      ∧ (evexP2With v' p).getLsbD 3 = v' ∧ (evexP2With v' p).extractLsb' 0 3 = p.aaa := by
  have fields : ∀ (z bc v' : Bool) (ll : BitVec 2) (aaa : BitVec 3),
      let w := BitVec.ofBool z ++ ll ++ BitVec.ofBool bc ++ BitVec.ofBool v' ++ aaa
      w.getLsbD 7 = z ∧ w.extractLsb' 5 2 = ll ∧ w.getLsbD 4 = bc ∧ w.getLsbD 3 = v' ∧ w.extractLsb' 0 3 = aaa := by
    decide
  exact fields _ _ _ _ _

/-- Two neighbouring bits of a payload byte, all ones or not (R84, U5). -/
theorem extractLsb'_six_two_eq_three (b : Byte) : b.extractLsb' 6 2 = 3 ↔ b.getLsbD 7 = true ∧ b.getLsbD 6 = true := by
  revert b; decide

theorem extractLsb'_four_two_eq_three (b : Byte) : b.extractLsb' 4 2 = 3 ↔ b.getLsbD 5 = true ∧ b.getLsbD 4 = true := by
  revert b; decide

/-- The bytes after a VEX or EVEX lead byte are no LES, LDS or BOUND (R84): `r` and `x` stand for the stored bits. -/
theorem not_vexless_iff {c : DecodeCtx} {b : Byte} {r x : Bool} (hr : b.getLsbD 7 = !r) (hx : b.getLsbD 6 = !x) :
    (c.mode ≠ .mode64 ∧ b.extractLsb' 6 2 ≠ 3) ↔ ¬(c.mode = .mode64 ∨ r = false ∧ x = false) := by
  rw [Ne, Ne, extractLsb'_six_two_eq_three, hr, hx]
  cases r <;> cases x <;> simp

end Sys2Proof
end
section

namespace Sys2Proof

open Machine

/-! ### What each layout decodes to (R60 to R82) -/

/-- The bytes of a three-byte VEX form that are no LES: in Mode64, or with the stored R and X of 1 (R84). -/
abbrev Vex3Op.Recognised (c : DecodeCtx) (p : Vex3Op) : Prop := c.mode = .mode64 ∨ p.r = false ∧ p.x = false

theorem decodeVex3_bytes {c : DecodeCtx} {p : Vex3Op} (v : BitVec 4) {pp : Pp} {l : Bool} {opc : Byte}
    {row : Vex3Op → Instr} (rest : List Byte) (hvex : p.Recognised c) (hrow : vex3Row pp l opc = some row)
    (hrm : p.rm.ok (addrSize c.mode p.pre) = true) :
    decodeVex3 c p.pre (vex3P0With 1 p :: vexPWith p.w v l pp :: opc :: (encodeModRM p.reg p.rm ++ rest))
      = if extensionRefused c.mode ∧ v = 7 then .refused .vexVvvvOutsideMode64
        else finishVex c p.pre (v == 15) (addr16Refused c p.rm) (row p) := by
  obtain ⟨hmap, hr, hx, hb⟩ := vex3P0With_fields 1 p
  obtain ⟨hv, hw, hl, hpp⟩ := vexPWith_fields p.w v l pp
  simp only [decodeVex3, not_vexless_iff hr hx, not_not.2 hvex, if_false, hmap, hpp, hl, hrow,
    parseModRM_encodeModRM p.reg rest hrm, hv, hr, hx, hb, hw, Bool.not_not, ne_eq, not_true_eq_false]

theorem decodeVex3_other_map {c : DecodeCtx} {p : Vex3Op} {map : BitVec 5} (v : BitVec 4) (pp : Pp) (l : Bool) (opc : Byte)
    (rest : List Byte) (hvex : p.Recognised c) (hmap : map ≠ 1) (hrm : p.rm.ok (addrSize c.mode p.pre) = true) :
    decodeVex3 c p.pre (vex3P0With map p :: vexPWith p.w v l pp :: opc :: (encodeModRM p.reg p.rm ++ rest))
      = if map = 2 ∨ map = 3 then .refused .otherMap else .ud := by
  obtain ⟨hm, hr, hx, hb⟩ := vex3P0With_fields map p
  simp only [decodeVex3, not_vexless_iff hr hx, not_not.2 hvex, if_false, hm, ne_eq, hmap, not_false_eq_true, if_true,
    otherVexMap, parseModRM_encodeModRM p.reg rest hrm]

theorem decodeVex2_bytes {c : DecodeCtx} {p : Vex2Op} {v : BitVec 4} {pp : Pp} {l : Bool} {opc : Byte}
    {row : Vex2Op → Instr} (rest : List Byte) (hvex : c.mode = .mode64 ∨ p.r = false ∧ v.getLsbD 3 = true)
    (hrow : vex2Row pp l opc = some row) (hrm : p.rm.ok (addrSize c.mode p.pre) = true) :
    decodeVex2 c p.pre (vexPWith (!p.r) v l pp :: opc :: (encodeModRM p.reg p.rm ++ rest))
      = finishVex c p.pre (v == 15) (addr16Refused c p.rm) (row p) := by
  obtain ⟨hv, hr, hl, hpp⟩ := vexPWith_fields (!p.r) v l pp
  have hx := vexPWith_six (!p.r) v l pp
  rw [← Bool.not_not (v.getLsbD 3)] at hx
  have hvex' : ¬¬(c.mode = .mode64 ∨ p.r = false ∧ (!v.getLsbD 3) = false) := by
    rw [Bool.not_eq_false']; exact not_not.2 hvex
  simp only [decodeVex2, not_vexless_iff hr hx, hvex', if_false, hpp, hl, hrow,
    parseModRM_encodeModRM p.reg rest hrm, hv, hr, Bool.not_not]

/-- In every other mode than Mode64 a stored R of 0, or a two-byte vvvv with its top bit clear, makes the bytes LDS (R84). -/
theorem decodeVex2_not_vex {c : DecodeCtx} {p : Vex2Op} {v : BitVec 4} (pp : Pp) (l : Bool) (bs : List Byte)
    (hmode : c.mode ≠ .mode64) (hv : v.getLsbD 3 = false) :
    decodeVex2 c p.pre (vexPWith (!p.r) v l pp :: bs) = .refused .notVexInThisMode := by
  have htop : (vexPWith (!p.r) v l pp).extractLsb' 6 2 ≠ 3 := by
    rw [Ne, extractLsb'_six_two_eq_three, vexPWith_six, hv]; simp
  simp only [decodeVex2, ne_eq, hmode, htop, not_false_eq_true, and_self, if_true]

/-- The bytes of an EVEX form that are no BOUND: in Mode64, or with the stored R and X of 1 (R84). -/
abbrev EvexOp.Recognised (c : DecodeCtx) (p : EvexOp) : Prop := c.mode = .mode64 ∨ p.r = false ∧ p.x = false

/-- The reserved fields of an EVEX form are as R73 asks. -/
def evexFieldsOk (v : BitVec 4) (v' : Bool) (reserved : BitVec 2) (fixed : Bool) (p : EvexOp) : Bool :=
  v == 15 && v' && reserved == 0 && fixed && !(p.z && p.aaa == 0) && !(p.ll == 3 && !(p.bc && p.rm.isReg))

theorem evexBitsOk_bytes (v : BitVec 4) (v' : Bool) (reserved : BitVec 2) (fixed : Bool) (p : EvexOp) :
    evexBitsOk (evexP0With reserved p) (evexP1With v fixed) (evexP2With v' p) p.rm
      = evexFieldsOk v v' reserved fixed p := by
  obtain ⟨-, hres, -⟩ := evexP0With_fields reserved p
  obtain ⟨hv, -, hfixed, -⟩ := evexP1With_fields v fixed
  obtain ⟨hz, hll, hbc, hv', haaa⟩ := evexP2With_fields v' p
  rw [evexBitsOk, hres, hv, hfixed, hz, hll, hbc, hv', haaa, evexFieldsOk]

theorem decodeEvex_bytes {c : DecodeCtx} {p : EvexOp} (v : BitVec 4) (v' : Bool) (reserved : BitVec 2) (fixed : Bool)
    (rest : List Byte) (hevex : p.Recognised c) (hrm : p.rm.ok (addrSize c.mode p.pre) = true) :
    decodeEvex c p.pre (evexP0With reserved p :: evexP1With v fixed :: evexP2With v' p :: 0xE6
        :: (encodeModRM p.reg p.rm ++ rest))
      = if extensionRefused c.mode ∧ (p.b = true ∨ p.r4 = true ∨ v' = false) then .refused .evexBitsOutsideMode64
        else finishVex c p.pre (evexFieldsOk v v' reserved fixed p) (evexAddr16Refused c p.rm) (evexRow p.ll p) := by
  obtain ⟨hmap, -, hr, hx, hb, hr4⟩ := evexP0With_fields reserved p
  obtain ⟨-, hpp, -, hw⟩ := evexP1With_fields v fixed
  obtain ⟨hz, hll, hbc, hv', haaa⟩ := evexP2With_fields v' p
  have hext : ((evexP0With reserved p).extractLsb' 4 2 ≠ 3 ∨ (!v') = true) ↔ (p.b = true ∨ p.r4 = true ∨ v' = false) := by
    rw [Ne, extractLsb'_four_two_eq_three, hb, hr4]
    cases p.b <;> cases p.r4 <;> cases v' <;> decide
  simp only [decodeEvex, not_vexless_iff hr hx, not_not.2 hevex, if_false, hmap, hpp, hw, Bool.false_eq_true,
    parseModRM_encodeModRM p.reg rest hrm, hv', hext]
  simp only [hr, hx, hb, hr4, hz, hll, hbc, haaa, Bool.not_not, evexBitsOk_bytes]
  rfl

theorem decodeEvex_not_evex {c : DecodeCtx} {p : EvexOp} (reserved : BitVec 2) (bs : List Byte)
    (hmode : c.mode ≠ .mode64) (hrx : p.r = true ∨ p.x = true) :
    decodeEvex c p.pre (evexP0With reserved p :: bs) = .refused .notVexInThisMode := by
  obtain ⟨-, -, hr, hx, -, -⟩ := evexP0With_fields reserved p
  have hcond := (not_vexless_iff hr hx (c := c)).2 fun h => by
    rcases h with h | ⟨h1, h2⟩
    · exact hmode h
    · simp [h1, h2] at hrx
  simp only [decodeEvex]
  exact if_pos hcond

/-! ### The layouts behind their prefixes (R84) -/

theorem decodeBody_lead {c : DecodeCtx} {pre : List Pre} {b : Byte} (bs : List Byte)
    (hplaced : RexPlaced (c.mode == .mode64) pre (b :: bs)) (hb : b ∈ [(0x0F : Byte), 0xC5, 0xC4, 0x62]) :
    decodeBody c (pre.map Pre.byte ++ b :: bs)
      = if b = 0x0F then decodeLegacy c pre none bs
        else if b = 0xC5 then decodeVex2 c pre bs
        else if b = 0xC4 then decodeVex3 c pre bs
        else decodeEvex c pre bs := by
  simp only [decodeBody, parsePrefixes_map_byte hplaced, parsePrefixes_lead bs hb, List.append_nil]
  simp only [List.mem_cons, List.not_mem_nil, or_false] at hb
  rcases hb with rfl | rfl | rfl | rfl <;> rfl

theorem decodeBody_legacy {c : DecodeCtx} {pre : List Pre} {rex : Option (BitVec 4)} (bs : List Byte)
    (hplaced : RexPlaced (c.mode == .mode64) pre ((rex.map rexByte).toList ++ 0x0F :: bs))
    (hrex : c.mode = .mode64 ∨ rex = none) :
    decodeBody c (pre.map Pre.byte ++ ((rex.map rexByte).toList ++ 0x0F :: bs)) = decodeLegacy c pre rex bs := by
  simp only [decodeBody, parsePrefixes_map_byte hplaced, parsePrefixes_rex_escape bs (hrex.imp_left beq_iff_eq.2),
    List.append_nil, if_true]

/-- Bytes that fit into 15 and are decoded whatever follows them decode so (R60). -/
theorem decode_append {c : DecodeCtx} {bs : List Byte} {d : Decoded} (hlen : bs.length ≤ 15) (hd : d ≠ .truncated)
    (h : ∀ rest, decodeBody c (bs ++ rest) = d) (rest : List Byte) : decode c (bs ++ rest) = d := by
  rw [decode, List.take_append, List.take_of_length_le hlen, h]
  cases d with
  | truncated => exact absurd rfl hd
  | instr _ | ud | tooLong | refused _ => rfl

/-- A REX byte among the prefixes stands in Mode64 (R62). -/
theorem rexPlaced_of_ne_escape {m : Bool} {pre : List Pre} {b : Byte} (bs : List Byte) (hb : b ≠ 0x0F)
    (h : ∀ r, .rex r ∈ pre → m = true) : RexPlaced m pre (b :: bs) :=
  ⟨h, fun hhead => absurd (Option.some.inj hhead) hb⟩

theorem decodeBody_vex3BytesWith {c : DecodeCtx} {map : BitVec 5} {v : BitVec 4} {pp : Pp} {l : Bool} {opc : Byte}
    {p : Vex3Op} (rest : List Byte) (hmode : ∀ r, .rex r ∈ p.pre → (c.mode == .mode64) = true) :
    decodeBody c (vex3BytesWith map v pp l opc p ++ rest)
      = decodeVex3 c p.pre (vex3P0With map p :: vexPWith p.w v l pp :: opc :: (encodeModRM p.reg p.rm ++ rest)) := by
  rw [vex3BytesWith_eq, List.append_assoc]
  exact decodeBody_lead _ (rexPlaced_of_ne_escape _ (by decide) hmode) (by decide)

theorem decodeBody_vex2BytesWith {c : DecodeCtx} {v : BitVec 4} {pp : Pp} {l : Bool} {opc : Byte}
    {p : Vex2Op} (rest : List Byte) (hmode : ∀ r, .rex r ∈ p.pre → (c.mode == .mode64) = true) :
    decodeBody c (vex2BytesWith v pp l opc p ++ rest)
      = decodeVex2 c p.pre (vexPWith (!p.r) v l pp :: opc :: (encodeModRM p.reg p.rm ++ rest)) := by
  rw [vex2BytesWith_eq, List.append_assoc]
  exact decodeBody_lead _ (rexPlaced_of_ne_escape _ (by decide) hmode) (by decide)

theorem decodeBody_evexBytesWith {c : DecodeCtx} {v : BitVec 4} {v' : Bool} {reserved : BitVec 2} {fixed : Bool}
    {p : EvexOp} (rest : List Byte) (hmode : ∀ r, .rex r ∈ p.pre → (c.mode == .mode64) = true) :
    decodeBody c (evexBytesWith v v' reserved fixed p ++ rest)
      = decodeEvex c p.pre (evexP0With reserved p :: evexP1With v fixed :: evexP2With v' p :: 0xE6
          :: (encodeModRM p.reg p.rm ++ rest)) := by
  rw [evexBytesWith_eq, List.append_assoc]
  exact decodeBody_lead _ (rexPlaced_of_ne_escape _ (by decide) hmode) (by decide)

/-! ### What well-formedness says, named (R60 to R78) -/

structure CommonOk (c : DecodeCtx) (pre : List Pre) (rm : Rm) : Prop where
  rex : ∀ r, .rex r ∈ pre → (c.mode == .mode64) = true
  modRM : rm.ok (addrSize c.mode pre) = true
  a16 : addr16Refused c rm = false

theorem commonOk_iff {c : DecodeCtx} {pre : List Pre} {rm : Rm} : commonOk c pre rm = true ↔ CommonOk c pre rm := by
  constructor
  · intro h
    refine ⟨commonOk_rex h, commonOk_rm h, ?_⟩
    simp only [commonOk, Bool.and_eq_true, Bool.not_eq_true'] at h
    exact h.2
  · rintro ⟨hrex, hrm, ha16⟩
    have hall : (c.mode == .mode64 || pre.all (fun p => match p with | .rex _ => false | _ => true)) = true := by
      rw [Bool.or_eq_true, List.all_eq_true]
      by_cases hm : (c.mode == .mode64) = true
      · exact .inl hm
      · refine .inr fun q hq => ?_
        cases q with
        | rex r => exact absurd (hrex r hq) hm
        | seg _ | opSize | addrSize | lock | repne | rep => rfl
    unfold commonOk
    rw [hrm, ha16, Bool.and_true, Bool.not_false, Bool.and_true]
    exact hall

structure VexPreOk (c : DecodeCtx) (pre : List Pre) : Prop where
  bad : pre.any Pre.badBeforeVex = false
  strict : (!c.lenientPrefixes && !strictOptional pre) = false

theorem vexPreOk_iff {c : DecodeCtx} {pre : List Pre} : vexPreOk c pre = true ↔ VexPreOk c pre := by
  have hstrict : (c.lenientPrefixes || strictOptional pre) = true
      ↔ (!c.lenientPrefixes && !strictOptional pre) = false := by
    cases c.lenientPrefixes <;> cases strictOptional pre <;> decide
  rw [vexPreOk, Bool.and_eq_true, Bool.not_eq_true', hstrict]
  exact ⟨fun ⟨h1, h2⟩ => ⟨h1, h2⟩, fun ⟨h1, h2⟩ => ⟨h1, h2⟩⟩

structure Vex3Op.Ok (c : DecodeCtx) (p : Vex3Op) : Prop where
  common : CommonOk c p.pre p.rm
  prefixes : VexPreOk c p.pre
  recognised : p.Recognised c
  len : p.len ≤ 15

theorem Vex3Op.ok_iff {c : DecodeCtx} {p : Vex3Op} : p.ok c = true ↔ p.Ok c := by
  simp only [Vex3Op.ok, Bool.and_eq_true, commonOk_iff, vexPreOk_iff, Bool.or_eq_true, beq_iff_eq, Bool.not_eq_true',
    decide_eq_true_eq]
  exact ⟨fun ⟨⟨⟨h1, h2⟩, h3⟩, h4⟩ => ⟨h1, h2, h3, h4⟩, fun ⟨h1, h2, h3, h4⟩ => ⟨⟨⟨h1, h2⟩, h3⟩, h4⟩⟩

structure Vex2Op.Ok (c : DecodeCtx) (p : Vex2Op) : Prop where
  common : CommonOk c p.pre p.rm
  prefixes : VexPreOk c p.pre
  recognised : c.mode = .mode64 ∨ p.r = false
  len : p.len ≤ 15

theorem Vex2Op.ok_iff {c : DecodeCtx} {p : Vex2Op} : p.ok c = true ↔ p.Ok c := by
  simp only [Vex2Op.ok, Bool.and_eq_true, commonOk_iff, vexPreOk_iff, Bool.or_eq_true, beq_iff_eq, Bool.not_eq_true',
    decide_eq_true_eq]
  exact ⟨fun ⟨⟨⟨h1, h2⟩, h3⟩, h4⟩ => ⟨h1, h2, h3, h4⟩, fun ⟨h1, h2, h3, h4⟩ => ⟨⟨⟨h1, h2⟩, h3⟩, h4⟩⟩

structure EvexOp.Ok (c : DecodeCtx) (ll : BitVec 2) (p : EvexOp) : Prop where
  common : CommonOk c p.pre p.rm
  prefixes : VexPreOk c p.pre
  recognised : p.Recognised c
  extension : extensionRefused c.mode = false ∨ p.b = false ∧ p.r4 = false
  a16 : evexAddr16Refused c p.rm = false
  zeroing : (p.z && p.aaa == 0) = false
  length : p.ll = ll ∨ ll = 2 ∧ p.ll = 3 ∧ p.bc = true ∧ p.rm.isReg = true
  len : p.len ≤ 15

theorem EvexOp.ok_iff {c : DecodeCtx} {ll : BitVec 2} {p : EvexOp} : p.ok c ll = true ↔ p.Ok c ll := by
  have hz : (!(p.z && p.aaa == 0)) = true ↔ (p.z && p.aaa == 0) = false := by rw [Bool.not_eq_true']
  have hll : (p.ll == ll || (ll == 2 && p.ll == 3 && p.bc && p.rm.isReg)) = true
      ↔ p.ll = ll ∨ ll = 2 ∧ p.ll = 3 ∧ p.bc = true ∧ p.rm.isReg = true := by
    simp only [Bool.or_eq_true, Bool.and_eq_true, beq_iff_eq, and_assoc]
  rw [EvexOp.ok]
  simp only [Bool.and_eq_true _ (decide _), Bool.and_eq_true _ (_ || _), hll, Bool.and_eq_true _ (!(p.z && p.aaa == 0)),
    hz, Bool.and_eq_true _ (!evexAddr16Refused c p.rm), Bool.and_eq_true (commonOk _ _ _), commonOk_iff, vexPreOk_iff,
    Bool.or_eq_true, beq_iff_eq, Bool.not_eq_true', decide_eq_true_eq, Bool.and_eq_true (!p.r), Bool.and_eq_true (!p.b)]
  exact ⟨fun ⟨⟨⟨⟨⟨⟨⟨h1, h2⟩, h3⟩, h4⟩, h5⟩, h6⟩, h7⟩, h8⟩ => ⟨h1, h2, h3, h4, h5, h6, h7, h8⟩,
    fun ⟨h1, h2, h3, h4, h5, h6, h7, h8⟩ => ⟨⟨⟨⟨⟨⟨⟨h1, h2⟩, h3⟩, h4⟩, h5⟩, h6⟩, h7⟩, h8⟩⟩

structure LegacyOp.Ok (c : DecodeCtx) (pp : Pp) (p : LegacyOp) : Prop where
  common : CommonOk c p.pre p.rm
  mandatory : mandatory p.pre = pp
  lock : .lock ∉ p.pre
  strict : (!c.lenientPrefixes && !strictLegacy pp p.pre p.rex) = false
  rex : c.mode = .mode64 ∨ p.rex = none
  last : p.rex = none → ∀ r, p.pre.getLast? ≠ some (.rex r)
  len : p.len ≤ 15

theorem LegacyOp.ok_iff {c : DecodeCtx} {pp : Pp} {p : LegacyOp} : p.ok c pp = true ↔ p.Ok c pp := by
  have hstrict : (c.lenientPrefixes || strictLegacy pp p.pre p.rex) = true
      ↔ (!c.lenientPrefixes && !strictLegacy pp p.pre p.rex) = false := by
    cases c.lenientPrefixes <;> cases strictLegacy pp p.pre p.rex <;> decide
  unfold LegacyOp.ok
  simp only [Bool.and_eq_true, commonOk_iff, hstrict, Bool.or_eq_true, beq_iff_eq, Bool.not_eq_true', decide_eq_true_eq,
    List.contains_eq_mem, decide_eq_false_iff_not]
  constructor
  · rintro ⟨⟨⟨⟨⟨⟨hcommon, hpp⟩, hlock⟩, hstrict⟩, hrex⟩, hlast⟩, hlen⟩
    exact ⟨hcommon, hpp, hlock, hstrict, hrex, fun hnone r hr => by simp [hnone, hr] at hlast, hlen⟩
  · rintro ⟨hcommon, hpp, hlock, hstrict, hrex, hlast, hlen⟩
    refine ⟨⟨⟨⟨⟨⟨hcommon, hpp⟩, hlock⟩, hstrict⟩, hrex⟩, ?_⟩, hlen⟩
    by_cases hnone : p.rex = none
    · right
      rcases hq : p.pre.getLast? with _ | q
      · rfl
      · cases q with
        | rex r => exact absurd hq (hlast hnone r)
        | seg _ | opSize | addrSize | lock | repne | rep => rfl
    · exact .inl (bne_iff_ne.2 hnone)

end Sys2Proof
end
section

namespace Sys2Proof

open Machine

/-! ### Encodings decode to their instruction (R60 to R81) -/

theorem vex3BytesWith_length (map : BitVec 5) (v : BitVec 4) (pp : Pp) (l : Bool) (opc : Byte) (p : Vex3Op) :
    (vex3BytesWith map v pp l opc p).length = p.len := by
  simp [vex3BytesWith, Vex3Op.len, encodeVex3]

theorem vex2BytesWith_length (v : BitVec 4) (pp : Pp) (l : Bool) (opc : Byte) (p : Vex2Op) :
    (vex2BytesWith v pp l opc p).length = p.len := by
  simp [vex2BytesWith, Vex2Op.len, encodeVex2]

theorem evexBytesWith_length (v : BitVec 4) (v' : Bool) (reserved : BitVec 2) (fixed : Bool) (p : EvexOp) :
    (evexBytesWith v v' reserved fixed p).length = p.len := by
  simp [evexBytesWith, EvexOp.len, encodeEvex]

theorem EvexOp.len_eq (p : EvexOp) : p.len = p.pre.length + (encodeModRM p.reg p.rm).length + 5 := by
  simp [EvexOp.len, encodeEvex]; omega

theorem encodeLegacy_length (opc : Byte) (p : LegacyOp) : (encodeLegacy opc p).length = p.len := by
  simp [LegacyOp.len, encodeLegacy]

theorem encodeLegacy_eq (opc : Byte) (p : LegacyOp) :
    encodeLegacy opc p
      = p.pre.map Pre.byte ++ ((p.rex.map rexByte).toList ++ 0x0F :: opc :: encodeModRM p.reg p.rm) :=
  List.append_assoc _ _ _

theorem finishVex_eq_instr {c : DecodeCtx} {pre : List Pre} {fieldsOk a16 : Bool} (i : Instr) (hpre : VexPreOk c pre)
    (hfields : fieldsOk = true) (ha16 : a16 = false) : finishVex c pre fieldsOk a16 i = .instr i := by
  rw [finishVex, hpre.bad, hpre.strict, hfields, ha16]
  rfl

theorem finishVex_of_bad_fields {c : DecodeCtx} {pre : List Pre} {fieldsOk : Bool} (a16 : Bool) (i : Instr)
    (hfields : fieldsOk = false) : finishVex c pre fieldsOk a16 i = .ud := by
  rw [finishVex, hfields]
  cases pre.any Pre.badBeforeVex <;> rfl

theorem LegacyOp.Ok.rexPlaced {c : DecodeCtx} {pp : Pp} {p : LegacyOp} (h : p.Ok c pp) (bs : List Byte) :
    RexPlaced (c.mode == .mode64) p.pre ((p.rex.map rexByte).toList ++ 0x0F :: bs) :=
  p.rexPlaced_of_ok (LegacyOp.ok_iff.2 h) bs

theorem decodeLegacy_bytes {c : DecodeCtx} {pp : Pp} {opc : Byte} {p : LegacyOp} {row : LegacyOp → Instr}
    (rest : List Byte) (h : p.Ok c pp) (hrow : legacyRow pp opc = some row) :
    decodeLegacy c p.pre p.rex (opc :: (encodeModRM p.reg p.rm ++ rest)) = .instr (row p) := by
  obtain ⟨hcommon, rfl, hlock, hstrict, -, -, -⟩ := h
  simp only [decodeLegacy, hrow, parseModRM_encodeModRM p.reg rest hcommon.modRM, hlock, hstrict, hcommon.a16, if_false,
    Bool.false_eq_true]

theorem decode_encodeLegacy {c : DecodeCtx} {pp : Pp} {opc : Byte} {p : LegacyOp} {row : LegacyOp → Instr}
    (hrow : legacyRow pp opc = some row) (hok : p.ok c pp = true) (rest : List Byte) :
    decode c (encodeLegacy opc p ++ rest) = .instr (row p) := by
  have h := LegacyOp.ok_iff.1 hok
  refine decode_append (encodeLegacy_length opc p ▸ h.len) (by nofun) (fun rest => ?_) rest
  rw [encodeLegacy_eq, List.append_assoc, List.append_assoc]
  exact (decodeBody_legacy _ (h.rexPlaced _) h.rex).trans (decodeLegacy_bytes rest h hrow)

theorem decode_encodeVex3 {c : DecodeCtx} {pp : Pp} {l : Bool} {opc : Byte} {p : Vex3Op} {row : Vex3Op → Instr}
    (hrow : vex3Row pp l opc = some row) (hok : p.ok c = true) (rest : List Byte) :
    decode c (encodeVex3 pp l opc p ++ rest) = .instr (row p) := by
  obtain ⟨hcommon, hpre, hvex, hlen⟩ := Vex3Op.ok_iff.1 hok
  refine decode_append (vex3BytesWith_length 1 15 pp l opc p ▸ hlen) (by nofun) (fun rest => ?_) rest
  rw [encodeVex3_eq_bytesWith, decodeBody_vex3BytesWith rest hcommon.rex,
    decodeVex3_bytes 15 rest hvex hrow hcommon.modRM, if_neg (fun h => absurd h.2 (by decide))]
  exact finishVex_eq_instr _ hpre rfl hcommon.a16

theorem decode_encodeVex2 {c : DecodeCtx} {pp : Pp} {l : Bool} {opc : Byte} {p : Vex2Op} {row : Vex2Op → Instr}
    (hrow : vex2Row pp l opc = some row) (hok : p.ok c = true) (rest : List Byte) :
    decode c (encodeVex2 pp l opc p ++ rest) = .instr (row p) := by
  obtain ⟨hcommon, hpre, hvex, hlen⟩ := Vex2Op.ok_iff.1 hok
  refine decode_append (vex2BytesWith_length 15 pp l opc p ▸ hlen) (by nofun) (fun rest => ?_) rest
  rw [encodeVex2_eq_bytesWith, decodeBody_vex2BytesWith rest hcommon.rex,
    decodeVex2_bytes rest (hvex.imp_right fun hr => ⟨hr, rfl⟩) hrow hcommon.modRM]
  exact finishVex_eq_instr _ hpre rfl hcommon.a16

theorem EvexOp.Ok.fieldsOk {c : DecodeCtx} {ll : BitVec 2} {p : EvexOp} (h : p.Ok c ll) (hll : ll ≠ 3) :
    evexFieldsOk 15 true 0 true p = true := by
  have hlength : (p.ll == 3 && !(p.bc && p.rm.isReg)) = false := by
    rcases h.length with rfl | ⟨-, -, hbc, hreg⟩
    · rw [beq_eq_false_iff_ne.2 hll, Bool.false_and]
    · rw [hbc, hreg]; exact Bool.and_false _
  rw [evexFieldsOk, h.zeroing, hlength]
  rfl

theorem EvexOp.Ok.evexRow_eq {c : DecodeCtx} {ll : BitVec 2} {p : EvexOp} (h : p.Ok c ll) : evexRow p.ll = evexRow ll := by
  rcases h.length with hll | ⟨rfl, hll, -⟩
  · rw [hll]
  · rw [hll]; rfl

theorem EvexOp.Ok.not_extensionRefused {c : DecodeCtx} {ll : BitVec 2} {p : EvexOp} (h : p.Ok c ll) :
    ¬(extensionRefused c.mode = true ∧ (p.b = true ∨ p.r4 = true ∨ true = false)) := by
  rintro ⟨hmode, hbits⟩
  obtain ⟨hb, hr4⟩ := h.extension.resolve_left (Bool.not_eq_false _ ▸ hmode)
  simp [hb, hr4] at hbits

theorem decode_encodeEvex {c : DecodeCtx} {ll : BitVec 2} {p : EvexOp} (hok : p.ok c ll = true) (hll : ll ≠ 3)
    (rest : List Byte) : decode c (encodeEvex p ++ rest) = .instr (evexRow ll p) := by
  have h := EvexOp.ok_iff.1 hok
  refine decode_append h.len (by nofun) (fun rest => ?_) rest
  rw [encodeEvex_eq_bytesWith, decodeBody_evexBytesWith rest h.common.rex,
    decodeEvex_bytes 15 true 0 true rest h.recognised h.common.modRM, if_neg h.not_extensionRefused, ← h.evexRow_eq]
  exact finishVex_eq_instr _ h.prefixes (h.fieldsOk hll) h.a16

/-- Settles O1: each layout reads its own bytes back. -/
theorem decodeOfEncodeIsIdentity : Obligations.DecodeOfEncodeIsIdentity := by
  intro c i rest hok
  cases i with
  | cvtdq2pd p | cvtdq2ps p | cvtpd2dq p | cvtpd2pi p | cvtpd2ps p => exact decode_encodeLegacy rfl hok rest
  | vcvtdq2pd128Vex3 p | vcvtdq2pd256Vex3 p | vcvtdq2ps128Vex3 p | vcvtdq2ps256Vex3 p | vcvtpd2dq128Vex3 p
  | vcvtpd2dq256Vex3 p | vcvtpd2ps128Vex3 p | vcvtpd2ps256Vex3 p => exact decode_encodeVex3 rfl hok rest
  | vcvtdq2pd128Vex2 p | vcvtdq2pd256Vex2 p | vcvtdq2ps128Vex2 p | vcvtdq2ps256Vex2 p | vcvtpd2dq128Vex2 p
  | vcvtpd2dq256Vex2 p | vcvtpd2ps128Vex2 p | vcvtpd2ps256Vex2 p => exact decode_encodeVex2 rfl hok rest
  | vcvtdq2pd128Evex p | vcvtdq2pd256Evex p | vcvtdq2pd512Evex p => exact decode_encodeEvex hok (by decide) rest

/-- Settles O3: the seven words are the encodings of their instructions. -/
theorem specWordsDecode : Obligations.SpecWordsDecode := by
  intro lenient a16
  cases lenient <;> cases a16 <;> decide

/-! ### Reserved fields (R69, R71, R73, U3, U5) -/

theorem extensionRefused_mode32 : extensionRefused .mode32 = true := rfl

theorem decode_vex3_vvvv {c : DecodeCtx} {pp : Pp} {l : Bool} {opc : Byte} {p : Vex3Op} {v : BitVec 4}
    (rest : List Byte) (hok : p.ok c = true) (hrow : (vex3Row pp l opc).isSome = true) (hv : v ≠ 15) :
    decode c (vex3BytesWith 1 v pp l opc p ++ rest)
      = if extensionRefused c.mode ∧ v = 7 then .refused .vexVvvvOutsideMode64 else .ud := by
  obtain ⟨hcommon, hpre, hvex, hlen⟩ := Vex3Op.ok_iff.1 hok
  obtain ⟨row, hrow⟩ := Option.isSome_iff_exists.1 hrow
  refine decode_append (vex3BytesWith_length 1 v pp l opc p ▸ hlen) (by split <;> nofun) (fun rest => ?_) rest
  rw [decodeBody_vex3BytesWith rest hcommon.rex, decodeVex3_bytes v rest hvex hrow hcommon.modRM,
    finishVex_of_bad_fields _ _ (beq_eq_false_iff_ne.2 hv)]

theorem decode_vex3_map {c : DecodeCtx} {map : BitVec 5} (v : BitVec 4) (pp : Pp) (l : Bool) (opc : Byte) {p : Vex3Op}
    (rest : List Byte) (hok : p.ok c = true) (hmap : map ≠ 1) :
    decode c (vex3BytesWith map v pp l opc p ++ rest) = if map = 2 ∨ map = 3 then .refused .otherMap else .ud := by
  obtain ⟨hcommon, hpre, hvex, hlen⟩ := Vex3Op.ok_iff.1 hok
  refine decode_append (vex3BytesWith_length map v pp l opc p ▸ hlen) (by split <;> nofun) (fun rest => ?_) rest
  rw [decodeBody_vex3BytesWith rest hcommon.rex, decodeVex3_other_map v pp l opc rest hvex hmap hcommon.modRM]

theorem decode_vex2_vvvv {c : DecodeCtx} {pp : Pp} {l : Bool} {opc : Byte} {p : Vex2Op} {v : BitVec 4}
    (rest : List Byte) (hok : p.ok c = true) (hrow : (vex2Row pp l opc).isSome = true) (hv : v ≠ 15)
    (hmode : c.mode = .mode64 ∨ v.getLsbD 3 = true) : decode c (vex2BytesWith v pp l opc p ++ rest) = .ud := by
  obtain ⟨hcommon, hpre, hvex, hlen⟩ := Vex2Op.ok_iff.1 hok
  obtain ⟨row, hrow⟩ := Option.isSome_iff_exists.1 hrow
  have hrecognised : c.mode = .mode64 ∨ p.r = false ∧ v.getLsbD 3 = true := by
    rcases hvex with hm | hr
    · exact .inl hm
    · exact hmode.imp_right fun h => ⟨hr, h⟩
  refine decode_append (vex2BytesWith_length v pp l opc p ▸ hlen) (by nofun) (fun rest => ?_) rest
  rw [decodeBody_vex2BytesWith rest hcommon.rex, decodeVex2_bytes rest hrecognised hrow hcommon.modRM,
    finishVex_of_bad_fields _ _ (beq_eq_false_iff_ne.2 hv)]

theorem decode_vex2_not_vex {c : DecodeCtx} (pp : Pp) (l : Bool) (opc : Byte) {p : Vex2Op} {v : BitVec 4}
    (rest : List Byte) (hok : p.ok c = true) (hmode : c.mode ≠ .mode64) (hv : v.getLsbD 3 = false) :
    decode c (vex2BytesWith v pp l opc p ++ rest) = .refused .notVexInThisMode := by
  obtain ⟨hcommon, hpre, hvex, hlen⟩ := Vex2Op.ok_iff.1 hok
  refine decode_append (vex2BytesWith_length v pp l opc p ▸ hlen) (by nofun) (fun rest => ?_) rest
  rw [decodeBody_vex2BytesWith rest hcommon.rex, decodeVex2_not_vex pp l _ hmode hv]

/-- Settles O4: what the VEX layouts decode to, at the reserved values of vvvv and of the opcode map. -/
theorem vexReservedFieldsAreUndefined : Obligations.VexReservedFieldsAreUndefined := by
  refine ⟨fun c pp l opc p v rest hok hrow hv => ⟨fun hmode => ?_, fun ⟨hmode, hseven⟩ => ?_⟩,
    fun c pp l opc p map v rest hok hmap => decode_vex3_map v pp l opc rest hok hmap,
    fun c pp l opc p v rest hok hrow hv => ⟨decode_vex2_vvvv rest hok hrow hv,
      fun ⟨hmode, htop⟩ => decode_vex2_not_vex pp l opc rest hok hmode htop⟩⟩
  · have hadmitted : ¬(extensionRefused c.mode = true ∧ v = 7) := by
      rintro ⟨hext, hseven⟩
      rcases hmode with hm | hm | hm | hne
      · rw [hm] at hext; cases hext
      · rw [hm] at hext; cases hext
      · rw [hm] at hext; cases hext
      · exact hne hseven
    rw [decode_vex3_vvvv rest hok hrow hv, if_neg hadmitted]
  · rw [decode_vex3_vvvv rest hok hrow hv, if_pos ⟨hmode ▸ extensionRefused_mode32, hseven⟩]

theorem decode_evex_bytes {c : DecodeCtx} {p : EvexOp} (v : BitVec 4) (v' : Bool) (reserved : BitVec 2) (fixed : Bool)
    (rest : List Byte) (hcommon : CommonOk c p.pre p.rm) (hlen : p.len ≤ 15) (hevex : p.Recognised c) {d : Decoded}
    (hd : d ≠ .truncated)
    (h : (if extensionRefused c.mode ∧ (p.b = true ∨ p.r4 = true ∨ v' = false) then .refused .evexBitsOutsideMode64
        else finishVex c p.pre (evexFieldsOk v v' reserved fixed p) (evexAddr16Refused c p.rm) (evexRow p.ll p)) = d) :
    decode c (evexBytesWith v v' reserved fixed p ++ rest) = d := by
  refine decode_append (evexBytesWith_length v v' reserved fixed p ▸ hlen) hd (fun rest => ?_) rest
  rw [decodeBody_evexBytesWith rest hcommon.rex, decodeEvex_bytes v v' reserved fixed rest hevex hcommon.modRM, h]

/-- A reserved field set otherwise is #UD where no extension bit is refused (R73). -/
theorem decode_evex_bad_fields {c : DecodeCtx} {p : EvexOp} (v : BitVec 4) (v' : Bool) (reserved : BitVec 2) (fixed : Bool)
    (rest : List Byte) (hcommon : CommonOk c p.pre p.rm) (hlen : p.len ≤ 15) (hevex : p.Recognised c)
    (hext : ¬(extensionRefused c.mode = true ∧ (p.b = true ∨ p.r4 = true ∨ v' = false)))
    (hbad : evexFieldsOk v v' reserved fixed p = false) :
    decode c (evexBytesWith v v' reserved fixed p ++ rest) = .ud :=
  decode_evex_bytes v v' reserved fixed rest hcommon hlen hevex nofun
    (by rw [if_neg hext, finishVex_of_bad_fields _ _ hbad])

/-- Outside Mode64 a stored R or X of 0 makes the bytes BOUND (R84). -/
theorem decode_evex_not_evex {c : DecodeCtx} {p : EvexOp} (v : BitVec 4) (v' : Bool) (reserved : BitVec 2) (fixed : Bool)
    (rest : List Byte) (hcommon : CommonOk c p.pre p.rm) (hlen : p.len ≤ 15) (hmode : c.mode ≠ .mode64)
    (hrx : p.r = true ∨ p.x = true) :
    decode c (evexBytesWith v v' reserved fixed p ++ rest) = .refused .notVexInThisMode := by
  refine decode_append (evexBytesWith_length v v' reserved fixed p ▸ hlen) (by nofun) (fun rest => ?_) rest
  rw [decodeBody_evexBytesWith rest hcommon.rex, decodeEvex_not_evex reserved _ hmode hrx]

/-- Settles O5: what the EVEX layout decodes to, at the reserved values of each field. -/
theorem evexReservedFieldsAreUndefined : Obligations.EvexReservedFieldsAreUndefined := by
  intro c ll p rest hmode hok
  have h := EvexOp.ok_iff.1 hok
  have hext := h.not_extensionRefused
  have hmode32 (hm : c.mode = .mode32) : p.r = false ∧ p.x = false :=
    h.recognised.resolve_left (by rw [hm]; decide)
  have hlen (q : EvexOp) (hpre : q.pre = p.pre) (hreg : q.reg = p.reg) (hrm : q.rm = p.rm) : q.len ≤ 15 := by
    rw [EvexOp.len_eq, hpre, hreg, hrm, ← EvexOp.len_eq]; exact h.len
  refine ⟨fun v v' reserved fixed hv' hfields => ?_, ?_, fun hmem => ?_, fun hm v v' reserved fixed b r4 hbits => ?_,
    fun hm v v' reserved fixed r x b r4 hrx => ?_⟩
  · refine decode_evex_bad_fields v v' reserved fixed rest h.common h.len h.recognised ?_ ?_
    · rcases hv' with hm | rfl
      · rw [hm]; exact fun hcond => by cases hcond.1
      · exact hext
    · have hneutral : (v == 15 && v' && reserved == 0 && fixed) = false := by
        rw [← Bool.not_eq_true]
        simpa only [Bool.and_eq_true, beq_iff_eq, and_assoc] using hfields
      rw [evexFieldsOk, hneutral]
      rfl
  · rw [encodeEvex_eq_bytesWith]
    exact decode_evex_bad_fields 15 true 0 true rest h.common (hlen _ rfl rfl rfl) h.recognised hext rfl
  · rw [encodeEvex_eq_bytesWith]
    refine decode_evex_bad_fields 15 true 0 true rest h.common (hlen _ rfl rfl rfl) h.recognised hext ?_
    have hreg : (p.bc && p.rm.isReg) = false := Bool.and_eq_false_iff.2 hmem
    simp [evexFieldsOk, hreg]
  · exact decode_evex_bytes (p := { p with b := b, r4 := r4 }) v v' reserved fixed rest h.common (hlen _ rfl rfl rfl)
      (.inr (hmode32 hm)) (by nofun) (if_pos ⟨hm ▸ extensionRefused_mode32, hbits⟩)
  · exact decode_evex_not_evex v v' reserved fixed rest h.common (hlen _ rfl rfl rfl) (by rw [hm]; decide) hrx

/-! ### One more byte before a VEX or EVEX lead byte (R61, R71, R73) -/

/-- The prefixes with `q` put after the first `n`. -/
def insertPre (q : Pre) (pre : List Pre) (n : Nat) : List Pre := pre.take n ++ q :: pre.drop n

theorem mem_insertPre {q : Pre} {pre : List Pre} {n : Nat} {p : Pre} : p ∈ insertPre q pre n ↔ p = q ∨ p ∈ pre := by
  have hsplit : p ∈ pre ↔ p ∈ pre.take n ∨ p ∈ pre.drop n := by rw [← List.mem_append, List.take_append_drop]
  simp only [insertPre, List.mem_append, List.mem_cons, hsplit]
  tauto

theorem addrSize_insertPre {q : Pre} (hq : q ≠ .addrSize) (m : Mode) (pre : List Pre) (n : Nat) :
    addrSize m (insertPre q pre n) = addrSize m pre := by
  simp only [addrSize, mem_insertPre, Ne.symm hq, false_or]

theorem insert_prefix_byte {q : Pre} {pre : List Pre} {n : Nat} (body : List Byte) (hn : n ≤ pre.length) :
    (pre.map Pre.byte ++ body).take n ++ q.byte :: (pre.map Pre.byte ++ body).drop n
      = (insertPre q pre n).map Pre.byte ++ body := by
  have hlen : n ≤ (pre.map Pre.byte).length := by simpa using hn
  simp [insertPre, List.take_append_of_le_length hlen, List.drop_append_of_le_length hlen, List.map_take, List.map_drop]

/-- A bad prefix `q` put among the prefixes `pre` of a VEX or EVEX form. -/
structure BadInsert (c : DecodeCtx) (q : Pre) (pre : List Pre) (n : Nat) : Prop where
  bad : q.badBeforeVex = true
  rex : ∀ r, q = .rex r → (c.mode == .mode64) = true
  place : n ≤ pre.length

theorem BadInsert.any_bad {c : DecodeCtx} {q : Pre} {pre : List Pre} {n : Nat} (h : BadInsert c q pre n) :
    (insertPre q pre n).any Pre.badBeforeVex = true :=
  List.any_eq_true.2 ⟨q, mem_insertPre.2 (.inl rfl), h.bad⟩

theorem BadInsert.addrSize_eq {c : DecodeCtx} {q : Pre} {pre : List Pre} {n : Nat} (h : BadInsert c q pre n) (m : Mode) :
    addrSize m (insertPre q pre n) = addrSize m pre :=
  addrSize_insertPre (fun hq => absurd h.bad (by rw [hq]; decide)) m pre n

theorem BadInsert.decodeBody_eq {c : DecodeCtx} {q : Pre} {pre : List Pre} {n : Nat} (h : BadInsert c q pre n)
    {rm : Rm} (hcommon : CommonOk c pre rm) {b : Byte} (hb : b ∈ [(0xC5 : Byte), 0xC4, 0x62]) (body rest : List Byte) :
    decodeBody c ((pre.map Pre.byte ++ b :: body).take n ++ q.byte :: (pre.map Pre.byte ++ b :: body).drop n ++ rest)
      = if b = 0xC5 then decodeVex2 c (insertPre q pre n) (body ++ rest)
        else if b = 0xC4 then decodeVex3 c (insertPre q pre n) (body ++ rest)
        else decodeEvex c (insertPre q pre n) (body ++ rest) := by
  have hescape : b ≠ 0x0F := fun e => absurd (e ▸ hb) (by decide)
  have hplaced : RexPlaced (c.mode == .mode64) (insertPre q pre n) (b :: (body ++ rest)) :=
    rexPlaced_of_ne_escape _ hescape fun r hr => by
      rcases mem_insertPre.1 hr with hq | hr
      · exact h.rex r hq.symm
      · exact hcommon.rex r hr
  rw [insert_prefix_byte _ h.place, List.append_assoc, List.cons_append,
    decodeBody_lead _ hplaced (List.mem_cons_of_mem _ hb), if_neg hescape]

theorem decode_bad_vex3 {c : DecodeCtx} {pp : Pp} {l : Bool} {opc : Byte} {p : Vex3Op} {q : Pre} {n : Nat}
    (hrow : (vex3Row pp l opc).isSome = true) (hok : p.ok c = true) (hlen : (encodeVex3 pp l opc p).length ≤ 14)
    (h : BadInsert c q p.pre n) :
    ∀ rest, decode c ((encodeVex3 pp l opc p).take n ++ q.byte :: (encodeVex3 pp l opc p).drop n ++ rest) = .ud := by
  obtain ⟨hcommon, -, hvex, -⟩ := Vex3Op.ok_iff.1 hok
  refine decode_insert_eq_ud hlen fun rest => ?_
  rw [encodeVex3_eq, h.decodeBody_eq hcommon (by decide)]
  exact decodeVex3_of_bad rest h.any_bad hrow hvex (by rw [h.addrSize_eq]; exact hcommon.modRM)

theorem decode_bad_vex2 {c : DecodeCtx} {pp : Pp} {l : Bool} {opc : Byte} {p : Vex2Op} {q : Pre} {n : Nat}
    (hrow : (vex2Row pp l opc).isSome = true) (hok : p.ok c = true) (hlen : (encodeVex2 pp l opc p).length ≤ 14)
    (h : BadInsert c q p.pre n) :
    ∀ rest, decode c ((encodeVex2 pp l opc p).take n ++ q.byte :: (encodeVex2 pp l opc p).drop n ++ rest) = .ud := by
  obtain ⟨hcommon, -, hvex, -⟩ := Vex2Op.ok_iff.1 hok
  refine decode_insert_eq_ud hlen fun rest => ?_
  rw [encodeVex2_eq, h.decodeBody_eq hcommon (by decide)]
  exact decodeVex2_of_bad rest h.any_bad hrow hvex (by rw [h.addrSize_eq]; exact hcommon.modRM)

theorem decode_bad_evex {c : DecodeCtx} {ll : BitVec 2} {p : EvexOp} {q : Pre} {n : Nat} (hok : p.ok c ll = true)
    (hlen : (encodeEvex p).length ≤ 14) (h : BadInsert c q p.pre n) :
    ∀ rest, decode c ((encodeEvex p).take n ++ q.byte :: (encodeEvex p).drop n ++ rest) = .ud := by
  have hp := EvexOp.ok_iff.1 hok
  refine decode_insert_eq_ud hlen fun rest => ?_
  rw [encodeEvex_eq, h.decodeBody_eq hp.common (by decide)]
  exact decodeEvex_of_bad rest h.any_bad hp.recognised hp.extension (by rw [h.addrSize_eq]; exact hp.common.modRM)

/-- The bytes 66H, F2H, F3H and, in Mode64, 40H to 4FH are prefixes that are #UD before VEX and EVEX. -/
theorem exists_bad_prefix {c : DecodeCtx} {b : Byte}
    (hb : b = 0x66 ∨ b = 0xF2 ∨ b = 0xF3 ∨ (c.mode = .mode64 ∧ 0x40 ≤ b.toNat ∧ b.toNat ≤ 0x4F)) :
    ∃ q : Pre, q.byte = b ∧ q.badBeforeVex = true ∧ ∀ r, q = .rex r → (c.mode == .mode64) = true := by
  rcases hb with rfl | rfl | rfl | ⟨hmode, hlow, hhigh⟩
  · exact ⟨.opSize, rfl, rfl, nofun⟩
  · exact ⟨.repne, rfl, rfl, nofun⟩
  · exact ⟨.rep, rfl, rfl, nofun⟩
  · have hrex : ∀ b : Byte, 0x40 ≤ b.toNat → b.toNat ≤ 0x4F → rexByte (b.extractLsb' 0 4) = b := by decide
    exact ⟨.rex (b.extractLsb' 0 4), hrex b hlow hhigh, rfl, fun _ _ => beq_iff_eq.2 hmode⟩

/-- Settles O7: the new byte is a bad one before the lead byte of a form whose fields are otherwise in order. -/
theorem badPrefixBeforeVexIsUndefined : Obligations.BadPrefixBeforeVexIsUndefined := by
  intro c i n b rest hok hlayout hlen hn hb
  obtain ⟨q, rfl, hbad, hrex⟩ := exists_bad_prefix hb
  cases i with
  | cvtdq2pd p | cvtdq2ps p | cvtpd2dq p | cvtpd2pi p | cvtpd2ps p => exact absurd rfl hlayout
  | vcvtdq2pd128Vex3 p | vcvtdq2pd256Vex3 p | vcvtdq2ps128Vex3 p | vcvtdq2ps256Vex3 p | vcvtpd2dq128Vex3 p
  | vcvtpd2dq256Vex3 p | vcvtpd2ps128Vex3 p | vcvtpd2ps256Vex3 p =>
    exact decode_bad_vex3 rfl hok hlen ⟨hbad, hrex, hn⟩ rest
  | vcvtdq2pd128Vex2 p | vcvtdq2pd256Vex2 p | vcvtdq2ps128Vex2 p | vcvtdq2ps256Vex2 p | vcvtpd2dq128Vex2 p
  | vcvtpd2dq256Vex2 p | vcvtpd2ps128Vex2 p | vcvtpd2ps256Vex2 p =>
    exact decode_bad_vex2 rfl hok hlen ⟨hbad, hrex, hn⟩ rest
  | vcvtdq2pd128Evex p | vcvtdq2pd256Evex p | vcvtdq2pd512Evex p =>
    exact decode_bad_evex hok hlen ⟨hbad, hrex, hn⟩ rest

end Sys2Proof
end
section

namespace Sys2Proof

open Machine

/-! ### What each parser accepts is written back by the encoder (R61 to R67) -/

theorem Pre.ofByte_eq_some {b : Byte} {p : Pre} (h : Pre.ofByte b = some p) : p.byte = b ∧ ∀ r, p ≠ .rex r := by
  have hbytes : ∀ b : Byte, ∀ p ∈ Pre.ofByte b, p.byte = b ∧ (match p with | .rex _ => false | _ => true) = true := by
    decide
  obtain ⟨hbyte, hnot⟩ := hbytes b p h
  exact ⟨hbyte, fun r hr => by rw [hr] at hnot; cases hnot⟩

theorem rexByte_extract {b : Byte} (h : isRexByte b = true) : rexByte (b.extractLsb' 0 4) = b := by
  revert b; decide

/-- `bs` reads as the prefixes `pre`, the REX byte `rex` before 0FH if it is there, and `tail` (R84). -/
structure PrefixesRead (m : Bool) (bs : List Byte) (pre : List Pre) (rex : Option (BitVec 4)) (tail : List Byte) :
    Prop where
  bytes : bs = pre.map Pre.byte ++ ((rex.map rexByte).toList ++ tail)
  placed : RexPlaced m pre ((rex.map rexByte).toList ++ tail)
  rex : rex ≠ none → m = true ∧ tail.head? = some 0x0F

theorem RexPlaced.nil (m : Bool) (tail : List Byte) : RexPlaced m [] tail := ⟨nofun, nofun⟩

theorem RexPlaced.cons {m : Bool} {p : Pre} {ps : List Pre} {tail : List Byte} (h : RexPlaced m ps tail)
    (hp : ∀ r, p = .rex r → m = true ∧ (ps.map Pre.byte ++ tail).head? ≠ some 0x0F) : RexPlaced m (p :: ps) tail where
  mode r hr := by
    rcases List.mem_cons.1 hr with hr | hr
    · exact (hp r hr.symm).1
    · exact h.mode r hr
  last ht r hr := by
    cases ps with
    | nil => exact (hp r (Option.some.inj hr)).2 ht
    | cons q qs => exact h.last ht r (by rwa [List.getLast?_cons_cons] at hr)

theorem parsePrefixes_read (m : Bool) (bs : List Byte) :
    PrefixesRead m bs (parsePrefixes m bs).1 (parsePrefixes m bs).2.1 (parsePrefixes m bs).2.2 := by
  induction bs with
  | nil => exact ⟨rfl, .nil m _, nofun⟩
  | cons b bs ih =>
    rw [parsePrefixes]
    split
    next p hp =>
      obtain ⟨hbyte, hnot⟩ := Pre.ofByte_eq_some hp
      refine ⟨?_, ih.placed.cons fun r hr => absurd hr (hnot r), ih.rex⟩
      rw [List.map_cons, hbyte]
      exact congrArg (b :: ·) ih.bytes
    next =>
      split
      next hrex =>
        obtain ⟨rfl, hrex⟩ := (Bool.and_eq_true _ _).mp hrex
        split
        next hescape =>
          refine ⟨?_, .nil _ _, fun _ => ⟨rfl, hescape⟩⟩
          exact congrArg (· :: bs) (rexByte_extract hrex).symm
        next hescape =>
          refine ⟨?_, ih.placed.cons fun r _ => ⟨rfl, ih.bytes ▸ hescape⟩, ih.rex⟩
          rw [List.map_cons, Pre.byte, rexByte_extract hrex]
          exact congrArg (b :: ·) ih.bytes
      next => exact ⟨rfl, .nil m _, nofun⟩

theorem bytes16_le16 (b0 b1 : Byte) : bytes16 (le16 b0 b1) = [b0, b1] := by
  have low : (b1 ++ b0).extractLsb' 0 8 = b0 := BitVec.extractLsb'_append_eq_right
  have high : (b1 ++ b0).extractLsb' 8 8 = b1 := BitVec.extractLsb'_append_eq_left
  exact congrArg₂ (fun x y => [x, y]) low high

theorem bytes32_le32 (b0 b1 b2 b3 : Byte) : bytes32 (le32 b0 b1 b2 b3) = [b0, b1, b2, b3] := by
  have above {n : Nat} (start : Nat) (hi : BitVec n) (lo : Byte) :
      (hi ++ lo).extractLsb' (start + 8) 8 = hi.extractLsb' start 8 :=
    BitVec.extractLsb'_append_eq_of_le (Nat.le_add_left 8 start)
  have byte0 : (b3 ++ b2 ++ b1 ++ b0).extractLsb' 0 8 = b0 := BitVec.extractLsb'_append_eq_right
  have byte1 : (b3 ++ b2 ++ b1 ++ b0).extractLsb' 8 8 = b1 := (above 0 _ b0).trans BitVec.extractLsb'_append_eq_right
  have byte2 : (b3 ++ b2 ++ b1 ++ b0).extractLsb' 16 8 = b2 :=
    (above 8 _ b0).trans ((above 0 _ b1).trans BitVec.extractLsb'_append_eq_right)
  have byte3 : (b3 ++ b2 ++ b1 ++ b0).extractLsb' 24 8 = b3 :=
    (above 16 _ b0).trans ((above 8 _ b1).trans BitVec.extractLsb'_append_eq_left)
  rw [le32, bytes32, byte0, byte1, byte2, byte3]

theorem modRM_extract (m : Byte) : modRM (m.extractLsb' 6 2) (m.extractLsb' 3 3) (m.extractLsb' 0 3) = m := by
  revert m; decide

theorem sibByte_extract (b : Byte) : sibByte (b.extractLsb' 6 2) (b.extractLsb' 3 3) (b.extractLsb' 0 3) = b :=
  modRM_extract b

theorem mod_cases {md : BitVec 2} (h : md ≠ 3) : md = 0 ∨ md = 1 ∨ md = 2 := by
  revert md; decide

theorem parseDisp_eq_some {md : BitVec 2} {bs : List Byte} {d : Disp} (hmd : md ≠ 3) (h : parseDisp md bs = some d) :
    d.md = md ∧ ∃ rest, bs = d.bytes ++ rest := by
  unfold parseDisp at h
  split at h
  next h1 =>
    split at h
    next b rest => cases h; exact ⟨h1.symm, rest, rfl⟩
    next => cases h
  next h1 =>
    split at h
    next h2 =>
      split at h
      next b0 b1 b2 b3 rest => cases h; exact ⟨h2.symm, rest, by rw [Disp.bytes, bytes32_le32]; rfl⟩
      next => cases h
    next h2 =>
      cases h
      exact ⟨(((mod_cases hmd).resolve_right (not_or.2 ⟨h1, h2⟩))).symm, bs, rfl⟩

/-- An operand `a` is one that an encoding with `mod`, `reg` and r/m stands for, `bs` beginning with its bytes after ModRM. -/
structure MemRead32 (asz : AddrSize) (md : BitVec 2) (reg rm : BitVec 3) (bs : List Byte) (a : AddrForm) : Prop where
  ok : a.ok asz = true
  bytes : ∃ rest, modRM md reg rm :: bs = encodeModRM reg (.mem a) ++ rest

theorem parseSib_eq_some {asz : AddrSize} {md : BitVec 2} {bs : List Byte} {a : AddrForm} (reg : BitVec 3)
    (hasz : asz ≠ .a16) (hmd : md ≠ 3) (h : parseSib md bs = some a) : MemRead32 asz md reg 4 bs a := by
  have hasz' : (asz != .a16) = true := bne_iff_ne.2 hasz
  unfold parseSib at h
  split at h
  next => cases h
  next s bs =>
    have hsib := sibByte_extract s
    dsimp only at h
    split at h
    next hbase =>
      obtain ⟨hbase, rfl⟩ := hbase
      split at h
      next b0 b1 b2 b3 rest =>
        cases h
        rw [hbase] at hsib
        exact ⟨hasz', rest, by rw [encodeModRM, hsib, bytes32_le32]; rfl⟩
      next => cases h
    next hbase =>
      obtain ⟨d, hd, rfl⟩ := Option.map_eq_some_iff.1 h
      obtain ⟨rfl, rest, rfl⟩ := parseDisp_eq_some hmd hd
      refine ⟨?_, rest, by rw [encodeModRM, hsib]; rfl⟩
      rw [AddrForm.ok, hasz', Bool.true_and, Bool.not_eq_true', Bool.and_eq_false_iff, beq_eq_false_iff_ne,
        beq_eq_false_iff_ne]
      rw [Decidable.not_and_iff_not_or_not] at hbase
      exact hbase.imp_right fun hne hnone => hne (Disp.md_eq_zero.2 hnone)

theorem parseMem32_eq_some {asz : AddrSize} {md : BitVec 2} {rm : BitVec 3} {bs : List Byte} {a : AddrForm}
    (reg : BitVec 3) (hasz : asz ≠ .a16) (hmd : md ≠ 3) (h : parseMem32 md rm bs = some a) :
    MemRead32 asz md reg rm bs a := by
  have hasz' : (asz != .a16) = true := bne_iff_ne.2 hasz
  unfold parseMem32 at h
  split at h
  next hrm => exact hrm ▸ parseSib_eq_some reg hasz hmd h
  next hrm =>
    split at h
    next hbase =>
      obtain ⟨rfl, rfl⟩ := hbase
      split at h
      next b0 b1 b2 b3 rest => cases h; exact ⟨hasz', rest, by rw [encodeModRM, bytes32_le32]; rfl⟩
      next => cases h
    next hbase =>
      obtain ⟨d, hd, rfl⟩ := Option.map_eq_some_iff.1 h
      obtain ⟨rfl, rest, rfl⟩ := parseDisp_eq_some hmd hd
      refine ⟨?_, rest, rfl⟩
      rw [AddrForm.ok, hasz', bne_iff_ne.2 hrm, Bool.true_and, Bool.true_and, Bool.not_eq_true', Bool.and_eq_false_iff,
        beq_eq_false_iff_ne, beq_eq_false_iff_ne]
      rw [Decidable.not_and_iff_not_or_not] at hbase
      exact hbase.imp_right fun hne hnone => hne (Disp.md_eq_zero.2 hnone)

theorem parseMem16_eq_some {md : BitVec 2} {rm : BitVec 3} {bs : List Byte} {a : AddrForm} (reg : BitVec 3)
    (hmd : md ≠ 3) (h : parseMem16 md rm bs = some a) : MemRead32 .a16 md reg rm bs a := by
  unfold parseMem16 at h
  split at h
  next h0 =>
    subst h0
    split at h
    next hrm =>
      subst hrm
      split at h
      next b0 b1 rest => cases h; exact ⟨rfl, rest, by rw [encodeModRM, bytes16_le16]; rfl⟩
      next => cases h
    next hrm =>
      cases h
      refine ⟨?_, bs, rfl⟩
      rw [AddrForm.ok, beq_eq_false_iff_ne.2 hrm]
      rfl
  next h0 =>
    split at h
    next h1 =>
      subst h1
      split at h
      next d rest => cases h; exact ⟨by simp [AddrForm.ok], rest, rfl⟩
      next => cases h
    next h1 =>
      obtain rfl : md = 2 := ((mod_cases hmd).resolve_left h0).resolve_left h1
      split at h
      next b0 b1 rest =>
        cases h
        exact ⟨by simp [AddrForm.ok], rest, by rw [encodeModRM, Disp16.bytes, bytes16_le16]; rfl⟩
      next => cases h

theorem parseModRM_eq_some {asz : AddrSize} {bs : List Byte} {reg : BitVec 3} {rm : Rm}
    (h : parseModRM asz bs = some (reg, rm)) : rm.ok asz = true ∧ ∃ rest, bs = encodeModRM reg rm ++ rest := by
  unfold parseModRM at h
  split at h
  next => cases h
  next m bs =>
    have hmodRM := modRM_extract m
    dsimp only at h
    split at h
    next h3 =>
      cases h
      rw [h3] at hmodRM
      exact ⟨rfl, bs, by rw [encodeModRM, hmodRM]; rfl⟩
    next h3 =>
      split at h
      next =>
        obtain ⟨a, ha, heq⟩ := Option.map_eq_some_iff.1 h
        cases heq
        obtain ⟨hok, hbytes⟩ := parseMem16_eq_some (m.extractLsb' 3 3) h3 ha
        rw [hmodRM] at hbytes
        exact ⟨hok, hbytes⟩
      next hasz =>
        obtain ⟨a, ha, heq⟩ := Option.map_eq_some_iff.1 h
        cases heq
        obtain ⟨hok, hbytes⟩ := parseMem32_eq_some (m.extractLsb' 3 3) hasz h3 ha
        rw [hmodRM] at hbytes
        exact ⟨hok, hbytes⟩

/-! ### The rows of the opcode map (R81) -/

/-- The term `i` has the encoding `bs` and is well-formed exactly when `ok` holds. -/
structure Encodes (c : DecodeCtx) (i : Instr) (bs : List Byte) (ok : Bool) : Prop where
  bytes : encode i = bs
  wellFormed : i.wellFormed c = ok

theorem legacyRow_encodes {pp : Pp} {opc : Byte} {row : LegacyOp → Instr} (c : DecodeCtx) (p : LegacyOp)
    (h : legacyRow pp opc = some row) : Encodes c (row p) (encodeLegacy opc p) (p.ok c pp) := by
  unfold legacyRow at h
  split at h
  next hopc => subst hopc; split at h <;> cases h <;> exact ⟨rfl, rfl⟩
  next =>
    split at h
    next hopc => subst hopc; split at h <;> cases h; exact ⟨rfl, rfl⟩
    next =>
      split at h
      next hopc => subst hopc; split at h <;> cases h; exact ⟨rfl, rfl⟩
      next =>
        split at h
        next hopc => subst hopc; split at h <;> cases h; exact ⟨rfl, rfl⟩
        next => cases h

theorem vex3Row_encodes {pp : Pp} {l : Bool} {opc : Byte} {row : Vex3Op → Instr} (c : DecodeCtx) (p : Vex3Op)
    (h : vex3Row pp l opc = some row) : Encodes c (row p) (encodeVex3 pp l opc p) (p.ok c) := by
  unfold vex3Row at h
  split at h
  next hopc => subst hopc; split at h <;> cases h <;> exact ⟨rfl, rfl⟩
  next =>
    split at h
    next hopc => subst hopc; split at h <;> cases h <;> exact ⟨rfl, rfl⟩
    next =>
      split at h
      next hopc => subst hopc; split at h <;> cases h <;> exact ⟨rfl, rfl⟩
      next => cases h

theorem vex2Row_encodes {pp : Pp} {l : Bool} {opc : Byte} {row : Vex2Op → Instr} (c : DecodeCtx) (p : Vex2Op)
    (h : vex2Row pp l opc = some row) : Encodes c (row p) (encodeVex2 pp l opc p) (p.ok c) := by
  unfold vex2Row at h
  split at h
  next hopc => subst hopc; split at h <;> cases h <;> exact ⟨rfl, rfl⟩
  next =>
    split at h
    next hopc => subst hopc; split at h <;> cases h <;> exact ⟨rfl, rfl⟩
    next =>
      split at h
      next hopc => subst hopc; split at h <;> cases h <;> exact ⟨rfl, rfl⟩
      next => cases h

/-- The row that the field L'L names; 11b stands for the row of 512 bits (R77, log entry 18). -/
def rowLL (ll : BitVec 2) : BitVec 2 := if ll = 3 then 2 else ll

theorem evexRow_encodes (c : DecodeCtx) (ll : BitVec 2) (p : EvexOp) :
    Encodes c (evexRow ll p) (encodeEvex p) (p.ok c (rowLL ll)) := by
  have hll : ll = 0 ∨ ll = 1 ∨ ll = 2 ∨ ll = 3 := by revert ll; decide
  rcases hll with rfl | rfl | rfl | rfl <;> exact ⟨rfl, rfl⟩

/-! ### What each layout accepts -/

/-- An accepted instruction is well-formed, but perhaps for its length, and `bs` begins with its bytes. -/
def Accepts (c : DecodeCtx) (bs : List Byte) (i : Instr) : Prop :=
  ((encode i).length ≤ 15 → i.wellFormed c = true) ∧ ∃ rest, bs = encode i ++ rest

theorem decodeLegacy_accepts {c : DecodeCtx} {pre : List Pre} {rex : Option (BitVec 4)} {bs : List Byte} {i : Instr}
    (hplaced : RexPlaced (c.mode == .mode64) pre ((rex.map rexByte).toList ++ 0x0F :: bs))
    (hrex : c.mode = .mode64 ∨ rex = none) (h : decodeLegacy c pre rex bs = .instr i) :
    Accepts c (pre.map Pre.byte ++ ((rex.map rexByte).toList ++ 0x0F :: bs)) i := by
  unfold decodeLegacy at h
  split at h
  next => cases h
  next opc bs =>
    split at h
    next => cases h
    next row hrow =>
      split at h
      next => cases h
      next reg rm hmodRM =>
        obtain ⟨hrm, rest, rfl⟩ := parseModRM_eq_some hmodRM
        split_ifs at h with hlock hstrict ha16
        cases h
        obtain ⟨hbytes, hok⟩ := legacyRow_encodes c ⟨pre, rex, reg, rm⟩ hrow
        refine ⟨fun hlen => ?_, rest, ?_⟩
        · rw [hok]
          rw [hbytes, encodeLegacy_length] at hlen
          exact LegacyOp.ok_iff.2 ⟨⟨hplaced.mode, hrm, Bool.not_eq_true _ ▸ ha16⟩, rfl, hlock, Bool.not_eq_true _ ▸ hstrict,
            hrex, fun hnone => hplaced.last (by rw [show rex = none from hnone]; rfl), hlen⟩
        · rw [hbytes, encodeLegacy_eq, List.append_assoc, List.append_assoc]
          rfl

theorem finishVex_accepts {c : DecodeCtx} {pre : List Pre} {fieldsOk a16 : Bool} {i j : Instr}
    (h : finishVex c pre fieldsOk a16 i = .instr j) : VexPreOk c pre ∧ fieldsOk = true ∧ a16 = false ∧ i = j := by
  unfold finishVex at h
  split_ifs at h with hbad hfields hstrict ha16
  cases h
  refine ⟨⟨Bool.not_eq_true _ ▸ hbad, Bool.not_eq_true _ ▸ hstrict⟩, ?_, Bool.not_eq_true _ ▸ ha16, rfl⟩
  rwa [Bool.not_eq_true, Bool.not_eq_false'] at hfields

/-- Outside Mode64 the two top bits of the first payload byte are 11b in a VEX or EVEX form (R84). -/
theorem recognised_of_top {c : DecodeCtx} {b : Byte} (h : ¬(c.mode ≠ .mode64 ∧ b.extractLsb' 6 2 ≠ 3)) :
    c.mode = .mode64 ∨ (!b.getLsbD 7) = false ∧ (!b.getLsbD 6) = false := by
  rw [not_and_or, not_not, not_not, extractLsb'_six_two_eq_three] at h
  simpa using h

theorem vex3P0With_extract {p0 : Byte} (h : p0.extractLsb' 0 5 = 1) (pre : List Pre) (w : Bool) (reg : BitVec 3) (rm : Rm) :
    vex3P0With 1 ⟨pre, !p0.getLsbD 7, !p0.getLsbD 6, !p0.getLsbD 5, w, reg, rm⟩ = p0 := by
  have hbyte : ∀ b : Byte, b.extractLsb' 0 5 = 1 →
      BitVec.ofBool (!!b.getLsbD 7) ++ BitVec.ofBool (!!b.getLsbD 6) ++ BitVec.ofBool (!!b.getLsbD 5) ++ 1#5 = b := by
    decide
  exact hbyte p0 h

theorem vexPWith_extract {b : Byte} (h : b.extractLsb' 3 4 = 15) :
    vexPWith (b.getLsbD 7) 15 (b.getLsbD 2) (.ofField (b.extractLsb' 0 2)) = b := by
  revert b; decide

theorem decodeVex3_accepts {c : DecodeCtx} {pre : List Pre} {bs : List Byte} {i : Instr}
    (hmode : ∀ r, .rex r ∈ pre → (c.mode == .mode64) = true) (h : decodeVex3 c pre bs = .instr i) :
    Accepts c (pre.map Pre.byte ++ 0xC4 :: bs) i := by
  unfold decodeVex3 at h
  split at h
  next => cases h
  next p0 bs =>
    split at h
    next => cases h
    next hvex =>
      split at h
      next p1 opc bs =>
        split at h
        next =>
          unfold otherVexMap at h
          split at h
          next => cases h
          next => split at h <;> cases h
        next hmap =>
          rw [not_not] at hmap
          split at h
          next => cases h
          next row hrow =>
            split at h
            next => cases h
            next reg rm hmodRM =>
              obtain ⟨hrm, rest, rfl⟩ := parseModRM_eq_some hmodRM
              split at h
              next => cases h
              next =>
                obtain ⟨hpre, hvvvv, ha16, rfl⟩ := finishVex_accepts h
                obtain ⟨hbytes, hok⟩ := vex3Row_encodes c
                  ⟨pre, !p0.getLsbD 7, !p0.getLsbD 6, !p0.getLsbD 5, p1.getLsbD 7, reg, rm⟩ hrow
                rw [encodeVex3_eq_bytesWith] at hbytes
                refine ⟨fun hlen => ?_, rest, ?_⟩
                · rw [hok]
                  rw [hbytes, vex3BytesWith_length] at hlen
                  exact Vex3Op.ok_iff.2 ⟨⟨hmode, hrm, ha16⟩, hpre, recognised_of_top hvex, hlen⟩
                · rw [hbytes, vex3BytesWith_eq, vex3P0With_extract hmap, vexPWith_extract (eq_of_beq hvvvv), List.append_assoc]
                  rfl
      next => cases h

theorem decodeVex2_accepts {c : DecodeCtx} {pre : List Pre} {bs : List Byte} {i : Instr}
    (hmode : ∀ r, .rex r ∈ pre → (c.mode == .mode64) = true) (h : decodeVex2 c pre bs = .instr i) :
    Accepts c (pre.map Pre.byte ++ 0xC5 :: bs) i := by
  unfold decodeVex2 at h
  split at h
  next => cases h
  next p0 bs =>
    split at h
    next => cases h
    next hvex =>
      split at h
      next opc bs =>
        split at h
        next => cases h
        next row hrow =>
          split at h
          next => cases h
          next reg rm hmodRM =>
            obtain ⟨hrm, rest, rfl⟩ := parseModRM_eq_some hmodRM
            obtain ⟨hpre, hvvvv, ha16, rfl⟩ := finishVex_accepts h
            obtain ⟨hbytes, hok⟩ := vex2Row_encodes c ⟨pre, !p0.getLsbD 7, reg, rm⟩ hrow
            rw [encodeVex2_eq_bytesWith] at hbytes
            refine ⟨fun hlen => ?_, rest, ?_⟩
            · rw [hok]
              rw [hbytes, vex2BytesWith_length] at hlen
              exact Vex2Op.ok_iff.2 ⟨⟨hmode, hrm, ha16⟩, hpre, (recognised_of_top hvex).imp_right And.left, hlen⟩
            · rw [hbytes, vex2BytesWith_eq, Bool.not_not, vexPWith_extract (eq_of_beq hvvvv), List.append_assoc]
              rfl
      next => cases h

theorem evexBitsOk_fields {p0 p1 p2 : Byte} {rm : Rm} (h : evexBitsOk p0 p1 p2 rm = true) :
    p1.extractLsb' 3 4 = 15 ∧ p2.getLsbD 3 = true ∧ p0.extractLsb' 2 2 = 0 ∧ p1.getLsbD 2 = true
      ∧ (p2.getLsbD 7 && p2.extractLsb' 0 3 == 0) = false
      ∧ (p2.extractLsb' 5 2 = 3 → p2.getLsbD 4 = true ∧ rm.isReg = true) := by
  unfold evexBitsOk at h
  rw [Bool.and_eq_true, Bool.and_eq_true, Bool.and_eq_true, Bool.and_eq_true, Bool.and_eq_true, Bool.not_eq_true',
    Bool.not_eq_true', beq_iff_eq, beq_iff_eq] at h
  obtain ⟨⟨⟨⟨⟨hv, hv'⟩, hres⟩, hfixed⟩, hz⟩, hll⟩ := h
  refine ⟨hv, hv', hres, hfixed, hz, fun h3 => ?_⟩
  rw [h3, beq_self_eq_true, Bool.true_and, Bool.not_eq_false', Bool.and_eq_true] at hll
  exact hll

theorem evexP0_bits {b : Byte} (hmap : b.extractLsb' 0 2 = 1) (hres : b.extractLsb' 2 2 = 0) :
    BitVec.ofBool (!!b.getLsbD 7) ++ BitVec.ofBool (!!b.getLsbD 6) ++ BitVec.ofBool (!!b.getLsbD 5)
      ++ BitVec.ofBool (!!b.getLsbD 4) ++ 0b0001#4 = b := by
  revert b; decide

theorem evexP1_bits {b : Byte} (hv : b.extractLsb' 3 4 = 15) (hfixed : b.getLsbD 2 = true) (hpp : b.extractLsb' 0 2 = 2)
    (hw : b.getLsbD 7 = false) : b = 0x7E := by
  revert b; decide

theorem evexP2_bits {b : Byte} (hv' : b.getLsbD 3 = true) :
    BitVec.ofBool (b.getLsbD 7) ++ b.extractLsb' 5 2 ++ BitVec.ofBool (b.getLsbD 4) ++ 0b1#1 ++ b.extractLsb' 0 3 = b := by
  revert b; decide

theorem rowLL_length {ll : BitVec 2} {bc reg : Bool} (h : ll = 3 → bc = true ∧ reg = true) :
    ll = rowLL ll ∨ rowLL ll = 2 ∧ ll = 3 ∧ bc = true ∧ reg = true := by
  by_cases h3 : ll = 3
  · exact .inr ⟨if_pos h3, h3, h h3⟩
  · exact .inl (if_neg h3).symm

theorem decodeEvex_accepts {c : DecodeCtx} {pre : List Pre} {bs : List Byte} {i : Instr}
    (hmode : ∀ r, .rex r ∈ pre → (c.mode == .mode64) = true) (h : decodeEvex c pre bs = .instr i) :
    Accepts c (pre.map Pre.byte ++ 0x62 :: bs) i := by
  unfold decodeEvex at h
  split at h
  next => cases h
  next p0 bs =>
    split at h
    next => cases h
    next hevex =>
      split at h
      next p1 p2 opc bs =>
        split at h
        next => cases h
        next hmap =>
        rw [not_not] at hmap
        split at h
        next => cases h
        next hopc =>
        rw [not_or, not_not, not_not] at hopc
        obtain ⟨rfl, hpp⟩ := hopc
        split at h
        next => cases h
        next hw =>
        split at h
        next => cases h
        next reg rm hmodRM =>
          obtain ⟨hrm, rest, rfl⟩ := parseModRM_eq_some hmodRM
          split at h
          next => cases h
          next hext =>
            obtain ⟨hpre, hfields, ha16, rfl⟩ := finishVex_accepts h
            obtain ⟨hv, hv', hres, hfixed, hz, hll⟩ := evexBitsOk_fields hfields
            obtain rfl := evexP1_bits hv hfixed hpp (Bool.not_eq_true _ ▸ hw)
            obtain ⟨hbytes, hok⟩ := evexRow_encodes c (p2.extractLsb' 5 2)
              ⟨pre, !p0.getLsbD 7, !p0.getLsbD 6, !p0.getLsbD 5, !p0.getLsbD 4, p2.getLsbD 7, p2.extractLsb' 5 2,
                p2.getLsbD 4, p2.extractLsb' 0 3, reg, rm⟩
            have hneutral : extensionRefused c.mode = false ∨ (!p0.getLsbD 5) = false ∧ (!p0.getLsbD 4) = false := by
              rw [not_and_or, not_or, not_not, extractLsb'_four_two_eq_three, Bool.not_eq_true] at hext
              exact hext.imp_right fun ⟨⟨h5, h4⟩, _⟩ => ⟨by rw [h5]; rfl, by rw [h4]; rfl⟩
            have ha16' : addr16Refused c rm = false := by
              rw [evexAddr16Refused] at ha16
              rw [addr16Refused, ha16, Bool.false_and]
            refine ⟨fun hlen => ?_, rest, ?_⟩
            · rw [hok]
              rw [hbytes] at hlen
              exact EvexOp.ok_iff.2 ⟨⟨hmode, hrm, ha16'⟩, hpre, recognised_of_top hevex, hneutral, ha16, hz,
                rowLL_length hll, hlen⟩
            · rw [hbytes, encodeEvex, evexP0_bits hmap hres, evexP2_bits hv', List.append_assoc]
              rfl
      next => cases h

theorem decodeBody_accepts {c : DecodeCtx} {bs : List Byte} {i : Instr} (h : decodeBody c bs = .instr i) :
    Accepts c bs i := by
  have hread := parsePrefixes_read (c.mode == .mode64) bs
  unfold decodeBody at h
  dsimp only at h
  generalize (parsePrefixes (c.mode == .mode64) bs).1 = pre at h hread
  generalize (parsePrefixes (c.mode == .mode64) bs).2.1 = rex at h hread
  generalize (parsePrefixes (c.mode == .mode64) bs).2.2 = tail at h hread
  obtain ⟨rfl, hplaced, hrex⟩ := hread
  split at h
  next => cases h
  next b bs =>
    have hnone (hb : b ≠ 0x0F) : rex = none := by
      by_contra hsome
      exact hb (Option.some.inj (hrex hsome).2)
    split at h
    next hb =>
      subst hb
      refine decodeLegacy_accepts hplaced ?_ h
      by_cases hsome : rex = none
      · exact .inr hsome
      · exact .inl (eq_of_beq (hrex hsome).1)
    next hb =>
      obtain rfl := hnone hb
      split at h
      next hb => subst hb; exact decodeVex2_accepts hplaced.mode h
      next =>
        split at h
        next hb => subst hb; exact decodeVex3_accepts hplaced.mode h
        next =>
          split at h
          next hb => subst hb; exact decodeEvex_accepts hplaced.mode h
          next => cases h

theorem decode_eq_instr {c : DecodeCtx} {bytes : List Byte} {i : Instr} (h : decode c bytes = .instr i) :
    decodeBody c (bytes.take 15) = .instr i := by
  unfold decode at h
  split at h
  next => split at h <;> cases h
  next => exact h

/-- Settles O2: the bytes the decoder looks at, at most 15, begin with the encoding of the instruction it answers. -/
theorem decodedBytesAreTheEncoding : Obligations.DecodedBytesAreTheEncoding := by
  intro c bytes i h
  obtain ⟨hok, rest, hbytes⟩ := decodeBody_accepts (decode_eq_instr h)
  have hlen : (encode i).length ≤ 15 := by
    have htake := congrArg List.length hbytes
    rw [List.length_take, List.length_append] at htake
    omega
  refine ⟨hok hlen, rest ++ bytes.drop 15, ?_⟩
  rw [← List.append_assoc, ← hbytes, List.take_append_drop]

end Sys2Proof
end

/-! Bytes that end too early, and bytes that are too long (R60, D10, U13). A proper part of a form's bytes is no instruction
yet, in each layout and with any value of the fields the decoder checks; so a form of more than 15 bytes is too long, and the
fetch of a shorter one goes on to its last byte. -/
section

namespace Sys2Proof

open Machine

/-! ### A proper part of ModRM and what it calls for (R64 to R67) -/

theorem parseDisp_take {d : Disp} {n : Nat} (h : n < d.bytes.length) : parseDisp d.md (d.bytes.take n) = none := by
  cases d with
  | none => exact absurd h (Nat.not_lt_zero n)
  | d8 d =>
    obtain rfl : n = 0 := Nat.lt_one_iff.1 h
    rfl
  | d32 d =>
    have h4 : n < 4 := h
    interval_cases n <;> rfl

theorem parseSib_take {scale : BitVec 2} {index base : BitVec 3} {d : Disp} {n : Nat} (h : n < d.bytes.length + 1)
    (hbase : ¬(base = 5 ∧ d = .none)) : parseSib d.md ((sibByte scale index base :: d.bytes).take n) = none := by
  cases n with
  | zero => rfl
  | succ n =>
    rw [List.take_succ_cons]
    unfold parseSib
    dsimp only
    rw [sibByte_base, if_neg fun hcond => hbase ⟨hcond.1, Disp.md_eq_zero.1 hcond.2⟩,
      parseDisp_take (Nat.lt_of_succ_lt_succ h)]
    rfl

theorem parseSib_noBase_take {scale : BitVec 2} {index : BitVec 3} {d : BitVec 32} {n : Nat} (h : n < 5) :
    parseSib 0 ((sibByte scale index 5 :: bytes32 d).take n) = none := by
  cases n with
  | zero => rfl
  | succ n =>
    rw [List.take_succ_cons]
    unfold parseSib
    dsimp only
    rw [sibByte_base, if_pos ⟨rfl, rfl⟩]
    have h4 : n < 4 := Nat.lt_of_succ_lt_succ h
    interval_cases n <;> rfl

theorem parseMem16_take {rm : BitVec 3} {d : Disp16} {n : Nat} (h : n < d.bytes.length) :
    parseMem16 d.md rm (d.bytes.take n) = none := by
  cases d with
  | none => exact absurd h (Nat.not_lt_zero n)
  | d8 d =>
    obtain rfl : n = 0 := Nat.lt_one_iff.1 h
    rfl
  | d16 d =>
    have h2 : n < 2 := h
    interval_cases n <;> rfl

theorem parseMem32_sib (md : BitVec 2) (bs : List Byte) : parseMem32 md 4 bs = parseSib md bs := rfl

theorem parseMem32_base {md : BitVec 2} {rm : BitVec 3} (bs : List Byte) (hsib : rm ≠ 4) (hdisp : ¬(rm = 5 ∧ md = 0)) :
    parseMem32 md rm bs = (parseDisp md bs).map (.base rm) := by
  unfold parseMem32
  rw [if_neg hsib, if_neg hdisp]

theorem parseModRM_take {asz : AddrSize} {reg : BitVec 3} {rm : Rm} {n : Nat} (hok : rm.ok asz = true)
    (h : n < (encodeModRM reg rm).length) : parseModRM asz ((encodeModRM reg rm).take n) = none := by
  cases n with
  | zero => rfl
  | succ n =>
    cases rm with
    | reg m => exact absurd (Nat.lt_of_succ_lt_succ h) (Nat.not_lt_zero n)
    | mem a =>
      cases a with
      | base rm d =>
        obtain ⟨⟨hasz, hsib⟩, hdisp⟩ : (asz ≠ .a16 ∧ rm ≠ 4#3) ∧ ¬(rm = 5#3 ∧ d = .none) := by
          simpa [Rm.ok, AddrForm.ok, ← not_and_or] using hok
        rw [encodeModRM, List.take_succ_cons, parseModRM_mem32 _ _ _ hasz d.md_ne_three,
          parseMem32_base _ hsib fun hcond => hdisp ⟨hcond.1, Disp.md_eq_zero.1 hcond.2⟩,
          parseDisp_take (Nat.lt_of_succ_lt_succ h)]
        rfl
      | disp32 d =>
        have hasz : asz ≠ .a16 := by simpa [Rm.ok, AddrForm.ok] using hok
        rw [encodeModRM, List.take_succ_cons, parseModRM_mem32 _ _ _ hasz (by decide)]
        have h4 : n < 4 := Nat.lt_of_succ_lt_succ h
        interval_cases n <;> rfl
      | sib scale index base d =>
        obtain ⟨hasz, hbase⟩ : asz ≠ .a16 ∧ ¬(base = 5#3 ∧ d = .none) := by
          simpa [Rm.ok, AddrForm.ok, ← not_and_or] using hok
        rw [encodeModRM, List.take_succ_cons, parseModRM_mem32 _ _ _ hasz d.md_ne_three, parseMem32_sib,
          parseSib_take (Nat.lt_of_succ_lt_succ h) hbase]
        rfl
      | sibNoBase scale index d =>
        have hasz : asz ≠ .a16 := by simpa [Rm.ok, AddrForm.ok] using hok
        rw [encodeModRM, List.take_succ_cons, parseModRM_mem32 _ _ _ hasz (by decide), parseMem32_sib,
          parseSib_noBase_take (Nat.lt_of_succ_lt_succ h)]
        rfl
      | a16 rm d =>
        obtain ⟨rfl, -⟩ : asz = .a16 ∧ ¬(rm = 6#3 ∧ d = .none) := by
          simpa [Rm.ok, AddrForm.ok, ← not_and_or] using hok
        rw [encodeModRM, List.take_succ_cons, parseModRM_mem16 _ _ _ d.md_ne_three,
          parseMem16_take (Nat.lt_of_succ_lt_succ h)]
        rfl
      | a16Disp d =>
        obtain rfl : asz = .a16 := by simpa [Rm.ok, AddrForm.ok] using hok
        rw [encodeModRM, List.take_succ_cons, parseModRM_mem16 _ _ _ (by decide)]
        have h2 : n < 2 := Nat.lt_of_succ_lt_succ h
        interval_cases n <;> rfl

/-! ### A proper part of each layout -/

theorem decodeLegacy_take {c : DecodeCtx} {pre : List Pre} {rex : Option (BitVec 4)} {opc : Byte} {reg : BitVec 3}
    {rm : Rm} {n : Nat} (hrow : (legacyRow (mandatory pre) opc).isSome = true)
    (hrm : rm.ok (addrSize c.mode pre) = true) (h : n < (encodeModRM reg rm).length + 1) :
    decodeLegacy c pre rex ((opc :: encodeModRM reg rm).take n) = .truncated := by
  obtain ⟨row, hrow⟩ := Option.isSome_iff_exists.1 hrow
  cases n with
  | zero => rfl
  | succ n => simp only [List.take_succ_cons, decodeLegacy, hrow, parseModRM_take hrm (Nat.lt_of_succ_lt_succ h)]

theorem decodeVex3_take {c : DecodeCtx} {map : BitVec 5} {v : BitVec 4} {pp : Pp} {l : Bool} {opc : Byte} {p : Vex3Op}
    {n : Nat} (hvex : p.Recognised c) (hrm : p.rm.ok (addrSize c.mode p.pre) = true) (h2 : map ≠ 2) (h3 : map ≠ 3)
    (hrow : map = 1 → (vex3Row pp l opc).isSome = true) (h : n < (encodeModRM p.reg p.rm).length + 3) :
    decodeVex3 c p.pre ((vex3P0With map p :: vexPWith p.w v l pp :: opc :: encodeModRM p.reg p.rm).take n)
      = .truncated := by
  obtain ⟨hmap, hr, hx, -⟩ := vex3P0With_fields map p
  obtain ⟨-, -, hl, hpp⟩ := vexPWith_fields p.w v l pp
  have htop := mt (not_vexless_iff hr hx).1 (not_not.2 hvex)
  match n with
  | 0 => rfl
  | 1 | 2 => simp only [List.take_succ_cons, List.take_zero, decodeVex3, htop, if_false]
  | n + 3 =>
    have hmodRM := parseModRM_take hrm (show n < (encodeModRM p.reg p.rm).length by omega)
    by_cases h1 : map = 1
    · subst h1
      obtain ⟨row, hrow⟩ := Option.isSome_iff_exists.1 (hrow rfl)
      simp only [List.take_succ_cons, decodeVex3, htop, if_false, hmap, ne_eq, not_true_eq_false, hpp, hl, hrow, hmodRM]
    · simp only [List.take_succ_cons, decodeVex3, htop, if_false, hmap, ne_eq, h1, not_false_eq_true, if_true,
        otherVexMap, h2, h3, or_self, hmodRM]

theorem decodeVex2_take {c : DecodeCtx} {v : BitVec 4} {pp : Pp} {l : Bool} {opc : Byte} {p : Vex2Op}
    {n : Nat} (hvex : c.mode = .mode64 ∨ p.r = false ∧ v.getLsbD 3 = true)
    (hrm : p.rm.ok (addrSize c.mode p.pre) = true) (hrow : (vex2Row pp l opc).isSome = true)
    (h : n < (encodeModRM p.reg p.rm).length + 2) :
    decodeVex2 c p.pre ((vexPWith (!p.r) v l pp :: opc :: encodeModRM p.reg p.rm).take n) = .truncated := by
  obtain ⟨-, hr, hl, hpp⟩ := vexPWith_fields (!p.r) v l pp
  have hx : (vexPWith (!p.r) v l pp).getLsbD 6 = !!v.getLsbD 3 := by rw [Bool.not_not, vexPWith_six]
  have htop := mt (not_vexless_iff hr hx (c := c)).1 (by rw [Bool.not_eq_false']; exact not_not.2 hvex)
  obtain ⟨row, hrow⟩ := Option.isSome_iff_exists.1 hrow
  match n with
  | 0 => rfl
  | 1 => simp only [List.take_succ_cons, List.take_zero, decodeVex2, htop, if_false]
  | n + 2 =>
    have hmodRM := parseModRM_take hrm (show n < (encodeModRM p.reg p.rm).length by omega)
    simp only [List.take_succ_cons, decodeVex2, htop, if_false, hpp, hl, hrow, hmodRM]

theorem decodeEvex_take {c : DecodeCtx} {v : BitVec 4} {v' : Bool} {reserved : BitVec 2} {fixed : Bool} {p : EvexOp}
    {n : Nat} (hevex : p.Recognised c) (hrm : p.rm.ok (addrSize c.mode p.pre) = true)
    (h : n < (encodeModRM p.reg p.rm).length + 4) :
    decodeEvex c p.pre ((evexP0With reserved p :: evexP1With v fixed :: evexP2With v' p :: 0xE6
      :: encodeModRM p.reg p.rm).take n) = .truncated := by
  obtain ⟨hmap, -, hr, hx, -, -⟩ := evexP0With_fields reserved p
  obtain ⟨-, hpp, -, hw⟩ := evexP1With_fields v fixed
  have htop := mt (not_vexless_iff hr hx).1 (not_not.2 hevex)
  match n with
  | 0 => rfl
  | 1 | 2 | 3 => simp only [List.take_succ_cons, List.take_zero, decodeEvex, htop, if_false]
  | n + 4 =>
    have hmodRM := parseModRM_take hrm (show n < (encodeModRM p.reg p.rm).length by omega)
    simp only [List.take_succ_cons, decodeEvex, htop, if_false, hmap, hpp, hw, Bool.false_eq_true, hmodRM]
    rfl

/-! ### A proper part of an encoding -/

/-- Prefix bytes alone are no instruction yet. -/
theorem decodeBody_prefixes {c : DecodeCtx} {pre : List Pre} (h : ∀ r, .rex r ∈ pre → (c.mode == .mode64) = true) :
    decodeBody c (pre.map Pre.byte) = .truncated := by
  have hparse := parsePrefixes_map_byte (tail := []) ⟨h, nofun⟩
  rw [List.append_nil] at hparse
  rw [decodeBody, hparse]
  rfl

theorem take_map_byte {pre : List Pre} {n : Nat} (tail : List Byte) (hn : n ≤ pre.length) :
    (pre.map Pre.byte ++ tail).take n = (pre.take n).map Pre.byte := by
  rw [List.take_append_of_le_length (by rwa [List.length_map]), List.map_take]

theorem take_map_byte_append {pre : List Pre} (tail : List Byte) (k : Nat) :
    (pre.map Pre.byte ++ tail).take (pre.length + k) = pre.map Pre.byte ++ tail.take k := by
  rw [← List.length_map (f := Pre.byte), List.take_length_add_append]

theorem decodeBody_take_prefixes {c : DecodeCtx} {pre : List Pre} {n : Nat} (tail : List Byte)
    (h : ∀ r, .rex r ∈ pre → (c.mode == .mode64) = true) (hn : n ≤ pre.length) :
    decodeBody c ((pre.map Pre.byte ++ tail).take n) = .truncated := by
  rw [take_map_byte tail hn]
  exact decodeBody_prefixes fun r hr => h r (List.mem_of_mem_take hr)

theorem decodeBody_take_lead {c : DecodeCtx} {pre : List Pre} {b : Byte} {body : List Byte} {n : Nat}
    (hmode : ∀ r, .rex r ∈ pre → (c.mode == .mode64) = true) (hb : b ∈ [(0xC5 : Byte), 0xC4, 0x62])
    (hn : n < (pre.map Pre.byte ++ b :: body).length)
    (h : ∀ k < body.length, (if b = 0xC5 then decodeVex2 c pre (body.take k)
      else if b = 0xC4 then decodeVex3 c pre (body.take k) else decodeEvex c pre (body.take k)) = .truncated) :
    decodeBody c ((pre.map Pre.byte ++ b :: body).take n) = .truncated := by
  by_cases hle : n ≤ pre.length
  · exact decodeBody_take_prefixes _ hmode hle
  · obtain ⟨k, rfl⟩ : ∃ k, n = pre.length + (k + 1) := ⟨n - pre.length - 1, by omega⟩
    have hescape : b ≠ 0x0F := fun e => absurd (e ▸ hb) (by decide)
    have hk : k < body.length := by
      rw [List.length_append, List.length_map, List.length_cons] at hn; omega
    rw [take_map_byte_append, List.take_succ_cons,
      decodeBody_lead _ (rexPlaced_of_ne_escape _ hescape hmode) (List.mem_cons_of_mem _ hb), if_neg hescape]
    exact h k hk

theorem decodeBody_take_vex3 {c : DecodeCtx} {map : BitVec 5} {v : BitVec 4} {pp : Pp} {l : Bool} {opc : Byte}
    {p : Vex3Op} {n : Nat} (hmode : ∀ r, .rex r ∈ p.pre → (c.mode == .mode64) = true) (hvex : p.Recognised c)
    (hrm : p.rm.ok (addrSize c.mode p.pre) = true) (h2 : map ≠ 2) (h3 : map ≠ 3)
    (hrow : map = 1 → (vex3Row pp l opc).isSome = true) (h : n < (vex3BytesWith map v pp l opc p).length) :
    decodeBody c ((vex3BytesWith map v pp l opc p).take n) = .truncated :=
  decodeBody_take_lead hmode (by decide) h fun _ hk => decodeVex3_take hvex hrm h2 h3 hrow hk

theorem decodeBody_take_vex2 {c : DecodeCtx} {v : BitVec 4} {pp : Pp} {l : Bool} {opc : Byte}
    {p : Vex2Op} {n : Nat} (hmode : ∀ r, .rex r ∈ p.pre → (c.mode == .mode64) = true)
    (hvex : c.mode = .mode64 ∨ p.r = false ∧ v.getLsbD 3 = true) (hrm : p.rm.ok (addrSize c.mode p.pre) = true)
    (hrow : (vex2Row pp l opc).isSome = true) (h : n < (vex2BytesWith v pp l opc p).length) :
    decodeBody c ((vex2BytesWith v pp l opc p).take n) = .truncated :=
  decodeBody_take_lead hmode (by decide) h fun _ hk => decodeVex2_take hvex hrm hrow hk

theorem decodeBody_take_evex {c : DecodeCtx} {v : BitVec 4} {v' : Bool} {reserved : BitVec 2} {fixed : Bool}
    {p : EvexOp} {n : Nat} (hmode : ∀ r, .rex r ∈ p.pre → (c.mode == .mode64) = true) (hevex : p.Recognised c)
    (hrm : p.rm.ok (addrSize c.mode p.pre) = true) (h : n < (evexBytesWith v v' reserved fixed p).length) :
    decodeBody c ((evexBytesWith v v' reserved fixed p).take n) = .truncated :=
  decodeBody_take_lead hmode (by decide) h fun _ hk => decodeEvex_take hevex hrm hk

theorem decodeBody_take_legacy {c : DecodeCtx} {opc : Byte} {p : LegacyOp} {n : Nat}
    (hplaced : ∀ bs, RexPlaced (c.mode == .mode64) p.pre ((p.rex.map rexByte).toList ++ 0x0F :: bs))
    (hrex : c.mode = .mode64 ∨ p.rex = none) (hrm : p.rm.ok (addrSize c.mode p.pre) = true)
    (hrow : (legacyRow (mandatory p.pre) opc).isSome = true) (h : n < (encodeLegacy opc p).length) :
    decodeBody c ((encodeLegacy opc p).take n) = .truncated := by
  have hmode := (hplaced []).mode
  have hlegacy (k : Nat) (hk : k < (encodeModRM p.reg p.rm).length + 1) :
      decodeBody c (p.pre.map Pre.byte ++ ((p.rex.map rexByte).toList ++ 0x0F :: (opc :: encodeModRM p.reg p.rm).take k))
        = .truncated := by
    rw [decodeBody_legacy _ (hplaced _) hrex, decodeLegacy_take hrow hrm hk]
  rw [encodeLegacy_eq] at h ⊢
  by_cases hle : n ≤ p.pre.length
  · exact decodeBody_take_prefixes _ hmode hle
  · rw [List.length_append, List.length_map] at h
    rcases hr : p.rex with _ | r
    · obtain ⟨k, rfl⟩ : ∃ k, n = p.pre.length + (k + 1) := ⟨n - p.pre.length - 1, by omega⟩
      rw [hr] at h hlegacy
      rw [take_map_byte_append]
      exact hlegacy k (Nat.lt_of_succ_lt_succ (Nat.lt_of_add_lt_add_left h))
    · have hm : (c.mode == .mode64) = true := beq_iff_eq.2 (hrex.resolve_right (by rw [hr]; nofun))
      rw [hr] at h hlegacy
      by_cases hone : n = p.pre.length + 1
      · have hbytes : p.pre.map Pre.byte ++ [rexByte r] = (p.pre ++ [Pre.rex r]).map Pre.byte := by
          rw [List.map_append]; rfl
        rw [hone, take_map_byte_append]
        exact hbytes ▸ decodeBody_prefixes fun _ _ => hm
      · obtain ⟨k, rfl⟩ : ∃ k, n = p.pre.length + (k + 2) := ⟨n - p.pre.length - 2, by omega⟩
        rw [take_map_byte_append]
        exact hlegacy k (Nat.lt_of_succ_lt_succ (Nat.lt_of_succ_lt_succ (Nat.lt_of_add_lt_add_left h)))

/-! ### Too long, or not finished (R60) -/

theorem decode_eq_tooLong_of_truncated {c : DecodeCtx} {bs : List Byte} (hlen : 15 ≤ bs.length)
    (h : decodeBody c (bs.take 15) = .truncated) (rest : List Byte) : decode c (bs ++ rest) = .tooLong := by
  have hlen' : 15 ≤ (bs ++ rest).length := by rw [List.length_append]; omega
  rw [decode, List.take_append_of_le_length hlen, h]
  exact if_pos hlen'

theorem exists_prefixes_of_bytes {bs : List Byte} (h : ∀ b ∈ bs, (Pre.ofByte b).isSome = true) :
    ∃ pre : List Pre, pre.map Pre.byte = bs ∧ ∀ q ∈ pre, ∀ r, q ≠ .rex r := by
  induction bs with
  | nil => exact ⟨[], rfl, nofun⟩
  | cons b bs ih =>
    obtain ⟨hb, hbs⟩ := List.forall_mem_cons.1 h
    obtain ⟨q, hq⟩ := Option.isSome_iff_exists.1 hb
    obtain ⟨hbyte, hrex⟩ := Pre.ofByte_eq_some hq
    obtain ⟨pre, rfl, hpre⟩ := ih hbs
    exact ⟨q :: pre, by rw [List.map_cons, hbyte], List.forall_mem_cons.2 ⟨hrex, hpre⟩⟩

theorem rex_mode_of_no_rex {m : Bool} {pre : List Pre} (h : ∀ q ∈ pre, ∀ r, q ≠ .rex r) (r : BitVec 4)
    (hr : .rex r ∈ pre) : m = true := absurd rfl (h _ hr r)

theorem decode_longLegacy {c : DecodeCtx} {opc : Byte} {p : LegacyOp} (rest : List Byte)
    (hrex : c.mode = .mode64 ∨ p.rex = none) (hpre : ∀ q ∈ p.pre, ∀ r, q ≠ .rex r)
    (hrm : p.rm.ok (addrSize c.mode p.pre) = true) (hrow : (legacyRow (mandatory p.pre) opc).isSome = true)
    (hlen : 15 < (encodeLegacy opc p).length) : decode c (encodeLegacy opc p ++ rest) = .tooLong := by
  have hplaced (bs : List Byte) :
      RexPlaced (c.mode == .mode64) p.pre ((p.rex.map rexByte).toList ++ 0x0F :: bs) :=
    ⟨rex_mode_of_no_rex hpre, fun _ r hr => hpre _ (List.mem_of_getLast? hr) r rfl⟩
  exact decode_eq_tooLong_of_truncated hlen.le (decodeBody_take_legacy hplaced hrex hrm hrow hlen) rest

theorem decode_prefix_bytes {c : DecodeCtx} {bytes : List Byte} (rest : List Byte) (hlen : bytes.length = 15)
    (h : ∀ b ∈ bytes, (Pre.ofByte b).isSome = true) : decode c (bytes ++ rest) = .tooLong := by
  obtain ⟨pre, rfl, hpre⟩ := exists_prefixes_of_bytes h
  refine decode_eq_tooLong_of_truncated hlen.ge ?_ rest
  rw [List.take_of_length_le hlen.le]
  exact decodeBody_prefixes (rex_mode_of_no_rex hpre)

/-- A proper part of a well-formed instruction's bytes needs the byte after it. -/
theorem decodeBody_take_encode {c : DecodeCtx} {i : Instr} {n : Nat} (hok : i.wellFormed c = true)
    (hn : n < (encode i).length) : decodeBody c ((encode i).take n) = .truncated := by
  have legacy {pp : Pp} {opc : Byte} {p : LegacyOp} (hrow : (legacyRow pp opc).isSome = true) (hok : p.ok c pp = true)
      (hn : n < (encodeLegacy opc p).length) : decodeBody c ((encodeLegacy opc p).take n) = .truncated := by
    have h := LegacyOp.ok_iff.1 hok
    exact decodeBody_take_legacy (fun bs => h.rexPlaced _) h.rex h.common.modRM (h.mandatory.symm ▸ hrow) hn
  have vex3 {pp : Pp} {l : Bool} {opc : Byte} {p : Vex3Op} (hrow : (vex3Row pp l opc).isSome = true) (hok : p.ok c = true)
      (hn : n < (encodeVex3 pp l opc p).length) : decodeBody c ((encodeVex3 pp l opc p).take n) = .truncated := by
    obtain ⟨hcommon, -, hvex, -⟩ := Vex3Op.ok_iff.1 hok
    exact decodeBody_take_vex3 hcommon.rex hvex hcommon.modRM (by decide) (by decide) (fun _ => hrow) hn
  have vex2 {pp : Pp} {l : Bool} {opc : Byte} {p : Vex2Op} (hrow : (vex2Row pp l opc).isSome = true) (hok : p.ok c = true)
      (hn : n < (encodeVex2 pp l opc p).length) : decodeBody c ((encodeVex2 pp l opc p).take n) = .truncated := by
    obtain ⟨hcommon, -, hvex, -⟩ := Vex2Op.ok_iff.1 hok
    exact decodeBody_take_vex2 hcommon.rex (hvex.imp_right fun hr => ⟨hr, rfl⟩) hcommon.modRM hrow hn
  have evex {ll : BitVec 2} {p : EvexOp} (hok : p.ok c ll = true) (hn : n < (encodeEvex p).length) :
      decodeBody c ((encodeEvex p).take n) = .truncated := by
    have h := EvexOp.ok_iff.1 hok
    rw [encodeEvex_eq_bytesWith] at hn ⊢
    exact decodeBody_take_evex h.common.rex h.recognised h.common.modRM hn
  cases i with
  | cvtdq2pd p | cvtdq2ps p | cvtpd2dq p | cvtpd2pi p | cvtpd2ps p => exact legacy rfl hok hn
  | vcvtdq2pd128Vex3 p | vcvtdq2pd256Vex3 p | vcvtdq2ps128Vex3 p | vcvtdq2ps256Vex3 p | vcvtpd2dq128Vex3 p
  | vcvtpd2dq256Vex3 p | vcvtpd2ps128Vex3 p | vcvtpd2ps256Vex3 p => exact vex3 rfl hok hn
  | vcvtdq2pd128Vex2 p | vcvtdq2pd256Vex2 p | vcvtdq2ps128Vex2 p | vcvtdq2ps256Vex2 p | vcvtpd2dq128Vex2 p
  | vcvtpd2dq256Vex2 p | vcvtpd2ps128Vex2 p | vcvtpd2ps256Vex2 p => exact vex2 rfl hok hn
  | vcvtdq2pd128Evex p | vcvtdq2pd256Evex p | vcvtdq2pd512Evex p => exact evex hok hn

theorem encode_length_le {c : DecodeCtx} {i : Instr} (hok : i.wellFormed c = true) : (encode i).length ≤ 15 := by
  cases i with
  | cvtdq2pd p | cvtdq2ps p | cvtpd2dq p | cvtpd2pi p | cvtpd2ps p => exact (Laws.legacy_length _ hok).2
  | vcvtdq2pd128Vex3 p | vcvtdq2pd256Vex3 p | vcvtdq2ps128Vex3 p | vcvtdq2ps256Vex3 p | vcvtpd2dq128Vex3 p
  | vcvtpd2dq256Vex3 p | vcvtpd2ps128Vex3 p | vcvtpd2ps256Vex3 p => exact (Laws.vex3_length _ _ _ hok).2
  | vcvtdq2pd128Vex2 p | vcvtdq2pd256Vex2 p | vcvtdq2ps128Vex2 p | vcvtdq2ps256Vex2 p | vcvtpd2dq128Vex2 p
  | vcvtpd2dq256Vex2 p | vcvtpd2ps128Vex2 p | vcvtpd2ps256Vex2 p => exact (Laws.vex2_length _ _ _ hok).2
  | vcvtdq2pd128Evex p | vcvtdq2pd256Evex p | vcvtdq2pd512Evex p => exact (Laws.evex_length hok).2

theorem decode_take_encode {c : DecodeCtx} {i : Instr} {n : Nat} (hok : i.wellFormed c = true)
    (hn : n < (encode i).length) : decode c ((encode i).take n) = .truncated := by
  have hlen := encode_length_le hok
  have htake : ((encode i).take n).length = n := List.length_take_of_le hn.le
  rw [decode, List.take_of_length_le (by omega), decodeBody_take_encode hok hn]
  exact if_neg (by omega)

/-! ### What the answers "too long" and "truncated" say of the bytes -/

theorem decodeLegacy_ne_tooLong (c : DecodeCtx) (pre : List Pre) (rex : Option (BitVec 4)) (bs : List Byte) :
    decodeLegacy c pre rex bs ≠ .tooLong := by
  unfold decodeLegacy
  split
  next => nofun
  next =>
    split
    next => nofun
    next =>
      split
      next => nofun
      next => split_ifs <;> nofun

theorem finishVex_ne_tooLong (c : DecodeCtx) (pre : List Pre) (fieldsOk a16 : Bool) (i : Instr) :
    finishVex c pre fieldsOk a16 i ≠ .tooLong := by
  unfold finishVex
  split_ifs <;> nofun

theorem otherVexMap_ne_tooLong (map : BitVec 5) (modrm : Option (BitVec 3 × Rm)) :
    otherVexMap map modrm ≠ .tooLong := by
  unfold otherVexMap
  split
  next => nofun
  next => split <;> nofun

theorem decodeVex3_ne_tooLong (c : DecodeCtx) (pre : List Pre) (bs : List Byte) : decodeVex3 c pre bs ≠ .tooLong := by
  unfold decodeVex3
  split
  next => nofun
  next =>
    split
    next => nofun
    next =>
      split
      next =>
        split
        next => exact otherVexMap_ne_tooLong _ _
        next =>
          split
          next => nofun
          next =>
            split
            next => nofun
            next =>
              split
              next => nofun
              next => exact finishVex_ne_tooLong _ _ _ _ _
      next => nofun

theorem decodeVex2_ne_tooLong (c : DecodeCtx) (pre : List Pre) (bs : List Byte) : decodeVex2 c pre bs ≠ .tooLong := by
  unfold decodeVex2
  split
  next => nofun
  next =>
    split
    next => nofun
    next =>
      split
      next =>
        split
        next => nofun
        next =>
          split
          next => nofun
          next => exact finishVex_ne_tooLong _ _ _ _ _
      next => nofun

theorem decodeEvex_ne_tooLong (c : DecodeCtx) (pre : List Pre) (bs : List Byte) : decodeEvex c pre bs ≠ .tooLong := by
  unfold decodeEvex
  split
  next => nofun
  next =>
    split
    next => nofun
    next =>
      split
      next =>
        split
        next => nofun
        next =>
          split
          next => nofun
          next =>
            split
            next => nofun
            next =>
              split
              next => nofun
              next =>
                split
                next => nofun
                next => exact finishVex_ne_tooLong _ _ _ _ _
      next => nofun

theorem decodeBody_ne_tooLong (c : DecodeCtx) (bs : List Byte) : decodeBody c bs ≠ .tooLong := by
  unfold decodeBody
  dsimp only
  split
  next => nofun
  next =>
    split_ifs
    · exact decodeLegacy_ne_tooLong _ _ _ _
    · exact decodeVex2_ne_tooLong _ _ _
    · exact decodeVex3_ne_tooLong _ _ _
    · exact decodeEvex_ne_tooLong _ _ _
    · nofun

theorem decode_eq_tooLong_iff {c : DecodeCtx} {bs : List Byte} :
    decode c bs = .tooLong ↔ 15 ≤ bs.length ∧ decodeBody c (bs.take 15) = .truncated := by
  unfold decode
  split
  next htrunc =>
    rw [htrunc]
    split
    next h => exact ⟨fun _ => ⟨h, rfl⟩, fun _ => rfl⟩
    next h => exact ⟨nofun, fun hand => absurd hand.1 h⟩
  next hne => exact ⟨fun h => absurd h (decodeBody_ne_tooLong _ _), fun h => absurd h.2 hne⟩

theorem decode_eq_truncated_length {c : DecodeCtx} {bs : List Byte} (h : decode c bs = .truncated) : bs.length < 15 := by
  unfold decode at h
  split at h
  next =>
    split at h
    next => cases h
    next hlen => omega
  next hne => exact absurd h hne

end Sys2Proof

namespace Sys2Proof.Machine

/-! ### The fetch of bytes that end early (R40, D10, U13) -/

theorem FetchesBytes.take {s : State} {bs : List Byte} (h : FetchesBytes s bs) (n : Nat) : FetchesBytes s (bs.take n) := by
  intro j hj
  rw [List.length_take] at hj
  rw [List.getElem_take]
  exact h j (by omega)

theorem FetchesBytes.of_append {s : State} {bs rest : List Byte} (h : FetchesBytes s (bs ++ rest)) : FetchesBytes s bs := by
  have htake := h.take bs.length
  rwa [List.take_left'] at htake
  rfl

theorem FetchesBytes.fetchStop_eq_none {s : State} {bs : List Byte} (h : FetchesBytes s bs) {j : Nat}
    (hj : j < bs.length) : fetchStop s j = none ∧ s.mem.read (s.fetchLinear j).toNat = some bs[j] := by
  obtain ⟨hrange, hpage, hread⟩ := h j hj
  rw [fetchLinear_eq]
  exact ⟨fetchStop_eq_none_of_fetchable hrange hpage hread, hread⟩

/-- The fetch of bytes that can be had, and of a next one that cannot, or of no more than asked for. -/
theorem fetchFrom_eq_of_fetchable {s : State} {bs : List Byte} {n i : Nat} {stop : Option Stop}
    (h : ∀ j (hj : j < bs.length), fetchStop s (i + j) = none ∧ s.mem.read (s.fetchLinear (i + j)).toNat = some bs[j])
    (hend : bs.length = n ∧ stop = none ∨ bs.length < n ∧ fetchStop s (i + bs.length) = stop ∧ stop ≠ none) :
    fetchFrom s n i = (bs, stop) := by
  induction bs generalizing n i with
  | nil =>
    rcases hend with ⟨rfl, rfl⟩ | ⟨hlt, hstop, hne⟩
    · rfl
    · obtain ⟨e, rfl⟩ := Option.ne_none_iff_exists'.1 hne
      obtain ⟨m, rfl⟩ := Nat.exists_eq_succ_of_ne_zero (Nat.ne_of_gt hlt)
      have hstop : fetchStop s i = some e := hstop
      rw [fetchFrom, hstop]
  | cons b bs ih =>
    obtain ⟨m, rfl⟩ : ∃ m, n = m + 1 := by
      refine Nat.exists_eq_succ_of_ne_zero ?_
      rcases hend with ⟨hlen, -⟩ | ⟨hlen, -⟩ <;> rw [List.length_cons] at hlen <;> omega
    obtain ⟨hstop, hread⟩ : fetchStop s i = none ∧ s.mem.read (s.fetchLinear i).toNat = some b := h 0 (Nat.succ_pos _)
    have htail : fetchFrom s m (i + 1) = (bs, stop) := by
      refine ih (fun j hj => ?_) ?_
      · rw [Nat.add_assoc, Nat.add_comm 1 j]
        exact h (j + 1) (Nat.succ_lt_succ hj)
      · rw [List.length_cons] at hend
        rcases hend with ⟨hlen, hnone⟩ | ⟨hlen, hnext, hne⟩
        · exact .inl ⟨Nat.succ.inj hlen, hnone⟩
        · refine .inr ⟨Nat.lt_of_succ_lt_succ hlen, ?_, hne⟩
          rwa [Nat.add_assoc, Nat.add_comm 1]
    rw [fetchFrom, hstop]
    simp only [htail, hread, Option.getD_some]

theorem FetchesBytes.fetchFrom_full {s : State} {bs : List Byte} (h : FetchesBytes s bs) (hlen : bs.length = 15) :
    fetchFrom s 15 0 = (bs, none) := by
  refine fetchFrom_eq_of_fetchable (fun j hj => ?_) (.inl ⟨hlen, rfl⟩)
  rw [Nat.zero_add]
  exact h.fetchStop_eq_none hj

theorem FetchesBytes.fetchFrom_stop {s : State} {bs : List Byte} {e : Stop} (h : FetchesBytes s bs)
    (hlen : bs.length < 15) (hstop : fetchStop s bs.length = some e) : fetchFrom s 15 0 = (bs, some e) := by
  refine fetchFrom_eq_of_fetchable (fun j hj => ?_) (.inr ⟨hlen, by rwa [Nat.zero_add], nofun⟩)
  rw [Nat.zero_add]
  exact h.fetchStop_eq_none hj

/-- Before its end, and with a legal MXCSR, a run goes by what its bytes decode to. -/
theorem step_eq_runDecoded {s : State} (hend : s.textEnd ≠ some s.rip) (hmxcsr : s.mxcsr.extractLsb' 16 16 = 0) :
    step s = runDecoded s (fetchFrom s 15 0) (decode s.decodeCtx (fetchFrom s 15 0).1) := by
  rw [step, if_neg (mt runEnded_iff.1 hend), if_neg (not_not.2 hmxcsr)]

theorem step_of_tooLong {s : State} {bytes : List Byte} (hmxcsr : s.mxcsr.extractLsb' 16 16 = 0)
    (hend : s.textEnd ≠ some s.rip) (hbytes : FetchesBytes s bytes) (h : decode s.decodeCtx bytes = .tooLong) :
    step s = .fault (.exception .gp s) := by
  obtain ⟨hlen, htrunc⟩ := decode_eq_tooLong_iff.1 h
  have htake : (bytes.take 15).length = 15 := List.length_take_of_le hlen
  have hdecode : decode s.decodeCtx (bytes.take 15) = .tooLong := by
    rw [decode_eq_tooLong_iff, List.take_take, Nat.min_self]
    exact ⟨htake.ge, htrunc⟩
  rw [step_eq_runDecoded hend hmxcsr, (hbytes.take 15).fetchFrom_full htake, hdecode]
  rfl

/-- Settles O8: a proper part of a form's bytes is no instruction yet, so that a form of more than 15 bytes is too long. -/
theorem longerThanFifteenBytesIsTooLong : Obligations.LongerThanFifteenBytesIsTooLong := by
  refine ⟨fun c opc p rest hrex hpre hrm hrow hlen => decode_longLegacy rest hrex hpre hrm hrow hlen,
    fun c map v pp l opc p rest hvex hpre hrm h2 h3 hrow hlen => ?_,
    fun c v pp l opc p rest hvex hpre hrm hrow hlen => ?_,
    fun c v v' reserved fixed p rest hevex hpre hrm hlen => ?_,
    fun c bytes rest hlen h => decode_prefix_bytes rest hlen h,
    fun s bytes hmxcsr hend hbytes h => step_of_tooLong hmxcsr hend hbytes h⟩
  · exact decode_eq_tooLong_of_truncated hlen.le
      (decodeBody_take_vex3 (rex_mode_of_no_rex hpre) hvex hrm h2 h3 hrow hlen) rest
  · exact decode_eq_tooLong_of_truncated hlen.le
      (decodeBody_take_vex2 (rex_mode_of_no_rex hpre) hvex hrm hrow hlen) rest
  · exact decode_eq_tooLong_of_truncated hlen.le (decodeBody_take_evex (rex_mode_of_no_rex hpre) hevex hrm hlen) rest

theorem step_of_fetchStop {s : State} {bytes : List Byte} {e : Stop} (hmxcsr : s.mxcsr.extractLsb' 16 16 = 0)
    (hend : s.textEnd ≠ some s.rip) (hbytes : FetchesBytes s bytes) (h : decode s.decodeCtx bytes = .truncated)
    (hstop : fetchStop s bytes.length = some e) : step s = outcome (.error e) := by
  rw [step_eq_runDecoded hend hmxcsr, hbytes.fetchFrom_stop (decode_eq_truncated_length h) hstop, h]
  rfl

/-- Settles O58: the fetch stops at the byte that the unfinished bytes need next, for the reason `fetchStop` gives. -/
theorem fetchFaults : Obligations.FetchFaults := by
  refine ⟨fun s bytes hmxcsr hend hmode hbytes h => ⟨fun hout => ?_, fun hin => ⟨fun code hcode => ?_, fun hpage hread => ?_⟩⟩,
    fun c i n hok hn => decode_take_encode hok hn⟩
  · have hip : s.mode ≠ .mode64 → s.rip.toNat < 2 ^ 32 := fun hm => (hmode.resolve_left hm).2
    split
    next hnil =>
      have hstop : fetchStop s bytes.length = some (raise .gp s) := by
        rw [fetchStop_eq, if_neg hout, if_pos ⟨List.length_eq_zero_iff.2 hnil, hip⟩]
      rw [step_of_fetchStop hmxcsr hend hbytes h hstop]
      rfl
    next hcons =>
      have hstop : fetchStop s bytes.length = some (.refused .fetchCrossesEnd) := by
        rw [fetchStop_eq, if_neg hout, if_neg fun hcond => hcons (List.length_eq_zero_iff.1 hcond.1)]
      rw [step_of_fetchStop hmxcsr hend hbytes h hstop]
      rfl
  · have hstop : fetchStop s bytes.length = some (raise (.pf (fetchAddress s bytes.length) code) s) := by
      rw [fetchStop_eq, if_pos hin, hcode]
    rw [step_of_fetchStop hmxcsr hend hbytes h hstop]
    rfl
  · have hstop : fetchStop s bytes.length = some (.fault (.stuckFetch (fetchAddress s bytes.length))) := by
      rw [fetchStop_eq, if_pos hin]
      rcases htr : s.translate .fetch (fetchAddress s bytes.length) with code | page
      · rw [htr] at hpage; cases hpage
      · simp only [hread, if_true]
    rw [step_of_fetchStop hmxcsr hend hbytes h hstop]
    rfl

/-- Bytes that decode to an instruction are, with whatever follows them in memory, run as that instruction. -/
theorem step_eq_exec {s : State} {bytes : List Byte} {i : Instr} (hmxcsr : s.mxcsr.extractLsb' 16 16 = 0)
    (hend : s.textEnd ≠ some s.rip) (hbytes : FetchesBytes s bytes) (h : decode s.decodeCtx bytes = .instr i) :
    i.wellFormed s.decodeCtx = true ∧ step s = exec i s := by
  obtain ⟨hok, rest, rfl⟩ := decodedBytesAreTheEncoding _ _ _ h
  obtain ⟨rest', hfetched⟩ := hbytes.of_append.fetchFrom_eq (encode_length_le hok)
  refine ⟨hok, ?_⟩
  rw [step_eq_runDecoded hend hmxcsr, hfetched, decodeOfEncodeIsIdentity _ _ _ hok]
  rfl

theorem exec_ne_endOfText (i : Instr) (s t : State) : exec i s ≠ .fault (.endOfText t) := by
  intro h
  have hraise (e : Exn) (u : State) (hr : raise e u = .fault (.endOfText t)) : False := by
    obtain ⟨v, hv, -⟩ := raise_eq e u
    rw [hv] at hr
    cases hr
  cases exec_stopSource h with
  | enter henter =>
    rcases enter_error henter with ⟨he, -⟩ | ⟨he, -⟩ | ⟨he, -⟩
    · exact hraise _ _ he.symm
    · cases he
    · exact hraise _ _ he.symm
  | pendingX87 _ hx87 =>
    unfold checkX87 at hx87
    split at hx87
    next => split at hx87 <;> cases hx87
    next => cases hx87
  | memRead hread =>
    rcases memRead_error hread with hcheck | ⟨la, hstuck⟩
    · obtain ⟨x, u, he, -⟩ := accessCheck_eq_some hcheck
      cases he
    · cases hstuck
  | simd hsimd => exact hraise _ _ (simdRespond_error hsimd).2.symm

theorem fetchStop_ne_endOfText {s t : State} {i : Nat} : fetchStop s i ≠ some (.fault (.endOfText t)) := by
  rw [fetchStop_eq]
  split
  next =>
    split
    next => nofun
    next => split <;> nofun
  next => split <;> nofun

/-- A run ends at the end of its program text and nowhere else (R201, D15). -/
theorem step_eq_endOfText {s t : State} : step s = .fault (.endOfText t) ↔ s.textEnd = some s.rip ∧ t = s := by
  constructor
  · intro h
    by_cases hend : s.textEnd = some s.rip
    · rw [step_of_textEnd hend] at h
      cases h
      exact ⟨hend, rfl⟩
    · exfalso
      by_cases hmxcsr : s.mxcsr.extractLsb' 16 16 = 0
      · rw [step_eq_runDecoded hend hmxcsr] at h
        cases hdecoded : decode s.decodeCtx (fetchFrom s 15 0).1 with
        | instr i => rw [hdecoded] at h; exact exec_ne_endOfText i s t h
        | ud | tooLong | refused r => rw [hdecoded] at h; cases h
        | truncated =>
          rw [hdecoded] at h
          rcases hstop : (fetchFrom s 15 0).2 with _ | e
          · simp only [runDecoded, hstop] at h; cases h
          · obtain ⟨j, hj⟩ := Machine.fetchFrom_stop hstop
            simp only [runDecoded, hstop] at h
            rw [Except.error.inj (outcome_eq_fault.1 h)] at hj
            exact fetchStop_ne_endOfText hj
      · rw [step, if_neg (mt runEnded_iff.1 hend), if_pos hmxcsr] at h
        cases h
  · rintro ⟨hend, rfl⟩
    exact step_of_textEnd hend

/-- Settles O53: the bytes fetched begin with the encoding of the instruction, which decodes to it. -/
theorem stepRunsTheDecodedInstruction : Obligations.StepRunsTheDecodedInstruction :=
  ⟨fun _ _ _ hmxcsr hend hbytes h => step_eq_exec hmxcsr hend hbytes h, fun _ _ => step_eq_endOfText⟩

end Sys2Proof.Machine
end

/-! The operands of a form (R61 to R78). An effective address is computed in 64 bits as the integer sum of its parts, so that
its truncation is that sum modulo the address size; register numbers are the extension bits beside the encoded ones. -/
section

namespace Sys2Proof.Machine

/-! ### Effective addresses as integers (R65 to R68) -/

theorem State.reg_ext_eq (s : State) (on : Bool) (n : BitVec 3) : s.reg (ext on n) = BitVec.ofInt 64 (regInt s on n) := by
  rw [regInt, BitVec.ofInt_natCast, BitVec.ofNat_toNat, BitVec.setWidth_eq]

theorem signExtend_eq_ofInt {w : Nat} (d : BitVec w) : d.signExtend 64 = BitVec.ofInt 64 d.toInt := rfl

theorem dispValue_eq (n : Nat) (d : Disp) : dispValue n d = BitVec.ofInt 64 (dispInt n d) := by
  cases d with
  | none => rfl
  | d8 d => rw [dispValue, dispInt, BitVec.ofInt_mul, BitVec.ofInt_natCast, signExtend_eq_ofInt]
  | d32 d => rfl

theorem disp16Value_eq (d : Disp16) : disp16Value d = BitVec.ofInt 64 (disp16Int d) := by
  cases d with
  | none | d8 _ | d16 _ => rfl

theorem ext_eq_four_iff (x : Bool) (index : BitVec 3) : ext x index = 4 ↔ x = false ∧ index = 4 := by
  revert x index; decide

theorem ofInt_shiftLeft (x : Int) (k : Nat) : BitVec.ofInt 64 x <<< k = BitVec.ofInt 64 (x * 2 ^ k) := by
  have hpow : BitVec.ofInt 64 (2 ^ k) = BitVec.twoPow 64 k := by
    have hcast : ((2 : Int) ^ k) = ((2 ^ k : Nat) : Int) := by push_cast; rfl
    rw [hcast, BitVec.ofInt_natCast]
    exact BitVec.eq_of_toNat_eq (by rw [BitVec.toNat_ofNat, BitVec.toNat_twoPow])
  rw [BitVec.ofInt_mul, hpow, BitVec.shiftLeft_eq_mul_twoPow]

theorem State.scaledIndex_eq (s : State) (x : Bool) (scale : BitVec 2) (index : BitVec 3) :
    s.scaledIndex x scale index = BitVec.ofInt 64 (indexInt s x scale index) := by
  unfold State.scaledIndex indexInt
  by_cases hnone : x = false ∧ index = 4
  · rw [if_pos ((ext_eq_four_iff x index).2 hnone), if_pos hnone]
    rfl
  · rw [if_neg (mt (ext_eq_four_iff x index).1 hnone), if_neg hnone, State.reg_ext_eq, ofInt_shiftLeft]

theorem bitVec3_cases (n : BitVec 3) : n = 0 ∨ n = 1 ∨ n = 2 ∨ n = 3 ∨ n = 4 ∨ n = 5 ∨ n = 6 ∨ n = 7 := by
  revert n; decide

/-- The register sum of a 16-bit addressing form and its default segment (R67). -/
theorem State.base16_eq (s : State) (rm : BitVec 3) :
    s.base16 rm = (BitVec.ofInt 64 (base16Int s rm), if rm = 2 ∨ rm = 3 ∨ rm = 6 then .ss else .ds) := by
  have hreg (n : BitVec 3) : s.reg (ext false n) = BitVec.ofInt 64 (regInt s false n) := s.reg_ext_eq false n
  have hsum (m n : BitVec 3) :
      s.reg (ext false m) + s.reg (ext false n) = BitVec.ofInt 64 (regInt s false m + regInt s false n) := by
    rw [hreg, hreg, BitVec.ofInt_add]
  rcases bitVec3_cases rm with rfl | rfl | rfl | rfl | rfl | rfl | rfl | rfl
  · exact congrArg (·, SegReg.ds) (hsum 3 6)
  · exact congrArg (·, SegReg.ds) (hsum 3 7)
  · exact congrArg (·, SegReg.ss) (hsum 5 6)
  · exact congrArg (·, SegReg.ss) (hsum 5 7)
  · exact congrArg (·, SegReg.ds) (hreg 6)
  · exact congrArg (·, SegReg.ds) (hreg 7)
  · exact congrArg (·, SegReg.ss) (hreg 5)
  · exact congrArg (·, SegReg.ds) (hreg 3)

theorem baseSeg_ext (b : Bool) (n : BitVec 3) :
    baseSeg (ext b n) = if b = false ∧ (n = 4 ∨ n = 5) then .ss else .ds := by
  revert b n; decide

/-- The address before truncation is the integer sum of R65 to R68, modulo 2^64, with the default segment. -/
theorem State.addrOf_eq (s : State) (b x : Bool) (len n : Nat) (a : AddrForm) :
    s.addrOf b x len n a = (BitVec.ofInt 64 (addressSum s b x len n a), defaultSegment b a) := by
  cases a with
  | base rm d => rw [addrOf, addressSum, defaultSegment, s.reg_ext_eq, dispValue_eq, baseSeg_ext, BitVec.ofInt_add]
  | disp32 d =>
    refine Prod.ext ?_ rfl
    simp only [addrOf, addressSum]
    split
    · rw [BitVec.ofInt_add, BitVec.ofInt_add, BitVec.ofInt_natCast, BitVec.ofInt_natCast, BitVec.ofNat_toNat,
        BitVec.setWidth_eq, signExtend_eq_ofInt]
    · rfl
  | sib scale index bs d =>
    rw [addrOf, addressSum, defaultSegment, s.reg_ext_eq, s.scaledIndex_eq, dispValue_eq, baseSeg_ext, BitVec.ofInt_add,
      BitVec.ofInt_add]
  | sibNoBase scale index d =>
    refine Prod.ext ?_ rfl
    rw [addrOf, addressSum, s.scaledIndex_eq, signExtend_eq_ofInt, BitVec.ofInt_add]
  | a16 rm d => rw [addrOf, addressSum, defaultSegment, s.base16_eq, disp16Value_eq, BitVec.ofInt_add]
  | a16Disp d =>
    refine Prod.ext ?_ rfl
    rw [addrOf, addressSum, BitVec.ofInt_natCast, BitVec.ofNat_toNat]

theorem setWidth_ofInt_toNat {w : Nat} (hw : w ≤ 64) (x : Int) :
    ((((BitVec.ofInt 64 x).setWidth w).setWidth 64).toNat : Int) = x % 2 ^ w := by
  have hpow : (2 : Int) ^ w ∣ 2 ^ 64 := pow_dvd_pow 2 hw
  have hlt : ((BitVec.ofInt 64 x).setWidth w).toNat < 2 ^ 64 :=
    lt_of_lt_of_le (BitVec.isLt _) (Nat.pow_le_pow_right (by decide) hw)
  rw [BitVec.toNat_setWidth, Nat.mod_eq_of_lt hlt, BitVec.toNat_setWidth, BitVec.toNat_ofInt]
  push_cast
  rw [Int.toNat_of_nonneg (Int.emod_nonneg _ (by decide))]
  exact Int.emod_emod_of_dvd x hpow

theorem truncA_ofInt_toNat (asz : AddrSize) (x : Int) :
    ((truncA asz (BitVec.ofInt 64 x)).toNat : Int) = x % 2 ^ addrSizeBits asz := by
  cases asz with
  | a16 => exact setWidth_ofInt_toNat (by decide) x
  | a32 => exact setWidth_ofInt_toNat (by decide) x
  | a64 =>
    have h := setWidth_ofInt_toNat (w := 64) le_rfl x
    rwa [BitVec.setWidth_eq, BitVec.setWidth_eq] at h

/-- Settles O10: the address is truncated after an exact sum. -/
theorem effectiveAddressIsTheSumModuloAddressSize : Obligations.EffectiveAddressIsTheSumModuloAddressSize := by
  intro s pre b x len n a
  refine ⟨_, ?_, truncA_ofInt_toNat (addrSize s.mode pre) (addressSum s b x len n a)⟩
  rw [State.memOperand, State.addrOf_eq]

/-! ### Register numbers and the operands of each layout (R62, R69, R74) -/

theorem ext_toNat (on : Bool) (n : BitVec 3) : (ext on n).toNat = 8 * on.toNat + n.toNat := by
  revert on n; decide

theorem ext_setWidth_toNat (on : Bool) (n : BitVec 3) : ((ext on n).setWidth 5).toNat = 8 * on.toNat + n.toNat := by
  revert on n; decide

theorem ofBool_ext_toNat (hi on : Bool) (n : BitVec 3) :
    (BitVec.ofBool hi ++ ext on n).toNat = 16 * hi.toNat + 8 * on.toNat + n.toNat := by
  revert hi on n; decide

theorem State.operands_are (s : State) (pre : List Pre) (r x b : Bool) (reg : BitVec 3) (rm : Rm) (len : Nat) {e : Bool}
    (he : e = decide (s.mode = .mode64)) :
    OperandsAre s pre rm (s.operands pre r x b reg rm len) (8 * (e && r).toNat + reg.toNat) (8 * (e && b).toNat)
      (e && b) (e && x) 1 len := by
  have hmode : (s.mode == .mode64) = e := by rw [he]; rfl
  refine ⟨?_, ?_, ?_, rfl⟩
  · unfold State.operands; rw [hmode]
    exact ext_setWidth_toNat _ _
  · rintro m rfl
    unfold State.operands; rw [hmode]
    exact ⟨_, rfl, ext_setWidth_toNat _ _⟩
  · rintro a rfl
    unfold State.operands; rw [hmode]
    exact effectiveAddressIsTheSumModuloAddressSize s pre (e && b) (e && x) len 1 a

theorem rex_bits (w r x b : Bool) :
    (BitVec.ofBool w ++ BitVec.ofBool r ++ BitVec.ofBool x ++ BitVec.ofBool b).getLsbD 2 = r
      ∧ (BitVec.ofBool w ++ BitVec.ofBool r ++ BitVec.ofBool x ++ BitVec.ofBool b).getLsbD 1 = x
      ∧ (BitVec.ofBool w ++ BitVec.ofBool r ++ BitVec.ofBool x ++ BitVec.ofBool b).getLsbD 0 = b := by
  revert w r x b; decide

theorem legacyOperands_eq {p : LegacyOp} {w r x b : Bool}
    (h : p.rex.getD 0 = BitVec.ofBool w ++ BitVec.ofBool r ++ BitVec.ofBool x ++ BitVec.ofBool b) (s : State) :
    legacyOperands p s = s.operands p.pre r x b p.reg p.rm p.len := by
  obtain ⟨hr, hx, hb⟩ := rex_bits w r x b
  rw [legacyOperands, h, hr, hx, hb]

theorem evexOperands_are (s : State) (p : EvexOp) (n : Nat) {e : Bool} (he : e = decide (s.mode = .mode64)) :
    OperandsAre s p.pre p.rm (evexOperands p n s) (16 * (e && p.r4).toNat + 8 * (e && p.r).toNat + p.reg.toNat)
      (16 * (e && p.x).toNat + 8 * (e && p.b).toNat) (e && p.b) (e && p.x) n (encodeEvex p).length := by
  have hmode : (s.mode == .mode64) = e := by rw [he]; rfl
  refine ⟨?_, fun m hm => ?_, fun a ha => ?_, rfl⟩
  · rw [evexOperands, hmode]
    exact ofBool_ext_toNat _ _ _
  · rw [evexOperands, hmode, hm]
    exact ⟨_, rfl, ofBool_ext_toNat _ _ _⟩
  · rw [evexOperands, hmode, ha]
    exact effectiveAddressIsTheSumModuloAddressSize s p.pre (e && p.b) (e && p.x) p.len n a

/-- Settles O9: LEGACY and VEX forms share one resolution of operands; EVEX adds R' and a second use of X. -/
theorem operandsOfEveryLayout : Obligations.OperandsOfEveryLayout := by
  intro s e he
  refine ⟨fun opc p w r x b hrex => ?_, fun opc p hrex => ?_, fun pp l opc p => ?_, fun pp l opc p => ?_,
    fun p n => evexOperands_are s p n he⟩
  · rw [legacyOperands_eq (w := w) (r := r) (x := x) (b := b) (by rw [hrex]; rfl), encodeLegacy_length]
    exact s.operands_are p.pre r x b p.reg p.rm p.len he
  · rw [legacyOperands_eq (w := false) (r := false) (x := false) (b := false) (by rw [hrex]; rfl), encodeLegacy_length]
    have h := s.operands_are p.pre false false false p.reg p.rm p.len he
    rw [Bool.and_false] at h
    simpa using h
  · rw [encodeVex3_eq_bytesWith, vex3BytesWith_length]
    exact s.operands_are p.pre p.r p.x p.b p.reg p.rm p.len he
  · rw [encodeVex2_eq_bytesWith, vex2BytesWith_length]
    have h := s.operands_are p.pre p.r false false p.reg p.rm p.len he
    rw [Bool.and_false] at h
    exact h

/-! ### The compressed displacement (R78) -/

/-- A disp8 times N, at most 32, fits into 32 bits with its sign. -/
theorem dispValue_scaled {N : Nat} (hN : N = 4 ∨ N = 8 ∨ N = 16 ∨ N = 32) (d : BitVec 8) :
    dispValue N (.d8 d) = dispValue N (.d32 (d.signExtend 32 * BitVec.ofNat 32 N)) := by
  rw [dispValue, dispValue]
  rcases hN with rfl | rfl | rfl | rfl <;> revert d <;> decide

theorem State.memOperand_congr {s : State} {pre : List Pre} {b x : Bool} {len len' n : Nat} {a a' : AddrForm}
    (h : s.addrOf b x len n a = s.addrOf b x len' n a') :
    s.memOperand pre b x len n a = s.memOperand pre b x len' n a' := by
  rw [State.memOperand, State.memOperand, h]

/-- Settles O11: the two displacements are equal as addends, and nothing else of the address depends on the length. -/
theorem compressedDisplacementIsScaled : Obligations.CompressedDisplacementIsScaled := by
  intro s p row N d form hrow hN hform
  have hscale : evexDispScale p row = N := hN.symm
  have hvalues : N = 4 ∨ N = 8 ∨ N = 16 ∨ N = 32 := by
    rw [hN]
    rcases hrow with rfl | rfl | rfl <;> split <;> decide
  refine ⟨hscale, ?_⟩
  rw [hscale]
  refine State.memOperand_congr ?_
  rcases hform with ⟨rm, rfl⟩ | ⟨scale, index, bs, rfl⟩
  · rw [State.addrOf, State.addrOf, dispValue_scaled hvalues]
  · rw [State.addrOf, State.addrOf, dispValue_scaled hvalues]

/-! ### Segment overrides and linear addresses (R31, R45, R61) -/

theorem segOverride_of_no_seg (m : Mode) (pre : List Pre) {post : List Pre} (h : ∀ q ∈ post, q.isSeg = false) :
    segOverride m (pre ++ post) = segOverride m pre := by
  unfold segOverride
  rw [List.reverse_append, List.findSome?_append, List.findSome?_eq_none_iff.2, Option.none_or]
  intro q hq
  have hseg := h q (List.mem_reverse.1 hq)
  cases q with
  | seg r => cases hseg
  | opSize | addrSize | lock | repne | rep | rex _ => rfl

theorem segOverride_append_seg (m : Mode) (pre : List Pre) (r : SegReg) :
    segOverride m (pre ++ [.seg r])
      = if m = .mode64 ∧ ¬(r = .fs ∨ r = .gs) then segOverride m pre else some r := by
  unfold segOverride
  rw [List.reverse_append, List.reverse_singleton, List.singleton_append, List.findSome?_cons]
  cases r <;> by_cases hm : m = .mode64 <;> simp [hm]

theorem State.linear_toNat (s : State) (g : SegReg) (ea : Qword) (i : Nat) :
    (s.linear g ea i).toNat = ((s.segBase g).toNat + ea.toNat + i) % 2 ^ (if s.mode = .mode64 then 64 else 32) := by
  unfold State.linear
  split
  · simp [BitVec.toNat_add]
  · simp only [BitVec.toNat_setWidth, BitVec.toNat_add, BitVec.toNat_ofNat]
    omega

theorem State.segBase_toNat_mode64 {s : State} (hm : s.mode = .mode64) (g : SegReg) :
    (s.segBase g).toNat = if g = .fs ∨ g = .gs then (s.segment g).base.toNat else 0 := by
  unfold State.segBase
  rw [if_pos hm]
  cases g <;> rfl

theorem State.segBase_of_ne_mode64 {s : State} (hm : s.mode ≠ .mode64) (g : SegReg) :
    s.segBase g = (s.segment g).base := by
  unfold State.segBase
  rw [if_neg hm]

/-- Settles O12: the last override that counts is found first, and each byte's address is one sum modulo 2^64 or 2^32. -/
theorem segmentOverrideAndLinearAddress : Obligations.SegmentOverrideAndLinearAddress := by
  refine ⟨fun pre post r hpost => ?_, fun s g ea i => ?_⟩
  · have hsplit : pre ++ Pre.seg r :: post = (pre ++ [.seg r]) ++ post := by simp
    rw [hsplit, segOverride_of_no_seg _ _ hpost, segOverride_of_no_seg _ _ hpost, segOverride_append_seg,
      segOverride_append_seg]
    refine ⟨if_neg fun hcond => absurd hcond.1 (by decide), ?_⟩
    by_cases hr : r = .fs ∨ r = .gs
    · rw [if_neg fun hcond => hcond.2 hr, if_pos hr]
    · rw [if_pos ⟨rfl, hr⟩, if_neg hr]
  · rw [State.linear_toNat]
    by_cases hm : s.mode = .mode64
    · rw [if_pos hm, if_pos hm, State.segBase_toNat_mode64 hm]
    · rw [if_neg hm, if_neg hm, State.segBase_of_ne_mode64 hm]

end Sys2Proof.Machine
end

/-! What each form completes with (R103 to R153). Each course of an instruction completes once its checks pass, its source can
be had and every condition is masked; what it then leaves is the same for every form of the course. -/
section

namespace Sys2Proof.Machine

/-! ### The written register and the instruction pointer -/

/-- The register `d` of `t` got a value without bits from `n` up: in full, or below bit 128 alone with `keep` (R20). -/
def WrittenBack (keep : Bool) (s t : State) (d : BitVec 5) (n : Nat) : Prop :=
  ∃ w : Vec, t.vec d = (if keep then mergeLow128 (s.vec d) w else w) ∧ w >>> n = 0

theorem WrittenBack.upperKept {s t : State} {d : BitVec 5} {n : Nat} (h : WrittenBack true s t d n) : UpperKept s t d := by
  obtain ⟨w, hw, -⟩ := h
  rw [UpperKept, hw]
  exact mergeLow128_upper _ _

theorem WrittenBack.zeroFrom {s t : State} {d : BitVec 5} {n : Nat} (h : WrittenBack false s t d n) : ZeroFrom t d n := by
  obtain ⟨w, hw, hzero⟩ := h
  rw [ZeroFrom, hw]
  exact hzero

theorem WrittenBack.quadword_one {s t : State} {d : BitVec 5} (h : WrittenBack true s t d 64) :
    vecQword (t.vec d) 1 = 0 := by
  obtain ⟨w, hw, hzero⟩ := h
  rw [hw, if_pos rfl, vecQword_mergeLow128 _ _ (by decide)]
  refine BitVec.eq_of_getLsbD_eq fun i hi => ?_
  have hbit := congrArg (·.getLsbD i) hzero
  simpa [vecQword, hi] using hbit

theorem ipAfter_of_rip {i : Instr} {s t : State} {len : Nat} (hrip : t.rip = s.nextIp len)
    (hlen : len = (encode i).length) : IpAfter i s t := by
  rw [IpAfter, hrip, nextIp_toNat, hlen]

/-! ### The CVTDQ2PD course without a writemask (R103 to R105) -/

theorem dq2pd_completes {i : Instr} {g : Gate} {keep : Bool} {ne : Nat} {o : Operands} {s : State} {v : SrcVec}
    (henter : enter g s = .ok ()) (hsource : sourceIs s o.src (4 * ne) false v = true) (hpos : 0 < ne) (hne : ne ≤ 8)
    (hkeep : keep = true → ne ≤ 2) (hlen : o.len = (encode i).length) :
    ∃ t, outcome (dq2pd g keep ne o s) = .next t ∧ Dq2pdDone i s t o ne v
      ∧ WrittenBack keep s t o.dest (64 * ne) := by
  obtain ⟨w, hread, hbits⟩ := readSource_of_sourceIs (by omega) (by omega) hsource
  refine ⟨_, outcome_eq_next.2 (dq2pd_eq_ok.2 ⟨henter, w, hread, rfl⟩),
    ⟨onlyVec_setVec_advance s _ _ _, rfl, ipAfter_of_rip rfl hlen, fun j hj => ?_⟩,
    ⟨packQ (fun j => cvtI32ToF64 (dwordAt w j)) ne, State.vec_setVec_self _ _ _, packQ_above _ _⟩⟩
  have hdword : dwordAt w j = dwordAt v j := dwordAt_congr hbits (by omega)
  rw [State.vec_advance, State.writeBack, State.vec_setVec_self]
  split
  next hk =>
    have := hkeep hk
    rw [vecQword_mergeLow128 _ _ (by omega), vecQword_packQ _ hj hne, hdword]
  next => rw [vecQword_packQ _ hj hne, hdword]

/-- Settles O22: the legacy form keeps the bits above 127. -/
theorem cvtdq2pdLegacyResult : Obligations.Cvtdq2pdLegacyResult := by
  intro p s v henabled hsource
  obtain ⟨t, ht, hdone, hwritten⟩ := dq2pd_completes (i := .cvtdq2pd p) (keep := true) (ne := 2)
    (enter_legacy_ok henabled) hsource (by decide) (by decide) (fun _ => le_rfl) (encodeLegacy_length 0xE6 p).symm
  exact ⟨t, ht, hdone, hwritten.upperKept⟩

/-- Settles O23: the VEX forms write zeros above their elements. -/
theorem vcvtdq2pdVexResult : Obligations.Vcvtdq2pdVexResult := by
  intro s v henabled
  have vex {i : Instr} (ne : Nat) {o : Operands} (hsource : sourceIs s o.src (4 * ne) false v = true) (hpos : 0 < ne)
      (hne : ne ≤ 8) (hlen : o.len = (encode i).length) :
      ∃ t, outcome (dq2pd .vex false ne o s) = .next t ∧ Dq2pdDone i s t o ne v ∧ ZeroFrom t o.dest (64 * ne) := by
    obtain ⟨t, ht, hdone, hwritten⟩ :=
      dq2pd_completes (keep := false) (enter_vex_ok henabled) hsource hpos hne nofun hlen
    exact ⟨t, ht, hdone, hwritten.zeroFrom⟩
  refine ⟨fun p hsource => ?_, fun p hsource => ?_, fun p hsource => ?_, fun p hsource => ?_⟩
  · exact vex 2 hsource (by decide) (by decide) (vex3BytesWith_length 1 15 .pF3 false 0xE6 p).symm
  · exact vex 2 hsource (by decide) (by decide) (vex2BytesWith_length 15 .pF3 false 0xE6 p).symm
  · exact vex 4 hsource (by decide) (by decide) (vex3BytesWith_length 1 15 .pF3 true 0xE6 p).symm
  · exact vex 4 hsource (by decide) (by decide) (vex2BytesWith_length 15 .pF3 true 0xE6 p).symm

/-! ### The CVTDQ2PD course under a writemask (R75, R106 to R109) -/

theorem evexLane_eq (p : EvexOp) (s : State) (old : Vec) (src : Nat → Dword) (j : Nat) :
    evexLane p s old src j
      = if MaskOn p s j then cvtI32ToF64 (src j) else if p.z = true then 0 else vecQword old j := by
  rw [evexLane, evexEnabled_eq]
  simp only [decide_eq_true_eq]

/-- The instruction `i` is the EVEX row of `row` lanes with the fields `p`. -/
structure EvexRow (p : EvexOp) (row : Nat) (i : Instr) : Prop where
  exec_eq : ∀ s, exec i s = outcome (dq2pdEvex row p s)
  length : p.len = (encode i).length
  lanes : row ≤ 8

theorem evexRow_of_mem {p : EvexOp} {i : Instr} {row : Nat}
    (h : (i, row) ∈ [(Instr.vcvtdq2pd128Evex p, 2), (.vcvtdq2pd256Evex p, 4), (.vcvtdq2pd512Evex p, 8)]) :
    EvexRow p row i := by
  simp only [List.mem_cons, Prod.mk.injEq, List.not_mem_nil, or_false] at h
  rcases h with ⟨rfl, rfl⟩ | ⟨rfl, rfl⟩ | ⟨rfl, rfl⟩
  · exact ⟨fun _ => rfl, rfl, by decide⟩
  · exact ⟨fun _ => rfl, rfl, by decide⟩
  · exact ⟨fun _ => rfl, rfl, by decide⟩

theorem dq2pdEvex_completes {i : Instr} {row kl n : Nat} {p : EvexOp} {s : State} {w src : Nat → Dword}
    (hrow : EvexRow p row i) (hscale : evexDispScale p row = n) (hkl : evexLength p row s.cfg = .lanes kl)
    (hle : kl ≤ 8) (henter : enter (.evex (kl != 8)) s = .ok ())
    (hsource : evexSource p kl (evexOperands p n s).src s = .ok w) (hsrc : ∀ j < kl, MaskOn p s j → w j = src j) :
    ∃ t, exec i s = .next t ∧ EvexDone i s t p (evexOperands p n s) kl src
      ∧ ZeroFrom t (evexOperands p n s).dest (64 * kl) := by
  subst hscale
  refine ⟨_, (hrow.exec_eq s).trans (outcome_eq_next.2 (dq2pdEvex_eq_ok.2 ⟨kl, hkl, henter, w, hsource, rfl⟩)), ?_, ?_⟩
  · have lane (j : Nat) (hj : j < kl) := vecQword_packQ
      (evexLane p s (s.vec (evexOperands p (evexDispScale p row) s).dest) w) hj hle
    refine ⟨onlyVec_setVec_advance s _ _ _, rfl, ipAfter_of_rip rfl hrow.length, fun j hj hon => ?_,
      fun j hj hoff hz => ?_, fun j hj hoff hz => ?_⟩
    · rw [State.vec_advance, State.vec_setVec_self, lane j hj, evexLane_eq, if_pos hon, hsrc j hj hon]
    · rw [State.vec_advance, State.vec_setVec_self, lane j hj, evexLane_eq, if_neg hoff, if_neg (by rw [hz]; nofun)]
    · rw [State.vec_advance, State.vec_setVec_self, lane j hj, evexLane_eq, if_neg hoff, if_pos hz]
  · rw [ZeroFrom, State.vec_advance, State.vec_setVec_self]
    exact packQ_above _ _

theorem dwordAt_setWidth (v : Vec) {j : Nat} (hj : j < 8) : dwordAt (v.setWidth 256) j = vecDword v j := by
  refine BitVec.eq_of_getLsbD_eq fun i hi => ?_
  simp [dwordAt, vecDword, hi, show 32 * j + i < 256 by omega]

/-- A register source needs no memory: every lane is the register's doubleword. -/
theorem evexRegister_completes {i : Instr} {row kl n : Nat} {p : EvexOp} {s : State} {r : BitVec 5}
    (hrow : EvexRow p row i) (hscale : evexDispScale p row = n) (hkl : evexLength p row s.cfg = .lanes kl)
    (hle : kl ≤ 8) (henter : enter (.evex (kl != 8)) s = .ok ()) (hsrc : (evexOperands p n s).src = .reg r) :
    ∃ t, exec i s = .next t ∧ EvexDone i s t p (evexOperands p n s) kl (fun j => vecDword (s.vec r) j)
      ∧ ZeroFrom t (evexOperands p n s).dest (64 * kl) :=
  dq2pdEvex_completes hrow hscale hkl hle henter (by rw [hsrc]; rfl)
    fun j hj _ => dwordAt_setWidth (s.vec r) (by omega)

/-- Settles O24: without EVEX.b the row's lanes are converted from the register. -/
theorem vcvtdq2pdEvexRegisterResult : Obligations.Vcvtdq2pdEvexRegisterResult := by
  intro p s m r hrm hbc row i hi henabled hsrc
  have hrow := evexRow_of_mem hi
  exact evexRegister_completes hrow (by simp [evexDispScale, hbc]) (evexLength_of_not_rounding (.inl hbc) row s.cfg)
    hrow.lanes (enter_evex_ok henabled) hsrc

/-- Bytes that can be had are read, and agree with the claimed value at the offsets accessed. -/
theorem memRead_of_bytesAre {s : State} {g : SegReg} {ea : Qword} {size : Nat} {offs : List Nat} {al : Bool} {v : SrcVec}
    (h : bytesAre s g ea size offs al v = true) :
    ∃ w, memRead ⟨g, ea, size, offs, al⟩ s = .ok w ∧ ∀ j < 256, j / 8 ∈ offs → w.getLsbD j = v.getLsbD j := by
  simp only [bytesAre, byteIs, Bool.and_eq_true, Bool.or_eq_true, Bool.not_eq_true', beq_iff_eq, List.all_eq_true,
    decide_eq_true_eq] at h
  obtain ⟨⟨⟨hseg, hal⟩, hac⟩, hb⟩ := h
  obtain ⟨w, hw⟩ := gather_total (s := s) (g := g) (ea := ea) (offs := offs) fun i hi => ⟨_, (hb i hi).2⟩
  have hcheck : accessCheck .read ⟨g, ea, size, offs, al⟩ s = none := by
    refine accessCheck_eq_none.2 ⟨segmentOk_iff.2 hseg, ?_, alignFault_eq_false.2 hac,
      pageFault_eq_none.2 fun i hi => (hb i hi).1⟩
    rcases hal with hal | hal
    · simp [hal]
    · simp [State.misaligned, hal]
  refine ⟨w, memRead_eq_ok.2 ?_, fun j hj hmem => ?_⟩
  · by_cases hnil : offs = []
    · subst hnil
      cases hw
      exact .inl ⟨rfl, rfl⟩
    · exact .inr ⟨hnil, hcheck, hw⟩
  · rw [gather_bits hw j hj, (hb _ hmem).2]
    simp [hmem, Nat.mod_lt, Nat.div_add_mod]

theorem dwordAt_eq_of_offsets {w v : SrcVec} {offs : List Nat}
    (h : ∀ j < 256, j / 8 ∈ offs → w.getLsbD j = v.getLsbD j) {j : Nat} (hj : j < 8)
    (hoffs : ∀ k, k / 4 = j → k ∈ offs) : dwordAt w j = dwordAt v j := by
  refine BitVec.eq_of_getLsbD_eq fun i hi => ?_
  simp only [dwordAt, BitVec.getLsbD_extractLsb', hi, decide_true, Bool.true_and]
  exact h _ (by omega) (hoffs _ (by omega))

theorem mem_maskedOffs {p : EvexOp} {s : State} {row k : Nat} (hk : k / 4 < row) (hon : MaskOn p s (k / 4)) :
    k ∈ maskedOffs p s row :=
  List.mem_filter.2 ⟨List.mem_range.2 (by omega), decide_eq_true hon⟩

theorem maskedOffs_eq_nil {p : EvexOp} {s : State} {row : Nat} (h : ∀ j < row, ¬MaskOn p s j) :
    maskedOffs p s row = [] := by
  refine List.filter_eq_nil_iff.2 fun k hk => ?_
  have := List.mem_range.1 hk
  rw [decide_eq_true_eq]
  exact h (k / 4) (by omega)

/-- Settles O25: the read asks for the bytes of the enabled elements alone. -/
theorem vcvtdq2pdEvexMemoryResult : Obligations.Vcvtdq2pdEvexMemoryResult := by
  intro p s v g ea hbc row i hi henabled hsrc hbytes
  have hrow := evexRow_of_mem hi
  obtain ⟨w, hread, hbits⟩ : ∃ w, memRead ⟨g, ea, 4 * row, maskedOffs p s row, false⟩ s = .ok w
      ∧ ∀ j < 256, j / 8 ∈ maskedOffs p s row → w.getLsbD j = v.getLsbD j := by
    rcases hbytes with hoff | hbytes
    · rw [maskedOffs_eq_nil hoff]
      exact ⟨0, rfl, nofun⟩
    · exact memRead_of_bytesAre hbytes
  refine dq2pdEvex_completes (w := fun j => dwordAt w j) hrow (by simp [evexDispScale, hbc])
    (evexLength_of_not_rounding (.inl hbc) row s.cfg) hrow.lanes (enter_evex_ok henabled) ?_ fun j hj hon => ?_
  · rw [hsrc, evexSource, hbc, enabledOffs_eq, hread]
    rfl
  · have := hrow.lanes
    exact dwordAt_eq_of_offsets hbits (by omega) fun k hk => mem_maskedOffs (by omega) (hk ▸ hon)

theorem any_enabled_eq (p : EvexOp) (s : State) (row : Nat) :
    (List.range row).any (evexEnabled p s) = decide (∃ j < row, MaskOn p s j) := by
  rw [Bool.eq_iff_iff, any_enabled_iff, decide_eq_true_eq]

/-- Settles O26: the one datum is read if some element is enabled, and is every lane's source. -/
theorem vcvtdq2pdEvexBroadcastResult : Obligations.Vcvtdq2pdEvexBroadcastResult := by
  intro p s v g ea hbc row i hi henabled hsrc hbytes
  have hrow := evexRow_of_mem hi
  have hmem : p.rm.isReg = false := by
    cases hrm : p.rm with
    | reg m => simp [evexOperands, hrm] at hsrc
    | mem a => rfl
  obtain ⟨w, hread, hdword⟩ : ∃ w, memRead ⟨g, ea, 4, if ∃ j < row, MaskOn p s j then List.range 4 else [], false⟩ s
        = .ok w ∧ ∀ j < row, MaskOn p s j → dwordAt w 0 = dwordAt v 0 := by
    by_cases hon : ∃ j < row, MaskOn p s j
    · rw [if_pos hon]
      obtain ⟨w, hread, hbits⟩ := memRead_of_bytesAre (hbytes.resolve_left fun hoff => by
        obtain ⟨j, hj, hon⟩ := hon
        exact hoff j hj hon)
      exact ⟨w, hread, fun _ _ _ =>
        dwordAt_eq_of_offsets hbits (by decide) fun k hk => List.mem_range.2 (by omega)⟩
    · rw [if_neg hon]
      exact ⟨0, rfl, fun j hj hj' => absurd ⟨j, hj, hj'⟩ hon⟩
  refine dq2pdEvex_completes (w := fun _ => dwordAt w 0) hrow (by simp [evexDispScale, hbc])
    (evexLength_of_not_rounding (.inr hmem) row s.cfg) hrow.lanes (enter_evex_ok henabled) ?_ hdword
  rw [hsrc, evexSource, hbc, any_enabled_eq]
  simp only [decide_eq_true_eq, if_true, hread]

theorem evexLength_of_rounding {p : EvexOp} {m : BitVec 3} (hrm : p.rm = .reg m) (hbc : p.bc = true) (row : Nat)
    (c : Config) :
    evexLength p row c = match c.evexBReg with
      | .refuse => .refuse
      | .vlFromLL => if p.ll = 3 then .ud else .lanes row
      | .vl512 => .lanes 8 := by
  rw [evexLength, hrm, hbc]
  rfl

/-- Settles O27: the parameter decides the length, and with it the checks. -/
theorem evexBWithRegisterFollowsTheParameter : Obligations.EvexBWithRegisterFollowsTheParameter := by
  intro p s m r hrm hbc hsrc row i hi
  have hrow := evexRow_of_mem hi
  have hscale : evexDispScale p row = 4 := by simp [evexDispScale, hbc]
  have hlength := evexLength_of_rounding hrm hbc row s.cfg
  refine ⟨fun hparam henabled => ?_, fun hparam henabled => ?_, fun hparam hll henabled => ?_, fun hparam hll => ?_⟩
  · have hrefuse : evexLength p row s.cfg = .refuse := by rw [hlength, hparam]
    have henter : enter (.evex (EvexLength.refuse.needVl row)) s = .ok () := enter_evex_ok henabled
    rw [hrow.exec_eq, dq2pdEvex, hrefuse, if_neg (by decide), henter]
    rfl
  · have h512 : evexLength p row s.cfg = .lanes 8 := by rw [hlength, hparam]
    obtain ⟨t, ht, hdone, -⟩ := evexRegister_completes hrow hscale h512 le_rfl (enter_evex_ok henabled) hsrc
    exact ⟨t, ht, hdone⟩
  · have hlanes : evexLength p row s.cfg = .lanes row := by rw [hlength, hparam]; exact if_neg hll
    exact evexRegister_completes hrow hscale hlanes hrow.lanes (enter_evex_ok henabled) hsrc
  · have hud : evexLength p row s.cfg = .ud := by rw [hlength, hparam]; exact if_pos hll
    rw [hrow.exec_eq, dq2pdEvex, if_pos hud]
    rfl

end Sys2Proof.Machine
end
section

namespace Sys2Proof.Machine

/-! ### Which conditions are unmasked (R165, R166, R168) -/

theorem flagsWithin_or_iff {allow f g : SimdFlags} :
    FlagsWithin allow (f ||| g) ↔ FlagsWithin allow f ∧ FlagsWithin allow g := by
  refine ⟨fun h => ⟨?_, ?_⟩, fun ⟨hf, hg⟩ => hf.or hg⟩
  · have habsorb : (f ||| g) &&& f = f := by
      ext i; simp only [BitVec.getElem_and, BitVec.getElem_or]; cases f[i] <;> simp
    exact habsorb ▸ h.and_right f
  · have habsorb : (f ||| g) &&& g = g := by
      ext i; simp only [BitVec.getElem_and, BitVec.getElem_or]; cases g[i] <;> simp
    exact habsorb ▸ h.and_right g

theorem condOf_flagsWithin_iff {allow : SimdFlags} {conv : Nat → Conv 32} {n : Nat} :
    FlagsWithin allow (condOf conv n).flags ↔ ∀ j < n, FlagsWithin allow (conv j).flags := by
  induction n with
  | zero => exact ⟨fun _ _ hj => absurd hj (Nat.not_lt_zero _), fun _ => flagsWithin_zero allow⟩
  | succ n ih => rw [condOf, flagsWithin_or_iff, ih, Nat.forall_lt_succ_right]

/-- UM is the mask of UE. -/
theorem flagsWithin_ue_iff (s : State) : FlagsWithin s.simdMasks SimdFlags.ue ↔ s.um = true := by
  have hbit : s.simdMasks.getLsbD 4 = s.um := by
    rw [State.simdMasks, BitVec.getLsbD_extractLsb', State.um]
    exact Bool.true_and _
  have hmask : ∀ m : SimdFlags, FlagsWithin m SimdFlags.ue ↔ m.getLsbD 4 = true := by decide
  rw [hmask, hbit]

/-- No condition is unmasked exactly when every element's conditions are masked. -/
theorem unmasked_eq_zero_iff {s : State} {conv : Nat → Conv 32} {n : Nat} :
    s.unmasked (condOf conv n) = 0 ↔ AllMasked s conv n := by
  have hflags := condOf_flagsWithin_iff (allow := s.simdMasks) (conv := conv) (n := n)
  have htiny := condOf_tiny conv n
  have hdetected : s.unmasked (condOf conv n) = 0
      ↔ FlagsWithin s.simdMasks (condOf conv n).flags ∧ ((condOf conv n).tiny = true → s.um = true) := by
    rw [State.unmasked, State.detected]
    cases hum : s.um with
    | true => simp [FlagsWithin]
    | false =>
      cases ht : (condOf conv n).tiny with
      | false => simp [FlagsWithin]
      | true =>
        have hue := (flagsWithin_ue_iff s).not.2 (by rw [hum]; nofun)
        have hor := flagsWithin_or_iff (allow := s.simdMasks) (f := (condOf conv n).flags) (g := SimdFlags.ue)
        simp only [Bool.and_self, Bool.not_false, if_true]
        exact ⟨fun h => absurd (hor.1 h).2 hue, fun h => absurd (h.2 trivial) nofun⟩
  rw [hdetected, hflags]
  constructor
  · rintro ⟨hall, hum⟩ j hj
    exact ⟨hall j hj, fun ht => hum (htiny.2 ⟨j, hj, ht⟩)⟩
  · intro h
    refine ⟨fun j hj => (h j hj).1, fun ht => ?_⟩
    obtain ⟨j, hj, htj⟩ := htiny.1 ht
    exact (h j hj).2 htj

theorem condOf_congr {conv conv' : Nat → Conv 32} {n : Nat} (h : ∀ j < n, conv j = conv' j) :
    condOf conv n = condOf conv' n := by
  induction n with
  | zero => rfl
  | succ n ih =>
    rw [Nat.forall_lt_succ_right] at h
    rw [condOf, condOf, ih h.1, h.2]

/-! ### The tier B course with a vector destination (R121 to R123, R131 to R133, R151 to R153) -/

/-- The first `ne` elements depend on the source's first `bytes` bytes alone. -/
def ReadsBytes (conv : SrcVec → Nat → Conv 32) (bytes ne : Nat) : Prop :=
  ∀ v w : SrcVec, (∀ i < 8 * bytes, w.getLsbD i = v.getLsbD i) → ∀ j < ne, conv w j = conv v j

theorem dq2psLane_readsBytes (s : State) (ne : Nat) : ReadsBytes s.dq2psLane (4 * ne) ne := fun _ _ h _ hj =>
  congrArg (cvtI32ToF32 · s.rc) (dwordAt_congr h (by omega))

theorem pd2dqLane_readsBytes (s : State) (ne : Nat) : ReadsBytes s.pd2dqLane (8 * ne) ne := fun _ _ h _ hj =>
  congrArg (cvtF64ToI32 · s.rc s.daz) (qwordAt_congr h (by omega))

theorem pd2psLane_readsBytes (s : State) (ne : Nat) : ReadsBytes s.pd2psLane (8 * ne) ne := fun _ _ h _ hj =>
  congrArg (narrowElement · s.rc s.fz s.daz s.om s.um) (qwordAt_congr h (by omega))

theorem convertToDwords_completes {i : Instr} {g : Gate} {keep al : Bool} {bytes ne : Nat}
    {conv : SrcVec → Nat → Conv 32} {o : Operands} {s : State} {v : SrcVec} (hconv : ReadsBytes conv bytes ne)
    (henter : enter g s = .ok ()) (hsource : sourceIs s o.src bytes al v = true) (hmasked : AllMasked s (conv v) ne)
    (hpos : 0 < bytes) (hbytes : bytes ≤ 32) (hne : ne ≤ 8) (hkeep : keep = true → ne ≤ 4)
    (hlen : o.len = (encode i).length) :
    ∃ t, outcome (convertToDwords g keep al bytes ne conv o s) = .next t ∧ DwordsDone i s t o ne (conv v)
      ∧ WrittenBack keep s t o.dest (32 * ne) := by
  obtain ⟨w, hread, hbits⟩ := readSource_of_sourceIs hpos hbytes hsource
  have hlanes (j : Nat) (hj : j < ne) : conv w j = conv v j := hconv v w hbits j hj
  have hcond := condOf_congr hlanes
  have hunmasked : s.unmasked (condOf (conv w) ne) = 0 := hcond ▸ unmasked_eq_zero_iff.2 hmasked
  refine ⟨_, outcome_eq_next.2 (convertToDwords_eq_ok.2 ⟨henter, w, hread, hunmasked, rfl⟩),
    ⟨onlyVec_setVec_setMxcsr_advance s _ _ _ _, ?_, ipAfter_of_rip rfl hlen, fun j hj => ?_⟩,
    ⟨packD (fun j => (conv w j).val) ne, State.vec_setVec_self _ _ _, packD_above _ _⟩⟩
  · rw [← hcond]
    rfl
  · rw [State.vec_advance, State.vec_setMxcsr, State.writeBack, State.vec_setVec_self]
    split
    next hk =>
      have := hkeep hk
      rw [vecDword_mergeLow128 _ _ (by omega), vecDword_packD _ hj (by omega), hlanes j hj]
    next => rw [vecDword_packD _ hj (by omega), hlanes j hj]

/-- A legacy form of the course, its operand 16-byte aligned: the bits above 127 are kept. -/
theorem legacyDwords_completes {i : Instr} {ne : Nat} {conv : SrcVec → Nat → Conv 32} {o : Operands} {s : State}
    {v : SrcVec} (henabled : LegacyEnabled s) (hconv : ReadsBytes conv 16 ne)
    (hsource : sourceIs s o.src 16 true v = true) (hmasked : AllMasked s (conv v) ne) (hne : ne ≤ 4)
    (hlen : o.len = (encode i).length) :
    ∃ t, outcome (convertToDwords .legacy true true 16 ne conv o s) = .next t ∧ DwordsDone i s t o ne (conv v)
      ∧ WrittenBack true s t o.dest (32 * ne) :=
  convertToDwords_completes hconv (enter_legacy_ok henabled) hsource hmasked (by decide) (by decide) (by omega)
    (fun _ => hne) hlen

/-- A VEX form of the course: zeros above its elements. -/
theorem vexDwords_completes {i : Instr} {bytes ne : Nat} {conv : SrcVec → Nat → Conv 32} {o : Operands} {s : State}
    {v : SrcVec} (henabled : VexEnabled s) (hconv : ReadsBytes conv bytes ne)
    (hsource : sourceIs s o.src bytes false v = true) (hmasked : AllMasked s (conv v) ne)
    (hbytes : bytes = 16 ∨ bytes = 32) (hne : ne ≤ 8) (hlen : o.len = (encode i).length) :
    ∃ t, outcome (convertToDwords .vex false false bytes ne conv o s) = .next t ∧ DwordsDone i s t o ne (conv v)
      ∧ ZeroFrom t o.dest (32 * ne) := by
  obtain ⟨t, ht, hdone, hwritten⟩ := convertToDwords_completes (keep := false) hconv (enter_vex_ok henabled) hsource
    hmasked (by omega) (by omega) hne nofun hlen
  exact ⟨t, ht, hdone, hwritten.zeroFrom⟩

/-- Settles O28: four doublewords to four singles. -/
theorem cvtdq2psLegacyResult : Obligations.Cvtdq2psLegacyResult := by
  intro p s v henabled hsource hmasked
  obtain ⟨t, ht, hdone, hwritten⟩ := legacyDwords_completes (i := .cvtdq2ps p) henabled (dq2psLane_readsBytes s 4) hsource
    hmasked (by decide) (encodeLegacy_length 0x5B p).symm
  exact ⟨t, ht, hdone, hwritten.upperKept⟩

/-- Settles O30: two doubles to two doublewords. -/
theorem cvtpd2dqLegacyResult : Obligations.Cvtpd2dqLegacyResult := by
  intro p s v henabled hsource hmasked
  obtain ⟨t, ht, hdone, hwritten⟩ := legacyDwords_completes (i := .cvtpd2dq p) henabled (pd2dqLane_readsBytes s 2) hsource
    hmasked (by decide) (encodeLegacy_length 0xE6 p).symm
  exact ⟨t, ht, hdone, hwritten.quadword_one, hwritten.upperKept⟩

/-- Settles O33: two doubles to two singles. -/
theorem cvtpd2psLegacyResult : Obligations.Cvtpd2psLegacyResult := by
  intro p s v henabled hsource hmasked
  obtain ⟨t, ht, hdone, hwritten⟩ := legacyDwords_completes (i := .cvtpd2ps p) henabled (pd2psLane_readsBytes s 2) hsource
    hmasked (by decide) (encodeLegacy_length 0x5A p).symm
  exact ⟨t, ht, hdone, hwritten.quadword_one, hwritten.upperKept⟩

/-- Settles O29: four or eight doublewords to singles. -/
theorem vcvtdq2psVexResult : Obligations.Vcvtdq2psVexResult := by
  intro s v henabled
  refine ⟨fun p hsource hmasked => ?_, fun p hsource hmasked => ?_, fun p hsource hmasked => ?_,
    fun p hsource hmasked => ?_⟩
  · exact vexDwords_completes henabled (dq2psLane_readsBytes s 4) hsource hmasked (.inl rfl) (by decide)
      (vex3BytesWith_length 1 15 .none false 0x5B p).symm
  · exact vexDwords_completes henabled (dq2psLane_readsBytes s 4) hsource hmasked (.inl rfl) (by decide)
      (vex2BytesWith_length 15 .none false 0x5B p).symm
  · exact vexDwords_completes henabled (dq2psLane_readsBytes s 8) hsource hmasked (.inr rfl) (by decide)
      (vex3BytesWith_length 1 15 .none true 0x5B p).symm
  · exact vexDwords_completes henabled (dq2psLane_readsBytes s 8) hsource hmasked (.inr rfl) (by decide)
      (vex2BytesWith_length 15 .none true 0x5B p).symm

/-- Settles O31: two or four doubles to doublewords. -/
theorem vcvtpd2dqVexResult : Obligations.Vcvtpd2dqVexResult := by
  intro s v henabled
  refine ⟨fun p hsource hmasked => ?_, fun p hsource hmasked => ?_, fun p hsource hmasked => ?_,
    fun p hsource hmasked => ?_⟩
  · exact vexDwords_completes henabled (pd2dqLane_readsBytes s 2) hsource hmasked (.inl rfl) (by decide)
      (vex3BytesWith_length 1 15 .pF2 false 0xE6 p).symm
  · exact vexDwords_completes henabled (pd2dqLane_readsBytes s 2) hsource hmasked (.inl rfl) (by decide)
      (vex2BytesWith_length 15 .pF2 false 0xE6 p).symm
  · exact vexDwords_completes henabled (pd2dqLane_readsBytes s 4) hsource hmasked (.inr rfl) (by decide)
      (vex3BytesWith_length 1 15 .pF2 true 0xE6 p).symm
  · exact vexDwords_completes henabled (pd2dqLane_readsBytes s 4) hsource hmasked (.inr rfl) (by decide)
      (vex2BytesWith_length 15 .pF2 true 0xE6 p).symm

/-- Settles O34: two or four doubles to singles. -/
theorem vcvtpd2psVexResult : Obligations.Vcvtpd2psVexResult := by
  intro s v henabled
  refine ⟨fun p hsource hmasked => ?_, fun p hsource hmasked => ?_, fun p hsource hmasked => ?_,
    fun p hsource hmasked => ?_⟩
  · exact vexDwords_completes henabled (pd2psLane_readsBytes s 2) hsource hmasked (.inl rfl) (by decide)
      (vex3BytesWith_length 1 15 .p66 false 0x5A p).symm
  · exact vexDwords_completes henabled (pd2psLane_readsBytes s 2) hsource hmasked (.inl rfl) (by decide)
      (vex2BytesWith_length 15 .p66 false 0x5A p).symm
  · exact vexDwords_completes henabled (pd2psLane_readsBytes s 4) hsource hmasked (.inr rfl) (by decide)
      (vex3BytesWith_length 1 15 .p66 true 0x5A p).symm
  · exact vexDwords_completes henabled (pd2psLane_readsBytes s 4) hsource hmasked (.inr rfl) (by decide)
      (vex2BytesWith_length 15 .p66 true 0x5A p).symm

/-! ### CVTPD2PI (R141, R142) -/

theorem clearTop_top (w : BitVec 16) : (clearTop w).extractLsb' 11 3 = 0 := by
  have hmask : ∀ i < 3, (0xC7FF#16).getLsbD (11 + i) = false := by decide
  refine BitVec.eq_of_getLsbD_eq fun i hi => ?_
  rw [BitVec.getLsbD_extractLsb', clearTop, BitVec.getLsbD_and, hmask i hi, Bool.and_false, Bool.and_false]
  exact BitVec.getLsbD_zero.symm

theorem writeMm_phys_self (x : X87) (n : BitVec 3) (v : Qword) :
    (x.writeMm n v).phys[n.toNat]'n.isLt = 0xFFFF#16 ++ v := Vector.getElem_set_self n.isLt

theorem condOf_two_flags (conv : Nat → Conv 32) : (condOf conv 2).flags = (conv 0).flags ||| (conv 1).flags := by
  simp [condOf]

/-- Settles O32: the write to MM[reg] makes the transition to MMX operation. -/
theorem cvtpd2piResult : Obligations.Cvtpd2piResult := by
  intro p s v henabled hx87 hsource hmasked
  obtain ⟨w, hread, hbits⟩ := readSource_of_sourceIs (by decide) (by decide) hsource
  have hlanes (j : Nat) (hj : j < 2) : s.pd2dqLane w j = s.pd2dqLane v j := pd2dqLane_readsBytes s 2 v w hbits j hj
  have hcond := condOf_congr hlanes
  have hunmasked : s.unmasked (condOf (s.pd2dqLane w) 2) = 0 := hcond ▸ unmasked_eq_zero_iff.2 hmasked
  have hwrite := writeMm_phys_self s.x87 p.reg ((s.pd2dqLane v 1).val ++ (s.pd2dqLane v 0).val)
  have hframe := onlyMmx_writeMm s p.reg ((s.pd2dqLane v 1).val ++ (s.pd2dqLane v 0).val)
    (orFlags s.mxcsr (condOf (s.pd2dqLane v) 2).flags) p.len
  have hrun := pd2pi_eq_ok.2 ⟨enter_legacy_ok henabled, hx87, w, hread, hunmasked, rfl⟩
  rw [hlanes 0 (by decide), hlanes 1 (by decide), hcond] at hrun
  refine ⟨_, outcome_eq_next.2 hrun, hframe.fields, ?_, ?_, hframe.others, clearTop_top _, hframe.status, rfl, rfl, ?_,
    ipAfter_of_rip rfl (encodeLegacy_length 0x2D p).symm⟩
  · rw [State.mm]
    exact (congrArg (BitVec.extractLsb' 0 64) hwrite).trans BitVec.extractLsb'_append_eq_right
  · exact (congrArg (BitVec.extractLsb' 64 16) hwrite).trans BitVec.extractLsb'_append_eq_left
  · rw [← condOf_two_flags]
    rfl

end Sys2Proof.Machine
end

/-! Where an exception comes from, and when it comes (R42 to R45, R143, R166, R181 to R186). An enabled form reads exactly the
operand `memAccessOf` names, so that a failed check of that read is the form's outcome; and each course stops in its checks,
in that read, or in the response to its conditions. -/
section

namespace Sys2Proof.Machine

/-! ### The read of a form's memory operand (R42, R43, R51, R52) -/

/-- A form without a writemask reads its whole operand. -/
theorem readSource_of_memAccessOf {i : Instr} {s : State} {src : Src} {n : Nat} {acc : MemAccess}
    (hrow : evexRowOf i = none) (hplain : plainSource i s = some (src, n)) (h : memAccessOf i s = some acc) :
    readSource src n (needsAlign16 i) s = memRead acc s := by
  unfold memAccessOf at h
  rw [hrow, hplain] at h
  cases src with
  | reg r => cases h
  | mem g ea => cases h; rfl

theorem memAccessOf_of_plainSource {i : Instr} {s : State} {g : SegReg} {ea : Qword} {n : Nat}
    (hrow : evexRowOf i = none) (hplain : plainSource i s = some (.mem g ea, n)) :
    memAccessOf i s = some ⟨g, ea, n, List.range n, needsAlign16 i⟩ := by
  unfold memAccessOf
  rw [hrow, hplain]

theorem isReg_of_evexOperands_mem {p : EvexOp} {n : Nat} {s : State} {g : SegReg} {ea : Qword}
    (h : (evexOperands p n s).src = .mem g ea) : p.rm.isReg = false := by
  cases hrm : p.rm with
  | reg m => simp [evexOperands, hrm] at h
  | mem a => rfl

/-- The values an EVEX form converts, made from what it reads. -/
def evexData (p : EvexOp) (v : SrcVec) (j : Nat) : Dword := if p.bc then dwordAt v 0 else dwordAt v j

/-- An EVEX form with a memory operand reads the operand `memAccessOf` names. -/
theorem evexSource_of_memAccessOf {i : Instr} {p : EvexOp} {row : Nat} {s : State} {g : SegReg} {ea : Qword}
    (hrow : evexRowOf i = some (p, row)) (hsrc : (evexOperands p (evexDispScale p row) s).src = .mem g ea) :
    ∃ acc, memAccessOf i s = some acc
      ∧ evexSource p row (evexOperands p (evexDispScale p row) s).src s = (memRead acc s).map (evexData p) := by
  refine ⟨_, by rw [memAccessOf_evex hrow, hsrc], ?_⟩
  rw [hsrc, evexSource]
  cases hbc : p.bc with
  | true =>
    simp only [if_true]
    split
    next h => rw [h]; rfl
    next v h => rw [h]; exact congrArg Except.ok (funext fun j => by rw [evexData, if_pos hbc])
  | false =>
    simp only [Bool.false_eq_true, if_false]
    split
    next h => rw [h]; rfl
    next v h => rw [h]; exact congrArg Except.ok (funext fun j => by rw [evexData, if_neg (by rw [hbc]; nofun)])

theorem exists_mem_of_memAccessOf {i : Instr} {p : EvexOp} {row : Nat} {s : State} {acc : MemAccess}
    (hrow : evexRowOf i = some (p, row)) (h : memAccessOf i s = some acc) :
    ∃ g ea, (evexOperands p (evexDispScale p row) s).src = .mem g ea := by
  rw [memAccessOf_evex hrow] at h
  cases hsrc : (evexOperands p (evexDispScale p row) s).src with
  | reg r => rw [hsrc] at h; cases h
  | mem g ea => exact ⟨g, ea, rfl⟩

/-! ### A form whose read fails -/

theorem dq2pd_of_read_error {g : Gate} {s : State} {e : Stop} {ne : Nat} {o : Operands} (u : Bool)
    (henter : enter g s = .ok ()) (h : readSource o.src (4 * ne) false s = .error e) :
    dq2pd g u ne o s = .error e := by
  rw [dq2pd, henter, h]

theorem convertToDwords_of_read_error {g : Gate} {s : State} {e : Stop} {al : Bool} {bytes : Nat} {o : Operands} (u : Bool)
    (ne : Nat) (conv : SrcVec → Nat → Conv 32) (henter : enter g s = .ok ())
    (h : readSource o.src bytes al s = .error e) : convertToDwords g u al bytes ne conv o s = .error e := by
  rw [convertToDwords, henter, h]

theorem pd2pi_of_read_error {p : LegacyOp} {s : State} {e : Stop} (henter : enter .legacy s = .ok ())
    (hx87 : s.x87.status.getLsbD 7 = false) (h : readSource (legacyOperands p s).src 16 true s = .error e) :
    pd2pi p s = .error e := by
  have hcheck : checkX87 s = .ok () := checkX87_eq_ok.2 hx87
  rw [pd2pi, henter, hcheck, h]

theorem dq2pdEvex_of_read_error {i : Instr} {p : EvexOp} {row : Nat} {s : State} {acc : MemAccess} {e : Stop}
    (hrow : evexRowOf i = some (p, row)) (hacc : memAccessOf i s = some acc)
    (henter : enter (.evex ((evexLength p row s.cfg).needVl row)) s = .ok ()) (h : memRead acc s = .error e) :
    dq2pdEvex row p s = .error e := by
  obtain ⟨g, ea, hsrc⟩ := exists_mem_of_memAccessOf hrow hacc
  obtain ⟨acc', hacc', hsource⟩ := evexSource_of_memAccessOf hrow hsrc
  obtain rfl : acc' = acc := Option.some.inj (hacc'.symm.trans hacc)
  have hlanes := evexLength_of_not_rounding (.inr (isReg_of_evexOperands_mem hsrc)) row s.cfg
  rw [dq2pdEvex, henter, hlanes, if_neg nofun]
  simp only [hsource, h]
  rfl

/-- An enabled form whose read of its memory operand fails ends so. -/
theorem exec_of_memRead_error {i : Instr} {s : State} {acc : MemAccess} {e : Stop} (henabled : EnabledFor i s)
    (hx87 : NoX87Pending i s) (hacc : memAccessOf i s = some acc) (h : memRead acc s = .error e) :
    exec i s = outcome (.error e) := by
  have henter := enter_gateOf_ok henabled
  cases i with
  | cvtdq2pd p | vcvtdq2pd128Vex3 p | vcvtdq2pd128Vex2 p | vcvtdq2pd256Vex3 p | vcvtdq2pd256Vex2 p =>
    exact congrArg outcome (dq2pd_of_read_error _ henter ((readSource_of_memAccessOf rfl rfl hacc).trans h))
  | vcvtdq2pd128Evex p | vcvtdq2pd256Evex p | vcvtdq2pd512Evex p =>
    exact congrArg outcome (dq2pdEvex_of_read_error rfl hacc henter h)
  | cvtpd2pi p =>
    exact congrArg outcome (pd2pi_of_read_error henter hx87 ((readSource_of_memAccessOf rfl rfl hacc).trans h))
  | cvtdq2ps p | vcvtdq2ps128Vex3 p | vcvtdq2ps128Vex2 p | vcvtdq2ps256Vex3 p | vcvtdq2ps256Vex2 p
  | cvtpd2dq p | vcvtpd2dq128Vex3 p | vcvtpd2dq128Vex2 p | vcvtpd2dq256Vex3 p | vcvtpd2dq256Vex2 p
  | cvtpd2ps p | vcvtpd2ps128Vex3 p | vcvtpd2ps128Vex2 p | vcvtpd2ps256Vex3 p | vcvtpd2ps256Vex2 p =>
    exact congrArg outcome
      (convertToDwords_of_read_error _ _ _ henter ((readSource_of_memAccessOf rfl rfl hacc).trans h))

/-- A form that demands 16-byte alignment reads 16 bytes (R44). -/
theorem memAccessOf_align16 {i : Instr} {s : State} {acc : MemAccess} (h : memAccessOf i s = some acc) :
    acc.align16 = needsAlign16 i ∧ (needsAlign16 i = true → acc.size = 16 ∧ acc.offs = List.range 16) := by
  have plain {src : Src} {n : Nat} (hrow : evexRowOf i = none) (hplain : plainSource i s = some (src, n))
      (hn : needsAlign16 i = true → n = 16) :
      acc.align16 = needsAlign16 i ∧ (needsAlign16 i = true → acc.size = 16 ∧ acc.offs = List.range 16) := by
    cases src with
    | reg r => unfold memAccessOf at h; rw [hrow, hplain] at h; cases h
    | mem g ea =>
      rw [memAccessOf_of_plainSource hrow hplain] at h
      cases h
      exact ⟨rfl, fun hal => ⟨hn hal, by rw [hn hal]⟩⟩
  have masked {p : EvexOp} {row : Nat} (hrow : evexRowOf i = some (p, row)) : acc.align16 = false := by
    rw [memAccessOf_evex hrow] at h
    split at h
    next => cases h
    next => cases h; split <;> rfl
  cases i with
  | vcvtdq2pd128Evex p | vcvtdq2pd256Evex p | vcvtdq2pd512Evex p => exact ⟨masked rfl, nofun⟩
  | cvtdq2ps p | cvtpd2dq p | cvtpd2pi p | cvtpd2ps p => exact plain rfl rfl fun _ => rfl
  | cvtdq2pd p | vcvtdq2pd128Vex3 p | vcvtdq2pd128Vex2 p | vcvtdq2pd256Vex3 p | vcvtdq2pd256Vex2 p
  | vcvtdq2ps128Vex3 p | vcvtdq2ps128Vex2 p | vcvtdq2ps256Vex3 p | vcvtdq2ps256Vex2 p
  | vcvtpd2dq128Vex3 p | vcvtpd2dq128Vex2 p | vcvtpd2dq256Vex3 p | vcvtpd2dq256Vex2 p
  | vcvtpd2ps128Vex3 p | vcvtpd2ps128Vex2 p | vcvtpd2ps256Vex3 p | vcvtpd2ps256Vex2 p => exact plain rfl rfl nofun

/-! ### When each check of an access fails (R42, R44, R45) -/

theorem memRead_of_accessCheck {acc : MemAccess} {s : State} {e : Stop} (hoffs : acc.offs ≠ [])
    (h : accessCheck .read acc s = some e) : memRead acc s = .error e := by
  rw [memRead, if_neg hoffs, h]

theorem accessCheck_of_segment {acc : MemAccess} {s : State} (h : SegmentViolation s acc.seg acc.ea acc.offs) :
    accessCheck .read acc s = some (raise (segmentExn acc.seg) s) := by
  have hseg : s.segmentOk .read acc.seg acc.ea acc.offs = false := by
    rw [← Bool.not_eq_true, segmentOk_iff, not_not]; exact h
  rw [accessCheck, hseg]
  rfl

theorem accessCheck_of_align16 {acc : MemAccess} {s : State} (hseg : ¬SegmentViolation s acc.seg acc.ea acc.offs)
    (halign : acc.align16 = true) (h : (s.linear acc.seg acc.ea 0).toNat % 16 ≠ 0) :
    accessCheck .read acc s = some (raise .gp s) := by
  have hmisaligned : s.misaligned acc 16 = true := bne_iff_ne.2 h
  rw [accessCheck, segmentOk_iff.2 hseg, halign, hmisaligned]
  rfl

/-- Past the segment and the 16-byte checks an access goes by #AC's condition and the translation. -/
theorem accessCheck_of_ok {acc : MemAccess} {s : State} (hseg : ¬SegmentViolation s acc.seg acc.ea acc.offs)
    (halign : acc.align16 = true → (s.linear acc.seg acc.ea 0).toNat % 16 = 0) {ac : Bool}
    {pf : Option (Qword × Dword)} (hac : s.alignFault acc = ac)
    (hpf : s.pageFault .read acc.seg acc.ea acc.offs = pf) :
    (ac = true → pf = none → accessCheck .read acc s = some (raise .ac s))
      ∧ ∀ la code, ac = false → pf = some (la, code) → accessCheck .read acc s = some (raise (.pf la code) s) := by
  have haligned : ¬(acc.align16 && s.misaligned acc 16) = true := by
    rw [Bool.and_eq_true, State.misaligned, bne_iff_ne]
    exact fun ⟨hal, hne⟩ => hne (halign hal)
  constructor
  · rintro rfl rfl
    rw [accessCheck, segmentOk_iff.2 hseg, if_neg haligned, hac, hpf]
    rfl
  · rintro la code rfl rfl
    rw [accessCheck, segmentOk_iff.2 hseg, if_neg haligned, hac, hpf]
    rfl

theorem pageFault_of_first {s : State} {g : SegReg} {ea : Qword} {before after : List Nat} {k : Nat} {code : Dword}
    (hbefore : ∀ j ∈ before, (s.translate .read (s.linear g ea j)).toOption.isSome = true)
    (hk : s.translate .read (s.linear g ea k) = .error code) :
    s.pageFault .read g ea (before ++ k :: after) = some (s.linear g ea k, code) := by
  have hnone := pageFault_eq_none.2 hbefore
  rw [State.pageFault] at hnone ⊢
  rw [List.findSome?_append, hnone, Option.none_or, List.findSome?_cons, hk]

theorem gather_of_first_missing {s : State} {g : SegReg} {ea : Qword} {before after : List Nat} {k : Nat}
    (hbefore : ∀ j ∈ before, (s.mem.read (s.linear g ea j).toNat).isSome = true)
    (hk : s.mem.read (s.linear g ea k).toNat = none) :
    gather s g ea (before ++ k :: after) = .error (s.linear g ea k) := by
  induction before with
  | nil => rw [List.nil_append, gather, hk]
  | cons j js ih =>
    obtain ⟨hj, hjs⟩ := List.forall_mem_cons.1 hbefore
    obtain ⟨b, hb⟩ := Option.isSome_iff_exists.1 hj
    rw [List.cons_append, gather, hb, ih hjs]

/-- Settles O44: the segment check comes first. -/
theorem segmentViolationsRaiseSsOrGp : Obligations.SegmentViolationsRaiseSsOrGp := by
  intro i s acc henabled hx87 hacc hoffs hseg
  rw [exec_of_memRead_error henabled hx87 hacc (memRead_of_accessCheck hoffs (accessCheck_of_segment hseg)), segmentExn]
  split
  · exact ⟨rfl, rfl⟩
  · exact ⟨rfl, rfl⟩

/-- Settles O45: the 16-byte check comes next. -/
theorem misalignedSixteenByteOperandRaisesGp : Obligations.MisalignedSixteenByteOperandRaisesGp := by
  intro i s acc henabled hx87 hneeds hacc hseg hmisaligned
  obtain ⟨halign, hwhole⟩ := memAccessOf_align16 hacc
  have hoffs : acc.offs ≠ [] := by rw [(hwhole hneeds).2]; decide
  exact exec_of_memRead_error henabled hx87 hacc
    (memRead_of_accessCheck hoffs (accessCheck_of_align16 hseg (halign.trans hneeds) hmisaligned))

/-- Settles O46: #AC's condition holds and every accessed byte translates. -/
theorem alignmentCheckFault : Obligations.AlignmentCheckFault := by
  intro i s acc henabled hx87 hacc hoffs hseg hsize ham hac hcpl hmisaligned hpages
  obtain ⟨halign, hwhole⟩ := memAccessOf_align16 hacc
  have hnot16 : acc.align16 = false := by
    rcases hsize with hsmall | ⟨hfalse, -⟩
    · rw [halign, ← Bool.not_eq_true]
      intro hneeds
      have := (hwhole hneeds).1
      omega
    · exact hfalse
  have hviolation : AlignmentViolation s acc := ⟨hnot16, ham, hac, hcpl, hsize.imp_right And.right, hmisaligned⟩
  have hcheck := (accessCheck_of_ok hseg (fun h => absurd (hnot16.symm.trans h) nofun) (alignFault_iff.2 hviolation)
    (pageFault_eq_none.2 hpages)).1 rfl rfl
  exact ⟨exec_of_memRead_error henabled hx87 hacc (memRead_of_accessCheck hoffs hcheck), rfl⟩

/-- Settles O48: the translation is asked byte by byte, from the lowest offset up. -/
theorem pageFaultOfTheFirstFailingByte : Obligations.PageFaultOfTheFirstFailingByte := by
  intro i s acc before after k code henabled hx87 hacc hseg halign hac hoffs hbefore hk
  have hpf : s.pageFault .read acc.seg acc.ea acc.offs = some (s.linear acc.seg acc.ea k, code) := by
    rw [hoffs]; exact pageFault_of_first hbefore hk
  have hcheck := (accessCheck_of_ok hseg halign (alignFault_eq_false.2 hac) hpf).2 _ _ rfl rfl
  exact exec_of_memRead_error henabled hx87 hacc (memRead_of_accessCheck (by rw [hoffs]; simp) hcheck)

/-- Settles O50: every check passes, and the bytes are taken from the lowest offset up. -/
theorem readOutsideMemoryIsStuck : Obligations.ReadOutsideMemoryIsStuck := by
  intro i s acc before after k henabled hx87 hacc hseg halign hac hoffs hpages hbefore hk
  have haligned : (acc.align16 && s.misaligned acc 16) = false := by
    rw [Bool.and_eq_false_iff, State.misaligned, bne_eq_false_iff_eq, ← Bool.not_eq_true, ← imp_iff_not_or]
    exact halign
  have hcheck : accessCheck .read acc s = none :=
    accessCheck_eq_none.2 ⟨segmentOk_iff.2 hseg, haligned, alignFault_eq_false.2 hac, pageFault_eq_none.2 hpages⟩
  have hgather : gather s acc.seg acc.ea acc.offs = .error (s.linear acc.seg acc.ea k) := by
    rw [hoffs]; exact gather_of_first_missing hbefore hk
  refine exec_of_memRead_error henabled hx87 hacc (e := .fault (.stuckData (s.linear acc.seg acc.ea k))) ?_
  rw [memRead, if_neg (by rw [hoffs]; simp), hcheck, hgather]

/-- Settles O51: bit j of what is read belongs to byte j / 8, if that byte is accessed. -/
theorem memReadIsLittleEndian : Obligations.MemReadIsLittleEndian := by
  intro acc s v h k hk
  have unaccessed (hv : ∀ j < 256, j / 8 ∉ acc.offs → v.getLsbD j = false) (hmem : k ∉ acc.offs) :
      v.extractLsb' (8 * k) 8 = 0 := by
    refine BitVec.eq_of_getLsbD_eq fun i hi => ?_
    rw [BitVec.getLsbD_extractLsb', hv _ (by omega) (by rwa [show (8 * k + i) / 8 = k by omega]), Bool.and_false]
    exact BitVec.getLsbD_zero.symm
  rcases memRead_eq_ok.1 h with ⟨hnil, rfl⟩ | ⟨-, -, hgather⟩
  · have hmem : k ∉ acc.offs := by rw [hnil]; exact List.not_mem_nil
    rw [if_neg hmem]
    exact unaccessed (fun j _ _ => BitVec.getLsbD_zero) hmem
  · have hbits := gather_bits hgather
    split
    next hmem =>
      obtain ⟨b, hb⟩ := gather_exists hgather k hmem
      rw [hb]
      refine congrArg some (BitVec.eq_of_getLsbD_eq fun i hi => ?_)
      rw [BitVec.getLsbD_extractLsb', hbits _ (by omega), show (8 * k + i) / 8 = k by omega,
        show (8 * k + i) % 8 = i by omega, hb]
      simp [hmem, hi]
    next hmem =>
      exact unaccessed (fun j hj hnot => by rw [hbits j hj, decide_eq_false hnot, Bool.false_and]) hmem

/-! ### The fault code (R184) -/

theorem pfCode_bits (present write user rsvd fetch : Bool) :
    (pfCode present write user rsvd fetch).getLsbD 0 = present ∧ (pfCode present write user rsvd fetch).getLsbD 1 = write
      ∧ (pfCode present write user rsvd fetch).getLsbD 2 = user ∧ (pfCode present write user rsvd fetch).getLsbD 3 = rsvd
      ∧ (pfCode present write user rsvd fetch).getLsbD 4 = fetch ∧ pfCode present write user rsvd fetch >>> 5 = 0 := by
  revert present write user rsvd fetch; decide

/-- The page that a linear address lies in, if it is listed. -/
def pageOf (ps : List Page) (la : Qword) : Option Page := ps.find? (fun q => q.number == la.toNat / pageSize)

theorem pageOf_isSome {ps : List Page} {la : Qword} :
    (pageOf ps la).isSome = true ↔ ∃ q ∈ ps, q.number = la.toNat / pageSize := by
  simp [pageOf, List.find?_isSome]

/-- The fault codes of the page list: P and RSVD go by the page, the other bits by the access and the privilege. -/
theorem translateLA_error {bits : Nat} {ps : List Page} {cpl : BitVec 2} {k : Access} {la : Qword} {code : Dword}
    (h : translateLA bits (.pages ps) cpl k la = .error code) :
    ∃ rsvd, code = pfCode (pageOf ps la).isSome (k == .write) (cpl == 3) rsvd (k == .fetch)
      ∧ (rsvd = true ↔ ∃ q, pageOf ps la = some q ∧ (q.reserved = true ∨ 2 ^ bits < (q.frame + 1) * pageSize)) := by
  unfold translateLA at h
  dsimp only at h
  split at h
  next hpage =>
    have hpage : pageOf ps la = none := hpage
    cases h
    exact ⟨false, by rw [hpage]; rfl, nofun, fun ⟨q, hq, _⟩ => by rw [hpage] at hq; cases hq⟩
  next q hpage =>
    have hpage : pageOf ps la = some q := hpage
    have hrsvd : (q.reserved || q.beyond bits) = true ↔ q.reserved = true ∨ 2 ^ bits < (q.frame + 1) * pageSize := by
      rw [Bool.or_eq_true, Page.beyond, decide_eq_true_eq]
    split at h
    next hbad =>
      cases h
      exact ⟨true, by rw [hpage]; rfl, fun _ => ⟨q, hpage, hrsvd.1 hbad⟩, fun _ => rfl⟩
    next hgood =>
      split at h
      next =>
        cases h
        refine ⟨false, by rw [hpage]; rfl, nofun, fun ⟨q', hq', hbad⟩ => absurd (hrsvd.2 ?_) hgood⟩
        rw [hpage] at hq'
        cases hq'
        exact hbad
      next => cases h

/-- Settles O49: each bit of the code is one field of it. -/
theorem faultCodeBits : Obligations.FaultCodeBits := by
  intro bits ps cpl k la code h
  obtain ⟨rsvd, rfl, hrsvd⟩ := translateLA_error h
  obtain ⟨h0, h1, h2, h3, h4, h5⟩ := pfCode_bits (pageOf ps la).isSome (k == .write) (cpl == 3) rsvd (k == .fetch)
  refine ⟨h1.trans ?_, h2.trans ?_, h4.trans ?_, by rw [h0]; exact pageOf_isSome, by rw [h3]; exact hrsvd, h5⟩
  · cases k <;> rfl
  · exact beq_eq_decide (a := cpl) (b := 3)
  · cases k <;> rfl

/-! ### Where each course stops -/

theorem dq2pd_error {g : Gate} {u : Bool} {ne : Nat} {o : Operands} {s : State} {e : Stop}
    (h : dq2pd g u ne o s = .error e) : enter g s = .error e ∨ readSource o.src (4 * ne) false s = .error e := by
  unfold dq2pd at h
  split at h
  next henter => cases h; exact .inl henter
  next =>
    split at h
    next hread => cases h; exact .inr hread
    next => cases h

theorem dq2pdEvex_error {i : Instr} {row : Nat} {p : EvexOp} {s : State} {e : Stop} (hrow : evexRowOf i = some (p, row))
    (h : dq2pdEvex row p s = .error e) :
    e = raise .ud s ∨ enter (.evex ((evexLength p row s.cfg).needVl row)) s = .error e ∨ e = .refused .evexBWithRegister
      ∨ ∃ acc, memAccessOf i s = some acc ∧ memRead acc s = .error e := by
  unfold dq2pdEvex at h
  split at h
  next => cases h; exact .inl rfl
  next =>
    split at h
    next henter => cases h; exact .inr (.inl henter)
    next =>
      split at h
      next kl hkl =>
        dsimp only at h
        split at h
        next hsource =>
          cases h
          cases hsrc : (evexOperands p (evexDispScale p row) s).src with
          | reg r => rw [hsrc] at hsource; cases hsource
          | mem g ea =>
            obtain ⟨acc, hacc, hmap⟩ := evexSource_of_memAccessOf hrow hsrc
            rw [evexLength_of_not_rounding (.inr (isReg_of_evexOperands_mem hsrc))] at hkl
            cases hkl
            rw [hmap] at hsource
            refine .inr (.inr (.inr ⟨acc, hacc, ?_⟩))
            cases hread : memRead acc s with
            | error e' => rw [hread] at hsource; cases hsource; rfl
            | ok v => rw [hread] at hsource; cases hsource
        next => cases h
      next => cases h; exact .inr (.inr (.inl rfl))

theorem convertToDwords_error {g : Gate} {u al : Bool} {bytes ne : Nat} {conv : SrcVec → Nat → Conv 32} {o : Operands}
    {s : State} {e : Stop} (h : convertToDwords g u al bytes ne conv o s = .error e) :
    enter g s = .error e ∨ readSource o.src bytes al s = .error e ∨ ∃ c, simdRespond c s = .error e := by
  unfold convertToDwords at h
  split at h
  next henter => cases h; exact .inl henter
  next =>
    split at h
    next hread => cases h; exact .inr (.inl hread)
    next =>
      split at h
      next hsimd => cases h; exact .inr (.inr ⟨_, hsimd⟩)
      next => cases h

theorem pd2pi_error {p : LegacyOp} {s : State} {e : Stop} (h : pd2pi p s = .error e) :
    enter .legacy s = .error e ∨ checkX87 s = .error e
      ∨ readSource (legacyOperands p s).src 16 true s = .error e ∨ ∃ c, simdRespond c s = .error e := by
  unfold pd2pi at h
  split at h
  next henter => cases h; exact .inl henter
  next =>
    split at h
    next hx87 => cases h; exact .inr (.inl hx87)
    next =>
      split at h
      next hread => cases h; exact .inr (.inr (.inl hread))
      next =>
        split at h
        next hsimd => cases h; exact .inr (.inr (.inr ⟨_, hsimd⟩))
        next => cases h

/-! ### #AC and #XM (R185, R186) -/

theorem enter_ne {g : Gate} {s u : State} {x : Exn} (hud : x ≠ .ud) (hnm : x ≠ .nm) :
    enter g s ≠ .error (.fault (.exception x u)) := fun h => by
  rcases (enter_exception h).1 with hx | hx
  · exact hud hx
  · exact hnm hx

theorem raise_ne {s u : State} {x y : Exn} (h : x ≠ y) : raise y s ≠ .fault (.exception x u) := fun hraise =>
  h (RaisedFrom.exception ⟨s, hraise.symm, rfl⟩).1

/-- #AC comes from the check of an access alone, which finds its condition. -/
theorem alignFault_of_accessCheck {acc : MemAccess} {s u : State} {k : Access}
    (h : accessCheck k acc s = some (.fault (.exception .ac u))) : s.alignFault acc = true := by
  unfold accessCheck at h
  split at h
  next =>
    refine absurd (Option.some.inj h) (raise_ne ?_)
    unfold segmentExn; split <;> decide
  next =>
    split at h
    next => exact absurd (Option.some.inj h) (raise_ne (by decide))
    next =>
      split at h
      next => cases h
      next hac _ => exact hac
      next => exact absurd (Option.some.inj h) (raise_ne nofun)
      next hac _ => exact hac

/-- The stop of a form by #AC is the stop of its read. -/
theorem memRead_of_exec_ac {i : Instr} {s u : State} (h : exec i s = .fault (.exception .ac u)) :
    ∃ acc, memAccessOf i s = some acc ∧ memRead acc s = .error (.fault (.exception .ac u)) := by
  have hud : Exn.ac ≠ .ud := by decide
  have hnm : Exn.ac ≠ .nm := by decide
  have plain {src : Src} {n : Nat} (hrow : evexRowOf i = none) (hplain : plainSource i s = some (src, n))
      (hread : readSource src n (needsAlign16 i) s = .error (.fault (.exception .ac u))) :
      ∃ acc, memAccessOf i s = some acc ∧ memRead acc s = .error (.fault (.exception .ac u)) := by
    cases src with
    | reg r => cases hread
    | mem g ea => exact ⟨_, memAccessOf_of_plainSource hrow hplain, hread⟩
  have masked {row : Nat} {p : EvexOp} (hrow : evexRowOf i = some (p, row))
      (hstop : dq2pdEvex row p s = .error (.fault (.exception .ac u))) :
      ∃ acc, memAccessOf i s = some acc ∧ memRead acc s = .error (.fault (.exception .ac u)) := by
    rcases dq2pdEvex_error hrow hstop with hraise | henter | hrefused | hread
    · exact absurd hraise.symm (raise_ne hud)
    · exact absurd henter (enter_ne hud hnm)
    · cases hrefused
    · exact hread
  have simd {c : Cond} (hsimd : simdRespond c s = .error (.fault (.exception .ac u))) : False := by
    rcases (simdRespond_exception hsimd).1 with hx | hx <;> cases hx
  cases i with
  | cvtdq2pd p | vcvtdq2pd128Vex3 p | vcvtdq2pd128Vex2 p | vcvtdq2pd256Vex3 p | vcvtdq2pd256Vex2 p =>
    rcases dq2pd_error (outcome_eq_fault.1 h) with henter | hread
    · exact absurd henter (enter_ne hud hnm)
    · exact plain rfl rfl hread
  | vcvtdq2pd128Evex p | vcvtdq2pd256Evex p | vcvtdq2pd512Evex p => exact masked rfl (outcome_eq_fault.1 h)
  | cvtpd2pi p =>
    rcases pd2pi_error (outcome_eq_fault.1 h) with henter | hx87 | hread | ⟨c, hsimd⟩
    · exact absurd henter (enter_ne hud hnm)
    · exact absurd (checkX87_exception hx87).1 (by decide)
    · exact plain rfl rfl hread
    · exact (simd hsimd).elim
  | cvtdq2ps p | vcvtdq2ps128Vex3 p | vcvtdq2ps128Vex2 p | vcvtdq2ps256Vex3 p | vcvtdq2ps256Vex2 p
  | cvtpd2dq p | vcvtpd2dq128Vex3 p | vcvtpd2dq128Vex2 p | vcvtpd2dq256Vex3 p | vcvtpd2dq256Vex2 p
  | cvtpd2ps p | vcvtpd2ps128Vex3 p | vcvtpd2ps128Vex2 p | vcvtpd2ps256Vex3 p | vcvtpd2ps256Vex2 p =>
    rcases convertToDwords_error (outcome_eq_fault.1 h) with henter | hread | ⟨c, hsimd⟩
    · exact absurd henter (enter_ne hud hnm)
    · exact plain rfl rfl hread
    · exact (simd hsimd).elim

theorem memRead_ne_xm {acc : MemAccess} {s u : State} : memRead acc s ≠ .error (.fault (.exception .xm u)) := by
  intro h
  rcases memRead_error h with hcheck | ⟨la, hstuck⟩
  · obtain ⟨x, y, he, -, hx⟩ := accessCheck_eq_some hcheck
    cases he
    rcases hx with hx | hx | hx | ⟨la, code, hx, -⟩
    · unfold segmentExn at hx; split at hx <;> cases hx
    · cases hx
    · cases hx
    · cases hx
  · cases hstuck

theorem readSource_ne_xm {src : Src} {n : Nat} {al : Bool} {s u : State} :
    readSource src n al s ≠ .error (.fault (.exception .xm u)) := by
  cases src with
  | reg r => nofun
  | mem g ea => exact memRead_ne_xm

theorem osxmmexcpt_of_simdRespond {c : Cond} {s u : State}
    (h : simdRespond c s = .error (.fault (.exception .xm u))) : s.cr4.getLsbD 10 = true := by
  obtain ⟨-, hraise⟩ := simdRespond_error h
  by_contra hoff
  rw [if_neg (show ¬s.osxmmexcpt = true from hoff)] at hraise
  cases hraise

/-- #XM comes from the response to the conditions of a tier B form. -/
theorem simd_of_exec_xm {i : Instr} {s u : State} (h : exec i s = .fault (.exception .xm u)) :
    tierA i = false ∧ ∃ c, simdRespond c s = .error (.fault (.exception .xm u)) := by
  have hud : Exn.xm ≠ .ud := by decide
  have hnm : Exn.xm ≠ .nm := by decide
  have masked {row : Nat} {p : EvexOp} (hrow : evexRowOf i = some (p, row))
      (hstop : dq2pdEvex row p s = .error (.fault (.exception .xm u))) : False := by
    rcases dq2pdEvex_error hrow hstop with hraise | henter | hrefused | ⟨acc, -, hread⟩
    · exact raise_ne hud hraise.symm
    · exact enter_ne hud hnm henter
    · cases hrefused
    · exact memRead_ne_xm hread
  cases i with
  | cvtdq2pd p | vcvtdq2pd128Vex3 p | vcvtdq2pd128Vex2 p | vcvtdq2pd256Vex3 p | vcvtdq2pd256Vex2 p =>
    rcases dq2pd_error (outcome_eq_fault.1 h) with henter | hread
    · exact absurd henter (enter_ne hud hnm)
    · exact absurd hread readSource_ne_xm
  | vcvtdq2pd128Evex p | vcvtdq2pd256Evex p | vcvtdq2pd512Evex p => exact (masked rfl (outcome_eq_fault.1 h)).elim
  | cvtpd2pi p =>
    rcases pd2pi_error (outcome_eq_fault.1 h) with henter | hx87 | hread | hsimd
    · exact absurd henter (enter_ne hud hnm)
    · exact absurd (checkX87_exception hx87).1 (by decide)
    · exact absurd hread readSource_ne_xm
    · exact ⟨rfl, hsimd⟩
  | cvtdq2ps p | vcvtdq2ps128Vex3 p | vcvtdq2ps128Vex2 p | vcvtdq2ps256Vex3 p | vcvtdq2ps256Vex2 p
  | cvtpd2dq p | vcvtpd2dq128Vex3 p | vcvtpd2dq128Vex2 p | vcvtpd2dq256Vex3 p | vcvtpd2dq256Vex2 p
  | cvtpd2ps p | vcvtpd2ps128Vex3 p | vcvtpd2ps128Vex2 p | vcvtpd2ps256Vex3 p | vcvtpd2ps256Vex2 p =>
    rcases convertToDwords_error (outcome_eq_fault.1 h) with henter | hread | hsimd
    · exact absurd henter (enter_ne hud hnm)
    · exact absurd hread readSource_ne_xm
    · exact ⟨rfl, hsimd⟩

/-- Settles O47: #AC is the form's own access failing its alignment check, #XM the response to a condition. -/
theorem acAndXmNeedTheirEnables : Obligations.AcAndXmNeedTheirEnables := by
  constructor
  · intro i s u h
    obtain ⟨acc, hacc, hread⟩ := memRead_of_exec_ac h
    rcases memRead_error hread with hcheck | ⟨la, hstuck⟩
    · obtain ⟨halign, ham, hac, hcpl, hsize, hmisaligned⟩ := alignFault_iff.1 (alignFault_of_accessCheck hcheck)
      exact ⟨ham, hac, hcpl, acc, hacc, halign, hsize, hmisaligned⟩
    · cases hstuck
  · intro i s u h
    obtain ⟨htier, c, hsimd⟩ := simd_of_exec_xm h
    exact ⟨htier, osxmmexcpt_of_simdRespond hsimd⟩

/-! ### #UD and #MF before any operand (R143, R181) -/

theorem gateUd_legacy {s : State} (h : s.cfg.sse2 = false ∨ s.cr0.getLsbD 2 = true ∨ s.cr4.getLsbD 9 = false) :
    s.gateUd .legacy = true := by
  rcases h with h | h | h <;>
    simp only [State.gateUd, State.em, State.osfxsr, h, Bool.not_false, Bool.true_or, Bool.or_true]

theorem gateUd_vex {s : State} (h : s.cfg.avx = false ∨ s.cr4.getLsbD 18 = false ∨ s.xcr0.getLsbD 1 = false
    ∨ s.xcr0.getLsbD 2 = false ∨ s.mode = .realAddress ∨ s.mode = .virtual8086) : s.gateUd .vex = true := by
  rcases h with h | h | h | h | h | h <;>
    simp only [State.gateUd, State.osxsave, State.avxStateOn, noVex, h, Bool.not_false, Bool.true_or, Bool.or_true,
      Bool.false_and, Bool.and_false]

theorem gateUd_evex {s : State} (nv : Bool) (h : s.cfg.avx512f = false ∨ s.cr4.getLsbD 18 = false
    ∨ s.xcr0.getLsbD 1 = false ∨ s.xcr0.getLsbD 2 = false ∨ s.xcr0.getLsbD 5 = false ∨ s.xcr0.getLsbD 6 = false
    ∨ s.xcr0.getLsbD 7 = false ∨ s.mode = .realAddress ∨ s.mode = .virtual8086
    ∨ (s.cfg.avx512vl = false ∧ nv = true)) : s.gateUd (.evex nv) = true := by
  rcases h with h | h | h | h | h | h | h | h | h | ⟨h, rfl⟩ <;>
    simp only [State.gateUd, State.osxsave, State.avxStateOn, State.avx512StateOn, noVex, h, Bool.not_false,
      Bool.true_or, Bool.or_true, Bool.false_and, Bool.and_false, Bool.and_true]

theorem exec_of_gateUd {i : Instr} {s : State}
    (hlen : ∀ p row, evexRowOf i = some (p, row) → evexLength p row s.cfg ≠ .ud) (h : s.gateUd (gateOf i s) = true) :
    exec i s = .fault (.exception .ud s) :=
  exec_of_enter_error hlen (enter_of_gateUd h)

theorem gateUd_of_legacy_cause {i : Instr} {s : State} (hlayout : layoutOf i = .legacy) (hrow : evexRowOf i = none)
    (h : UdCause i s) : s.gateUd (gateOf i s) = true := by
  unfold UdCause at h
  rw [hlayout] at h
  unfold gateOf
  rw [hrow, hlayout]
  exact gateUd_legacy h

theorem gateUd_of_vex_cause {i : Instr} {s : State} (hlayout : layoutOf i = .vex) (hrow : evexRowOf i = none)
    (h : UdCause i s) : s.gateUd (gateOf i s) = true := by
  unfold UdCause at h
  rw [hlayout] at h
  unfold gateOf
  rw [hrow, hlayout]
  exact gateUd_vex h

theorem gateUd_of_evex_cause {i : Instr} {p : EvexOp} {row : Nat} {s : State} (hlayout : layoutOf i = .evex)
    (hrow : evexRowOf i = some (p, row)) (h : UdCause i s) : s.gateUd (gateOf i s) = true := by
  unfold UdCause at h
  rw [hlayout] at h
  unfold gateOf
  rw [hrow]
  refine gateUd_evex _ ?_
  rcases h with h | h | h | h | h | h | h | h | h | ⟨hvl, hembedded, p', row', hrow', hne⟩
  · exact .inl h
  · exact .inr (.inl h)
  · exact .inr (.inr (.inl h))
  · exact .inr (.inr (.inr (.inl h)))
  · exact .inr (.inr (.inr (.inr (.inl h))))
  · exact .inr (.inr (.inr (.inr (.inr (.inl h)))))
  · exact .inr (.inr (.inr (.inr (.inr (.inr (.inl h))))))
  · exact .inr (.inr (.inr (.inr (.inr (.inr (.inr (.inl h)))))))
  · exact .inr (.inr (.inr (.inr (.inr (.inr (.inr (.inr (.inl h))))))))
  · obtain ⟨rfl, rfl⟩ : p' = p ∧ row' = row := by rw [hrow] at hrow'; cases hrow'; exact ⟨rfl, rfl⟩
    have hrounding : (p'.bc && p'.rm.isReg) = false := by
      unfold embeddedRounding at hembedded
      rw [hrow'] at hembedded
      exact hembedded
    have hlanes := evexLength_of_not_rounding (Bool.and_eq_false_iff.1 hrounding) row' s.cfg
    refine .inr (.inr (.inr (.inr (.inr (.inr (.inr (.inr (.inr ⟨hvl, ?_⟩))))))))
    rw [hlanes]
    exact bne_iff_ne.2 hne

theorem exec_evex_of_cause {i : Instr} {p : EvexOp} {row : Nat} {s : State} (hlayout : layoutOf i = .evex)
    (hrow : evexRowOf i = some (p, row)) (hexec : exec i s = outcome (dq2pdEvex row p s)) (h : UdCause i s) :
    exec i s = .fault (.exception .ud s) := by
  by_cases hud : evexLength p row s.cfg = .ud
  · rw [hexec, dq2pdEvex, if_pos hud]
    rfl
  · refine exec_of_gateUd (fun p' row' hrow' => ?_) (gateUd_of_evex_cause hlayout hrow h)
    rw [hrow] at hrow'
    cases hrow'
    exact hud

theorem exec_of_plain_gateUd {i : Instr} {s : State} (hrow : evexRowOf i = none)
    (h : s.gateUd (gateOf i s) = true) : exec i s = .fault (.exception .ud s) :=
  exec_of_gateUd (fun p row hsome => by rw [hrow] at hsome; cases hsome) h

/-- Settles O40: the causes are those of the column of R181 that the form's checks go by. -/
theorem undefinedOpcodeCauses : Obligations.UndefinedOpcodeCauses := by
  intro i s h
  cases i with
  | cvtdq2pd p | cvtdq2ps p | cvtpd2dq p | cvtpd2pi p | cvtpd2ps p =>
    exact exec_of_plain_gateUd rfl (gateUd_of_legacy_cause rfl rfl h)
  | vcvtdq2pd128Vex3 p | vcvtdq2pd256Vex3 p | vcvtdq2ps128Vex3 p | vcvtdq2ps256Vex3 p | vcvtpd2dq128Vex3 p
  | vcvtpd2dq256Vex3 p | vcvtpd2ps128Vex3 p | vcvtpd2ps256Vex3 p
  | vcvtdq2pd128Vex2 p | vcvtdq2pd256Vex2 p | vcvtdq2ps128Vex2 p | vcvtdq2ps256Vex2 p | vcvtpd2dq128Vex2 p
  | vcvtpd2dq256Vex2 p | vcvtpd2ps128Vex2 p | vcvtpd2ps256Vex2 p =>
    exact exec_of_plain_gateUd rfl (gateUd_of_vex_cause rfl rfl h)
  | vcvtdq2pd128Evex p | vcvtdq2pd256Evex p | vcvtdq2pd512Evex p => exact exec_evex_of_cause rfl rfl rfl h

/-- Settles O42: the check for a pending x87 exception comes before the operand. -/
theorem pendingX87ExceptionComesFirst : Obligations.PendingX87ExceptionComesFirst := by
  intro p s henabled hpending
  have hexec {e : Stop} (h : checkX87 s = .error e) : exec (.cvtpd2pi p) s = outcome (.error e) := by
    refine congrArg outcome ?_
    rw [pd2pi, enter_legacy_ok henabled, h]
  refine ⟨fun hne => hexec (e := raise .mf s) ?_, fun hne => hexec (e := .refused .ferrReporting) ?_⟩
  · rw [checkX87, if_pos hpending, if_pos (show s.ne = true from hne)]
  · rw [checkX87, if_pos hpending, if_neg (by rw [State.ne, hne]; nofun)]

/-! ### An unmasked SIMD condition (R166, R186) -/

theorem and_not_and_eq (f m a : SimdFlags) : f &&& ~~~ m &&& a = f &&& ~~~ (m ||| ~~~ a) := by
  ext i
  simp only [BitVec.getElem_and, BitVec.getElem_not, BitVec.getElem_or]
  cases f[i] <;> cases m[i] <;> cases a[i] <;> rfl

/-- UE is no pre-computation condition. -/
theorem detected_and_preFlags (s : State) (c : Cond) : s.detected c &&& preFlags = c.flags &&& preFlags := by
  have hue : ∀ f : SimdFlags, (f ||| SimdFlags.ue) &&& preFlags = f &&& preFlags := by decide
  rw [State.detected]
  split
  · exact hue c.flags
  · rfl

theorem unmasked_and_preFlags_iff {s : State} {conv : Nat → Conv 32} {n : Nat} :
    s.unmasked (condOf conv n) &&& preFlags ≠ 0 ↔ ∃ j < n, (conv j).flags &&& ~~~ s.simdMasks &&& preFlags ≠ 0 := by
  have hswap : s.unmasked (condOf conv n) &&& preFlags = (condOf conv n).flags &&& ~~~ s.simdMasks &&& preFlags := by
    rw [State.unmasked, BitVec.and_assoc, BitVec.and_comm (~~~ s.simdMasks), ← BitVec.and_assoc,
      detected_and_preFlags, BitVec.and_assoc, BitVec.and_comm preFlags, ← BitVec.and_assoc]
  have hall := condOf_flagsWithin_iff (allow := s.simdMasks ||| ~~~ preFlags) (conv := conv) (n := n)
  rw [hswap, and_not_and_eq]
  refine (not_congr hall).trans ?_
  simp only [and_not_and_eq, FlagsWithin, not_forall, exists_prop, Ne]

theorem rule166Flags_eq {s : State} {conv : Nat → Conv 32} {n : Nat} :
    s.rule166Flags (condOf conv n)
      = if ∃ j < n, (conv j).flags &&& ~~~ s.simdMasks &&& preFlags ≠ 0 then (condOf conv n).flags &&& preFlags
        else s.detected (condOf conv n) := by
  unfold State.rule166Flags
  by_cases h : ∃ j < n, (conv j).flags &&& ~~~ s.simdMasks &&& preFlags ≠ 0
  · rw [if_pos (unmasked_and_preFlags_iff.2 h), if_pos h, detected_and_preFlags]
  · rw [if_neg (mt unmasked_and_preFlags_iff.1 h), if_neg h]

/-- What a form does at an unmasked condition of the elements `conv`, in the terms of O52. -/
def RaisesUnmasked (s : State) (conv : Nat → Conv 32) (ne : Nat) (r : Host.Outcome State Fault Refusal) : Prop :=
  ∃ (u : State) (f : SimdFlags),
    r = .fault (.exception (if s.cr4.getLsbD 10 = true then .xm else .ud) u)
    ∧ u = { s with mxcsr := s.mxcsr ||| f.setWidth 32, free := u.free }
    ∧ f &&& ~~~ s.detected (condOf conv ne) = 0
    ∧ (s.cfg.xmImage = .rule166 →
        f = if ∃ j < ne, (conv j).flags &&& ~~~ s.simdMasks &&& preFlags ≠ 0
          then (condOf conv ne).flags &&& preFlags else s.detected (condOf conv ne))

theorem flagsWithin_self_and (f g : SimdFlags) : FlagsWithin f (f &&& g) := by
  have hself : FlagsWithin f f := by ext i; simp
  exact hself.and_right g

theorem simdRespond_raises {s : State} {conv : Nat → Conv 32} {ne : Nat} (h : ¬AllMasked s conv ne) :
    ∃ e, simdRespond (condOf conv ne) s = .error e ∧ RaisesUnmasked s conv ne (outcome (.error e)) := by
  have hunmasked : s.unmasked (condOf conv ne) ≠ 0 := mt unmasked_eq_zero_iff.1 h
  have hrespond : simdRespond (condOf conv ne) s
      = .error (raise (if s.osxmmexcpt then .xm else .ud) (s.atSimdFault (condOf conv ne))) := by
    rw [simdRespond, if_neg hunmasked]
  have hraise : outcome (.error (raise (if s.osxmmexcpt then .xm else .ud) (s.atSimdFault (condOf conv ne))))
      = .fault (.exception (if s.cr4.getLsbD 10 = true then .xm else .ud) (s.atSimdFault (condOf conv ne))) := by
    rw [State.osxmmexcpt]
    split <;> rfl
  refine ⟨_, hrespond, ?_⟩
  cases himage : s.cfg.xmImage with
  | rule166 =>
    have hstate : s.atSimdFault (condOf conv ne) = s.setMxcsr (orFlags s.mxcsr (s.rule166Flags (condOf conv ne))) := by
      rw [State.atSimdFault, himage]
    refine ⟨_, s.rule166Flags (condOf conv ne), hraise, by rw [hstate]; rfl, ?_, fun _ => rule166Flags_eq⟩
    unfold State.rule166Flags
    split
    · exact flagsWithin_self_and _ _
    · have hself := flagsWithin_self_and (s.detected (condOf conv ne)) (BitVec.allOnes 6)
      rwa [BitVec.and_allOnes] at hself
  | anyWithin =>
    have hstate : s.atSimdFault (condOf conv ne)
        = (s.setMxcsr (orFlags s.mxcsr (s.detected (condOf conv ne) &&& Config.xmFlagChoice s.free))).drawn := by
      rw [State.atSimdFault, himage]
    exact ⟨_, s.detected (condOf conv ne) &&& Config.xmFlagChoice s.free, hraise, by rw [hstate]; rfl,
      flagsWithin_self_and _ _, fun hrule => absurd (himage.symm.trans hrule) (by decide)⟩

theorem RaisesUnmasked.congr {s : State} {conv conv' : Nat → Conv 32} {ne : Nat}
    {r : Host.Outcome State Fault Refusal} (hlanes : ∀ j < ne, conv j = conv' j) (h : RaisesUnmasked s conv ne r) :
    RaisesUnmasked s conv' ne r := by
  have hany : (∃ j < ne, (conv j).flags &&& ~~~ s.simdMasks &&& preFlags ≠ 0)
      ↔ ∃ j < ne, (conv' j).flags &&& ~~~ s.simdMasks &&& preFlags ≠ 0 :=
    exists_congr fun j => and_congr_right fun hj => by rw [hlanes j hj]
  simpa only [RaisesUnmasked, condOf_congr hlanes, hany] using h

theorem allMasked_congr {s : State} {conv conv' : Nat → Conv 32} {ne : Nat} (hlanes : ∀ j < ne, conv j = conv' j) :
    AllMasked s conv ne ↔ AllMasked s conv' ne :=
  forall_congr' fun j => forall_congr' fun hj => by rw [hlanes j hj]

theorem simdRespond_raises_of_bits {s : State} {conv : SrcVec → Nat → Conv 32} {bytes ne : Nat} {v w : SrcVec}
    (hconv : ReadsBytes conv bytes ne) (hbits : ∀ i < 8 * bytes, w.getLsbD i = v.getLsbD i)
    (hmask : ¬AllMasked s (conv v) ne) :
    ∃ e, simdRespond (condOf (conv w) ne) s = .error e ∧ RaisesUnmasked s (conv v) ne (outcome (.error e)) := by
  have hlanes := hconv v w hbits
  obtain ⟨e, he, hraises⟩ := simdRespond_raises (mt (allMasked_congr hlanes).1 hmask)
  exact ⟨e, he, hraises.congr hlanes⟩

theorem convertToDwords_raises {i : Instr} {g : Gate} {keep al : Bool} {bytes k ne : Nat} {conv : SrcVec → Nat → Conv 32}
    {o : Operands} {s : State} {v : SrcVec} (hexec : exec i s = outcome (convertToDwords g keep al bytes ne conv o s))
    (hconv : ReadsBytes conv (k * ne) ne) (hsize : bytes = k * ne) (henter : enter g s = .ok ())
    (hpos : 0 < bytes) (hbytes : bytes ≤ 32) (hsource : sourceIs s o.src bytes al v = true) (hmask : ¬AllMasked s (conv v) ne) :
    RaisesUnmasked s (conv v) ne (exec i s) := by
  subst hsize
  obtain ⟨w, hread, hbits⟩ := readSource_of_sourceIs hpos hbytes hsource
  obtain ⟨e, hsimd, hraises⟩ := simdRespond_raises_of_bits hconv hbits hmask
  rw [hexec, convertToDwords, henter]
  dsimp only
  rw [hread]
  dsimp only
  rwa [hsimd]

theorem pd2pi_raises {p : LegacyOp} {s : State} {v : SrcVec} (henabled : LegacyEnabled s) (hx87 : checkX87 s = .ok ())
    (hsource : sourceIs s (legacyOperands p s).src 16 true v = true) (hmask : ¬AllMasked s (s.pd2dqLane v) 2) :
    RaisesUnmasked s (s.pd2dqLane v) 2 (exec (.cvtpd2pi p) s) := by
  obtain ⟨w, hread, hbits⟩ := readSource_of_sourceIs (by decide) (by decide) hsource
  obtain ⟨e, hsimd, hraises⟩ := simdRespond_raises_of_bits (pd2dqLane_readsBytes s 2) hbits hmask
  have hstop : pd2pi p s = .error e := by
    rw [pd2pi, enter_legacy_ok henabled]
    dsimp only
    rw [hx87]
    dsimp only
    rw [hread]
    dsimp only
    rw [hsimd]
  rwa [show exec (.cvtpd2pi p) s = outcome (.error e) from congrArg outcome hstop]

/-- Settles O52: every tier B form reads its source, converts, and responds to what it detected. -/
theorem unmaskedConditionRaisesXm : Obligations.UnmaskedConditionRaisesXm := by
  intro i s v src bytes ne conv henabled hx87 hplain hsource hlanes hmask
  change RaisesUnmasked s conv ne (exec i s)
  cases i with
  | cvtpd2pi p =>
    cases hlanes
    cases hplain
    exact pd2pi_raises henabled (checkX87_eq_ok.2 hx87) hsource hmask
  | cvtdq2ps p =>
    cases hlanes
    cases hplain
    exact convertToDwords_raises rfl (dq2psLane_readsBytes s _) rfl (enter_legacy_ok henabled) (by decide) (by decide)
      hsource hmask
  | cvtpd2dq p =>
    cases hlanes
    cases hplain
    exact convertToDwords_raises rfl (pd2dqLane_readsBytes s _) rfl (enter_legacy_ok henabled) (by decide) (by decide)
      hsource hmask
  | cvtpd2ps p =>
    cases hlanes
    cases hplain
    exact convertToDwords_raises rfl (pd2psLane_readsBytes s _) rfl (enter_legacy_ok henabled) (by decide) (by decide)
      hsource hmask
  | vcvtdq2ps128Vex3 p | vcvtdq2ps128Vex2 p | vcvtdq2ps256Vex3 p | vcvtdq2ps256Vex2 p =>
    cases hlanes
    cases hplain
    exact convertToDwords_raises rfl (dq2psLane_readsBytes s _) rfl (enter_vex_ok henabled) (by decide) (by decide)
      hsource hmask
  | vcvtpd2dq128Vex3 p | vcvtpd2dq128Vex2 p | vcvtpd2dq256Vex3 p | vcvtpd2dq256Vex2 p =>
    cases hlanes
    cases hplain
    exact convertToDwords_raises rfl (pd2dqLane_readsBytes s _) rfl (enter_vex_ok henabled) (by decide) (by decide)
      hsource hmask
  | vcvtpd2ps128Vex3 p | vcvtpd2ps128Vex2 p | vcvtpd2ps256Vex3 p | vcvtpd2ps256Vex2 p =>
    cases hlanes
    cases hplain
    exact convertToDwords_raises rfl (pd2psLane_readsBytes s _) rfl (enter_vex_ok henabled) (by decide) (by decide)
      hsource hmask
  | vcvtdq2pd128Evex p | vcvtdq2pd256Evex p | vcvtdq2pd512Evex p => cases hplain
  | cvtdq2pd p | vcvtdq2pd128Vex3 p | vcvtdq2pd128Vex2 p | vcvtdq2pd256Vex3 p | vcvtdq2pd256Vex2 p => cases hlanes

end Sys2Proof.Machine
end

/-! What every step keeps (R5, R20 to R23, R27, R32): the invariant, and the bits of MXCSR that no form writes. -/
section

namespace Sys2Proof.Machine

/-! ### A vector register's width and number -/

/-- A value register `r` of the processor may hold: no bit from `MAX_VL` up, nothing at all above register 15 without
AVX512F (R5, R20). -/
structure VecFits (c : Config) (r : BitVec 5) (v : Vec) : Prop where
  width : v >>> c.maxVl = 0
  count : c.avx512f = false → 16 ≤ r.toNat → v = 0

theorem ushiftRight_eq_zero_iff_bits {w : Nat} {v : BitVec w} {n : Nat} :
    v >>> n = 0 ↔ ∀ i, n ≤ i → v.getLsbD i = false := by
  refine ⟨fun h i hi => ?_, fun h => BitVec.eq_of_getLsbD_eq fun i _ => ?_⟩
  · have hbit := congrArg (·.getLsbD (i - n)) h
    simpa only [BitVec.getLsbD_ushiftRight, Nat.add_sub_cancel' hi] using hbit.trans BitVec.getLsbD_zero
  · rw [BitVec.getLsbD_ushiftRight, h _ (Nat.le_add_right n i)]
    exact BitVec.getLsbD_zero.symm

theorem ushiftRight_eq_zero_mono {w : Nat} {v : BitVec w} {m n : Nat} (h : v >>> m = 0) (hmn : m ≤ n) : v >>> n = 0 :=
  ushiftRight_eq_zero_iff_bits.2 fun i hi => ushiftRight_eq_zero_iff_bits.1 h i (hmn.trans hi)

theorem maxVl_ge_128 (c : Config) : 128 ≤ c.maxVl := by
  unfold Config.maxVl
  split
  · decide
  · split <;> decide

theorem maxVl_ge_256 {c : Config} (h : c.avx = true) : 256 ≤ c.maxVl := by
  unfold Config.maxVl
  rw [if_pos h]
  split <;> decide

theorem maxVl_of_avx512f {c : Config} (h : c.avx512f = true) : c.maxVl = 512 := if_pos h

theorem avx_of_enter_vex {s : State} {u : Unit} (h : enter .vex s = .ok u) : s.cfg.avx = true := by
  have hud := (enter_eq_ok.1 h).1
  simp only [State.gateUd, Bool.or_eq_false_iff, Bool.not_eq_false'] at hud
  exact hud.1.1.1

theorem avx512f_of_enter_evex {s : State} {nv : Bool} {u : Unit} (h : enter (.evex nv) s = .ok u) :
    s.cfg.avx512f = true := by
  have hud := (enter_eq_ok.1 h).1
  simp only [State.gateUd, Bool.or_eq_false_iff, Bool.not_eq_false'] at hud
  exact hud.1.1.1.1.1

theorem VecFits.of_avx512f {c : Config} (h : c.avx512f = true) (r : BitVec 5) (v : Vec) : VecFits c r v where
  width := by
    rw [maxVl_of_avx512f h]
    exact ushiftRight_eq_zero_iff_bits.2 fun i hi => BitVec.getLsbD_of_ge v i hi
  count hoff := by rw [h] at hoff; cases hoff

theorem VecFits.of_low_register {c : Config} {r : BitVec 5} {v : Vec} {n : Nat} (hr : r.toNat < 16) (hv : v >>> n = 0)
    (hn : n ≤ c.maxVl) : VecFits c r v where
  width := ushiftRight_eq_zero_mono hv hn
  count _ hge := absurd hr (Nat.not_lt.2 hge)

theorem VecFits.mergeLow128 {c : Config} {r : BitVec 5} {old v : Vec} (hr : r.toNat < 16) (hold : VecFits c r old) :
    VecFits c r (mergeLow128 old v) where
  width := ushiftRight_eq_zero_iff_bits.2 fun i hi => by
    have hlow := maxVl_ge_128 c
    rw [mergeLow128_bits, if_neg (by omega)]
    exact ushiftRight_eq_zero_iff_bits.1 hold.width i hi
  count _ hge := absurd hr (Nat.not_lt.2 hge)

theorem Inv.vecFits {s : State} (h : Inv s) (r : BitVec 5) : VecFits s.cfg r (s.vec r) :=
  ⟨h.width r, fun hoff hr => h.count hoff r hr⟩

/-! ### What a completed form leaves of the invariant -/

/-- The part of the invariant that a completed form has to keep itself; the rest is in what it leaves unchanged (R35). -/
structure KeepsShape (s t : State) : Prop where
  ip : ∃ len, t.rip = s.nextIp len
  vec : ∀ r, VecFits s.cfg r (t.vec r)

theorem vecFits_setVec {s : State} (hs : Inv s) {d : BitVec 5} {v : Vec} (hv : VecFits s.cfg d v) (r : BitVec 5) :
    VecFits s.cfg r ((s.setVec d v).vec r) := by
  by_cases hr : r = d
  · rw [hr, State.vec_setVec_self]
    exact hv
  · rw [State.vec_setVec_of_ne s hr]
    exact hs.vecFits r

/-- The width of a write without a writemask: a legacy form writes below bit 128 and keeps the rest, a VEX form writes at
most 256 bits. -/
def PlainWrite (g : Gate) (keep : Bool) : Prop := keep = true ∨ g = .vex ∧ keep = false

theorem vecFits_writeBack {s : State} (hs : Inv s) {g : Gate} {keep : Bool} {n : Nat} {d : BitVec 5} {v : Vec}
    (hwrite : PlainWrite g keep) (henter : enter g s = .ok ()) (hd : d.toNat < 16) (hn : n ≤ 256) (hv : v >>> n = 0)
    (r : BitVec 5) : VecFits s.cfg r ((s.writeBack keep d v).vec r) := by
  refine vecFits_setVec hs ?_ r
  rcases hwrite with rfl | ⟨rfl, rfl⟩
  · exact (hs.vecFits d).mergeLow128 hd
  · exact .of_low_register hd hv (hn.trans (maxVl_ge_256 (avx_of_enter_vex henter)))

theorem dq2pd_keepsShape {g : Gate} {keep : Bool} {ne : Nat} {o : Operands} {s t : State} (hs : Inv s)
    (h : dq2pd g keep ne o s = .ok t) (hwrite : PlainWrite g keep) (hd : o.dest.toNat < 16) (hne : ne ≤ 4) :
    KeepsShape s t := by
  obtain ⟨henter, src, -, rfl⟩ := dq2pd_eq_ok.1 h
  exact ⟨⟨o.len, rfl⟩, vecFits_writeBack hs hwrite henter hd (by omega) (packQ_above _ _)⟩

theorem convertToDwords_keepsShape {g : Gate} {keep al : Bool} {bytes ne : Nat} {conv : SrcVec → Nat → Conv 32}
    {o : Operands} {s t : State} (hs : Inv s) (h : convertToDwords g keep al bytes ne conv o s = .ok t)
    (hwrite : PlainWrite g keep) (hd : o.dest.toNat < 16) (hne : ne ≤ 8) : KeepsShape s t := by
  obtain ⟨henter, src, -, -, rfl⟩ := convertToDwords_eq_ok.1 h
  exact ⟨⟨o.len, rfl⟩, vecFits_writeBack hs hwrite henter hd (by omega) (packD_above _ _)⟩

theorem pd2pi_keepsShape {p : LegacyOp} {s t : State} (hs : Inv s) (h : pd2pi p s = .ok t) : KeepsShape s t := by
  obtain ⟨-, -, src, -, -, rfl⟩ := pd2pi_eq_ok.1 h
  exact ⟨⟨p.len, rfl⟩, hs.vecFits⟩

theorem dq2pdEvex_keepsShape {row : Nat} {p : EvexOp} {s t : State} (h : dq2pdEvex row p s = .ok t) :
    KeepsShape s t := by
  obtain ⟨kl, -, henter, src, -, rfl⟩ := dq2pdEvex_eq_ok.1 h
  exact ⟨⟨_, rfl⟩, fun r => .of_avx512f (avx512f_of_enter_evex henter) r _⟩

theorem operands_dest_lt (s : State) (pre : List Pre) (r x b : Bool) (reg : BitVec 3) (rm : Rm) (len : Nat) :
    (s.operands pre r x b reg rm len).dest.toNat < 16 := by
  have := (s.mode == .mode64 && r).toNat_le
  have := reg.isLt
  exact (ext_setWidth_toNat _ _).trans_lt (by omega)

theorem exec_keepsShape {i : Instr} {s t : State} (hs : Inv s) (h : exec i s = .next t) : KeepsShape s t := by
  have hlegacy (g : Gate) : PlainWrite g true := .inl rfl
  have hvex : PlainWrite .vex false := .inr ⟨rfl, rfl⟩
  cases i with
  | cvtdq2pd p =>
    exact dq2pd_keepsShape hs (outcome_eq_next.1 h) (hlegacy _) (operands_dest_lt _ _ _ _ _ _ _ _) (by decide)
  | vcvtdq2pd128Vex3 p | vcvtdq2pd128Vex2 p | vcvtdq2pd256Vex3 p | vcvtdq2pd256Vex2 p =>
    exact dq2pd_keepsShape hs (outcome_eq_next.1 h) hvex (operands_dest_lt _ _ _ _ _ _ _ _) (by decide)
  | vcvtdq2pd128Evex p | vcvtdq2pd256Evex p | vcvtdq2pd512Evex p => exact dq2pdEvex_keepsShape (outcome_eq_next.1 h)
  | cvtdq2ps p | cvtpd2dq p | cvtpd2ps p =>
    exact convertToDwords_keepsShape hs (outcome_eq_next.1 h) (hlegacy _) (operands_dest_lt _ _ _ _ _ _ _ _) (by decide)
  | cvtpd2pi p => exact pd2pi_keepsShape hs (outcome_eq_next.1 h)
  | vcvtdq2ps128Vex3 p | vcvtdq2ps128Vex2 p | vcvtdq2ps256Vex3 p | vcvtdq2ps256Vex2 p | vcvtpd2dq128Vex3 p
  | vcvtpd2dq128Vex2 p | vcvtpd2dq256Vex3 p | vcvtpd2dq256Vex2 p | vcvtpd2ps128Vex3 p | vcvtpd2ps128Vex2 p
  | vcvtpd2ps256Vex3 p | vcvtpd2ps256Vex2 p =>
    exact convertToDwords_keepsShape hs (outcome_eq_next.1 h) hvex (operands_dest_lt _ _ _ _ _ _ _ _) (by decide)

/-! ### The invariant -/

theorem orFlags_upper (m : Dword) (f : SimdFlags) : (orFlags m f).extractLsb' 16 16 = m.extractLsb' 16 16 := by
  refine BitVec.eq_of_getLsbD_eq fun i hi => ?_
  have hhigh : f.getLsbD (16 + i) = false := BitVec.getLsbD_of_ge f _ (by omega)
  simp only [orFlags, BitVec.getLsbD_extractLsb', BitVec.getLsbD_or, BitVec.getLsbD_setWidth, hhigh, Bool.and_false,
    Bool.or_false]

theorem WritesOnlyDest.fields {i : Instr} {s t : State} (h : WritesOnlyDest i s t) :
    t = { s with zmm := t.zmm, x87 := t.x87, mxcsr := t.mxcsr, rip := t.rip } := by
  unfold WritesOnlyDest at h
  split at h
  · rw [h.fields]
  · obtain ⟨p, -, hmmx⟩ := h
    rw [hmmx.fields]

theorem exec_keeps_inv {i : Instr} {s t : State} (hs : Inv s) (h : exec i s = .next t) : Inv t := by
  obtain ⟨hdest, f, -, hmxcsr⟩ := exec_eq_next_frame h
  obtain ⟨⟨len, hrip⟩, hvec⟩ := exec_keepsShape hs h
  have hfields := hdest.fields
  have hcfg : t.cfg = s.cfg := by rw [hfields]
  have hmode : t.mode = s.mode := by rw [hfields]
  have hk : t.k = s.k := by rw [hfields]
  exact {
    memory := by rw [hdest.mem_eq]; exact hs.memory
    mxcsr := by rw [hmxcsr, orFlags_upper]; exact hs.mxcsr
    width := fun r => by rw [hcfg]; exact (hvec r).width
    count := fun hoff r hr => (hvec r).count (hcfg ▸ hoff) hr
    masks := fun n => by rw [hcfg, State.opmask, hk]; exact hs.masks n
    ip := fun hne => by
      rw [hrip, nextIp_toNat, if_neg (hmode ▸ hne)]
      exact Nat.mod_lt _ (Nat.two_pow_pos 32) }

/-- Settles O54: a step that completes is an instruction's execution. -/
theorem stepKeepsTheInvariant : Obligations.StepKeepsTheInvariant := by
  intro s t hs hstep
  obtain ⟨-, -, i, -, hexec⟩ := step_eq_next.1 hstep
  exact exec_keeps_inv hs hexec

/-! ### MXCSR (R23, R165) -/

theorem maySet_zeroDivide (i : Instr) : (maySet i).getLsbD 2 = false := by
  have hvalues : maySet i = 0 ∨ maySet i = .pe ∨ maySet i = .ie ||| .pe ∨ maySet i = ~~~.ze := by
    cases i <;> simp only [maySet, true_or, or_true]
  rcases hvalues with h | h | h | h <;> rw [h] <;> decide

theorem AddsFlags.without_zeroDivide {i : Instr} {s t : State} (h : AddsFlags (maySet i) s t) :
    ∃ f : SimdFlags, f.getLsbD 2 = false ∧ t.mxcsr = s.mxcsr ||| f.setWidth 32 := by
  obtain ⟨f, hf, ht⟩ := h
  refine ⟨f, ?_, ht⟩
  have hbit := congrArg (·.getLsbD 2) hf
  simpa only [BitVec.getLsbD_and, BitVec.getLsbD_not, maySet_zeroDivide, Bool.not_false, Bool.and_true,
    Nat.reduceLT, decide_true] using hbit.trans BitVec.getLsbD_zero

theorem mxcsr_of_raise {x y : Exn} {s u : State} (h : raise y s = .fault (.exception x u)) : u.mxcsr = s.mxcsr := by
  obtain ⟨v, hraise, hv⟩ := raise_eq y s
  rw [hraise] at h
  cases h
  rw [hv]

/-- Settles O36: no form has ZE among its flags, and no stop writes MXCSR but the response to a SIMD condition. -/
theorem mxcsrFlagsOnlyAccumulate : Obligations.MxcsrFlagsOnlyAccumulate := by
  rintro s t (hnext | ⟨x, hfault⟩)
  · obtain ⟨-, -, i, -, hexec⟩ := step_eq_next.1 hnext
    exact (exec_eq_next_frame hexec).2.without_zeroDivide
  · rcases step_exception hfault with ⟨y, hraise⟩ | ⟨i, hexec⟩
    · exact ⟨0, rfl, by simpa using mxcsr_of_raise hraise⟩
    · exact (exec_eq_exception_frame hexec).flags.without_zeroDivide

end Sys2Proof.Machine
end

/-! What a form does not depend on: MXCSR for CVTDQ2PD (R101), memory outside its data access (R35, R43). -/
section

namespace Sys2Proof.Machine

/-! ### Reads in two states -/

theorem gather_congr {s t : State} {g : SegReg} {ea : Qword} {offs : List Nat}
    (hlinear : ∀ i, t.linear g ea i = s.linear g ea i)
    (hmem : ∀ i ∈ offs, t.mem.read (s.linear g ea i).toNat = s.mem.read (s.linear g ea i).toNat) :
    gather t g ea offs = gather s g ea offs := by
  induction offs with
  | nil => rfl
  | cons i is ih =>
    obtain ⟨hhead, htail⟩ := List.forall_mem_cons.1 hmem
    rw [gather, gather, hlinear, hhead, ih htail]

/-! ### MXCSR and CVTDQ2PD (R101) -/

/-- The stop with another MXCSR in the state it reports. -/
def Stop.setMxcsr (m : Dword) : Stop → Stop
  | .fault (.exception e u) => .fault (.exception e (u.setMxcsr m))
  | stop => stop

/-- The result with another MXCSR, whether it is a next state or a stop. -/
def resSetMxcsr (m : Dword) (r : Res State) : Res State := (r.map (·.setMxcsr m)).mapError (Stop.setMxcsr m)

theorem raise_setMxcsr (e : Exn) (s : State) (m : Dword) : raise e (s.setMxcsr m) = (raise e s).setMxcsr m := by
  cases e <;> rfl

theorem enter_setMxcsr (g : Gate) (s : State) (m : Dword) :
    enter g (s.setMxcsr m) = (enter g s).mapError (Stop.setMxcsr m) := by
  have hud : (s.setMxcsr m).gateUd g = s.gateUd g := by cases g <;> rfl
  have hts : (s.setMxcsr m).ts = s.ts := rfl
  rw [enter, enter, hud, hts, State.setMxcsr_mode]
  split
  · exact congrArg Except.error (raise_setMxcsr _ _ _)
  · split
    · rfl
    · split
      · exact congrArg Except.error (raise_setMxcsr _ _ _)
      · rfl

theorem accessCheck_setMxcsr (k : Access) (acc : MemAccess) (s : State) (m : Dword) :
    accessCheck k acc (s.setMxcsr m) = (accessCheck k acc s).map (Stop.setMxcsr m) := by
  have hsegment : (s.setMxcsr m).segmentOk k acc.seg acc.ea acc.offs = s.segmentOk k acc.seg acc.ea acc.offs := rfl
  have hmisaligned : (s.setMxcsr m).misaligned acc 16 = s.misaligned acc 16 := rfl
  have halign : (s.setMxcsr m).alignFault acc = s.alignFault acc := rfl
  have hpage : (s.setMxcsr m).pageFault k acc.seg acc.ea acc.offs = s.pageFault k acc.seg acc.ea acc.offs := rfl
  rw [accessCheck, accessCheck, hsegment, hmisaligned, halign, hpage]
  split
  · exact congrArg some (raise_setMxcsr _ _ _)
  · split
    · exact congrArg some (raise_setMxcsr _ _ _)
    · split
      · rfl
      · rfl
      · rfl
      · refine congrArg some ?_
        rw [State.setMxcsr_free]
        split <;> rfl

theorem memRead_setMxcsr (acc : MemAccess) (s : State) (m : Dword) :
    memRead acc (s.setMxcsr m) = (memRead acc s).mapError (Stop.setMxcsr m) := by
  have hgather : gather (s.setMxcsr m) acc.seg acc.ea acc.offs = gather s acc.seg acc.ea acc.offs :=
    gather_congr (fun _ => rfl) (fun _ _ => rfl)
  rw [memRead, memRead, accessCheck_setMxcsr, hgather]
  split
  · rfl
  · cases accessCheck .read acc s with
    | some stop => rfl
    | none => cases gather s acc.seg acc.ea acc.offs <;> rfl

theorem readSource_setMxcsr (src : Src) (n : Nat) (al : Bool) (s : State) (m : Dword) :
    readSource src n al (s.setMxcsr m) = (readSource src n al s).mapError (Stop.setMxcsr m) := by
  cases src with
  | reg r => rfl
  | mem g ea => exact memRead_setMxcsr _ s m

theorem evexSource_setMxcsr (p : EvexOp) (kl : Nat) (src : Src) (s : State) (m : Dword) :
    evexSource p kl src (s.setMxcsr m) = (evexSource p kl src s).mapError (Stop.setMxcsr m) := by
  have henabled : evexEnabled p (s.setMxcsr m) = evexEnabled p s := rfl
  cases src with
  | reg r => rfl
  | mem g ea =>
    rw [evexSource, evexSource, henabled, memRead_setMxcsr, memRead_setMxcsr]
    split
    · cases memRead ⟨g, ea, 4, if (List.range kl).any (evexEnabled p s) then List.range 4 else [], false⟩ s <;> rfl
    · cases memRead ⟨g, ea, 4 * kl, enabledOffs (evexEnabled p s) kl, false⟩ s <;> rfl

theorem dq2pd_setMxcsr (g : Gate) (u : Bool) (ne : Nat) (o : Operands) (s : State) (m : Dword) :
    dq2pd g u ne o (s.setMxcsr m) = resSetMxcsr m (dq2pd g u ne o s) := by
  rw [dq2pd, dq2pd, enter_setMxcsr, readSource_setMxcsr]
  cases enter g s with
  | error e => rfl
  | ok =>
    cases readSource o.src (4 * ne) false s with
    | error e => rfl
    | ok v => rfl

theorem dq2pdEvex_setMxcsr (row : Nat) (p : EvexOp) (s : State) (m : Dword) :
    dq2pdEvex row p (s.setMxcsr m) = resSetMxcsr m (dq2pdEvex row p s) := by
  have hoperands (n : Nat) : evexOperands p n (s.setMxcsr m) = evexOperands p n s := rfl
  rw [dq2pdEvex, dq2pdEvex, State.setMxcsr_cfg, enter_setMxcsr, hoperands]
  split
  · rfl
  · cases enter (.evex ((evexLength p row s.cfg).needVl row)) s with
    | error e => rfl
    | ok =>
      cases evexLength p row s.cfg with
      | lanes kl =>
        simp only [evexSource_setMxcsr]
        cases evexSource p kl (evexOperands p (evexDispScale p row) s).src s with
        | error e => rfl
        | ok src => rfl
      | ud => rfl
      | refuse => rfl

theorem outcome_resSetMxcsr {r : Res State} {m : Dword} :
    (∀ t, outcome r = .next t → outcome (resSetMxcsr m r) = .next (t.setMxcsr m))
    ∧ (∀ e u, outcome r = .fault (.exception e u) →
        outcome (resSetMxcsr m r) = .fault (.exception e (u.setMxcsr m)))
    ∧ ∀ why, outcome r = .refused why → outcome (resSetMxcsr m r) = .refused why := by
  refine ⟨fun t h => ?_, fun e u h => ?_, fun why h => ?_⟩
  · rw [outcome_eq_next.1 h]
    rfl
  · rw [outcome_eq_fault.1 h]
    rfl
  · have hstop : r = .error (.refused why) := by
      unfold outcome at h
      split at h <;> cases h
      rfl
    rw [hstop]
    rfl

/-- Settles O37: each part of a CVTDQ2PD course goes the same way with another MXCSR. -/
theorem cvtdq2pdDoesNotReadMxcsr : Obligations.Cvtdq2pdDoesNotReadMxcsr := by
  intro i s m htier
  have hcourse : ∃ r, exec i s = outcome r ∧ exec i (s.setMxcsr m) = outcome (resSetMxcsr m r) := by
    cases i with
    | cvtdq2pd p | vcvtdq2pd128Vex3 p | vcvtdq2pd128Vex2 p | vcvtdq2pd256Vex3 p | vcvtdq2pd256Vex2 p =>
      exact ⟨_, rfl, congrArg outcome (dq2pd_setMxcsr _ _ _ _ s m)⟩
    | vcvtdq2pd128Evex p | vcvtdq2pd256Evex p | vcvtdq2pd512Evex p =>
      exact ⟨_, rfl, congrArg outcome (dq2pdEvex_setMxcsr _ p s m)⟩
    | _ => cases htier
  obtain ⟨r, hexec, hexec'⟩ := hcourse
  rw [hexec, hexec']
  exact outcome_resSetMxcsr

/-! ### Memory outside the data access (R35, R42, R43) -/

/-- The state with another memory. -/
def State.setMem (s : State) (m : Memory) : State := { s with mem := m }

theorem enter_setMem {g : Gate} {s : State} {m : Memory} (h : enter g s = .ok ()) : enter g (s.setMem m) = .ok () := by
  obtain ⟨hud, hmode, hts⟩ := enter_eq_ok.1 h
  have hud' : (s.setMem m).gateUd g = s.gateUd g := by cases g <;> rfl
  exact enter_eq_ok.2 ⟨hud'.trans hud, hmode, hts⟩

/-- `m` holds what memory holds at the bytes of the access. -/
def AgreesOn (s : State) (m : Memory) (acc : MemAccess) : Prop :=
  ∀ k ∈ acc.offs, Memory.read m (s.linear acc.seg acc.ea k).toNat = s.mem.read (s.linear acc.seg acc.ea k).toNat

theorem memRead_setMem {acc : MemAccess} {s : State} {m : Memory} {v : SrcVec} (hagree : AgreesOn s m acc)
    (h : memRead acc s = .ok v) : memRead acc (s.setMem m) = .ok v := by
  have hgather : gather (s.setMem m) acc.seg acc.ea acc.offs = gather s acc.seg acc.ea acc.offs :=
    gather_congr (fun _ => rfl) hagree
  rcases memRead_eq_ok.1 h with hempty | ⟨hsome, hcheck, hbytes⟩
  · exact memRead_eq_ok.2 (.inl hempty)
  · obtain ⟨hsegment, hmisaligned, halign, hpage⟩ := accessCheck_eq_none.1 hcheck
    have hcheck' : accessCheck .read acc (s.setMem m) = none :=
      accessCheck_eq_none.2 ⟨hsegment, hmisaligned, halign, hpage⟩
    exact memRead_eq_ok.2 (.inr ⟨hsome, hcheck', hgather.trans hbytes⟩)

theorem readSource_setMem {i : Instr} {s : State} {m : Memory} {src : Src} {n : Nat} {v : SrcVec}
    (hagree : ∀ acc, memAccessOf i s = some acc → AgreesOn s m acc) (hrow : evexRowOf i = none)
    (hplain : plainSource i s = some (src, n)) (h : readSource src n (needsAlign16 i) s = .ok v) :
    readSource src n (needsAlign16 i) (s.setMem m) = .ok v := by
  cases src with
  | reg r => exact h
  | mem g ea => exact memRead_setMem (hagree _ (memAccessOf_of_plainSource hrow hplain)) h

theorem evexSource_setMem {i : Instr} {p : EvexOp} {row kl : Nat} {s : State} {m : Memory} {f : Nat → Dword}
    (hagree : ∀ acc, memAccessOf i s = some acc → AgreesOn s m acc) (hrow : evexRowOf i = some (p, row))
    (hkl : evexLength p row s.cfg = .lanes kl)
    (h : evexSource p kl (evexOperands p (evexDispScale p row) s).src s = .ok f) :
    evexSource p kl (evexOperands p (evexDispScale p row) s).src (s.setMem m) = .ok f := by
  have henabled : evexEnabled p (s.setMem m) = evexEnabled p s := rfl
  cases hsrc : (evexOperands p (evexDispScale p row) s).src with
  | reg r => rw [hsrc] at h; exact h
  | mem g ea =>
    obtain rfl : row = kl := by
      rw [evexLength_of_not_rounding (.inr (isReg_of_evexOperands_mem hsrc))] at hkl
      cases hkl
      rfl
    rw [memAccessOf_evex hrow, hsrc] at hagree
    have hread := hagree _ rfl
    rw [hsrc, evexSource] at h
    rw [evexSource, henabled]
    split at h
    next hbc =>
      rw [if_pos hbc] at hread ⊢
      split at h
      next => cases h
      next v hv => rw [memRead_setMem hread hv]; exact h
    next hbc =>
      rw [if_neg hbc] at hread ⊢
      split at h
      next => cases h
      next v hv => rw [memRead_setMem hread hv]; exact h

theorem dq2pd_setMem {g : Gate} {u : Bool} {ne : Nat} {o : Operands} {s t : State} {m : Memory}
    (hread : ∀ v, readSource o.src (4 * ne) false s = .ok v → readSource o.src (4 * ne) false (s.setMem m) = .ok v)
    (h : dq2pd g u ne o s = .ok t) : dq2pd g u ne o (s.setMem m) = .ok (t.setMem m) := by
  obtain ⟨henter, v, hv, rfl⟩ := dq2pd_eq_ok.1 h
  exact dq2pd_eq_ok.2 ⟨enter_setMem henter, v, hread v hv, rfl⟩

theorem convertToDwords_setMem {g : Gate} {u al : Bool} {bytes ne : Nat} {conv : SrcVec → Nat → Conv 32} {o : Operands}
    {s t : State} {m : Memory}
    (hread : ∀ v, readSource o.src bytes al s = .ok v → readSource o.src bytes al (s.setMem m) = .ok v)
    (h : convertToDwords g u al bytes ne conv o s = .ok t) :
    convertToDwords g u al bytes ne conv o (s.setMem m) = .ok (t.setMem m) := by
  obtain ⟨henter, v, hv, hunmasked, rfl⟩ := convertToDwords_eq_ok.1 h
  exact convertToDwords_eq_ok.2 ⟨enter_setMem henter, v, hread v hv, hunmasked, rfl⟩

theorem pd2pi_setMem {p : LegacyOp} {s t : State} {m : Memory}
    (hread : ∀ v, readSource (legacyOperands p s).src 16 true s = .ok v →
      readSource (legacyOperands p s).src 16 true (s.setMem m) = .ok v)
    (h : pd2pi p s = .ok t) : pd2pi p (s.setMem m) = .ok (t.setMem m) := by
  obtain ⟨henter, hx87, v, hv, hunmasked, rfl⟩ := pd2pi_eq_ok.1 h
  exact pd2pi_eq_ok.2 ⟨enter_setMem henter, hx87, v, hread v hv, hunmasked, rfl⟩

theorem dq2pdEvex_setMem {i : Instr} {p : EvexOp} {row : Nat} {s t : State} {m : Memory}
    (hagree : ∀ acc, memAccessOf i s = some acc → AgreesOn s m acc) (hrow : evexRowOf i = some (p, row))
    (h : dq2pdEvex row p s = .ok t) : dq2pdEvex row p (s.setMem m) = .ok (t.setMem m) := by
  obtain ⟨kl, hkl, henter, f, hf, rfl⟩ := dq2pdEvex_eq_ok.1 h
  have hsource := evexSource_setMem hagree hrow hkl hf
  exact dq2pdEvex_eq_ok.2 ⟨kl, hkl, enter_setMem henter, f, hsource, rfl⟩

/-- Settles O38: memory enters a form through its one read alone. -/
theorem onlyAccessedBytesMatter : Obligations.OnlyAccessedBytesMatter := by
  intro i s t m h hagree
  have hread {src : Src} {n : Nat} (hrow : evexRowOf i = none) (hplain : plainSource i s = some (src, n)) (v : SrcVec)
      (hv : readSource src n (needsAlign16 i) s = .ok v) : readSource src n (needsAlign16 i) (s.setMem m) = .ok v :=
    readSource_setMem hagree hrow hplain hv
  cases i with
  | cvtdq2pd p | vcvtdq2pd128Vex3 p | vcvtdq2pd128Vex2 p | vcvtdq2pd256Vex3 p | vcvtdq2pd256Vex2 p =>
    exact outcome_eq_next.2 (dq2pd_setMem (hread rfl rfl) (outcome_eq_next.1 h))
  | vcvtdq2pd128Evex p | vcvtdq2pd256Evex p | vcvtdq2pd512Evex p =>
    exact outcome_eq_next.2 (dq2pdEvex_setMem hagree rfl (outcome_eq_next.1 h))
  | cvtpd2pi p => exact outcome_eq_next.2 (pd2pi_setMem (hread rfl rfl) (outcome_eq_next.1 h))
  | cvtdq2ps p | vcvtdq2ps128Vex3 p | vcvtdq2ps128Vex2 p | vcvtdq2ps256Vex3 p | vcvtdq2ps256Vex2 p
  | cvtpd2dq p | vcvtpd2dq128Vex3 p | vcvtpd2dq128Vex2 p | vcvtpd2dq256Vex3 p | vcvtpd2dq256Vex2 p
  | cvtpd2ps p | vcvtpd2ps128Vex3 p | vcvtpd2ps128Vex2 p | vcvtpd2ps256Vex3 p | vcvtpd2ps256Vex2 p =>
    exact outcome_eq_next.2 (convertToDwords_setMem (hread rfl rfl) (outcome_eq_next.1 h))

end Sys2Proof.Machine
end

/-! RESET, launch and the fields of MXCSR (R23, R34, R220, R221). -/
section

namespace Sys2Proof.Machine

/-! ### RESET -/

theorem reset_vec (r : BitVec 5) : State.reset.vec r = 0 := Vector.getElem_replicate _

theorem reset_opmask (n : BitVec 3) : State.reset.opmask n = 0 := Vector.getElem_replicate _

theorem reset_phys (n : Nat) (hn : n < 8) : State.reset.x87.phys[n] = 0 := Vector.getElem_replicate _

theorem reset_mm (n : BitVec 3) : State.reset.mm n = 0 := by
  rw [State.mm, reset_phys]
  rfl

theorem reset_reg {n : BitVec 4} (h : n ≠ 2) : State.reset.reg n = 0 := by
  have hne : (2 : Nat) ≠ n.toNat := fun heq => h (BitVec.eq_of_toNat_eq heq.symm)
  exact (Vector.getElem_set_ne (by decide) n.isLt hne).trans (Vector.getElem_replicate _)

/-- Settles O55: every register is 0, and memory is empty. -/
theorem invariantHoldsAtReset : Obligations.InvariantHoldsAtReset where
  memory := rfl
  mxcsr := by decide
  width r := by rw [reset_vec]; exact BitVec.zero_ushiftRight
  count _ r _ := reset_vec r
  masks n := by rw [reset_opmask]; exact BitVec.zero_ushiftRight
  ip _ := by decide

/-- Settles O56: the registers by their initial vectors, the rest by evaluation. -/
theorem resetValues : Obligations.ResetValues :=
  ⟨reset_vec, fun n => ⟨reset_opmask n, reset_mm n⟩, rfl, rfl, rfl, fun n => reset_phys n n.isLt, fun _ => reset_reg, rfl,
    by decide, rfl, rfl, rfl, rfl, rfl, rfl, rfl, by decide⟩

theorem udCause_at_reset (i : Instr) (m : Memory) : UdCause i { State.reset with mem := m } := by
  have hcr4 (n : Nat) : State.reset.cr4.getLsbD n = false := BitVec.getLsbD_zero
  unfold UdCause
  split
  · exact .inr (.inr (hcr4 9))
  · exact .inr (.inl (hcr4 18))
  · exact .inr (.inl (hcr4 18))

/-- Settles O57: CR4 is 0, so that OSFXSR and OSXSAVE are off. -/
theorem everyFormIsUndefinedAtReset : Obligations.EveryFormIsUndefinedAtReset := fun i m =>
  undefinedOpcodeCauses i _ (udCause_at_reset i m)

/-! ### Launch -/

theorem launched_cr0 (s : State) :
    s.launched.cr0.getLsbD 0 = true ∧ s.launched.cr0.getLsbD 2 = false ∧ s.launched.cr0.getLsbD 3 = false := by
  simp [State.launched]

theorem launched_cr4 (s : State) : s.launched.cr4.getLsbD 9 = true ∧ s.launched.cr4.getLsbD 10 = true
    ∧ s.launched.cr4.getLsbD 18 = true := by
  simp [State.launched]

theorem launched_xcr0 (s : State) : s.launched.xcr0.getLsbD 1 = true ∧ s.launched.xcr0.getLsbD 2 = true
    ∧ s.launched.xcr0.getLsbD 5 = true ∧ s.launched.xcr0.getLsbD 6 = true ∧ s.launched.xcr0.getLsbD 7 = true := by
  simp [State.launched]

/-- Settles O59: the launched state has every enable of the three layouts. -/
theorem launchedStateEnablesEveryForm : Obligations.LaunchedStateEnablesEveryForm := by
  intro s i hsse2 havx havx512f havx512vl
  obtain ⟨hpe, hem, hts⟩ := launched_cr0 s
  obtain ⟨hosfxsr, hosxmm, hosxsave⟩ := launched_cr4 s
  obtain ⟨h1, h2, hhigh⟩ := launched_xcr0 s
  refine ⟨?_, hosxmm, hpe⟩
  unfold EnabledFor
  split
  · exact ⟨.inl rfl, havx512f, fun _ => havx512vl, hts, hosxsave, h1, h2, hhigh⟩
  · split
    · exact ⟨.inl rfl, hsse2, hem, hts, hosfxsr⟩
    · exact ⟨.inl rfl, havx, hts, hosxsave, h1, h2⟩

/-! ### The fields of MXCSR -/

theorem singleFlag_getLsbD {n : Nat} {f : SimdFlags}
    (h : (n, f) ∈ [(0, SimdFlags.ie), (1, .de), (2, .ze), (3, .oe), (4, .ue), (5, .pe)]) :
    ∀ k < 32, (f.setWidth 32).getLsbD k = decide (k = n) := by
  have hall : ∀ q ∈ [(0, SimdFlags.ie), (1, .de), (2, .ze), (3, .oe), (4, .ue), (5, .pe)], ∀ k < 32,
      (q.2.setWidth 32).getLsbD k = decide (k = q.1) := by decide
  exact hall (n, f) h

/-- Settles O60: each field is a part of MXCSR, each flag one bit. -/
theorem mxcsrFieldsAreTheirBits : Obligations.MxcsrFieldsAreTheirBits := by
  intro s
  refine ⟨?_, rfl, rfl, rfl, rfl, fun n hn => ?_, fun n f hflag k hk => ?_⟩
  · have hhigh : (s.mxcsr.extractLsb' 13 2).getLsbD 1 = s.mxcsr.getLsbD 14 := BitVec.getLsbD_extractLsb' ..
    have hlow : (s.mxcsr.extractLsb' 13 2).getLsbD 0 = s.mxcsr.getLsbD 13 := BitVec.getLsbD_extractLsb' ..
    rw [State.rc, ← hhigh, ← hlow]
    generalize s.mxcsr.extractLsb' 13 2 = b
    revert b
    decide
  · rw [State.simdMasks, BitVec.getLsbD_extractLsb', decide_eq_true hn, Bool.true_and]
  · rw [orFlags, BitVec.getLsbD_or, singleFlag_getLsbD hflag k hk]

end Sys2Proof.Machine
end

/-! Rounding (R162): the rounded quotient against the relation of the statements, which determines it, and the rounding at
24 significant bits. -/
section

namespace Sys2Proof.Machine

/-! ### A magnitude with its sign -/

/-- The number of magnitude `m`, negative with `neg`. -/
def signed (neg : Bool) (m : Nat) : Int := if neg then -(m : Int) else m

theorem signed_mul (neg : Bool) (a b : Nat) : signed neg (a * b) = signed neg a * b := by
  cases neg <;> simp [signed]

theorem signed_inj {neg : Bool} {a b : Nat} : signed neg a = signed neg b ↔ a = b := by
  cases neg <;> simp [signed]

theorem abs_signed (neg : Bool) (m : Nat) : |signed neg m| = m := by
  cases neg <;> simp [signed]

theorem f64Value_eq_signed (v : Qword) : f64Value v = signed (f64Sign v) (f64Mag v) := rfl

theorem toInt_eq_signed (v : Dword) : v.toInt = signed (decide (v.toInt < 0)) v.toInt.natAbs := by
  by_cases h : v.toInt < 0
  · rw [decide_eq_true h, signed, if_pos rfl]
    omega
  · rw [decide_eq_false h, signed, if_neg nofun]
    omega

/-! ### The rounded quotient -/

/-- Between two neighbours: `lo` quanta and one more. -/
theorem roundDiv_eq_or (rc : Rc) (neg : Bool) (num den : Nat) :
    roundDiv rc neg num den = num / den ∨ roundDiv rc neg num den = num / den + 1 := by
  unfold roundDiv
  dsimp only
  split
  · exact .inl rfl
  · cases rc <;> dsimp only
    case zero => exact .inl rfl
    all_goals split_ifs <;> simp

theorem roundDiv_of_dvd {rc : Rc} {neg : Bool} {num den : Nat} (h : den ∣ num) : roundDiv rc neg num den = num / den :=
  if_pos (Nat.mod_eq_zero_of_dvd h)

/-- Every case is a linear fact about the quanta `lo * den` below the numerator and the remainder. -/
theorem roundDiv_roundsTo (rc : Rc) (neg : Bool) (num : Nat) {den : Nat} (hden : 0 < den) :
    RoundsTo rc (signed neg num) den (signed neg (roundDiv rc neg num den)) := by
  have hmod : num % den < den := Nat.mod_lt _ hden
  have hnum : (num : Int) = (num / den : Nat) * den + (num % den : Nat) := by
    exact_mod_cast (Nat.div_add_mod' num den).symm
  have hquanta : 0 ≤ ((num / den : Nat) : Int) * den := by positivity
  unfold roundDiv RoundsTo signed
  dsimp only
  generalize num / den = lo at hnum hquanta
  generalize num % den = rem at hnum hmod
  cases rc <;> cases neg <;> dsimp only <;> split_ifs <;>
    simp only [abs_eq_max_neg, Nat.cast_add, Nat.cast_one, Int.neg_mul, Int.add_mul, Int.sub_mul, Int.one_mul] <;> generalize (lo : Int) * den = quanta at hnum hquanta <;> omega

/-- No number of quanta beyond another rounds the same value. -/
theorem RoundsTo.not_lt {rc : Rc} {x q n n' : Int} (hq : 0 < q) (h : RoundsTo rc x q n) (h' : RoundsTo rc x q n') :
    ¬n < n' := by
  intro hlt
  have hmono {k : Int} (hk : n + k ≤ n') : n * q + k * q ≤ n' * q :=
    Int.add_mul n k q ▸ Int.mul_le_mul_of_nonneg_right hk hq.le
  have hone := hmono (k := 1) (by omega)
  have htwo := hmono (k := 2)
  unfold RoundsTo at h h'
  cases rc <;> simp only [abs_eq_max_neg, Int.add_mul, Int.sub_mul, Int.one_mul] at h h' hone htwo <;> omega

/-- The relation determines the number of quanta. -/
theorem RoundsTo.unique {rc : Rc} {x q n n' : Int} (hq : 0 < q) (h : RoundsTo rc x q n) (h' : RoundsTo rc x q n') :
    n = n' :=
  le_antisymm (Int.not_lt.1 (h'.not_lt hq h)) (Int.not_lt.1 (h.not_lt hq h'))

/-- Settles O14. -/
theorem roundDivRoundsAsTheControlSays : Obligations.RoundDivRoundsAsTheControlSays := fun rc neg num _ hden =>
  roundDiv_roundsTo rc neg num hden

/-! ### Rounding at 24 significant bits -/

theorem sigQuantum_pos (mag : Nat) : 0 < sigQuantum mag := Nat.two_pow_pos _

theorem sigQuantum_eq_one {mag : Nat} (h : Nat.log2 mag ≤ 23) : sigQuantum mag = 1 := by
  rw [sigQuantum, Nat.sub_eq_zero_of_le h, Nat.pow_zero]

/-- The model's rounding is the rounding to quanta of the 24th significant bit. -/
theorem roundSig24_eq (rc : Rc) (neg : Bool) (mag : Nat) :
    roundSig24 rc neg mag = roundDiv rc neg mag (sigQuantum mag) * sigQuantum mag := by
  unfold roundSig24
  dsimp only
  split
  next h => rw [sigQuantum_eq_one h, roundDiv_of_dvd (Nat.one_dvd _), Nat.div_one, Nat.mul_one]
  next => rfl

/-- The rounded value of the statements is the model's, with its sign. -/
theorem RoundsTo.sig24_eq {rc : Rc} {neg : Bool} {mag : Nat} {n : Int}
    (h : RoundsTo rc (signed neg mag) (sigQuantum mag) n) :
    n * sigQuantum mag = signed neg (roundSig24 rc neg mag) := by
  have hpos := sigQuantum_pos mag
  rw [h.unique (by exact_mod_cast hpos) (roundDiv_roundsTo rc neg mag hpos), roundSig24_eq, signed_mul]

theorem roundSig24_of_dvd {rc : Rc} {neg : Bool} {mag : Nat} (h : sigQuantum mag ∣ mag) :
    roundSig24 rc neg mag = mag := by
  rw [roundSig24_eq, roundDiv_of_dvd h, Nat.div_mul_cancel h]

/-- A magnitude stays between the same powers of two, the upper one included. -/
theorem roundSig24_bounds (rc : Rc) (neg : Bool) {mag : Nat} (h : mag ≠ 0) :
    2 ^ Nat.log2 mag ≤ roundSig24 rc neg mag ∧ roundSig24 rc neg mag ≤ 2 ^ (Nat.log2 mag + 1) := by
  have hlow : 2 ^ Nat.log2 mag ≤ mag := Nat.log2_self_le h
  have hhigh : mag < 2 ^ (Nat.log2 mag + 1) := Nat.lt_log2_self
  by_cases hsmall : Nat.log2 mag ≤ 23
  · rw [roundSig24, if_pos hsmall]
    exact ⟨hlow, hhigh.le⟩
  · have hq : sigQuantum mag * 2 ^ 23 = 2 ^ Nat.log2 mag := by
      rw [sigQuantum, ← Nat.pow_add]
      congr 1
      omega
    have hq' : sigQuantum mag * 2 ^ 24 = 2 ^ (Nat.log2 mag + 1) := by
      rw [Nat.pow_succ 2 (Nat.log2 mag), ← hq, Nat.mul_assoc, ← Nat.pow_succ]
    have hdiv : 2 ^ 23 ≤ mag / sigQuantum mag :=
      (Nat.le_div_iff_mul_le (sigQuantum_pos mag)).2 (by rwa [Nat.mul_comm, hq])
    have hdiv' : mag / sigQuantum mag < 2 ^ 24 := Nat.div_lt_of_lt_mul (by rwa [hq'])
    rw [roundSig24_eq, ← hq, ← hq', Nat.mul_comm (roundDiv _ _ _ _)]
    have hor := roundDiv_eq_or rc neg mag (sigQuantum mag)
    exact ⟨Nat.mul_le_mul_left _ (by omega), Nat.mul_le_mul_left _ (by omega)⟩

theorem roundSig24_ne_zero (rc : Rc) (neg : Bool) {mag : Nat} (h : mag ≠ 0) : roundSig24 rc neg mag ≠ 0 :=
  (Nat.lt_of_lt_of_le (Nat.two_pow_pos _) (roundSig24_bounds rc neg h).1).ne'

/-- The rounded magnitude has at most 24 significant bits. -/
theorem sigQuantum_dvd_roundSig24 (rc : Rc) (neg : Bool) {mag : Nat} (h : mag ≠ 0) :
    sigQuantum (roundSig24 rc neg mag) ∣ roundSig24 rc neg mag := by
  obtain ⟨hlow, hhigh⟩ := roundSig24_bounds rc neg h
  rcases hhigh.eq_or_lt with heq | hlt
  · rw [heq, sigQuantum, Nat.log2_two_pow]
    exact Nat.pow_dvd_pow 2 (Nat.sub_le _ _)
  · have hlog : Nat.log2 (roundSig24 rc neg mag) = Nat.log2 mag :=
      (Nat.log2_eq_iff (roundSig24_ne_zero rc neg h)).2 ⟨hlow, hlt⟩
    rw [sigQuantum, hlog, ← sigQuantum, roundSig24_eq]
    exact Nat.dvd_mul_left _ _

end Sys2Proof.Machine
end

/-! The floating-point formats (R160, R161): the fields of a datum made from its fields, and its value. -/
section

namespace Sys2Proof.Machine

/-! ### binary64 -/

theorem f64Sign_make (neg : Bool) (e f : Nat) : f64Sign (f64Make neg e f) = neg := by
  unfold f64Sign f64Make
  rw [BitVec.getLsbD_append, BitVec.getLsbD_append]
  cases neg <;> rfl

theorem f64Exp_make (neg : Bool) {e : Nat} (f : Nat) (he : e < 2 ^ 11) : f64Exp (f64Make neg e f) = e := by
  have hfield : (f64Make neg e f).extractLsb' 52 11 = BitVec.ofNat 11 e := by
    refine BitVec.eq_of_getLsbD_eq fun i hi => ?_
    rw [BitVec.getLsbD_extractLsb', f64Make, BitVec.getLsbD_append, BitVec.getLsbD_append]
    simp [hi]
  rw [f64Exp, hfield, BitVec.toNat_ofNat, Nat.mod_eq_of_lt he]

theorem f64Frac_make (neg : Bool) (e : Nat) {f : Nat} (hf : f < 2 ^ 52) : f64Frac (f64Make neg e f) = f := by
  have hfield : (f64Make neg e f).extractLsb' 0 52 = BitVec.ofNat 52 f := BitVec.extractLsb'_append_eq_right
  rw [f64Frac, hfield, BitVec.toNat_ofNat, Nat.mod_eq_of_lt hf]

theorem f64Mag_of_normal {v : Qword} (h : 1 ≤ f64Exp v) : f64Mag v = (2 ^ 52 + f64Frac v) * 2 ^ (f64Exp v - 1) :=
  if_neg (by omega)

/-- A normal datum of unbiased exponent `p` is its significand times a power of two. -/
theorem f64Mag_make (neg : Bool) {e f : Nat} (h1 : 1 ≤ e) (he : e < 2 ^ 11) (hf : f < 2 ^ 52) :
    f64Mag (f64Make neg e f) = (2 ^ 52 + f) * 2 ^ (e - 1) := by
  rw [f64Mag_of_normal (by rwa [f64Exp_make neg f he]), f64Exp_make neg f he, f64Frac_make neg e hf]

/-! ### binary32 -/

theorem f32Sign_make (neg : Bool) (e f : Nat) : (f32Make neg e f).getLsbD 31 = neg := by
  unfold f32Make
  rw [BitVec.getLsbD_append, BitVec.getLsbD_append]
  cases neg <;> rfl

theorem f32Exp_make (neg : Bool) {e : Nat} (f : Nat) (he : e < 2 ^ 8) : f32Exp (f32Make neg e f) = e := by
  have hfield : (f32Make neg e f).extractLsb' 23 8 = BitVec.ofNat 8 e := by
    refine BitVec.eq_of_getLsbD_eq fun i hi => ?_
    rw [BitVec.getLsbD_extractLsb', f32Make, BitVec.getLsbD_append, BitVec.getLsbD_append]
    simp [hi]
  rw [f32Exp, hfield, BitVec.toNat_ofNat, Nat.mod_eq_of_lt he]

theorem f32Frac_make (neg : Bool) (e : Nat) {f : Nat} (hf : f < 2 ^ 23) : f32Frac (f32Make neg e f) = f := by
  have hfield : (f32Make neg e f).extractLsb' 0 23 = BitVec.ofNat 23 f := BitVec.extractLsb'_append_eq_right
  rw [f32Frac, hfield, BitVec.toNat_ofNat, Nat.mod_eq_of_lt hf]

theorem f32Make_fields (v : Dword) : f32Make (v.getLsbD 31) (f32Exp v) (f32Frac v) = v := by
  refine BitVec.eq_of_getLsbD_eq fun i hi => ?_
  rw [f32Make, f32Exp, f32Frac, BitVec.ofNat_toNat, BitVec.ofNat_toNat, BitVec.setWidth_eq, BitVec.setWidth_eq,
    BitVec.getLsbD_append, BitVec.getLsbD_append]
  split
  next h => rw [BitVec.getLsbD_extractLsb', decide_eq_true h, Bool.true_and, Nat.zero_add]
  next h =>
    split
    next h' => rw [BitVec.getLsbD_extractLsb', decide_eq_true h', Bool.true_and, Nat.add_sub_cancel' (by omega)]
    next h' =>
      obtain rfl : i = 31 := by omega
      simp

/-- The value of a normal datum. -/
theorem f32Value_make (neg : Bool) {e f : Nat} (h1 : 1 ≤ e) (he : e < 2 ^ 8) (hf : f < 2 ^ 23) :
    f32Value (f32Make neg e f) = signed neg ((2 ^ 23 + f) * 2 ^ (e - 1)) := by
  have hne : e ≠ 0 := by omega
  simp only [f32Value, f32Sign_make, f32Exp_make neg f he, f32Frac_make neg e hf, if_neg hne, signed]

theorem f32Value_of_normal {v : Dword} (h : 1 ≤ f32Exp v) :
    f32Value v = signed (v.getLsbD 31) ((2 ^ 23 + f32Frac v) * 2 ^ (f32Exp v - 1)) := by
  have hne : f32Exp v ≠ 0 := by omega
  simp only [f32Value, if_neg hne, signed]

theorem f32Bits_sign (neg : Bool) (low : BitVec 31) : (f32Bits neg low).getLsbD 31 = neg := by
  rw [f32Bits, BitVec.getLsbD_append]
  cases neg <;> rfl

theorem f32Bits_low (neg : Bool) (low : BitVec 31) : (f32Bits neg low).setWidth 31 = low :=
  BitVec.setWidth_append_eq_right ..

/-- The low 31 bits are the exponent and the fraction. -/
theorem f32Bits_eq_make (neg : Bool) {d : Nat} :
    f32Bits neg (BitVec.ofNat 31 d) = f32Make neg (d / 2 ^ 23) (d % 2 ^ 23) := by
  refine BitVec.eq_of_getLsbD_eq fun i hi => ?_
  rw [f32Bits, f32Make, BitVec.getLsbD_append, BitVec.getLsbD_append, BitVec.getLsbD_append]
  simp only [BitVec.getLsbD_ofNat, Nat.testBit_div_two_pow, Nat.testBit_mod_two_pow]
  by_cases hfrac : i < 23
  · simp [hfrac, show i < 31 by omega]
  · by_cases hexp : i < 31
    · simp [hfrac, hexp, show i - 23 < 8 by omega, show i - 23 + 23 = i by omega]
    · obtain rfl : i = 31 := by omega
      rfl

/-- Up to 2^-126 the low 31 bits count units of 2^-149: the denormals, and the smallest normal number (R160). -/
theorem f32Value_bits (neg : Bool) {d : Nat} (hd : d ≤ 2 ^ 23) :
    f32Value (f32Bits neg (BitVec.ofNat 31 d)) = signed neg d := by
  rw [f32Bits_eq_make]
  rcases hd.eq_or_lt with rfl | hlt
  · rw [f32Value_make neg (by decide) (by decide) (by decide)]
    rfl
  · rw [Nat.div_eq_of_lt hlt, Nat.mod_eq_of_lt hlt]
    simp only [f32Value, f32Sign_make, f32Exp_make neg d (e := 0) (by decide), f32Frac_make neg 0 hlt, if_pos, signed]

/-! ### A normal binary32 number from a magnitude -/

/-- The significand of a magnitude of at most 24 significant bits. -/
theorem f32Normal_eq (neg : Bool) (unit : Nat) {mag : Nat} (hmag : mag ≠ 0) (hdvd : sigQuantum mag ∣ mag) :
    ∃ f < 2 ^ 23, (2 ^ 23 + f) * 2 ^ Nat.log2 mag = mag * 2 ^ 23
      ∧ f32Normal neg unit mag = f32Make neg (Nat.log2 mag + 127 - unit) f := by
  have hlow : 2 ^ Nat.log2 mag ≤ mag := Nat.log2_self_le hmag
  have hhigh : mag < 2 ^ (Nat.log2 mag + 1) := Nat.lt_log2_self
  have hsig : ∃ m, m * 2 ^ Nat.log2 mag = mag * 2 ^ 23
      ∧ f32Normal neg unit mag = f32Make neg (Nat.log2 mag + 127 - unit) (m - 2 ^ 23) := by
    refine ⟨_, ?_, rfl⟩
    split
    next h => rw [Nat.mul_assoc, ← Nat.pow_add, Nat.sub_add_cancel h]
    next h =>
      have hpow : 2 ^ Nat.log2 mag = sigQuantum mag * 2 ^ 23 := by
        rw [sigQuantum, ← Nat.pow_add, Nat.sub_add_cancel (by omega)]
      rw [← sigQuantum, hpow, ← Nat.mul_assoc, Nat.div_mul_cancel hdvd]
  obtain ⟨m, hm, hmake⟩ := hsig
  have hpos : 0 < 2 ^ Nat.log2 mag := Nat.two_pow_pos _
  have hm1 : 2 ^ 23 ≤ m := Nat.le_of_mul_le_mul_right (by rw [hm, Nat.mul_comm]; exact Nat.mul_le_mul_right _ hlow) hpos
  have hm2 : m < 2 ^ 24 := by
    refine Nat.lt_of_mul_lt_mul_right (a := 2 ^ Nat.log2 mag) ?_
    rw [Nat.pow_succ] at hhigh
    omega
  exact ⟨m - 2 ^ 23, by omega, by rwa [Nat.add_sub_cancel' hm1], hmake⟩

/-- A magnitude in units of 2^-`unit` that fits a normal binary32 number (R160). -/
theorem f32Normal_value (neg : Bool) {unit mag : Nat} (hmag : mag ≠ 0) (hdvd : sigQuantum mag ∣ mag)
    (hlow : unit ≤ Nat.log2 mag + 126) (hhigh : Nat.log2 mag ≤ unit + 127) :
    1 ≤ f32Exp (f32Normal neg unit mag) ∧ f32Exp (f32Normal neg unit mag) ≤ 254
      ∧ f32Value (f32Normal neg unit mag) * 2 ^ unit = signed neg mag * 2 ^ 149 := by
  obtain ⟨f, hf, hsig, hmake⟩ := f32Normal_eq neg unit hmag hdvd
  have hexp : Nat.log2 mag + 127 - unit < 2 ^ 8 := by omega
  have hunits : (2 ^ 23 + f) * 2 ^ (Nat.log2 mag + 127 - unit - 1) * 2 ^ unit = mag * 2 ^ 149 :=
    calc (2 ^ 23 + f) * 2 ^ (Nat.log2 mag + 127 - unit - 1) * 2 ^ unit
      _ = (2 ^ 23 + f) * 2 ^ (Nat.log2 mag + 126) := by rw [Nat.mul_assoc, ← Nat.pow_add]; congr 2; omega
      _ = mag * 2 ^ 23 * 2 ^ 126 := by rw [Nat.pow_add, ← Nat.mul_assoc, hsig]
      _ = mag * 2 ^ 149 := by rw [Nat.mul_assoc, ← Nat.pow_add]
  rw [hmake, f32Exp_make neg f hexp, f32Value_make neg (by omega) hexp hf]
  refine ⟨by omega, by omega, ?_⟩
  have hsigned := congrArg (signed neg) hunits
  rw [signed_mul, signed_mul neg mag] at hsigned
  exact_mod_cast hsigned

end Sys2Proof.Machine
end

/-! The four conversion functions (R100, R120, R130, R150): their results in numbers. -/
section

namespace Sys2Proof.Machine

/-- The powers the units of the formats differ by, as integers; `norm_cast` would evaluate them. -/
theorem cast_two_pow (n : Nat) : ((2 ^ n : Nat) : Int) = 2 ^ n := Nat.cast_pow 2 n

/-! ### Doubleword to binary64 (R100) -/

/-- The fields of the double of a nonzero integer. -/
theorem cvtI32ToF64_fields {v : Dword} (h : v ≠ 0) :
    f64Sign (cvtI32ToF64 v) = decide (v.toInt < 0)
      ∧ 1 ≤ f64Exp (cvtI32ToF64 v) ∧ f64Exp (cvtI32ToF64 v) ≤ 2046
      ∧ f64Mag (cvtI32ToF64 v) = v.toInt.natAbs * 2 ^ 1074 := by
  have hint : v.toInt ≠ 0 := fun h0 => h (BitVec.eq_of_toInt_eq h0)
  have habs : v.toInt.natAbs ≠ 0 := Int.natAbs_ne_zero.2 hint
  have hmake : cvtI32ToF64 v = f64Make (decide (v.toInt < 0)) (1023 + Nat.log2 v.toInt.natAbs)
      ((v.toInt.natAbs - 2 ^ Nat.log2 v.toInt.natAbs) * 2 ^ (52 - Nat.log2 v.toInt.natAbs)) := if_neg hint
  have hbound : v.toInt.natAbs ≤ 2 ^ 31 := by
    have := v.le_two_mul_toInt
    have := v.two_mul_toInt_lt
    omega
  generalize v.toInt.natAbs = m at habs hmake hbound
  have hlow : 2 ^ Nat.log2 m ≤ m := Nat.log2_self_le habs
  have hhigh : m < 2 ^ (Nat.log2 m + 1) := Nat.lt_log2_self
  have hlog : Nat.log2 m ≤ 31 := (Nat.pow_le_pow_iff_right (by decide)).1 (hlow.trans hbound)
  generalize Nat.log2 m = p at hmake hlow hhigh hlog
  have hexp : 1023 + p < 2 ^ 11 := by omega
  have hpow : 2 ^ p * 2 ^ (52 - p) = 2 ^ 52 := by rw [← Nat.pow_add, Nat.add_sub_cancel' (by omega)]
  have hfrac : (m - 2 ^ p) * 2 ^ (52 - p) < 2 ^ 52 := by
    rw [← hpow]
    exact Nat.mul_lt_mul_of_pos_right (by rw [Nat.pow_succ] at hhigh; omega) (Nat.two_pow_pos _)
  rw [hmake, f64Sign_make, f64Exp_make _ _ hexp, f64Mag_make _ (by omega) hexp hfrac]
  refine ⟨rfl, by omega, by omega, ?_⟩
  calc (2 ^ 52 + (m - 2 ^ p) * 2 ^ (52 - p)) * 2 ^ (1023 + p - 1)
    _ = m * 2 ^ (52 - p) * 2 ^ (1023 + p - 1) := by rw [← hpow, ← Nat.add_mul, Nat.add_sub_cancel' hlow]
    _ = m * 2 ^ 1074 := by rw [Nat.mul_assoc, ← Nat.pow_add]; congr 2; omega

/-- Settles O13. -/
theorem integerToDoubleIsExact : Obligations.IntegerToDoubleIsExact := by
  intro v
  by_cases h : v = 0
  · rw [h, if_pos rfl]
    exact ⟨(show f64Value 0 = 0 from rfl).trans (Int.zero_mul _).symm, rfl⟩
  · obtain ⟨hsign, hexp1, hexp2, hmag⟩ := cvtI32ToF64_fields h
    rw [if_neg h]
    refine ⟨?_, hexp1, hexp2⟩
    rw [f64Value_eq_signed, hsign, hmag, signed_mul, ← toInt_eq_signed, cast_two_pow]

/-! ### Doubleword to binary32 (R120) -/

theorem peIf_signed {neg : Bool} {r mag : Nat} :
    peIf (signed neg r ≠ signed neg mag) = if r = mag then 0 else SimdFlags.pe := by
  by_cases h : r = mag
  · simp [peIf, h]
  · simp [peIf, h, signed_inj]

/-- Settles O15. -/
theorem integerToSingleRounds : Obligations.IntegerToSingleRounds := by
  intro v rc
  refine ⟨fun h => by rw [h]; rfl, fun h => ?_⟩
  have hint : v.toInt ≠ 0 := fun h0 => h (BitVec.eq_of_toInt_eq h0)
  have habs : v.toInt.natAbs ≠ 0 := Int.natAbs_ne_zero.2 hint
  have hconv : cvtI32ToF32 v rc = ⟨f32Normal (decide (v.toInt < 0)) 0 (roundSig24 rc (decide (v.toInt < 0)) v.toInt.natAbs),
      if roundSig24 rc (decide (v.toInt < 0)) v.toInt.natAbs = v.toInt.natAbs then 0 else SimdFlags.pe, false⟩ := if_neg hint
  have hbound : v.toInt.natAbs ≤ 2 ^ 31 := by
    have := v.le_two_mul_toInt
    have := v.two_mul_toInt_lt
    omega
  have hrounds := roundDiv_roundsTo rc (decide (v.toInt < 0)) v.toInt.natAbs (sigQuantum_pos v.toInt.natAbs)
  have hquanta := hrounds.sig24_eq
  have hsigned := toInt_eq_signed v
  rw [hconv]
  generalize decide (v.toInt < 0) = neg at *
  generalize v.toInt.natAbs = m at *
  obtain ⟨hlow, hhigh⟩ := roundSig24_bounds rc neg habs
  have hlog : Nat.log2 m ≤ 31 := (Nat.pow_le_pow_iff_right (by decide)).1 ((Nat.log2_self_le habs).trans hbound)
  have hlog' : Nat.log2 (roundSig24 rc neg m) ≤ 32 :=
    (Nat.pow_le_pow_iff_right (by decide)).1 (((Nat.log2_self_le (roundSig24_ne_zero rc neg habs)).trans hhigh).trans
      (Nat.pow_le_pow_right (by decide) (by omega)))
  obtain ⟨hexp1, hexp2, hvalue⟩ := f32Normal_value neg (unit := 0) (roundSig24_ne_zero rc neg habs)
    (sigQuantum_dvd_roundSig24 rc neg habs) (by omega) (by omega)
  refine ⟨_, hsigned ▸ hrounds, hexp1, hexp2, ?_, ?_, rfl⟩
  · rw [hquanta, ← hvalue, Int.pow_zero, Int.mul_one]
  · rw [hquanta, hsigned, peIf_signed]

/-! ### binary64 to doubleword (R130) -/

theorem f64IsNan_of_finite {v : Qword} (h : f64Exp v ≠ 2047) : f64IsNan v = false := by
  rw [f64IsNan, beq_false_of_ne h, Bool.false_and]

theorem f64IsInf_of_finite {v : Qword} (h : f64Exp v ≠ 2047) : f64IsInf v = false := by
  rw [f64IsInf, beq_false_of_ne h, Bool.false_and]

theorem f64IsZero_of_normal {v : Qword} (h : 1 ≤ f64Exp v) : f64IsZero v = false := by
  rw [f64IsZero, beq_false_of_ne (by omega), Bool.false_and]

theorem f64IsDenormal_of_normal {v : Qword} (h : 1 ≤ f64Exp v) : f64IsDenormal v = false := by
  rw [f64IsDenormal, beq_false_of_ne (by omega), Bool.false_and]

theorem f64Exp_of_zero_or_denormal {v : Qword} (h : f64IsZero v = true ∨ f64IsDenormal v = true) : f64Exp v = 0 := by
  rcases h with h | h
  · exact beq_iff_eq.1 (Bool.and_eq_true_iff.1 h).1
  · exact beq_iff_eq.1 (Bool.and_eq_true_iff.1 h).1

theorem f64One_pos : 0 < f64One := by
  unfold f64One
  positivity

/-- The third case of R130: a value to round. -/
theorem cvtF64ToI32_of_rounded {v : Qword} {rc : Rc} {daz : Bool} (hfinite : f64Exp v ≠ 2047)
    (hzero : f64IsZero v = false) (hdaz : ¬(f64IsDenormal v = true ∧ daz = true)) {r : Nat}
    (hr : roundDiv rc (f64Sign v) (f64Mag v) f64One = r) :
    cvtF64ToI32 v rc daz =
      if signed (f64Sign v) r > 2147483647 ∨ signed (f64Sign v) r < -2147483648 then ⟨indefinite, SimdFlags.ie, false⟩
      else ⟨BitVec.ofInt 32 (signed (f64Sign v) r), if r * f64One = f64Mag v then 0 else SimdFlags.pe, false⟩ := by
  have hflush : (f64IsDenormal v && daz) = false := by
    rw [← Bool.not_eq_true, Bool.and_eq_true]
    exact hdaz
  rw [cvtF64ToI32, f64IsNan_of_finite hfinite, f64IsInf_of_finite hfinite, hzero, hflush]
  subst hr
  rfl

/-- Settles O16. -/
theorem doubleToIntegerRounds : Obligations.DoubleToIntegerRounds := by
  intro v rc daz
  refine ⟨fun h => ?_, fun h => ?_, fun hfinite hzero hdaz => ?_⟩
  · exact if_pos (Bool.or_eq_true_iff.2 h)
  · have hexp : f64Exp v ≠ 2047 := by
      rw [f64Exp_of_zero_or_denormal (h.imp_right And.left)]
      decide
    rw [cvtF64ToI32, f64IsNan_of_finite hexp, f64IsInf_of_finite hexp, if_neg nofun, if_pos]
    rw [Bool.or_eq_true, Bool.and_eq_true]
    exact h
  · have hrounds := roundDiv_roundsTo rc (f64Sign v) (f64Mag v) f64One_pos
    rw [cvtF64ToI32_of_rounded hfinite hzero hdaz rfl]
    have hone : (f64One : Int) = 2 ^ 1074 := cast_two_pow 1074
    rw [← f64Value_eq_signed, hone] at hrounds
    refine ⟨_, hrounds, ?_⟩
    generalize roundDiv rc (f64Sign v) (f64Mag v) f64One = r
    split
    next hin =>
      rw [if_neg (by omega)]
      refine ⟨?_, ?_⟩
      · exact BitVec.toInt_ofInt_eq_self (by decide) hin.1 (by omega)
      · rw [← hone, ← signed_mul, f64Value_eq_signed, peIf_signed]
    next hout => rw [if_pos (by omega)]; rfl

end Sys2Proof.Machine
end

/-! Narrowing (R150, R164, R167, R168): the special values, and the three ranges of a rounded value. -/
section

namespace Sys2Proof.Machine

/-! ### Special values -/

/-- Settles O17. -/
theorem doubleToSingleSpecialValues : Obligations.DoubleToSingleSpecialValues := by
  intro v rc fz daz om um
  have helement {c : Conv 32} (hc : cvtF64ToF32 v rc (fz && um) daz = c) (hoe : c.flags.getLsbD 3 = false) :
      narrowElement v rc fz daz om um = c := by
    rw [narrowElement_of_not_overflow (by rw [hc]; exact hoe), hc]
  refine ⟨fun hnan => ?_, fun hinf => ?_, fun hflush => ?_⟩
  · have hconv : cvtF64ToF32 v rc (fz && um) daz = ⟨f32OfNan v, if f64IsSnan v then SimdFlags.ie else 0, false⟩ :=
      if_pos hnan
    rw [helement hconv (by dsimp only; split <;> decide)]
    refine ⟨rfl, ?_⟩
    dsimp only
    rw [f64IsSnan, hnan, Bool.true_and]
    cases v.getLsbD 51 <;> rfl
  · have hexp : f64Exp v = 2047 := beq_iff_eq.1 (Bool.and_eq_true_iff.1 hinf).1
    have hfrac : f64Frac v = 0 := beq_iff_eq.1 (Bool.and_eq_true_iff.1 hinf).2
    refine helement ?_ BitVec.getLsbD_zero
    rw [cvtF64ToF32, f64IsNan, hexp, hfrac, hinf]
    rw [f32Bits, f64Sign, BitVec.append_assoc]
    rfl
  · have hexp := f64Exp_of_zero_or_denormal (hflush.imp_right And.left)
    have hfinite : f64Exp v ≠ 2047 := by rw [hexp]; decide
    refine helement ?_ BitVec.getLsbD_zero
    rw [cvtF64ToF32, f64IsNan_of_finite hfinite, f64IsInf_of_finite hfinite]
    rcases hflush with hzero | ⟨hdenormal, hdaz⟩
    · rw [hzero]; rfl
    · rw [hdenormal, hdaz]
      cases f64IsZero v <;> rfl

/-! ### Finite nonzero values -/

theorem two_pow_le {a b : Nat} (h : a ≤ b) : 2 ^ a ≤ 2 ^ b := Nat.pow_le_pow_right (by decide) h

/-- The flags a finite nonzero value brings (R163). -/
def denormalFlag (v : Qword) : SimdFlags := if f64IsDenormal v then SimdFlags.de else 0

/-- The last case of R150: a value to round. -/
theorem cvtF64ToF32_of_finite {v : Qword} (rc : Rc) (fz : Bool) {daz : Bool} (hfinite : f64Exp v ≠ 2047)
    (hzero : f64IsZero v = false) (hdaz : ¬(f64IsDenormal v = true ∧ daz = true)) :
    cvtF64ToF32 v rc fz daz = narrowFinite rc fz (f64Sign v) (f64Mag v) (denormalFlag v) := by
  have hflush : (f64IsDenormal v && daz) = false := by
    rw [← Bool.not_eq_true, Bool.and_eq_true]
    exact hdaz
  rw [cvtF64ToF32, f64IsNan_of_finite hfinite, f64IsInf_of_finite hfinite, hzero, hflush, denormalFlag]
  simp only [Bool.false_eq_true, if_false]

theorem cvtF64ToF32_of_normal {v : Qword} (rc : Rc) (fz daz : Bool) (hfinite : f64Exp v ≠ 2047) (h : 1 ≤ f64Exp v) :
    cvtF64ToF32 v rc fz daz = narrowFinite rc fz (f64Sign v) (f64Mag v) 0 := by
  have hdenormal := f64IsDenormal_of_normal h
  rw [cvtF64ToF32_of_finite rc fz hfinite (f64IsZero_of_normal h) (by rw [hdenormal]; nofun), denormalFlag, hdenormal]
  rfl

theorem f64Mag_ne_zero {v : Qword} (h : f64IsZero v = false) : f64Mag v ≠ 0 := by
  unfold f64Mag
  split
  next hexp =>
    intro hfrac
    rw [f64IsZero, hexp, hfrac] at h
    cases h
  next => exact Nat.mul_ne_zero (by omega) (Nat.two_pow_pos _).ne'

theorem narrowFinite_of_overflow {rc : Rc} {fz neg : Bool} {mag : Nat} {f : SimdFlags}
    (h : 2 ^ 1202 ≤ roundSig24 rc neg mag) :
    narrowFinite rc fz neg mag f = ⟨f32Overflow rc neg, f ||| SimdFlags.oe ||| SimdFlags.pe, false⟩ := by
  unfold narrowFinite
  dsimp only
  rw [if_pos h]

theorem narrowFinite_of_normal {rc : Rc} {fz neg : Bool} {mag : Nat} {f : SimdFlags}
    (hlow : 2 ^ 948 ≤ roundSig24 rc neg mag) (hhigh : roundSig24 rc neg mag < 2 ^ 1202) :
    narrowFinite rc fz neg mag f = ⟨f32Normal neg 1074 (roundSig24 rc neg mag),
      if roundSig24 rc neg mag = mag then f else f ||| SimdFlags.pe, false⟩ := by
  unfold narrowFinite
  dsimp only
  rw [if_neg (Nat.not_le.2 hhigh), if_neg (Nat.not_lt.2 hlow)]

theorem narrowFinite_of_tiny {rc : Rc} {fz neg : Bool} {mag : Nat} {f : SimdFlags}
    (h : roundSig24 rc neg mag < 2 ^ 948) :
    narrowFinite rc fz neg mag f =
      if fz then ⟨f32Bits neg 0, f ||| SimdFlags.ue ||| SimdFlags.pe, true⟩
      else ⟨f32Bits neg (BitVec.ofNat 31 (roundDiv rc neg mag (2 ^ 925))),
        if roundDiv rc neg mag (2 ^ 925) * 2 ^ 925 = mag then f else f ||| SimdFlags.ue ||| SimdFlags.pe, true⟩ := by
  have hrange := two_pow_le (show 948 ≤ 1202 by decide)
  unfold narrowFinite
  dsimp only
  rw [if_neg (Nat.not_le.2 (h.trans_le hrange)), if_pos h]

end Sys2Proof.Machine
end

/-! Narrowing in its three ranges, and the round trips (R135, R150, R155, R168). -/
section

namespace Sys2Proof.Machine

/-! ### The rounded value of the statements -/

theorem le_abs_signed_iff {neg : Bool} {r k : Nat} : 2 ^ k ≤ |signed neg r| ↔ 2 ^ k ≤ r := by
  rw [abs_signed, ← cast_two_pow, Nat.cast_le]

theorem abs_signed_lt_iff {neg : Bool} {r k : Nat} : |signed neg r| < 2 ^ k ↔ r < 2 ^ k := by
  rw [abs_signed, ← cast_two_pow, Nat.cast_lt]

/-! ### Overflow (R168) -/

theorem narrowElement_of_overflow {v : Qword} {rc : Rc} {fz daz om um : Bool} {val : Dword} {f : SimdFlags}
    (hconv : cvtF64ToF32 v rc (fz && um) daz = ⟨val, f, false⟩) (hoe : f.getLsbD 3 = true) :
    narrowElement v rc fz daz om um =
      ⟨val, if om = false ∧ roundSig24 rc (f64Sign v) (f64Mag v) = f64Mag v then f &&& ~~~ SimdFlags.pe else f, false⟩ := by
  simp only [narrowElement, hconv, hoe, Bool.and_true, Bool.and_eq_true, Bool.not_eq_true', beq_iff_eq]
  split <;> rfl

/-- Settles O18. -/
theorem doubleToSingleOverflow : Obligations.DoubleToSingleOverflow := by
  intro v rc fz daz om um n hfinite hnormal hrounds hrange
  rw [f64Value_eq_signed] at hrounds
  rw [hrounds.sig24_eq, le_abs_signed_iff] at hrange
  have hconv := (cvtF64ToF32_of_normal rc (fz && um) daz hfinite hnormal).trans (narrowFinite_of_overflow hrange)
  rw [narrowElement_of_overflow hconv (by decide), hrounds.sig24_eq, f64Value_eq_signed, peIf_signed]
  refine congrArg₂ (fun val flags => (⟨val, flags, false⟩ : Conv 32)) ?_ ?_
  · rw [f64Sign]
    cases rc <;> cases v.getLsbD 63 <;> rfl
  · cases om with
    | true => rfl
    | false =>
      by_cases hexact : roundSig24 rc (f64Sign v) (f64Mag v) = f64Mag v
      · rw [if_pos ⟨rfl, hexact⟩, if_pos hexact]
        rfl
      · rw [if_neg (fun h => hexact h.2), if_neg hexact]
        rfl

/-! ### The normal range -/

theorem f32Normal_value_units (neg : Bool) {k mag : Nat} (hmag : mag ≠ 0) (hdvd : sigQuantum mag ∣ mag)
    (hlow : k + 149 ≤ Nat.log2 mag + 126) (hhigh : Nat.log2 mag ≤ k + 149 + 127) :
    f32Value (f32Normal neg (k + 149) mag) * 2 ^ k = signed neg mag := by
  obtain ⟨-, -, hvalue⟩ := f32Normal_value neg hmag hdvd hlow hhigh
  rw [pow_add, ← mul_assoc] at hvalue
  exact mul_right_cancel₀ (by positivity) hvalue

/-- Settles O19. -/
theorem doubleToSingleInRange : Obligations.DoubleToSingleInRange := by
  intro v rc fz daz om um n hfinite hnormal hrounds hlow hhigh
  rw [f64Value_eq_signed] at hrounds
  rw [hrounds.sig24_eq, le_abs_signed_iff] at hlow
  rw [hrounds.sig24_eq, abs_signed_lt_iff] at hhigh
  have hmag := f64Mag_ne_zero (f64IsZero_of_normal hnormal)
  have hr := roundSig24_ne_zero rc (f64Sign v) hmag
  have hdvd := sigQuantum_dvd_roundSig24 rc (f64Sign v) hmag
  have hlog1 := (Nat.le_log2 hr).2 hlow
  have hlog2 := (Nat.log2_lt hr).2 hhigh
  have hconv := (cvtF64ToF32_of_normal rc (fz && um) daz hfinite hnormal).trans (narrowFinite_of_normal hlow hhigh)
  rw [narrowElement_of_not_overflow (by rw [hconv]; dsimp only; split <;> decide), hconv, hrounds.sig24_eq,
    f64Value_eq_signed, peIf_signed]
  obtain ⟨-, hexp, -⟩ := f32Normal_value (f64Sign v) (unit := 1074) hr hdvd (by omega) (by omega)
  refine ⟨?_, f32Normal_value_units (f64Sign v) (k := 925) hr hdvd (by omega) (by omega), ?_, rfl⟩
  · exact (hexp.trans_lt (by decide)).ne
  · rfl

/-! ### Tiny results -/

/-- A magnitude that rounds below a power of two is below it, and so is its quotient. -/
theorem lt_of_roundSig24_lt {rc : Rc} {neg : Bool} {mag k : Nat} (hmag : mag ≠ 0) (h : roundSig24 rc neg mag < 2 ^ k) :
    mag < 2 ^ k := by
  refine (Nat.log2_lt hmag).1 ((Nat.pow_lt_pow_iff_right (a := 2) (by decide)).1 ?_)
  exact (roundSig24_bounds rc neg hmag).1.trans_lt h

theorem roundDiv_le_of_lt {rc : Rc} {neg : Bool} {mag a b c : Nat} (hc : c = a + b) (h : mag < 2 ^ c) :
    roundDiv rc neg mag (2 ^ a) ≤ 2 ^ b := by
  subst hc
  have hdiv : mag / 2 ^ a < 2 ^ b := Nat.div_lt_of_lt_mul (by rwa [← Nat.pow_add])
  have hor := roundDiv_eq_or rc neg mag (2 ^ a)
  omega

/-- Settles O20. -/
theorem doubleToSingleTiny : Obligations.DoubleToSingleTiny := by
  intro v rc fz daz om um n hfinite hzero hdaz hrounds hrange
  rw [f64Value_eq_signed] at hrounds
  rw [hrounds.sig24_eq, abs_signed_lt_iff] at hrange
  have hmag := f64Mag_ne_zero hzero
  have hd : roundDiv rc (f64Sign v) (f64Mag v) (2 ^ 925) ≤ 2 ^ 23 :=
    roundDiv_le_of_lt rfl (lt_of_roundSig24_lt hmag hrange)
  have hconv := (cvtF64ToF32_of_finite rc (fz && um) hfinite hzero hdaz).trans (narrowFinite_of_tiny hrange)
  have hdenormal : denormalFlag v = 0 ∨ denormalFlag v = .de := by unfold denormalFlag; split <;> simp
  have hoe : (cvtF64ToF32 v rc (fz && um) daz).flags.getLsbD 3 = false := by
    rw [hconv]
    split
    · dsimp only
      rcases hdenormal with h | h <;> rw [h] <;> decide
    · dsimp only
      split <;> rcases hdenormal with h | h <;> rw [h] <;> decide
  rw [narrowElement_of_not_overflow hoe, hconv]
  cases hflush : fz && um with
  | true =>
    rw [if_pos rfl]
    obtain ⟨rfl, rfl⟩ := Bool.and_eq_true_iff.1 hflush
    exact ⟨rfl, f32Bits_sign _ _, fun _ => ⟨f32Bits_low _ _, rfl⟩, by simp⟩
  | false =>
    have hquotient := roundDiv_roundsTo rc (f64Sign v) (f64Mag v) (den := 2 ^ 925) (by positivity)
    rw [cast_two_pow] at hquotient
    rw [if_neg nofun]
    refine ⟨rfl, f32Bits_sign _ _, fun h => ?_, fun _ => ⟨_, hquotient, f32Value_bits _ hd, ?_⟩⟩
    · rw [h.1, h.2] at hflush
      cases hflush
    · have hexact : signed (f64Sign v) (roundDiv rc (f64Sign v) (f64Mag v) (2 ^ 925)) * 2 ^ 925 = f64Value v
          ↔ roundDiv rc (f64Sign v) (f64Mag v) (2 ^ 925) * 2 ^ 925 = f64Mag v := by
        rw [← cast_two_pow, ← signed_mul, f64Value_eq_signed, signed_inj]
      simp only [hexact]
      split
      · exact BitVec.or_zero.symm
      · exact BitVec.or_assoc ..

/-! ### Round trips (R135, R155) -/

/-- A doubleword's double converts back exactly. -/
theorem cvtF64ToI32_cvtI32ToF64 (v : Dword) (rc : Rc) (daz : Bool) :
    cvtF64ToI32 (cvtI32ToF64 v) rc daz = ⟨v, 0, false⟩ := by
  by_cases h : v = 0
  · rw [h]
    rfl
  · obtain ⟨hsign, hexp1, hexp2, hmag⟩ := cvtI32ToF64_fields h
    have hexact : roundDiv rc (f64Sign (cvtI32ToF64 v)) (f64Mag (cvtI32ToF64 v)) f64One = v.toInt.natAbs := by
      rw [hmag, ← f64One, roundDiv_of_dvd (Nat.dvd_mul_left _ _), Nat.mul_div_cancel _ f64One_pos]
    have hlow := v.le_two_mul_toInt
    have hhigh := v.two_mul_toInt_lt
    rw [cvtF64ToI32_of_rounded (by omega) (f64IsZero_of_normal hexp1)
      (by rw [f64IsDenormal_of_normal hexp1]; nofun) hexact, hsign, ← toInt_eq_signed, if_neg (by omega), hmag, ← f64One,
      if_pos rfl, BitVec.ofInt_toInt]

theorem f32Frac_lt (v : Dword) : f32Frac v < 2 ^ 23 := BitVec.isLt _

/-- The fields of a normal single widened. -/
theorem widenNormal_fields {v : Dword} (h1 : 1 ≤ f32Exp v) (h2 : f32Exp v ≤ 254) :
    f64Sign (widenNormal v) = v.getLsbD 31 ∧ f64Exp (widenNormal v) = f32Exp v + 896
      ∧ f64Mag (widenNormal v) = (2 ^ 23 + f32Frac v) * 2 ^ (f32Exp v + 924) := by
  have hfrac := f32Frac_lt v
  have hexp : f32Exp v + 896 < 2 ^ 11 := by omega
  refine ⟨f64Sign_make _ _ _, f64Exp_make _ _ hexp, ?_⟩
  rw [widenNormal, f64Mag_make _ (by omega) hexp (by omega)]
  have hsig : 2 ^ 52 + f32Frac v * 2 ^ 29 = (2 ^ 23 + f32Frac v) * 2 ^ 29 := by omega
  rw [hsig, Nat.mul_assoc, ← Nat.pow_add, show 29 + (f32Exp v + 896 - 1) = f32Exp v + 924 by omega]

theorem log2_significand {f k : Nat} (hf : f < 2 ^ 23) : Nat.log2 ((2 ^ 23 + f) * 2 ^ k) = k + 23 := by
  refine (Nat.log2_eq_iff (Nat.mul_ne_zero (by omega) (Nat.two_pow_pos k).ne')).2 ⟨?_, ?_⟩
  · rw [Nat.pow_add, Nat.mul_comm]
    exact Nat.mul_le_mul_right _ (by omega)
  · rw [Nat.add_assoc, Nat.pow_add, Nat.mul_comm]
    exact Nat.mul_lt_mul_of_pos_left (by omega) (Nat.two_pow_pos k)

/-- A normal single's magnitude is its own rounding, and encodes to the single. -/
theorem narrowFinite_significand {rc : Rc} {fz neg : Bool} {e f : Nat} (h1 : 1 ≤ e) (h2 : e ≤ 254) (hf : f < 2 ^ 23) :
    narrowFinite rc fz neg ((2 ^ 23 + f) * 2 ^ (e + 924)) 0 = ⟨f32Make neg e f, 0, false⟩ := by
  have hmag : (2 ^ 23 + f) * 2 ^ (e + 924) ≠ 0 := Nat.mul_ne_zero (by omega) (Nat.two_pow_pos _).ne'
  have hlog : Nat.log2 ((2 ^ 23 + f) * 2 ^ (e + 924)) = e + 924 + 23 := log2_significand hf
  have hdvd : sigQuantum ((2 ^ 23 + f) * 2 ^ (e + 924)) ∣ (2 ^ 23 + f) * 2 ^ (e + 924) := by
    rw [sigQuantum, hlog, Nat.add_sub_cancel]
    exact Nat.dvd_mul_left _ _
  have hround := roundSig24_of_dvd (rc := rc) (neg := neg) hdvd
  obtain ⟨f', -, hsig, hmake⟩ := f32Normal_eq neg 1074 hmag hdvd
  have hfrac : f' = f := by
    rw [hlog, Nat.pow_add, ← Nat.mul_assoc] at hsig
    have hcancel := Nat.eq_of_mul_eq_mul_right (Nat.two_pow_pos 23) hsig
    have := Nat.eq_of_mul_eq_mul_right (Nat.two_pow_pos _) hcancel
    omega
  have hlow := (Nat.le_log2 (k := 948) hmag).1 (by omega)
  have hhigh := (Nat.log2_lt (k := 1202) hmag).1 (by omega)
  have hnormal := narrowFinite_of_normal (fz := fz) (f := 0) (hlow.trans_eq hround.symm) (hround.trans_lt hhigh)
  rw [hround, if_pos rfl] at hnormal
  rw [hnormal, hmake, hfrac, hlog,
    show e + 924 + 23 + 127 - 1074 = e by omega]

/-- Settles O21. -/
theorem conversionsRoundTrip : Obligations.ConversionsRoundTrip := by
  refine ⟨cvtF64ToI32_cvtI32ToF64, fun v rc fz daz om um h1 h2 => ?_⟩
  obtain ⟨hsign, hexp, hmag⟩ := widenNormal_fields h1 h2
  refine ⟨?_, ?_⟩
  · have hunits : 2 ^ (f32Exp v + 924) = 2 ^ (f32Exp v - 1) * 2 ^ 925 := by
      rw [← Nat.pow_add, show f32Exp v - 1 + 925 = f32Exp v + 924 by omega]
    rw [f64Value_eq_signed, hsign, hmag, hunits, ← Nat.mul_assoc, signed_mul, ← f32Value_of_normal h1, cast_two_pow]
  · have hconv : cvtF64ToF32 (widenNormal v) rc (fz && um) daz = ⟨v, 0, false⟩ := by
      rw [cvtF64ToF32_of_normal rc _ daz (by omega) (by omega), hsign, hmag,
        narrowFinite_significand h1 h2 (f32Frac_lt v), f32Make_fields]
    rw [narrowElement_of_not_overflow (by rw [hconv]; exact BitVec.getLsbD_zero), hconv]

end Sys2Proof.Machine
end
